-- ==== Sys2Proof/Word.lean ====
section
/-!
DEFINITION. Words and bytes: the plainest arithmetic on them. Numbers are unsigned (`Nat`) where the manual's
pseudocode works on a field of some width; `bits`, `rotl32` and the little-endian readers are those of R3, R4
and R13.
-/
namespace Sys2Proof

/-- One byte. -/
abbrev Byte := BitVec 8

/-- The field x[m:l] read as an unsigned value (R13). -/
def bits (x m l : Nat) : Nat := (x >>> l) % 2 ^ (m - l + 1)

/-- Bit `i` of `x`. -/
def bit (x i : Nat) : Bool := x.testBit i

/-- A truth value as a bit. -/
def b2n (b : Bool) : Nat := if b then 1 else 0

/-- Field `v` of `w` bits placed at bit `l` of `x` (the old field is replaced). -/
def setBits (x l w v : Nat) : Nat :=
  x - (((x >>> l) % 2 ^ w) <<< l) + ((v % 2 ^ w) <<< l)

/-- Rotation to the left within 32 bits (R13). -/
def rotl32 (x n : Nat) : Nat := ((x <<< n) ||| (x >>> (32 - n))) % 2 ^ 32

/-- The number that a list of bytes spells, least significant byte first (R4). -/
def ofBytes : List Byte → Nat
  | [] => 0
  | b :: bs => b.toNat + 256 * ofBytes bs

/-- The `n` bytes of `x`, least significant first (R4). -/
def toBytes : Nat → Nat → List Byte
  | 0, _ => []
  | n + 1, x => BitVec.ofNat 8 x :: toBytes n (x / 256)

/-- `n` zero bytes. -/
def zeroBytes (n : Nat) : List Byte := List.replicate n 0#8

/-- Bytes o to o + n - 1 of a record, as a number; bytes past its end count as zero. -/
def field (r : List Byte) (o n : Nat) : Nat := ofBytes ((r.drop o).take n)

/-- Two's complement: `w` bits of `x` read as a signed number. -/
def toSigned (w x : Nat) : Int := if x % 2 ^ w < 2 ^ (w - 1) then (x % 2 ^ w : Nat) else ((x % 2 ^ w : Nat) : Int) - 2 ^ w

/-- A signed number as `w` bits in two's complement. -/
def ofSigned (w : Nat) (x : Int) : Nat := (x % (2 ^ w : Int)).toNat

/-- Addition that saturates at the largest value of `w` bits. -/
def satAdd (w a b : Nat) : Nat := min (a + b) (2 ^ w - 1)

/-- `⌈a ÷ b⌉`. -/
def ceilDiv (a b : Nat) : Nat := (a + b - 1) / b

end Sys2Proof
end

