-- ==== Sys2Proof/Syntax.lean ====
section
/-!
DEFINITION. The commands of the block: one constructor of `Instr` for each row of spec/opcode_table.json, with what the
command brings with it (an address, data, a response). What memory returns to a read of the block is an operand of the
command that brings it, as an `Image`.
-/
namespace Sys2Proof

/-- A stretch of memory that the surroundings hold: its first byte address and its bytes. -/
structure ImgSeg where
  base : Nat
  bytes : List Byte
deriving DecidableEq, Repr

/-- Memory as a command shows it: the first stretch that holds an address gives its byte. -/
abbrev Image := List ImgSeg

/-- The response to a read or a write on MP0-MP7: OKAY, an AXI5 error, or poisoned data (R642, R747). -/
inductive Resp where
  | okay
  | error
  | poison
deriving DecidableEq, Repr

/-- A beat on an accumulator-stream port: TDATA, TKEEP, TUSER (R754). -/
structure Beat where
  data : List Byte
  keep : Nat
  user : Nat
deriving DecidableEq, Repr

/-- A flit as a receiver sees it (R543); the row of the table gives its KIND. `cd`: it arrived on CD; `lane`: the rx lane (R767). -/
structure Flit where
  cd : Bool
  lane : Nat
  last : Bool
  attempt : Nat
  chainId : Nat
  src : Nat
  destId : Nat
  lseq : Nat
  offset : Nat
  payload : List Byte
deriving DecidableEq, Repr

/-- An rx lane of the causeway: `cd`: of the CD port; its number (R767). -/
structure RxLane where
  cd : Bool
  lane : Nat
deriving DecidableEq, Repr

/-- What a cluster has done with a descriptor up to a fill's end (R166, R167): the scale filled, the blocks (row, chunk) that it has
passed over since the last one, and the memory that the descriptor reads. -/
structure CbFill where
  scale : Nat
  passed : List (Nat × Nat)
  mem : Image
deriving DecidableEq, Repr

/-- A burst on the store window (R750): port, byte offset, length in bytes, whether it is INCR, whether it is atomic. -/
structure WinReq where
  port : Nat
  off : Nat
  len : Nat
  incr : Bool
  atomic : Bool
deriving DecidableEq, Repr

/-- A segment total or state on its way to a row context (R259), FP32 bits. -/
inductive SegVal where
  | empty
  | num (v : Nat)
  | st (s m : Nat)
  | vst (n mu m2 : Nat)
deriving DecidableEq, Repr

/-- What an assay finds in one cluster (R656 to R659): lanes in error, or a part that its lanes share. -/
structure AssayRes where
  cluster : Nat
  lanes : List Nat
  shared : Bool
deriving DecidableEq, Repr

/-- What a start step brings with its end (R681): the calibration of S4, the assays of S3, the banks that S2 found bad,
the memory that S6 scans, and whether a memory copy of the start record can be written. -/
structure StepInfo where
  drops : List Nat
  assays : List AssayRes
  badBanks : List (Nat × Nat)
  mem : Image
deriving DecidableEq, Repr

/-- An error as its detector names it (R642). `replayOnly`: the granule holds stream data, parked totals or row states
(R643). `mem`: the journal and the head records, where a scan follows. -/
structure Finding where
  source : Nat
  unit : Nat
  seq : Nat
  detail : Nat
  addr : Nat
  replayOnly : Bool
  mem : Image
deriving DecidableEq, Repr

/-- The commands. A `seq` names a descriptor by its waymark sequence number, or a group by that of its first member. -/
inductive Instr where
  -- setup port and settings
  | setupWrite (off data strb : Nat)
  | snapshotRead (off : Nat)
  | setupAccess (write : Bool) (off data : Nat)
  | commitPad
  | pendingSetApply
  | sealCtlWrite (data : Nat)
  | drawApply
  | geomApply
  | sealChangeApply (field : Nat)
  | ringEnable (ring data : Nat)
  | ringDisable (ring data : Nat)
  | routeInv (data : Nat)
  | fenceReq (data : Nat)
  | assayForce (data : Nat)
  | go (data : Nat)
  | rerun (data : Nat)
  | dbgDataRead
  -- taking
  | bell (req : WinReq) (word strb : Nat)
  | headRecordData (ring : Nat) (resp : Resp) (data : List Byte)
  | descriptorData (ring : Nat) (resp : Resp) (data : List Byte)
  | waymarkWrite (ring : Nat)
  | readyRecheck (ring : Nat)
  | notReadyTimeout (ring : Nat)
  | waybookWriteResponse (rnum : Nat) (resp : Resp) (mem : Image)
  | milepostWriteResponse (seq : Nat) (resp : Resp) (mem : Image)
  -- groups
  | groupIssue (seq : Nat) (mem : Image)
  | shapeWordRead (seq : Nat) (mem : Image)
  | valueTableRead (seq which : Nat) (mem : Image)
  | paramRecordRead (seq : Nat) (mem : Image)
  | drainPoint (seq : Nat)
  | outputWritesComplete (seq : Nat)
  | memReadError (seq port addr : Nat) (poisoned : Bool)
  | memWriteError (seq port addr : Nat)
  -- operations
  | fence (seq : Nat)
  | mark (seq : Nat)
  | capture (seq : Nat)
  | convert (seq : Nat) (mem : Image)
  | affine (seq : Nat) (mem : Image)
  | func (seq : Nat) (mem : Image)
  | gate (seq : Nat) (mem : Image)
  | clamp (seq : Nat) (mem : Image)
  | rmsn (seq : Nat) (mem : Image)
  | smax (seq : Nat) (mem : Image)
  | lsmax (seq : Nat) (mem : Image)
  | rowred (seq : Nat) (mem : Image)
  | rowstat (seq : Nat) (mem : Image)
  | scan (seq : Nat) (mem : Image)
  | mcombine (seq : Nat) (mem : Image)
  | chain (seq : Nat) (mem : Image)
  | halo (seq : Nat) (mem : Image)
  | upd (seq : Nat) (mem : Image)
  | loadIngot (seq : Nat)
  | ingotPinsReleased (seq : Nat) (resp : Resp) (hdr : List Byte)
  | ingotLoadDone (seq : Nat) (resp : Resp) (payload : List Byte)
  | switch (seq : Nat)
  | peek (seq : Nat)
  -- lanes and streams
  | codebookFillDone (cluster seq : Nat) (fill : CbFill)
  | segmentTotalArrive (seq row seg : Nat) (v : SegVal)
  | bandDrainDone (cluster : Nat)
  | asBeat (port : Nat) (beat : Beat)
  | strayWaitExpire (port : Nat)
  | arriveLimitExpire (seq : Nat)
  -- store window
  | tollRequest (req : WinReq)
  | tollGrantReported
  | tollSet (req : WinReq) (data strb : Nat)
  | windowWrite (req : WinReq) (data : List Byte) (strb : List Bool)
  | windowRead (req : WinReq)
  -- causeway: a flit, and the routing table as memory shows it at this moment
  | cwGrant (f : Flit) (mem : Image)
  | ack (f : Flit) (mem : Image)
  | run (f : Flit) (mem : Image)
  | offset (f : Flit) (mem : Image)
  | segtot (f : Flit) (mem : Image)
  | total (f : Flit) (mem : Image)
  | haloMessage (f : Flit) (mem : Image)
  | sign (f : Flit) (mem : Image)
  | pub (f : Flit) (mem : Image)
  | abort (f : Flit) (mem : Image)
  | mirror (f : Flit) (mem : Image)
  | parity (f : Flit) (mem : Image)
  | mirrorDone (f : Flit) (mem : Image)
  | waybook (f : Flit) (mem : Image)
  | waybookDone (f : Flit) (mem : Image)
  | sync (f : Flit) (mem : Image)
  | ackTimeout (peer : Nat)
  | exchTimeout (chainId : Nat)
  | mirrorTimeout (seq : Nat)
  | mirrorLost
  | txCredit (cd : Bool) (lane : Nat)
  -- journal, incidents, assay
  | checkpoint
  | incidentDetect (f : Finding)
  | recoveryEnd (mem : Image)
  | scrub (word bits : Nat)
  | assayStart
  | assayComplete (r : AssayRes) (drawOk : Bool)
  -- reset and start
  | resetAssert (cold : Bool)
  | coldResetRelease
  | warmResetRelease (badRecord : Option Nat)
  | startStepDone (step : Nat) (pass : Bool) (info : StepInfo)
  | startStepTimeout (step : Nat)
  | asCheckPattern (port : Nat) (beat : Beat)
  -- governor and clocks
  | demandUpdate
  | forecastStart
  | levelStep
  | holdExpire
  | pgGrant (level token : Nat)
  | throttle (level : Nat)
  | railGood (level : Nat)
  | pgReservedWord (word : Nat)
  | pgWordTruncated
  | pgLost
  | droopStretch
  | stretchEnd
  | recalWindow
  | recalComplete (drop : Nat)
  | clusterClockGated (domain : Nat)
  -- responses and failures on the causeway
  | flitCrcFailure (lane : RxLane) (peer : Nat) (mem : Image)
  | mirrorWriteResponse (src seq : Nat)
  | waybookWindowWriteResponse (src : Nat)
deriving DecidableEq, Repr

end Sys2Proof
end

