-- ==== Sys2Proof/Decode.lean ====
section
/-!
DEFINITION. The commands that spec/opcode_table.json spells by bits. No row of the table gives a bit: a command of this
block is an event, and no word stands for it.
-/
namespace Sys2Proof

/-- The command that a word spells: none, for every word. -/
def decodeTableWord (_nbits _w : Nat) : Option Instr := none

end Sys2Proof
end

