-- ==== Sys2Proof/Config.lean ====
section
/-!
DEFINITION. What the manual leaves to the part, to the moment or to nobody: constants without a body, so that no proof
can see a value of them. Each is named in the assumption log.
-/
namespace Sys2Proof.Config

/-- Word `w` (0 to 9) of segment record `seg` of the ROM image of `slot`: R198 and R200 give only its CRC. -/
opaque romWord (slot seg w : Nat) : BitVec 32

/-- Edge rule words of the ROM image of `slot`: 0 LOW_C0, 1 LOW_C1, 2 HIGH_C0, 3 HIGH_C1, 4 NHIGH_C0, 5 NHIGH_C1. -/
opaque romEdge (slot w : Nat) : BitVec 32

/-- Header bytes of a ROM image of slots 0 to 2 for which R198 prints a dash: 4 SEG_BITS, 6 E_LO, 7 E_HI. -/
opaque romByte (slot byte : Nat) : BitVec 8

/-- Raldon's ROM key for KEY_SEL 0 (R201). -/
opaque romKey : BitVec 256

/-- DX_ASSAY_STAT.TOUCH_ID: CRC-32 over the touchstone ROM (R665), whose contents the manual does not give. -/
opaque touchId : BitVec 32

/-- The count of CK_G cycles at the n-th moment that the block samples it (R359, R662, R690): time is not modelled. -/
opaque freeTime (n : Nat) : BitVec 64

/-- The n-th byte that a read of a working granule held by a group returns (R273, R458, R484, R593). -/
opaque freeByte (n : Nat) : BitVec 8

/-- A byte of staging that nothing has written, as the read numbered `era` finds it at an address (R677). -/
opaque stageByte (era addr : Nat) : BitVec 8

/-- A lookup that R194 gives no index for: a function slot in mode FRAC24 or NEAR1. FP32 bits. -/
opaque freeLookup (slot x : Nat) : BitVec 32

/-- The refined result (R147, R148) of recip 0, sqrt 1 or rsqrt 2 in `k` passes whose pass-1 field is `z`, where the FP32
form of the argument is zero or infinite and its exact image is neither. -/
opaque freeRefined (op k z : Nat) : BitVec 64

/-- The governor's demand for the issued work (R713 names what it depends on and gives no formula). -/
opaque freeDemand (n : Nat) : BitVec 4

/-- The value of a packed reading whose encoding the manual leaves open, at the n-th sample. -/
opaque freeWord (n : Nat) : BitVec 64

end Sys2Proof.Config
end

