-- ==== Sys2Proof/Machine/Num.lean ====
section
/-!
DEFINITION. Exact numbers and the one place where numbers are rounded. A value is a signed dyadic number or a
special; sums and products are exact; quotients and square roots keep more bits than any rounding reads, with a
sticky bit below them (R85, R131). Rounding turns a magnitude into steps of a grid and a remainder (R93, R116).
-/
namespace Sys2Proof.Machine

/-- A NaN, an infinity, or (−1)^neg · m · 2^e; m = 0 is a zero that keeps its sign (R49, R52). -/
inductive Fv where
  | nan
  | inf (neg : Bool)
  | fin (neg : Bool) (m : Nat) (e : Int)
deriving DecidableEq, Repr

namespace Num

/-- `v ÷ 2^n` rounded to nearest, ties to even (R130). -/
def rsh (v : Int) (n : Nat) : Int :=
  if n = 0 then v else
  let q := v / (2 ^ n : Int)
  let r := v - q * 2 ^ n
  let h : Int := 2 ^ (n - 1)
  if r > h ∨ (r = h ∧ q % 2 ≠ 0) then q + 1 else q

/-- A magnitude as whole steps of a grid, the remainder and the width of the remainder. -/
structure Steps where
  n : Nat
  rem : Nat
  sh : Nat
deriving DecidableEq, Repr

/-- m·2^e in steps of 2^q (R116: N steps plus a fraction). -/
def steps (m : Nat) (e q : Int) : Steps :=
  if q ≤ e then ⟨m <<< (e - q).toNat, 0, 0⟩
  else let sh := (q - e).toNat; ⟨m >>> sh, m % 2 ^ sh, sh⟩

/-- How a magnitude is rounded: to nearest with ties to even, toward zero, or stochastically with b random bits r. -/
inductive Mode where
  | rne
  | rz
  | sr (b r : Nat)
deriving DecidableEq, Repr

/-- Does the step count go up by one (R93, R116)? -/
def Steps.up (s : Steps) : Mode → Bool
  | .rne => decide (2 * s.rem > 2 ^ s.sh) || (s.sh != 0 && 2 * s.rem == 2 ^ s.sh && s.n % 2 == 1)
  | .rz => false
  | .sr b r => decide (r < (s.rem * 2 ^ b) / 2 ^ s.sh)

/-- The rounded step count. -/
def Steps.round (s : Steps) (md : Mode) : Nat := s.n + b2n (s.up md)

/-- floor(log2(m·2^e)) for m > 0. -/
def flog2 (m : Nat) (e : Int) : Int := (Nat.log2 m : Int) + e

/-- The exponent of one grid step of a format with p significant bits and least normal exponent emin. -/
def gridExp (p : Nat) (emin : Int) (m : Nat) (e : Int) : Int := max (flog2 m e) emin - (p - 1 : Nat)

/-- Integer square root by bits: `fuel` bits of the result below `r`. -/
def isqrtGo (x : Nat) : Nat → Nat → Nat
  | 0, r => r
  | k + 1, r => let t := r + 2 ^ k; isqrtGo x k (if t * t ≤ x then t else r)

/-- Floor of the square root. -/
def isqrt (x : Nat) : Nat := isqrtGo x (Nat.log2 x / 2 + 1) 0

end Num

namespace Fv
open Sys2Proof.Machine.Num

/-- +0. -/
abbrev zero : Fv := .fin false 0 0

/-- 1. -/
abbrev one : Fv := .fin false 1 0

/-- The zero of a sign. -/
def zeroS (neg : Bool) : Fv := .fin neg 0 0

/-- An integer. -/
def ofInt (x : Int) : Fv := .fin (decide (x < 0)) x.natAbs 0

/-- A natural number. -/
def ofNat (x : Nat) : Fv := .fin false x 0

def isNan : Fv → Bool
  | .nan => true
  | _ => false

def isInf : Fv → Bool
  | .inf _ => true
  | _ => false

def isZero : Fv → Bool
  | .fin _ 0 _ => true
  | _ => false

/-- Finite and not zero. -/
def isFinNz : Fv → Bool
  | .fin _ m _ => m != 0
  | _ => false

def isFin : Fv → Bool
  | .fin _ _ _ => true
  | _ => false

/-- The sign bit (a NaN has none: R49). -/
def sign : Fv → Bool
  | .nan => false
  | .inf s => s
  | .fin s _ _ => s

def neg : Fv → Fv
  | .nan => .nan
  | .inf s => .inf (!s)
  | .fin s m e => .fin (!s) m e

def abs : Fv → Fv
  | .nan => .nan
  | .inf _ => .inf false
  | .fin _ m e => .fin false m e

/-- The value with the sign turned where `s` is set. -/
def negIf (s : Bool) (x : Fv) : Fv := if s then x.neg else x

/-- Multiplication by 2^k, exact. -/
def scale (k : Int) : Fv → Fv
  | .nan => .nan
  | .inf s => .inf s
  | .fin s m e => if m = 0 then .fin s 0 0 else .fin s m (e + k)

/-- The signed mantissa at exponent q ≤ e. -/
def sig (s : Bool) (m : Nat) (e q : Int) : Int :=
  let a : Int := (m <<< (e - q).toNat : Nat)
  if s then -a else a

/-- The exact sum; the sign of an exact zero is that of round to nearest (R52). -/
def add : Fv → Fv → Fv
  | .nan, _ => .nan
  | _, .nan => .nan
  | .inf s, .inf t => if s = t then .inf s else .nan
  | .inf s, .fin _ _ _ => .inf s
  | .fin _ _ _, .inf t => .inf t
  | .fin s m e, .fin t n f =>
    if m = 0 ∧ n = 0 then .fin (s && t) 0 0
    else if m = 0 then .fin t n f
    else if n = 0 then .fin s m e
    else
      let q := min e f
      let r := sig s m e q + sig t n f q
      if r = 0 then .fin false 0 0 else .fin (decide (r < 0)) r.natAbs q

def sub (a b : Fv) : Fv := add a b.neg

/-- The exact product. -/
def mul : Fv → Fv → Fv
  | .nan, _ => .nan
  | _, .nan => .nan
  | .inf s, .inf t => .inf (s != t)
  | .inf s, .fin t m _ => if m = 0 then .nan else .inf (s != t)
  | .fin s m _, .inf t => if m = 0 then .nan else .inf (s != t)
  | .fin s m e, .fin t n f => if m = 0 ∨ n = 0 then .fin (s != t) 0 0 else .fin (s != t) (m * n) (e + f)

/-- The quotient to at least 70 bits, with a sticky bit below them. -/
def div : Fv → Fv → Fv
  | .nan, _ => .nan
  | _, .nan => .nan
  | .inf _, .inf _ => .nan
  | .inf s, .fin t _ _ => .inf (s != t)
  | .fin s _ _, .inf t => .fin (s != t) 0 0
  | .fin s m e, .fin t n f =>
    if n = 0 then (if m = 0 then .nan else .inf (s != t))
    else if m = 0 then .fin (s != t) 0 0
    else
      let k := 70 + Nat.log2 n - Nat.log2 m
      let a := m <<< k
      .fin (s != t) (2 * (a / n) + b2n (a % n != 0)) (e - f - k - 1)

/-- The square root to at least 70 bits with a sticky bit below them; √−0 is −0, a negative number gives NaN. -/
def sqrt : Fv → Fv
  | .nan => .nan
  | .inf s => if s then .nan else .inf false
  | .fin s m e =>
    if m = 0 then .fin s 0 0
    else if s then .nan
    else
      let k := 142 - Nat.log2 m
      let k := if (e - (k : Int)) % 2 = 0 then k else k + 1
      let a := m <<< k
      let r := isqrt a
      .fin false (2 * r + b2n (r * r != a)) ((e - k) / 2 - 1)

/-- The exact order of two numbers that are no NaN; zeros of both signs are equal. -/
def cmpVal (a b : Fv) : Ordering :=
  match a, b with
  | .inf s, .inf t => if s = t then .eq else if s then .lt else .gt
  | .inf s, _ => if s then .lt else .gt
  | _, .inf t => if t then .gt else .lt
  | .fin s m e, .fin t n f =>
    let q := if m = 0 then f else if n = 0 then e else min e f
    let x := if m = 0 then 0 else sig s m e q
    let y := if n = 0 then 0 else sig t n f q
    if x < y then .lt else if x = y then .eq else .gt
  | _, _ => .eq

/-- IEEE 754-2019 "less than": false where an operand is a NaN. -/
def lt (a b : Fv) : Bool := !a.isNan && !b.isNan && cmpVal a b == .lt

/-- IEEE 754-2019 "less than or equal". -/
def le (a b : Fv) : Bool := !a.isNan && !b.isNan && cmpVal a b != .gt

/-- IEEE 754-2019 "equal": −0 equals +0. -/
def eqv (a b : Fv) : Bool := !a.isNan && !b.isNan && cmpVal a b == .eq

/-- The larger of two, −0 below +0 (R308); a NaN wins. -/
def maxT (a b : Fv) : Fv :=
  if a.isNan || b.isNan then .nan
  else match cmpVal a b with
    | .lt => b
    | .gt => a
    | .eq => if a.sign then b else a

/-- The smaller of two, −0 below +0; a NaN wins. -/
def minT (a b : Fv) : Fv :=
  if a.isNan || b.isNan then .nan
  else match cmpVal a b with
    | .lt => a
    | .gt => b
    | .eq => if a.sign then a else b

/-- Rounding to p significant bits with exponents from emin to emax; beyond them an infinity (R12). -/
def roundTo (p : Nat) (emin emax : Int) (md : Mode) : Fv → Fv
  | .fin s m e =>
    if m = 0 then .fin s 0 0
    else
      let q := gridExp p emin m e
      let n := (steps m e q).round md
      if n = 0 then .fin s 0 0
      else if flog2 n q > emax then .inf s
      else .fin s n q
  | x => x

/-- Rounding to p significant bits, exponents unbounded (the pairs of R148). -/
def roundU (p : Nat) : Fv → Fv
  | .fin s m e =>
    if m = 0 then .fin s 0 0
    else let q := flog2 m e - (p - 1 : Nat); .fin s ((steps m e q).round .rne) q
  | x => x

/-- Round to nearest FP32. -/
def rne32 : Fv → Fv := roundTo 24 (-126) 127 .rne

/-- Round toward zero to FP32 (R559). -/
def rz32 : Fv → Fv := roundTo 24 (-126) 127 .rz

/-- The 48-bit unrounded form: truncated, the sticky bit kept below the last bit (R85, R131). -/
def trunc48 : Fv → Fv
  | .fin s m e =>
    let n := Nat.log2 m + 1
    if n ≤ 48 then .fin s m e
    else let sh := n - 48; .fin s (2 * (m >>> sh) + b2n (m % 2 ^ sh != 0)) (e + sh - 1)
  | x => x

/-- floor(log2 |x|) of a finite nonzero value. -/
def expo : Fv → Int
  | .fin _ m e => flog2 m e
  | _ => 0

/-- Read a code with `ew` exponent bits and `mw` fraction bits by IEEE 754 (infinities and NaNs in the top exponent). -/
def ofIeee (ew mw c : Nat) : Fv :=
  let s := bit c (ew + mw)
  let ef := bits c (ew + mw - 1) mw
  let f := c % 2 ^ mw
  let bias : Int := 2 ^ (ew - 1) - 1
  if ef = 2 ^ ew - 1 then (if f = 0 then .inf s else .nan)
  else if ef = 0 then (if f = 0 then .fin s 0 0 else .fin s f (1 - bias - mw))
  else .fin s (2 ^ mw + f) (ef - bias - mw)

/-- The magnitude code of n steps of 2^q in a format with `mw` fraction bits and the given bias. -/
def magCode (mw : Nat) (bias : Int) (n : Nat) (q : Int) : Nat :=
  ((q + mw + bias).toNat <<< mw) + n - 2 ^ mw

/-- Write a value that the format represents; a NaN becomes the canonical quiet NaN (R50). -/
def toIeee (ew mw : Nat) : Fv → Nat
  | .nan => (2 ^ ew - 1) <<< mw ||| 2 ^ (mw - 1)
  | .inf s => (b2n s <<< (ew + mw)) ||| ((2 ^ ew - 1) <<< mw)
  | .fin s m e =>
    let bias : Int := 2 ^ (ew - 1) - 1
    if m = 0 then b2n s <<< (ew + mw)
    else
      let q := gridExp (mw + 1) (1 - bias) m e
      (b2n s <<< (ew + mw)) + magCode mw bias (steps m e q).n q

/-- FP32 bits to a value. -/
def of32 (c : Nat) : Fv := ofIeee 8 23 c

/-- An FP32 value to its bits. -/
def to32 (x : Fv) : Nat := toIeee 8 23 x

/-- FP32 addition, multiplication, fused multiply-add and division, each rounded once (R12). -/
def add32 (a b : Fv) : Fv := rne32 (add a b)
def sub32 (a b : Fv) : Fv := rne32 (sub a b)
def mul32 (a b : Fv) : Fv := rne32 (mul a b)
def fma32 (a b c : Fv) : Fv := rne32 (add (mul a b) c)
def div32 (a b : Fv) : Fv := rne32 (div a b)

end Fv
end Sys2Proof.Machine
end

