-- ==== Sys2Proof/Machine/Rom.lean ====
section
/-!
DEFINITION. The part of the ROM coefficients that the manual gives: in slots 0 and 1, level-1 c0 of segment k is the
correctly rounded function value at the segment's left end (R198), in units of 2^-30.
-/
namespace Sys2Proof.Machine.Rom

def tolC00 : List Nat :=
  [0, 6039314, 12055174, 18047761, 24017256, 29963836, 35887675, 41788947, 47667823, 53524472, 59359063, 65171760, 70962728, 76732128, 82480119, 88206862] ++
  [93912511, 99597222, 105261148, 110904440, 116527248, 122129721, 127712004, 133274244, 138816582, 144339162, 149842124, 155325606, 160789745, 166234679, 171660541, 177067464] ++
  [182455581, 187825021, 193175914, 198508388, 203822568, 209118580, 214396548, 219656594, 224898839, 230123404, 235330407, 240519966, 245692198, 250847218, 255985140, 261106077] ++
  [266210141, 271297442, 276368092, 281422197, 286459867, 291481207, 296486323, 301475319, 306448299, 311405366, 316346620, 321272163, 326182095, 331076513, 335955515, 340819199]

def tolC01 : List Nat :=
  [345667660, 350500993, 355319292, 360122651, 364911162, 369684916, 374444004, 379188517, 383918542, 388634168, 393335482, 398022572, 402695523, 407354420, 411999347, 416630388] ++
  [421247625, 425851141, 430441017, 435017334, 439580170, 444129607, 448665721, 453188592, 457698295, 462194908, 466678506, 471149164, 475606957, 480051959, 484484242, 488903880] ++
  [493310944, 497705506, 502087636, 506457405, 510814882, 515160136, 519493235, 523814248, 528123241, 532420281, 536705435, 540978767, 545240343, 549490228, 553728485, 557955178] ++
  [562170370, 566374123, 570566499, 574747559, 578917365, 583075977, 587223455, 591359858, 595485245, 599599675, 603703206, 607795895, 611877800, 615948977, 620009483, 624059373]

def tolC02 : List Nat :=
  [628098702, 632127527, 636145900, 640153876, 644151509, 648138853, 652115959, 656082880, 660039669, 663986377, 667923055, 671849754, 675766525, 679673418, 683570481, 687457766] ++
  [691335320, 695203192, 699061430, 702910083, 706749198, 710578822, 714399001, 718209783, 722011213, 725803337, 729586201, 733359850, 737124328, 740879680, 744625951, 748363183] ++
  [752091421, 755810707, 759521085, 763222597, 766915285, 770599192, 774274358, 777940826, 781598637, 785247830, 788888448, 792520529, 796144114, 799759243, 803365955, 806964289] ++
  [810554283, 814135978, 817709409, 821274617, 824831638, 828380510, 831921271, 835453956, 838978604, 842495250, 846003931, 849504683, 852997541, 856482542, 859959719, 863429109]

def tolC03 : List Nat :=
  [866890747, 870344666, 873790901, 877229486, 880660455, 884083842, 887499680, 890908003, 894308843, 897702233, 901088206, 904466794, 907838029, 911201944, 914558569, 917907937] ++
  [921250079, 924585025, 927912807, 931233456, 934547002, 937853475, 941152905, 944445323, 947730758, 951009239, 954280797, 957545460, 960803257, 964054218, 967298370, 970535742] ++
  [973766362, 976990259, 980207461, 983417995, 986621888, 989819169, 993009864, 996194001, 999371606, 1002542707, 1005707329, 1008865499, 1012017244, 1015162589, 1018301561, 1021434185] ++
  [1024560487, 1027680492, 1030794226, 1033901713, 1037002979, 1040098049, 1043186948, 1046269699, 1049346328, 1052416858, 1055481314, 1058539720, 1061592099, 1064638476, 1067678873, 1070713315]

/-- log2(1 + k ÷ 256) in units of 2^-30, rounded to nearest (R198, slot 0). -/
def tolC0 : List Nat := tolC00 ++ tolC01 ++ tolC02 ++ tolC03

def fromlC00 : List Nat :=
  [0, 2911209, 5830312, 8757329, 11692282, 14635192, 17586082, 20544972, 23511884, 26486841, 29469863, 32460974, 35460194, 38467546, 41483051, 44506732] ++
  [47538612, 50578712, 53627054, 56683661, 59748555, 62821759, 65903296, 68993187, 72091456, 75198125, 78313218, 81436756, 84568763, 87709261, 90858275, 94015826] ++
  [97181938, 100356634, 103539938, 106731873, 109932462, 113141728, 116359696, 119586389, 122821830, 126066043, 129319052, 132580881, 135851554, 139131094, 142419526, 145716874] ++
  [149023162, 152338414, 155662655, 158995908, 162338200, 165689552, 169049992, 172419542, 175798228, 179186075, 182583107, 185989350, 189404828, 192829566, 196263589, 199706923]

def fromlC01 : List Nat :=
  [203159593, 206621624, 210093041, 213573871, 217064138, 220563868, 224073086, 227591819, 231120093, 234657932, 238205364, 241762414, 245329108, 248905472, 252491532, 256087316] ++
  [259692848, 263308156, 266933267, 270568206, 274213000, 277867676, 281532261, 285206782, 288891266, 292585739, 296290228, 300004762, 303729367, 307464070, 311208899, 314963882] ++
  [318729045, 322504416, 326290024, 330085895, 333892058, 337708541, 341535371, 345372577, 349220186, 353078228, 356946729, 360825720, 364715227, 368615280, 372525906, 376447136] ++
  [380378997, 384321519, 388274729, 392238658, 396213335, 400198787, 404195046, 408202139, 412220097, 416248948, 420288723, 424339451, 428401161, 432473884, 436557649, 440652486]

def fromlC02 : List Nat :=
  [444758426, 448875498, 453003732, 457143159, 461293810, 465455713, 469628901, 473813404, 478009252, 482216476, 486435107, 490665175, 494906713, 499159751, 503424319, 507700451] ++
  [511988176, 516287526, 520598533, 524921228, 529255643, 533601810, 537959761, 542329527, 546711141, 551104635, 555510041, 559927390, 564356717, 568798053, 573251430, 577716882] ++
  [582194441, 586684139, 591186011, 595700088, 600226404, 604764993, 609315886, 613879119, 618454723, 623042733, 627643183, 632256106, 636881535, 641519506, 646170051, 650833205] ++
  [655509003, 660197477, 664898664, 669612596, 674339309, 679078838, 683831217, 688596481, 693374665, 698165804, 702969933, 707787087, 712617302, 717460613, 722317055, 727186665]

def fromlC03 : List Nat :=
  [732069477, 736965529, 741874854, 746797490, 751733473, 756682839, 761645624, 766621864, 771611596, 776614857, 781631683, 786662110, 791706177, 796763920, 801835375, 806920581] ++
  [812019574, 817132392, 822259072, 827399652, 832554169, 837722662, 842905168, 848101725, 853312372, 858537146, 863776085, 869029229, 874296616, 879578284, 884874272, 890184619] ++
  [895509364, 900848546, 906202203, 911570376, 916953103, 922350425, 927762380, 933189008, 938630350, 944086444, 949557332, 955043052, 960543646, 966059154, 971589615, 977135071] ++
  [982695563, 988271130, 993861814, 999467656, 1005088698, 1010724979, 1016376542, 1022043427, 1027725678, 1033423334, 1039136438, 1044865033, 1050609158, 1056368858, 1062144174, 1067935149]

/-- 2^(k ÷ 256) − 1 in units of 2^-30, rounded to nearest (R198, slot 1). -/
def fromlC0 : List Nat := fromlC00 ++ fromlC01 ++ fromlC02 ++ fromlC03

end Sys2Proof.Machine.Rom
end

