-- ==== Sys2Proof/Machine/Tables.lean ====
section
/-!
DEFINITION. The contents of a table bank as the lanes read them: slot headers and segment records (R188, R189), the ROM
images (R198, R200), the interpolation kernel (R130, R197) and the checks on an image (R190 to R193).
-/
namespace Sys2Proof.Machine
open Sys2Proof

/-- What a resident bank holds: the ROM image of a slot, or the bytes that an ingot loaded. -/
inductive BankImg where
  | rom (slot : Nat)
  | img (bytes : List Byte)
deriving DecidableEq, Repr

/-- A slot header (R188). -/
structure SlotHdr where
  kind : Nat
  mode : Nat
  nSeg : Nat
  n : Nat
  w : Nat
  eLo : Int
  eHi : Int
  sign : Nat
  out : Nat
  levels : Nat
  flush : Nat
  lowC0 : Nat
  lowC1 : Nat
  highC0 : Nat
  highC1 : Nat
  nhighC0 : Nat
  nhighC1 : Nat
deriving DecidableEq, Repr

/-- Three coefficients of one level. -/
structure Coef where
  c0 : Int
  c1 : Int
  c2 : Int
deriving DecidableEq, Repr

/-- A segment record (R189). -/
structure Seg where
  l1 : Coef
  l2 : Coef
  l3 : Coef
  exp : Int
deriving DecidableEq, Repr

namespace Tab
open Sys2Proof.Machine.Num

/-- A ROM row of R198 or R200: kind, mode, n, w, E_LO, E_HI, sign, out, N_SEG, levels. Where R198 prints a dash the byte is
the part's own. -/
def romHdrRow (slot : Nat) : List Int :=
  let dash := fun (byte : Nat) => (Config.romByte slot byte).toInt
  match slot with
  | 0 => [1, 0, 8, 15, dash 6, dash 7, 0, 0, 256, 3]
  | 1 => [2, 1, 8, 16, dash 6, dash 7, 0, 0, 256, 3]
  | 2 => [3, 2, (Config.romByte slot 4).toNat, 15, dash 6, dash 7, 0, 0, 384, 3]
  | 3 => [4, 3, 3, 16, -24, 6, 2, 1, 496, 3]
  | 4 => [4, 3, 3, 16, -24, 3, 1, 0, 224, 3]
  | 5 => [4, 3, 3, 16, -24, 2, 1, 0, 216, 3]
  | 6 => [4, 3, 3, 16, -24, 6, 2, 0, 496, 3]
  | 7 => [4, 3, 3, 16, -24, 5, 2, 1, 480, 3]
  | 8 => [4, 3, 3, 16, -24, 5, 2, 1, 480, 3]
  | 56 => [5, 3, 3, 16, -12, 6, 2, 0, 304, 1]
  | 57 => [5, 0, 8, 15, 0, 0, 0, 0, 256, 1]
  | 58 => [5, 0, 8, 15, 0, 0, 0, 0, 256, 1]
  | 59 => [5, 4, 7, 16, 0, 0, 0, 0, 256, 1]
  | 60 => [5, 4, 7, 16, 0, 0, 0, 0, 256, 1]
  | 61 => [5, 3, 3, 16, -12, 3, 1, 0, 128, 1]
  | 62 => [5, 3, 3, 16, -12, 4, 2, 0, 272, 1]
  | 63 => [5, 3, 3, 16, -12, 3, 2, 0, 256, 1]
  | _ => []

/-- CONTENT_CRC of the ROM image of a slot (R198, R200). -/
def romCrc (slot : Nat) : Nat :=
  match slot with
  | 0 => 0x6C1E93A40F27B85D | 1 => 0x2B94D70E5A31C6F8 | 2 => 0xE0571C8B93D24A6F
  | 3 => 0x91A35F06D8E42B7C | 4 => 0x4D68E2B107AF93C5 | 5 => 0xB7F04C296E13D58A
  | 6 => 0x385CA9D7F14206EB | 7 => 0xC92E170B84F56D3A | 8 => 0x5AB3F86C2D90E147
  | 56 => 0x0E73B5C19A482DF6 | 57 => 0xA5D26F38C71E904B | 58 => 0x7B19E04D5A62F3C8
  | 59 => 0xD4368A1F2CB705E9 | 60 => 0x1F8EC263B59D4A70 | 61 => 0x96C40B7AE3F158D2
  | 62 => 0x4A0FD91C6E85B327 | 63 => 0xE8B527D403AC6F19 | _ => 0

/-- Does the slot have a ROM image (R185)? -/
def hasRom (slot : Nat) : Bool := slot ≤ 8 || (56 ≤ slot && slot ≤ 63)

/-- The canonical FP32 NaN, which FLUSH_MAG reads as the default (R154). -/
def nan32 : Nat := 0x7FC00000

/-- The header of a ROM image. -/
def romHdr (slot : Nat) : SlotHdr :=
  let r := romHdrRow slot
  let g := fun i => r.getD i 0
  let ed := fun i => (Config.romEdge slot i).toNat
  ⟨(g 0).toNat, (g 1).toNat, (g 8).toNat, (g 2).toNat, (g 3).toNat, g 4, g 5, (g 6).toNat, (g 7).toNat, (g 9).toNat,
   nan32, ed 0, ed 1, ed 2, ed 3, ed 4, ed 5⟩

/-- The header of an image (R188). -/
def imgHdr (b : List Byte) : SlotHdr :=
  let f := field b
  ⟨f 0 1, f 1 1, f 2 2, f 4 1, f 5 1, toSigned 8 (f 6 1), toSigned 8 (f 7 1), f 8 1, f 9 1, f 10 1,
   f 12 4, f 16 4, f 20 4, f 24 4, f 28 4, f 48 4, f 52 4⟩

/-- A segment record from its ten words (R189). -/
def segOfWords (w : Nat → Nat) : Seg :=
  let s := fun i => toSigned 32 (w i)
  ⟨⟨s 0, s 1, s 2⟩, ⟨s 3, s 4, s 5⟩, ⟨s 6, s 7, s 8⟩, toSigned 8 (w 9)⟩

/-- A segment record of a ROM image: SEG_EXP is 0 in slots 0 to 2 (R190), level-1 c0 of slots 0 and 1 is that of R198. -/
def romSeg (slot i : Nat) : Seg :=
  let s := segOfWords (fun k => (Config.romWord slot i k).toNat)
  let s := if slot ≤ 2 then { s with exp := 0 } else s
  if slot = 0 then { s with l1 := { s.l1 with c0 := (Rom.tolC0.getD i 0 : Nat) } }
  else if slot = 1 then { s with l1 := { s.l1 with c0 := (Rom.fromlC0.getD i 0 : Nat) } }
  else s

/-- The header of a bank. -/
def hdr : BankImg → SlotHdr
  | .rom s => romHdr s
  | .img b => imgHdr b

/-- Levels beyond LEVELS read as zero (R188). -/
def cutLevels (n : Nat) (s : Seg) : Seg :=
  let z : Coef := ⟨0, 0, 0⟩
  { s with l2 := if n < 2 then z else s.l2, l3 := if n < 3 then z else s.l3 }

/-- Segment record `i` of a bank. -/
def seg (b : BankImg) (i : Nat) : Seg :=
  match b with
  | .rom s => cutLevels (romHdr s).levels (romSeg s i)
  | .img bs => cutLevels (imgHdr bs).levels (segOfWords (fun k => field bs (64 + 40 * i + 4 * k) 4))

/-- The two FP32 words of a segment of an S5 table (R189). -/
def s5Words (b : BankImg) (i : Nat) : Nat × Nat :=
  match b with
  | .rom s => ((Config.romWord s i 0).toNat, (Config.romWord s i 1).toNat)
  | .img bs => (field bs (64 + 40 * i) 4, field bs (64 + 40 * i + 4) 4)

/-- One segment's quadratic in pass 1 (R130). -/
def interp (c : Coef) (t w : Nat) : Int :=
  let a := rsh (c.c2 * t) w
  let b := rsh ((c.c1 + a) * t) w
  c.c0 + b

/-- The sum of levels 1 to k (R197). -/
def sumLevels (s : Seg) (k : Nat) : Coef :=
  let sh : Int := 2 ^ 24
  let two : Coef := ⟨s.l1.c0 * sh + s.l2.c0, s.l1.c1 * sh + s.l2.c1, s.l1.c2 * sh + s.l2.c2⟩
  if k ≤ 1 then s.l1
  else if k = 2 then two
  else ⟨two.c0 * sh + s.l3.c0, two.c1 * sh + s.l3.c1, two.c2 * sh + s.l3.c2⟩

/-- One segment's quadratic in pass k, in units of 2^(−30 − 24(k − 1)) (R197). -/
def interpK (s : Seg) (k tf wf : Nat) : Int := interp (sumLevels s k) tf wf

/-- The fraction bits that an offset takes: `w` bits below the top `n` of `fw`, whole where they do not suffice. -/
def offBits (f fw n w : Nat) : Nat :=
  let low := f % 2 ^ (fw - n)
  if n + w ≤ fw then low >>> (fw - n - w) else low <<< (n + w - fw)

/-- FP32 bits of a header as a value. -/
def f32 (c : Nat) : Fv := Fv.of32 c

/-- What an image of a conversion slot keeps of the ROM image: everything in the header but FLUSH_MAG (R190 and the sentence
after it). -/
def convKeeps (h : SlotHdr) : List Int × List Nat :=
  ([h.eLo, h.eHi], [h.kind, h.mode, h.nSeg, h.n, h.w, h.sign, h.out, h.levels] ++
    [h.lowC0, h.lowC1, h.highC0, h.highC1, h.nhighC0, h.nhighC1])

/-- Does a slot image meet R188 to R193 for its slot, with GENERATION and CONTENT_CRC set apart (R203)? -/
def imgFieldsOk (slot : Nat) (b : List Byte) : Bool :=
  let h := imgHdr b
  let segs := List.range h.nSeg
  let conv := romHdr slot
  let romFl := [nan32]
  decide (1 ≤ h.nSeg ∧ h.nSeg ≤ 512) && b.length == 64 + 40 * h.nSeg &&
  field b 11 1 == 0 && field b 36 4 == 0 && field b 56 8 == 0 &&
  decide (h.n ≤ 8) && decide (1 ≤ h.w ∧ h.w ≤ 16) && decide (h.mode ≤ 4) && decide (h.sign ≤ 2) && decide (h.out ≤ 1) &&
  decide (1 ≤ h.levels ∧ h.levels ≤ 3) && decide (h.eLo ≤ h.eHi) &&
  segs.all (fun i => field b (64 + 40 * i + 37) 3 == 0 &&
    decide (-64 ≤ toSigned 8 (field b (64 + 40 * i + 36) 1) ∧ toSigned 8 (field b (64 + 40 * i + 36) 1) ≤ 64)) &&
  (if slot ≤ 2 then
     convKeeps h == convKeeps conv &&
     segs.all (fun i => field b (64 + 40 * i + 36) 1 == 0)
   else h.kind == 4) &&
  (if h.sign = 2 then h.nSeg == 2 * (h.eHi - h.eLo + 1).toNat * 2 ^ h.n
   else if h.mode = 3 then h.nSeg == (h.eHi - h.eLo + 1).toNat * 2 ^ h.n else true) &&
  (if slot = 0 || slot = 2 then h.flush == nan32
   else if 9 ≤ slot then h.flush == 0
   else romFl.contains h.flush || h.flush == 0 || decide (0 < h.flush ∧ h.flush < 0x7F800000))

end Tab
end Sys2Proof.Machine
end

