-- ==== Sys2Proof/Machine/L36.lean ====
section
/-!
DEFINITION. The lanes' logarithmic format L36 (R76), the two converters (R132 to R137) and the arithmetic on log fields
(R138 to R143).
-/
namespace Sys2Proof.Machine
open Sys2Proof.Machine.Num

/-- The class of an L36 value. -/
inductive LCls where
  | zero
  | fin
  | inf
  | nan
deriving DecidableEq, Repr

/-- An L36 value: sign, class, log magnitude in units of 2^-24 (Q9.24). -/
structure L36 where
  neg : Bool
  cls : LCls
  mag : Int
deriving DecidableEq, Repr

/-- The banks that the converters and the logarithm read: slots 0, 1 and 2. -/
structure Conv where
  tol : BankImg
  froml : BankImg
  near1 : BankImg
deriving DecidableEq, Repr

/-- The three ROM images. -/
def Conv.rom : Conv := ⟨.rom 0, .rom 1, .rom 2⟩

namespace L36

def zeroS (s : Bool) : L36 := ⟨s, .zero, 0⟩
def infS (s : Bool) : L36 := ⟨s, .inf, 0⟩
def nan : L36 := ⟨false, .nan, 0⟩

/-- A finite value, taken to infinity above the field's range and to zero below it (R139). -/
def ofMag (s : Bool) (m : Int) : L36 :=
  if m > 2 ^ 32 - 1 then infS s else if m < -(2 ^ 32) then zeroS s else ⟨s, .fin, m⟩

/-- The 36-bit word (R76). -/
def toWord (x : L36) : Nat :=
  let c := match x.cls with | .zero => 0 | .fin => 1 | .inf => 2 | .nan => 3
  (b2n x.neg <<< 35) + (c <<< 33) + ofSigned 33 x.mag

def isNan (x : L36) : Bool := x.cls == .nan
def isZero (x : L36) : Bool := x.cls == .zero
def isInf (x : L36) : Bool := x.cls == .inf
def isFin (x : L36) : Bool := x.cls == .fin

def negate (x : L36) : L36 := if x.isNan then nan else { x with neg := !x.neg }

/-- The order of sign and then log magnitude (R89): −∞ lowest, zeros of both signs equal. -/
def key (x : L36) : Int × Int :=
  match x.cls with
  | .zero => (0, 0)
  | .nan => (0, 0)
  | .fin => if x.neg then (-1, -x.mag) else (1, x.mag)
  | .inf => if x.neg then (-2, 0) else (2, 0)

def lt (a b : L36) : Bool :=
  !a.isNan && !b.isNan && (decide (a.key.1 < b.key.1) || (a.key.1 == b.key.1 && decide (a.key.2 < b.key.2)))

/-- The product of two L36 values (R138, LADD). -/
def mul (a b : L36) : L36 :=
  let s := a.neg != b.neg
  if a.isNan || b.isNan then nan
  else if (a.isZero && b.isInf) || (a.isInf && b.isZero) then nan
  else if a.isZero || b.isZero then zeroS s
  else if a.isInf || b.isInf then infS s
  else ofMag s (a.mag + b.mag)

/-- The quotient (R138). -/
def div (a b : L36) : L36 :=
  let s := a.neg != b.neg
  if a.isNan || b.isNan then nan
  else if (a.isZero && b.isZero) || (a.isInf && b.isInf) then nan
  else if b.isZero || a.isInf then infS s
  else if a.isZero || b.isInf then zeroS s
  else ofMag s (a.mag - b.mag)

/-- The reciprocal (R138). -/
def recip (a : L36) : L36 :=
  match a.cls with
  | .nan => nan
  | .zero => infS a.neg
  | .inf => zeroS a.neg
  | .fin => ofMag a.neg (-a.mag)

/-- The square root (R138). -/
def sqrt (a : L36) : L36 :=
  match a.cls with
  | .nan => nan
  | .zero => zeroS a.neg
  | .inf => if a.neg then nan else infS false
  | .fin => if a.neg then nan else ofMag false (rsh a.mag 1)

/-- The reciprocal square root (R138). -/
def rsqrt (a : L36) : L36 :=
  match a.cls with
  | .nan => nan
  | .zero => infS a.neg
  | .inf => if a.neg then nan else zeroS false
  | .fin => if a.neg then nan else ofMag false (rsh (-a.mag) 1)

/-- An integer added to log2 of the magnitude; used for exact powers of two (R87, R303). -/
def addInt (a : L36) (k : Int) : L36 := if a.isFin then ofMag a.neg (a.mag + k * 2 ^ 24) else a

end L36

namespace Fv

/-- The nearest integer, ties to even. -/
def rneInt : Fv → Int
  | .fin s m e =>
    let n : Int := ((steps m e 0).round .rne : Nat)
    if s then -n else n
  | _ => 0

/-- An unevaluated pair hi + lo of FP32 values with an unbounded exponent, as the value that it denotes (R148, R197). -/
def pr (v : Fv) : Fv := let h := Fv.roundU 24 v; if h.isFin && !v.isZero then Fv.add h (Fv.roundU 24 (Fv.sub v h)) else v

/-- A product and a sum of pairs, each renormalised (R148). -/
def pmul (a b : Fv) : Fv := pr (Fv.mul a b)
def padd (a b : Fv) : Fv := pr (Fv.add a b)

/-- Is the value an integer, and is it odd? -/
def isInt : Fv → Bool
  | .fin _ m e => m == 0 || (steps m e 0).rem == 0
  | _ => false

def isOdd (x : Fv) : Bool := x.isInt && x.rneInt % 2 != 0

end Fv

namespace Lane

/-- log2(e) in units of 2^-60 (R138). -/
def kE : Nat := 0x171547652B82FE17

/-- ln 2 in units of 2^-64 (R138). -/
def kLn2 : Nat := 0xB17217F7D1CF79AC

/-- ln 2 as an exact value. -/
def ln2 : Fv := .fin false kLn2 (-64)

/-- The 23-bit fraction of a finite nonzero FP32 value after exact normalisation (R132, R194). -/
def frac23 : Fv → Nat
  | .fin _ m e => let k := Num.flog2 m e; (steps m e (k - 23)).n - 2 ^ 23
  | _ => 0

/-- A value held between two bounds. -/
def clampI (lo hi x : Int) : Int := if x < lo then lo else if x > hi then hi else x

/-- FP32 to L36 (R132, R133). -/
def tol (c : Conv) (x : Fv) : L36 :=
  match x with
  | .nan => L36.nan
  | .inf s => L36.infS s
  | .fin s m e =>
    if m = 0 then L36.zeroS s else
    let f := frac23 (.fin s m e)
    let y := clampI 0 (2 ^ 30) (Tab.interp (Tab.seg c.tol (f >>> 15)).l1 (f % 2 ^ 15) 15)
    L36.ofMag s (flog2 m e * 2 ^ 24 + rsh y 6)

/-- log2|x| in pass k, before any rounding to the field (R147): the lookup, in units of 2^(−30 − 24(k − 1)), enters as a pair
(R197), and the exponent is added in pairs (R148). -/
def log2K (c : Conv) (k : Nat) (x : Fv) : Fv :=
  let f := frac23 x
  let u : Nat := 30 + 24 * (k - 1)
  let y := clampI 0 (2 ^ u) (Tab.interpK (Tab.seg c.tol (f >>> 15)) k (f % 2 ^ 15) 15)
  Fv.padd (Fv.ofInt (Fv.expo x)) (Fv.pr (Fv.scale (-(u : Int)) (Fv.ofInt y)))

/-- The linear value of a log field in pass k (R135, R147). -/
def fromlMag (c : Conv) (k : Nat) (s : Bool) (m : Int) : Fv :=
  let e := m / 2 ^ 24
  let phi := (m % 2 ^ 24).toNat
  let u : Nat := 30 + 24 * (k - 1)
  let y := clampI 0 (2 ^ u - 1) (Tab.interpK (Tab.seg c.froml (phi >>> 16)) k (phi % 2 ^ 16) 16)
  .fin s (2 ^ u + y.toNat) (e - u)

/-- L36 to the unrounded form, in pass k (R135, R136). -/
def fromlK (c : Conv) (k : Nat) (v : L36) : Fv :=
  match v.cls with
  | .nan => .nan
  | .inf => .inf v.neg
  | .zero => Fv.zeroS v.neg
  | .fin => fromlMag c k v.neg v.mag

/-- `froml` (R135). -/
def froml (c : Conv) (v : L36) : Fv := fromlK c 1 v

/-- The exact exponent x · K_E · 2^24 of exp, or x · 2^24 of exp2, before its rounding (R138). -/
def expArg (base2 : Bool) (x : Fv) : Fv :=
  if base2 then x.scale 24 else Fv.mul x (.fin false kE (24 - 60))

/-- exp or exp2 as an L36 value (R138). -/
def expL (base2 : Bool) (x : Fv) : L36 :=
  match x with
  | .nan => L36.nan
  | .inf s => if s then L36.zeroS false else L36.infS false
  | _ => L36.ofMag false (expArg base2 x).rneInt

/-- The special cases of pow (R140, IEEE 754-2019 clause 9.2): none where the general case applies. -/
def powSpecial (a : L36) (c : Fv) : Option L36 :=
  let one : L36 := ⟨false, .fin, 0⟩
  if c.isZero then some one
  else if a == one then some one
  else if a.isNan || c.isNan then some L36.nan
  else
    let odd := c.isOdd
    let sg := a.neg && odd
    match a.cls with
    | .zero => if c.sign then some (L36.infS sg) else some (L36.zeroS sg)
    | .inf => if c.sign then some (L36.zeroS sg) else some (L36.infS sg)
    | _ =>
      if c.isInf then
        if a.mag = 0 then some one
        else if decide (a.mag > 0) != c.sign then some (L36.infS false) else some (L36.zeroS false)
      else if a.neg && !c.isInt then some L36.nan
      else none

/-- pow(a, c) (R138, R140, LSCALE). -/
def pow (a : L36) (c : Fv) : L36 :=
  match powSpecial a c with
  | some r => r
  | none => L36.ofMag (a.neg && c.isOdd) (Fv.mul (Fv.ofInt a.mag) c).rneInt

/-- 0.75 and 1.5, the bounds of the near-one path (R142). -/
def inNear1 (x : Fv) : Bool := Fv.le (.fin false 3 (-2)) x && Fv.lt x (.fin false 3 (-1))

/-- U of R142: the place of an argument in [0.75, 1.5), in units of 2^-24 from 0.75 on. -/
def nearU (x : Fv) : Nat := ((Fv.add (Fv.sub x Fv.one) (.fin false 1 (-2))).scale 24).rneInt.toNat

/-- A logarithm to base 2 as the result of pass k, times ln 2 where `nat` is set: the exact product truncated to 48 bits in
pass 1 (R141, R142), a product of pairs in passes 2 and 3 (R148). -/
def logOut (nat : Bool) (k : Nat) (r : Fv) : Fv :=
  Fv.trunc48 (if !nat then r else if k ≤ 1 then Fv.mul r ln2 else Fv.pmul r (Fv.pr ln2))

/-- log2(x) or log(x) of an FP32 argument in pass k (R141 to R143). -/
def logF (c : Conv) (nat : Bool) (k : Nat) (x : Fv) : Fv :=
  match x with
  | .nan => .nan
  | .inf s => if s then .nan else .inf false
  | .fin s m e =>
    if m = 0 then .inf true
    else if s then .nan
    else if Fv.eqv x Fv.one then Fv.zero
    else if inNear1 x then
      let u := Fv.sub x Fv.one
      let uu := nearU x
      let w : Nat := 30 + 24 * (k - 1)
      let h := Fv.scale (-(w : Int)) (Fv.ofInt (Tab.interpK (Tab.seg c.near1 (uu >>> 15)) k (uu % 2 ^ 15) 15))
      logOut nat k (if k ≤ 1 then Fv.mul u h else Fv.pmul u (Fv.pr h))
    else logOut nat k (if k ≤ 1 then Fv.scale (-24) (Fv.ofInt (tol c (.fin s m e)).mag) else log2K c k (.fin s m e))

/-- log2 or log of an L-family argument in pass k, by its exact image (R141). -/
def logL (nat : Bool) (k : Nat) (v : L36) : Fv :=
  match v.cls with
  | .nan => .nan
  | .zero => .inf true
  | .inf => if v.neg then .nan else .inf false
  | .fin =>
    if v.neg then .nan
    else if v.mag = 0 then Fv.zero
    else logOut nat k (Fv.scale (-24) (Fv.ofInt v.mag))

end Lane
end Sys2Proof.Machine
end

