-- ==== Sys2Proof/Machine/RealFn.lean ====
section
/-!
DEFINITION. The flush rule's exact distances (R152 to R156): fixed-point evaluation of the tails of the built-in
functions with 720 fraction bits, far more than any comparison of an FP32 argument's tail with an FP32 threshold needs.
-/
namespace Sys2Proof.Machine
namespace RealFn

/-- Fraction bits of the fixed-point numbers. -/
abbrev fb : Nat := 720

abbrev one : Nat := 2 ^ fb

def fmul (a b : Nat) : Nat := (a * b) >>> fb
def fdiv (a b : Nat) : Nat := (a <<< fb) / b

/-- Σ x^i / i! for `n` terms from term `t` with index `i`. -/
def expSum (x : Nat) : Nat → Nat → Nat → Nat
  | 0, _, _ => 0
  | n + 1, i, t => t + expSum x n (i + 1) (fmul t x / (i + 1))

def sqrN : Nat → Nat → Nat
  | 0, x => x
  | n + 1, x => sqrN n (fmul x x)

/-- e^-t for a fixed-point t; zero beyond 1100. -/
def expNeg (t : Nat) : Nat :=
  if t ≥ 1100 <<< fb then 0
  else sqrN 16 (fdiv one (expSum (t >>> 16) 60 0 one))

/-- Σ z^(2i+1) / (2i + 1) for `n` terms: the inverse hyperbolic tangent. -/
def atanhSum (z2 : Nat) : Nat → Nat → Nat → Nat
  | 0, _, _ => 0
  | n + 1, i, p => p / (2 * i + 1) + atanhSum z2 n (i + 1) (fmul p z2)

/-- ln(1 + e) for 0 ≤ e ≤ 1. -/
def log1p (e : Nat) : Nat :=
  let z := fdiv e (2 * one + e)
  2 * atanhSum (fmul z z) 240 0 z

/-- arctan(1 / k), alternating sum of `n` pairs of terms. -/
def atanInv (k : Nat) : Nat → Nat → Nat → Nat
  | 0, _, _ => 0
  | n + 1, i, p =>
    let q := p / (k * k)
    (p / (2 * i + 1) - q / (2 * i + 3)) + atanInv k n (i + 2) (q / (k * k))

/-- π. -/
def pi : Nat := 16 * atanInv 5 90 0 (one / 5) - 4 * atanInv 239 30 0 (one / 239)

/-- ln 2. -/
def ln2 : Nat := log1p one

/-- Σ x^(2i+1) / (2i + 1)!!, `n` terms. -/
def phiSum (x2 : Nat) : Nat → Nat → Nat → Nat
  | 0, _, _ => 0
  | n + 1, i, p => p + phiSum x2 n (i + 1) (fmul p x2 / (2 * i + 3))

/-- Φ(−x) for 0 ≤ x (fixed point); zero beyond 21. -/
def phiNeg (x : Nat) : Nat :=
  if x ≥ 21 <<< fb then 0
  else
    let x2 := fmul x x
    let dens := fdiv (expNeg (x2 / 2)) (Num.isqrt ((2 * pi) <<< fb))
    one / 2 - fmul dens (phiSum x2 1600 0 x)

/-- σ(−a). -/
def sigNeg (a : Nat) : Nat := let e := expNeg a; fdiv e (one + e)

/-- A magnitude as fixed point, bits below 2^-720 dropped. -/
def fix (m : Nat) (e : Int) : Nat := if 0 ≤ e + fb then m <<< (e + fb).toNat else m >>> (-(e + fb)).toNat

def toFv (x : Nat) : Fv := .fin false x (-(fb : Int))

/-- The functions that have tails. -/
inductive Tail where
  | exp | exp2 | sigmoid | tanh | erf | softplus | silu | geluErf | geluTanh
deriving DecidableEq, Repr

/-- 2^x for x = −m·2^e, m·2^e < 1100: exact powers where x is an integer. -/
def exp2Neg (m : Nat) (e : Int) : Fv :=
  let t := fix m e
  let n := t >>> fb
  let f := t % one
  if f = 0 then .fin false 1 (-(n : Int)) else (toFv (expNeg (fmul f ln2))).scale (-(n : Int))

/-- Twice 0.7978845608 · (x + 0.044715 · x³), x the magnitude (R148's table). -/
def gtArg (x : Nat) : Nat :=
  let c := fmul (fmul x x) x * 44715 / 1000000
  2 * ((x + c) * 7978845608 / 10000000000)

/-- The distance of f(x) from its asymptote, and the asymptote itself, where x lies in a tail; x = ±m·2^e (R152). -/
def tail (f : Tail) (x : Fv) : Option (Fv × Fv) :=
  match x with
  | .fin s m e =>
    if m = 0 then none
    else
      let mag : Fv := .fin false m e
      -- an argument beyond 1024 has a distance below every threshold, as it has at 1024
      let big := Fv.le (.fin false 1 10) mag
      let m' := if big then 1 else m
      let e' := if big then 10 else e
      let a := fix m' e'
      let am : Fv := .fin false m' e'
      let two := Fv.lt (.fin false 2 0) mag
      let pm1 := fun (d : Fv) => some (d, Fv.negIf s Fv.one)
      let lowHigh := fun (d : Fv) => if two then some (Fv.mul am d, if s then Fv.zeroS true else x) else none
      match f with
      | .exp => if s then some (toFv (expNeg a), Fv.zero) else none
      | .exp2 => if s then some (exp2Neg m' e', Fv.zero) else none
      | .sigmoid => some (toFv (sigNeg a), if s then Fv.zero else Fv.one)
      | .tanh => pm1 (toFv (2 * sigNeg (2 * a)))
      | .erf => pm1 (toFv (2 * phiNeg (Num.isqrt ((2 * fmul a a) <<< fb))))
      | .softplus => if s then some (toFv (log1p (expNeg a)), Fv.zero)
                     else if two then some (toFv (log1p (expNeg a)), x) else none
      | .silu => lowHigh (toFv (sigNeg a))
      | .geluErf => lowHigh (toFv (phiNeg a))
      | .geluTanh => lowHigh (toFv (sigNeg (gtArg a)))
  | _ => none

/-- The exact limit at ±∞ (R803). -/
def limit (f : Tail) (s : Bool) : Fv :=
  match f with
  | .exp | .exp2 | .softplus => if s then Fv.zero else .inf false
  | .sigmoid => if s then Fv.zero else Fv.one
  | .tanh | .erf => Fv.negIf s Fv.one
  | .silu | .geluErf | .geluTanh => if s then Fv.zeroS true else .inf false

/-- The asymptote that x is flushed to under threshold θ, if any (R152, R155). -/
def flush (f : Tail) (theta : Fv) (x : Fv) : Option Fv :=
  match tail f x with
  | none => none
  | some (d, y) => if Fv.lt d theta then some y else none

end RealFn
end Sys2Proof.Machine
end

