-- ==== Sys2Proof/Machine/Formats.lean ====
section
/-!
DEFINITION. The sixteen storage formats (R43): element values, the two scale levels (R71), the exact log image of the
L family (R58 to R62), and the packing of rows (R57).
-/
namespace Sys2Proof.Machine
open Sys2Proof Sys2Proof.Machine.Num

/-- The storage formats, in the order of their codes (R43). -/
inductive Fmt where
  | fp32 | fp16 | bf16 | fp64 | e4m3 | e5m2 | e3m2 | e2m3 | e2m1 | mxint8 | l8 | l16 | l8b | l16b | b3 | b2
deriving DecidableEq, Repr

/-- The three families of R87. -/
inductive Fam where
  | ieee
  | log
  | scaled
deriving DecidableEq, Repr

namespace Fmt

/-- The formats by code. -/
def all : List Fmt :=
  [.fp32, .fp16, .bf16, .fp64, .e4m3, .e5m2, .e3m2, .e2m3] ++ [.e2m1, .mxint8, .l8, .l16, .l8b, .l16b, .b3, .b2]

/-- The format of a code; none for codes 0x10 to 0x1F (R44). -/
def ofCode (c : Nat) : Option Fmt := all[c]?

/-- The code of a format. -/
def code : Fmt → Nat
  | .fp32 => 0 | .fp16 => 1 | .bf16 => 2 | .fp64 => 3 | .e4m3 => 4 | .e5m2 => 5 | .e3m2 => 6 | .e2m3 => 7
  | .e2m1 => 8 | .mxint8 => 9 | .l8 => 10 | .l16 => 11 | .l8b => 12 | .l16b => 13 | .b3 => 14 | .b2 => 15

/-- Element bits. -/
def width : Fmt → Nat
  | .fp32 => 32 | .fp16 => 16 | .bf16 => 16 | .fp64 => 64 | .e4m3 => 8 | .e5m2 => 8 | .e3m2 => 6 | .e2m3 => 6
  | .e2m1 => 4 | .mxint8 => 8 | .l8 => 8 | .l16 => 16 | .l8b => 8 | .l16b => 16 | .b3 => 3 | .b2 => 2

/-- Container bytes in staging (R81). -/
def container (f : Fmt) : Nat := if f.width ≤ 8 then 1 else f.width / 8

/-- Does the format carry E8M0 block scales? -/
def scaled : Fmt → Bool
  | .fp32 | .fp16 | .bf16 | .fp64 | .l8 | .l16 => false
  | _ => true

/-- A format of the L family. -/
def isL : Fmt → Bool
  | .l8 | .l16 | .l8b | .l16b => true
  | _ => false

/-- B3 or B2. -/
def isB : Fmt → Bool
  | .b3 | .b2 => true
  | _ => false

def isIeee : Fmt → Bool
  | .fp32 | .fp16 | .bf16 | .fp64 => true
  | _ => false

/-- The five MX float formats and MXINT8. -/
def isMx : Fmt → Bool
  | .e4m3 | .e5m2 | .e3m2 | .e2m3 | .e2m1 | .mxint8 => true
  | _ => false

def fam (f : Fmt) : Fam := if f.isIeee then .ieee else if f.isL then .log else .scaled

/-- Exponent and mantissa bits of a float element format. -/
def expBits : Fmt → Nat
  | .fp32 => 8 | .fp16 => 5 | .bf16 => 8 | .fp64 => 11 | .e4m3 => 4 | .e5m2 => 5 | .e3m2 => 3 | .e2m3 => 2 | .e2m1 => 2
  | _ => 0

def manBits : Fmt → Nat
  | .fp32 => 23 | .fp16 => 10 | .bf16 => 7 | .fp64 => 52 | .e4m3 => 3 | .e5m2 => 2 | .e3m2 => 2 | .e2m3 => 3 | .e2m1 => 1
  | _ => 0

/-- The exponent bias. -/
def bias (f : Fmt) : Int := 2 ^ (f.expBits - 1) - 1

/-- The code of the largest finite magnitude of a float element format. -/
def maxCode : Fmt → Nat
  | .fp32 => 0x7F7FFFFF | .fp16 => 0x7BFF | .bf16 => 0x7F7F | .fp64 => 0x7FEFFFFFFFFFFFFF | .e4m3 => 0x7E | .e5m2 => 0x7B
  | .e3m2 => 0x1F | .e2m3 => 0x1F | .e2m1 => 0x7 | _ => 0

/-- The canonical NaN code, where the format has one (R50). -/
def nanCode : Fmt → Option Nat
  | .fp32 => some 0x7FC00000 | .fp16 => some 0x7E00 | .bf16 => some 0x7FC0 | .fp64 => some 0x7FF8000000000000
  | .e4m3 => some 0x7F | .e5m2 => some 0x7E | _ => none

/-- The fill code at a masked position (R477), for a value table in the B formats `bz` being the entry nearest 0. -/
def fillCode (f : Fmt) (bz : Nat) : Nat :=
  match f with
  | .l8 | .l8b => 0x80
  | .l16 | .l16b => 0x8000
  | .b3 | .b2 => bz
  | _ => 0

/-- Bytes that `n` elements take (R57). -/
def rowBytes (f : Fmt) (n : Nat) : Nat := n * f.width / 8

end Fmt

namespace Elem

/-- The value of an element code before any scale; B codes index the value table (R43 to R65). -/
def value (f : Fmt) (tab : List Nat) (c : Nat) : Fv :=
  match f with
  | .fp32 | .fp16 | .bf16 | .fp64 | .e5m2 => Fv.ofIeee f.expBits f.manBits c
  | .e4m3 | .e3m2 | .e2m3 | .e2m1 =>
    let mw := f.manBits
    let s := bit c (f.width - 1)
    let ef := bits c (f.width - 2) mw
    let m := c % 2 ^ mw
    if f = .e4m3 ∧ ef = 15 ∧ m = 7 then .nan
    else if ef = 0 then (if m = 0 then Fv.zeroS s else .fin s m (1 - f.bias - mw))
    else .fin s (2 ^ mw + m) (ef - f.bias - mw)
  | .mxint8 => Fv.scale (-6) (Fv.ofInt (toSigned 8 c))
  | .b3 | .b2 => Fv.of32 (tab.getD c 0)
  | .l8 | .l16 | .l8b | .l16b => Fv.zero

/-- The decoded input of an MX, B3 or B2 element: one rounding of the exact product (R71 to R73). -/
def decode (f : Fmt) (tab : List Nat) (s c t : Nat) : Fv :=
  if s = 0xFF then .nan
  else
    match value f tab c with
    | .nan => .nan
    | .inf g => .inf g
    | v => Fv.rne32 (Fv.scale ((s : Int) - 127) (Fv.mul (Fv.of32 t) v))

/-- log2 of a per-tensor scale that is a power of two (R70). -/
def log2T (t : Nat) : Int := (bits t 30 23 : Int) - 127

/-- The log field of an L-family code, in units of 2^-24. -/
def lField (f : Fmt) (c : Nat) : Int :=
  match f with
  | .l8 | .l8b => toSigned 7 c * 2 ^ 20
  | _ => toSigned 15 c * 2 ^ 16

/-- The zero code of an L format (R58). -/
def lZero (f : Fmt) (c : Nat) : Bool :=
  match f with
  | .l8 | .l8b => c == 0x80
  | _ => c == 0x8000

/-- The exact L36 image of an L-family element (R58 to R62): `s` is the block's scale code, `t` the per-tensor scale. -/
def lmag (f : Fmt) (s c t : Nat) : L36 :=
  let blk := f == .l8b || f == .l16b
  if blk && s == 0xFF then L36.nan
  else if lZero f c then L36.zeroS false
  else
    let m := lField f c + (if blk then ((s : Int) - 127) * 2 ^ 24 else 0) + log2T t * 2 ^ 24
    L36.ofMag (bit c (f.width - 1)) m

/-- Bytes of a row cut into its element codes (R57): packing is little-endian bit order throughout. -/
def unpackGo (w : Nat) : Nat → Nat → List Nat
  | 0, _ => []
  | n + 1, x => x % 2 ^ w :: unpackGo w n (x >>> w)

/-- `n` element codes from the bytes of a row (R57). -/
def unpack (f : Fmt) (n : Nat) (b : List Byte) : List Nat := unpackGo f.width n (ofBytes b)

/-- The number that a row's codes make when packed. -/
def packNum (w : Nat) : List Nat → Nat
  | [] => 0
  | c :: cs => c % 2 ^ w + packNum w cs <<< w

/-- A row's codes packed into bytes (R57). -/
def pack (f : Fmt) (cs : List Nat) : List Byte := toBytes (f.rowBytes cs.length) (packNum f.width cs)

end Elem
end Sys2Proof.Machine
end

