-- ==== Sys2Proof/Machine/Round.lean ====
section
/-!
DEFINITION. The rounding unit and the block stage (R93 to R110), stochastic rounding and the Draw (R111 to R125), and the
census counts that narrowing makes (R127).
-/
namespace Sys2Proof.Machine
open Sys2Proof Sys2Proof.Machine.Num

/-- Census counters by index (R127). -/
abbrev cSAT : Nat := 1
abbrev cOVF : Nat := 2
abbrev cUND : Nat := 4
abbrev cNAN : Nat := 8
abbrev cINF : Nat := 16
abbrev cFLUSH : Nat := 32
abbrev cRETRY : Nat := 64
abbrev cMROW : Nat := 128

/-- The eight counters of a descriptor, each saturating at 0xFFFF (R127). -/
abbrev Census := List Nat

namespace Census

def zero : Census := List.replicate 8 0

/-- One element's counts: bit i of the mask adds one to counter i. -/
def add (c : Census) (m : Nat) : Census := c.mapIdx (fun i x => min 0xFFFF (x + b2n (bit m i)))

def addAll (c : Census) (ms : List Nat) : Census := ms.foldl add c

end Census

/-- What a value is on entry to narrowing: an IEEE-family value or an L36 value (R85, R86). -/
inductive Nv where
  | lin (v : Fv)
  | log (z : L36)
deriving DecidableEq, Repr

/-- What narrowing reads of an output tensor reference and its descriptor. -/
structure ORef where
  fmt : Fmt
  t : Nat
  sat : Bool
  srBits : Option Nat
  headroom : Nat
  tab : List Nat
  tensorId : Nat
  step : Nat
  stream : Nat
  elemBase : Nat
  lrow : Nat
  key : Nat
deriving DecidableEq, Repr

namespace Draw

/-- The words of a 128-bit number. -/
def word (x w : Nat) : Nat := bits x (32 * w + 31) (32 * w)

structure Mix where
  a : Nat
  b : Nat
  c : Nat
  d : Nat
deriving DecidableEq, Repr

/-- One round of the mixer (R124). -/
def round (k : Nat → Nat) (x : Mix) (i : Nat) : Mix :=
  let m := 2 ^ 32
  let rk := (k (i % 4) + 0x9E3779B9 * (i + 1)) % m
  let q : Nat × Nat × Nat × Nat := if i % 2 = 0 then (11, 19, 7, 24) else (17, 5, 29, 13)
  let a := (x.a + (x.b ^^^ rk)) % m
  let d := rotl32 (x.d ^^^ a) q.1
  let c := (x.c + d) % m
  let b := rotl32 (x.b ^^^ c) q.2.1
  let a := (a + b) % m
  let d := rotl32 (d ^^^ a) q.2.2.1
  let c := (c + d) % m
  let b := rotl32 (b ^^^ c) q.2.2.2
  ⟨a, b, c, d⟩

/-- The Draw: 128 bits from a counter and a key (R124). -/
def draw (ctr key : Nat) : Nat :=
  let x := (List.range 10).foldl (round (word key)) ⟨word ctr 0, word ctr 1, word ctr 2, word ctr 3⟩
  (x.a ^^^ word key 0) + ((x.b ^^^ word key 1) <<< 32) + ((x.c ^^^ word key 2) <<< 64) + ((x.d ^^^ word key 3) <<< 96)

/-- The counter of an element (R120). -/
def counter (tensorId step stream b idx : Nat) : Nat :=
  (tensorId <<< 96) + (step <<< 64) + (stream <<< 60) + ((if b = 8 then 1 else 2) <<< 56) +
    (if b = 8 then idx >>> 4 else idx >>> 3)

/-- The b random bits of the element with index idx (R120, R122). -/
def elemBits (key tensorId step stream b idx : Nat) : Nat :=
  let j := idx % (128 / b)
  bits (draw (counter tensorId step stream b idx) key) (b * j + b - 1) (b * j)

end Draw

namespace ORef

/-- A target that rounds to nearest with scale 1 and no table. -/
def plain (f : Fmt) : ORef := ⟨f, 0x3F800000, false, none, 0, [], 0, 0, 0, 0, 0, 0⟩

/-- The rounding of the element in a tile row and column (R111 to R113, R121). -/
def mode (o : ORef) (row col : Nat) : Mode :=
  match o.srBits with
  | none => .rne
  | some b => .sr b (Draw.elemBits o.key o.tensorId o.step o.stream b ((o.elemBase + row * o.lrow + col) % 2 ^ 64))

end ORef

/-- A code and the census counts that writing it makes. -/
structure Coded where
  code : Nat
  cns : Nat
deriving DecidableEq, Repr

namespace Rnd

/-- The sign bit of a float or log element format. -/
def signBit (f : Fmt) (s : Bool) : Nat := b2n s <<< (f.width - 1)

/-- The code of −0, or of the zero that stands for it (R95). -/
def zeroCode (f : Fmt) (s : Bool) : Nat :=
  match f with
  | .mxint8 => 0
  | .l8 | .l8b => 0x80
  | .l16 | .l16b => 0x8000
  | _ => signBit f s

/-- Values of a value table, without repeats, in ascending order. -/
def tabVals (tab : List Nat) : List Fv :=
  let ins := fun (vs : List Fv) (v : Fv) =>
    if vs.any (Fv.eqv v) then vs else vs.filter (fun u => Fv.lt u v) ++ [v] ++ vs.filter (fun u => Fv.lt v u)
  (tab.map Fv.of32).foldl ins []

/-- The lowest index of an entry with a value (R102). -/
def tabIdx (tab : List Nat) (v : Fv) : Nat := (tab.map Fv.of32).findIdx (fun u => Fv.eqv u v)

/-- The nearest of ascending values; a tie takes the smaller (R101). -/
def nearest (v : Fv) : List Fv → Fv
  | [] => Fv.zero
  | [a] => a
  | a :: b :: r =>
    let d := fun (x : Fv) => (Fv.sub x v).abs
    if Fv.le (d a) (d b) then a else nearest v (b :: r)

/-- The stochastic choice between the neighbours of v (R117). -/
def bracket (v : Fv) (b r : Nat) : List Fv → Fv
  | [] => Fv.zero
  | [a] => a
  | lo :: hi :: rest =>
    if Fv.le v lo then lo
    else if Fv.lt v hi then
      -- r < floor(f · 2^b) is (r + 1) · (hi − lo) ≤ (v − lo) · 2^b
      if Fv.le (Fv.mul (Fv.ofNat (r + 1)) (Fv.sub hi lo)) ((Fv.sub v lo).scale b) then hi else lo
    else bracket v b r (hi :: rest)

/-- A value of a B target (R101 to R103, R117); −0 takes the entry nearest 0 in every mode (R95). -/
def bval (tab : List Nat) (md : Mode) (v : Fv) : Fv :=
  let vs := tabVals tab
  match md with
  | .sr b r => if v.isZero && v.sign then nearest v vs else bracket v b r vs
  | _ => nearest v vs

/-- Does v lie outside the table's values? -/
def bOut (tab : List Nat) (v : Fv) : Bool :=
  let vs := tabVals tab
  Fv.lt v (vs.headD Fv.zero) || Fv.lt (vs.getLastD Fv.zero) v

/-- Whether NaN makes a block NaN, and whether an infinity with SAT = 0 does (R95). -/
def blockNanFmt (f : Fmt) : Bool :=
  match f with
  | .e3m2 | .e2m3 | .e2m1 | .mxint8 | .l8b | .l16b | .b3 | .b2 => true
  | _ => false

/-- The largest code with its sign. -/
def extreme (f : Fmt) (tab : List Nat) (s : Bool) : Nat :=
  match f with
  | .mxint8 => if s then 0x81 else 0x7F
  | .l8 | .l8b => signBit f s + 0x3F
  | .l16 | .l16b => signBit f s + 0x3FFF
  | .b3 | .b2 => let vs := tabVals tab; tabIdx tab (if s then vs.headD Fv.zero else vs.getLastD Fv.zero)
  | _ => signBit f s + f.maxCode

/-- An infinity (R95, block NaN apart). -/
def codeInf (f : Fmt) (tab : List Nat) (sat s : Bool) : Coded :=
  match f with
  | .fp32 | .fp16 | .bf16 | .fp64 => ⟨Fv.toIeee f.expBits f.manBits (.inf s), 0⟩
  | .e5m2 => ⟨Fv.toIeee 5 2 (.inf s), 0⟩
  | .e4m3 => if sat then ⟨extreme f tab s, cINF⟩ else ⟨0x7F, cNAN⟩
  | _ => ⟨extreme f tab s, cINF⟩

/-- A NaN (R50, R95, block NaN apart). -/
def codeNan (f : Fmt) : Coded :=
  match f.nanCode with
  | some c => ⟨c, cNAN⟩
  | none => ⟨zeroCode f false, cNAN⟩

/-- A finite value of a float format (R93 to R96, R116, R118). -/
def codeFloat (f : Fmt) (sat : Bool) (md : Mode) (s : Bool) (m : Nat) (e : Int) : Coded :=
  if m = 0 then ⟨zeroCode f s, 0⟩
  else
    let q := gridExp (f.manBits + 1) (1 - f.bias) m e
    let n := (steps m e q).round md
    let c := Fv.magCode f.manBits f.bias n q
    if n = 0 then ⟨zeroCode f s, cUND⟩
    else if c ≤ f.maxCode then ⟨signBit f s + c, 0⟩
    else if (f.isIeee || f == .e5m2) && !sat then ⟨Fv.toIeee f.expBits f.manBits (.inf s), cOVF⟩
    else ⟨signBit f s + f.maxCode, cSAT⟩

/-- A finite value of MXINT8: multiples of 1/64 (R54, R93). -/
def codeInt8 (md : Mode) (s : Bool) (m : Nat) (e : Int) : Coded :=
  let n := (steps m e (-6)).round md
  if n = 0 then ⟨0, if m = 0 then 0 else cUND⟩
  else if n ≤ 127 then ⟨if s then 256 - n else n, 0⟩
  else ⟨if s then 0x81 else 0x7F, cSAT⟩

/-- A finite value of B3 or B2 (R101 to R103, R117). -/
def codeB (tab : List Nat) (md : Mode) (v : Fv) : Coded :=
  let w := bval tab md v
  ⟨tabIdx tab w, (if bOut tab v then cSAT else 0) + (if w.isZero && !v.isZero then cUND else 0)⟩

/-- Field steps of an L format: width of the field, its fraction bits in Q9.24. -/
def lWidth (f : Fmt) : Nat := if f == .l8 || f == .l8b then 7 else 15
def lStep (f : Fmt) : Nat := if f == .l8 || f == .l8b then 20 else 16

/-- A log field in whole steps, rounded (R97, R116). -/
def lRound (f : Fmt) (md : Mode) (phi : Int) : Int :=
  let st := lStep f
  match md with
  | .sr b r =>
    let n := phi / (2 ^ st : Int)
    let rem := (phi % (2 ^ st : Int)).toNat
    if r < rem * 2 ^ b / 2 ^ st then n + 1 else n
  | .rz => phi / (2 ^ st : Int)
  | .rne => rsh phi st

/-- A finite L36 value narrowed to an L format (R59, R97 to R100). -/
def codeL (f : Fmt) (md : Mode) (s : Bool) (phi : Int) : Coded :=
  let lo : Int := -(2 ^ (lWidth f - 1))
  let hi : Int := 2 ^ (lWidth f - 1) - 1
  let floor : Int := if lWidth f = 7 then -5 * 2 ^ 24 else -65 * 2 ^ 24
  if phi ≤ floor then ⟨zeroCode f false, cUND⟩
  else
    let n := lRound f md phi
    let k := if n > hi then hi else if n < lo then lo else n
    let k := if s && k == 0 then -1 else k
    ⟨signBit f s + ofSigned (lWidth f) k, if n > hi then cSAT else 0⟩

/-- One element narrowed under block exponent x (R93 to R103). A value of the other kind counts as a NaN. -/
def elem (o : ORef) (md : Mode) (x : Int) (v : Nv) : Coded :=
  match v with
  | .lin .nan => codeNan o.fmt
  | .lin (.inf s) => codeInf o.fmt o.tab o.sat s
  | .lin (.fin s m e) =>
    match o.fmt with
    | .mxint8 => codeInt8 md s m (e - x)
    | .b3 | .b2 => codeB o.tab md (.fin s m (e - x))
    | .l8 | .l16 | .l8b | .l16b => codeNan o.fmt
    | f => codeFloat f o.sat md s m (e - x)
  | .log z =>
    match z.cls with
    | .nan => codeNan o.fmt
    | .inf => codeInf o.fmt o.tab o.sat z.neg
    | .zero => ⟨zeroCode o.fmt false, 0⟩
    | .fin => if o.fmt.isL then codeL o.fmt md z.neg (z.mag - x * 2 ^ 24) else codeNan o.fmt

/-- emax of the targets of R104. -/
def emax (f : Fmt) (tab : List Nat) : Int :=
  match f with
  | .e4m3 => 8 | .e5m2 => 15 | .e3m2 => 4 | .e2m3 => 2 | .e2m1 => 2 | .mxint8 => 0 | .l8b => 3 | .l16b => 63
  | .b3 | .b2 =>
    let a := (tab.map (fun c => (Fv.of32 c).abs)).foldl Fv.maxT Fv.zero
    if a.isZero then 0 else a.expo
  | _ => 0

def isNanV : Nv → Bool
  | .lin v => v.isNan
  | .log z => z.isNan

def isInfV : Nv → Bool
  | .lin v => v.isInf
  | .log z => z.isInf

/-- The largest magnitude among live finite nonzero values, as a value or as a log field. -/
def amaxLin (xs : List Nv) : Fv :=
  xs.foldl (fun a v => match v with | .lin (.fin _ m e) => Fv.maxT a (.fin false m e) | _ => a) Fv.zero

def amaxLog (xs : List Nv) : Option Int :=
  xs.foldl (fun a v => match v with
    | .log z => if z.isFin then some (match a with | none => z.mag | some b => max b z.mag) else a
    | _ => a) none

/-- Does a magnitude overflow at exponent xe (the safeguard of R104)? -/
def overLin (o : ORef) (a : Fv) (xe : Int) : Bool :=
  let v := a.scale (-xe)
  match v with
  | .fin _ m e =>
    match o.fmt with
    | .mxint8 => if o.srBits.isSome then Fv.lt (.fin false 127 (-6)) v else decide ((steps m e (-6)).round .rne > 127)
    | .b3 | .b2 =>
      let top := (o.tab.map (fun c => (Fv.of32 c).abs)).foldl Fv.maxT Fv.zero
      if o.srBits.isSome then Fv.lt top v else Fv.lt top (bval o.tab .rne v)
    | f =>
      if o.srBits.isSome then Fv.lt (Elem.value f [] f.maxCode) v
      else
        let q := gridExp (f.manBits + 1) (1 - f.bias) m e
        decide (Fv.magCode f.manBits f.bias ((steps m e q).round .rne) q > f.maxCode)
  | _ => false

def overLog (o : ORef) (a : Int) (xe : Int) : Bool :=
  let phi := a - xe * 2 ^ 24
  let hi : Int := 2 ^ (lWidth o.fmt - 1) - 1
  if o.srBits.isSome then decide (phi > hi * 2 ^ lStep o.fmt) else decide (lRound o.fmt .rne phi > hi)

/-- The block exponent (R104): `xs` are the unmasked values of the block. -/
def chooseX (o : ORef) (xs : List Nv) : Int :=
  let fin := fun (fl : Int) (spill : Int → Bool) =>
    let xe := fl - emax o.fmt o.tab + o.headroom
    let xe := if xe > 127 then 127 else if xe < -127 then -127 else xe
    if spill xe && decide (xe < 127) then xe + 1 else xe
  if o.fmt.isL then
    match amaxLog xs with
    | none => 0
    | some a => fin (a / 2 ^ 24) (overLog o a)
  else
    let a := amaxLin xs
    if a.isZero then 0 else fin a.expo (overLin o a)

/-- Does a block of a target become a block NaN (R95, R106)? -/
def blockNan (o : ORef) (xs : List Nv) : Bool :=
  blockNanFmt o.fmt && (xs.any isNanV || (!o.sat && xs.any isInfV))

/-- A narrowed block: its scale code and, for each position, code and counts. -/
structure Block where
  scale : Nat
  els : List Coded
deriving DecidableEq, Repr

/-- One block of 32 positions of a tile row (R95, R104 to R110, R128). A masked position takes no part and counts nothing; its code
is `fill` of its column and the block's exponent, none in a block NaN. For a target without block scales the exponent is 0. -/
def block (o : ORef) (row col0 : Nat) (fill : Nat → Option Int → Nat) (vs : List (Option Nv)) : Block :=
  let live := vs.filterMap id
  if blockNan o live then
    ⟨0xFF, vs.mapIdx (fun i v => match v with | none => ⟨fill (col0 + i) none, 0⟩ | some _ => ⟨0, cNAN⟩)⟩
  else
    let x := if o.fmt.scaled then chooseX o live else 0
    ⟨(x + 127).toNat, vs.mapIdx (fun i v => match v with
      | none => ⟨fill (col0 + i) (some x), 0⟩
      | some v => elem o (o.mode row (col0 + i)) x v)⟩

/-- The code of a masked element that is written all the same, the copy of R566, in the block that its unmasked neighbours make
(R104, R106). Where its format has a code for it in a block NaN alone, the spec states none and `free` stands (log 92). -/
def maskedCode (o : ORef) (md : Mode) (v : Nv) (free : Nat) (x : Option Int) : Nat :=
  match x with
  | none => 0
  | some x => if blockNan o [v] then free % 2 ^ o.fmt.width else (elem o md x v).code

/-- The table index that fills a masked position of a B output: the entry nearest 0 (R477). -/
def bFill (tab : List Nat) : Nat := tabIdx tab (nearest Fv.zero (tabVals tab))

/-- A list cut into pieces of 32. -/
def chunks {α : Type} : Nat → List α → List (List α)
  | 0, _ => []
  | k + 1, xs => if xs.isEmpty then [] else xs.take 32 :: chunks k (xs.drop 32)

/-- A row of values as codes, counts and scale codes (R104). -/
structure Row where
  codes : List Nat
  scales : List Nat
  cns : List Nat
deriving DecidableEq, Repr

def row (o : ORef) (r : Nat) (fill : Nat → Option Int → Nat) (vs : List (Option Nv)) : Row :=
  let bs := (chunks (vs.length / 32 + 1) vs).mapIdx (fun k b => block o r (32 * k) fill b)
  ⟨bs.flatMap (fun b => b.els.map (·.code)), if o.fmt.scaled then bs.map (·.scale) else [],
   bs.flatMap (fun b => b.els.map (·.cns))⟩

end Rnd
end Sys2Proof.Machine
end

