-- ==== Sys2Proof/Machine/Func.lean ====
section
/-!
DEFINITION. Function evaluation at one argument: table lookups (R194 to R197), the built-in recipes in one, two or three
passes (R144 to R151), the flush rule (R152 to R156), infinite arguments (R803) and the S5 sequences (R178 to R183, R200).
-/
namespace Sys2Proof.Machine
open Sys2Proof Sys2Proof.Machine.Num

/-- The functions of R408. -/
inductive Fn where
  | exp (base2 : Bool)
  | log (nat : Bool)
  | recip
  | sqrt
  | rsqrt
  | pow (c : Nat)
  | sigmoid
  | silu
  | tanh
  | erf
  | softplus
  | geluErf
  | geluTanh
  | user (slot : Nat)
  | prog (idx : Nat)
deriving DecidableEq, Repr

namespace Fn

/-- The function of a code; `c` is the exponent that pow takes (R408, R409). -/
def ofCode (code c : Nat) : Option Fn :=
  match code with
  | 0x01 => some (.exp false) | 0x02 => some (.exp true) | 0x03 => some (.log true) | 0x04 => some (.log false)
  | 0x05 => some .recip | 0x06 => some .sqrt | 0x07 => some .rsqrt | 0x08 => some (.pow c)
  | 0x09 => some .sigmoid | 0x0A => some .silu | 0x0B => some .tanh | 0x0C => some .erf | 0x0D => some .softplus
  | 0x0E => some .geluErf | 0x0F => some .geluTanh
  | n => if 0x89 ≤ n ∧ n ≤ 0xB7 then some (.user (n - 0x80)) else if 0xC0 ≤ n ∧ n ≤ 0xFF then some (.prog (n - 0xC0)) else none

/-- The function slot (R408); a program has the program bank instead. -/
def slot : Fn → Option Nat
  | .exp _ => some 1 | .sigmoid => some 3 | .silu => some 3 | .tanh => some 4 | .erf => some 5 | .softplus => some 6
  | .geluErf => some 7 | .geluTanh => some 8 | .user s => some s
  | .log _ => none | .recip => none | .sqrt => none | .rsqrt => none | .pow _ => none | .prog _ => none

/-- Every slot that the function's recipe reads (R199); for a user table slot 1 counts whatever its OUT_KIND, since the set
depends on the descriptor's fields alone (R806). -/
def slots (f : Fn) : List Nat :=
  match f with
  | .exp _ => [1] | .log _ => [0, 2] | .recip => [0, 1] | .sqrt => [0, 1] | .rsqrt => [0, 1] | .pow _ => [0, 1]
  | .sigmoid => [3, 1] | .tanh => [4] | .erf => [5] | .softplus => [6] | .silu => [0, 3, 1] | .geluErf => [0, 7, 1]
  | .geluTanh => [0, 8, 1] | .user s => [s, 1] | .prog _ => []

/-- The tail table of the function (R152). -/
def tail : Fn → Option RealFn.Tail
  | .exp b => some (if b then .exp2 else .exp)
  | .sigmoid => some .sigmoid | .silu => some .silu | .tanh => some .tanh | .erf => some .erf | .softplus => some .softplus
  | .geluErf => some .geluErf | .geluTanh => some .geluTanh
  | _ => none

/-- The S5 slot of the function under COMPAT_GEN = 5 (R200). -/
def s5Slot : Fn → Option Nat
  | .exp false => some 56 | .log true => some 57 | .recip => some 58 | .sqrt => some 59 | .rsqrt => some 60
  | .tanh => some 61 | .sigmoid => some 62 | .silu => some 62 | .geluTanh => some 63
  | _ => none

end Fn

/-- The banks that one function reads: the conversion slots, and its own function slot. -/
structure FnTab where
  conv : Conv
  fn : BankImg
deriving DecidableEq, Repr

/-- The result of a function: the unrounded value, the L36 value where the recipe ends in L36, whether the flush rule set
it, and the census counts of its evaluation. -/
structure FnRes where
  lin : Fv
  log : Option L36
  cns : Nat
deriving DecidableEq, Repr

/-- A lookup's result, by OUT_KIND: a linear value, the log field of pass 1, or in passes 2 and 3 the log of the magnitude
as the exact value that enters the pair arithmetic (R197), with the sign. -/
inductive Lk where
  | lin (v : Fv)
  | log (z : L36)
  | logv (neg : Bool) (v : Fv)
deriving DecidableEq, Repr

namespace Lane

/-- c0 + c1·x of an edge rule; a zero c1 makes it a constant (R196). -/
def edgeVal (c0 c1 : Nat) (x : Fv) : Fv :=
  let b := Fv.of32 c1
  if b.isZero then Fv.of32 c0 else Fv.add (Fv.of32 c0) (Fv.mul b x)

/-- What R195 and R194 select for an argument that is no NaN. -/
inductive Sel where
  | edge (c0 c1 : Nat) (x : Fv)
  | seg (i f : Nat)
  | near (u : Nat)
  | none
deriving DecidableEq, Repr

/-- Segment or edge rule of an argument (R194, R195). A table in mode NEAR1 has an index where R142 gives U, for the argument
that SIGN_MODE takes in [0.75, 1.5). -/
def select (h : SlotHdr) (x : Fv) : Sel :=
  let a := if h.sign = 2 then x else x.abs
  let low := Sel.edge h.lowC0 h.lowC1 a
  let high := if h.sign = 2 && x.sign then Sel.edge h.nhighC0 h.nhighC1 a else Sel.edge h.highC0 h.highC1 a
  let f := frac23 x
  let pick := fun (i : Nat) => if i < h.nSeg then Sel.seg i f else Sel.none
  match h.mode with
  | 3 =>
    if x.isZero then low
    else if x.isInf then high
    else if x.expo < h.eLo then low
    else if x.expo > h.eHi then high
    else pick ((((x.expo - h.eLo).toNat <<< h.n) ||| (f >>> (23 - h.n))) + (if h.sign = 2 && x.sign then h.nSeg / 2 else 0))
  | 0 => if x.isZero then low else if x.isInf then high else pick (f >>> (23 - h.n))
  | 4 =>
    if x.isZero then low else if x.isInf then high
    else pick (((x.expo % 2).toNat <<< h.n) ||| (f >>> (23 - h.n)))
  | 2 => if inNear1 a && decide (nearU a >>> 15 < h.nSeg) then .near (nearU a) else .none
  | _ => .none

/-- FP32 bits of a value that is an FP32 number. -/
def key32 (x : Fv) : Nat := Fv.to32 x

/-- A value as a log field (R139, R196). -/
def logField (v : Fv) : L36 :=
  match v with
  | .nan => L36.nan
  | .inf s => if s then L36.zeroS false else L36.infS false
  | _ => L36.ofMag false (v.scale 24).rneInt

/-- The value of a segment in pass k, in units of 1: level 1 at a pass-1 offset of `w` bits, or levels 1 to k at the full
offset of `wf` bits (R196, R197). -/
def segRaw (s : Seg) (k t w tf wf : Nat) : Int :=
  if k ≤ 1 then Tab.interp s.l1 t w else Tab.interpK s k tf wf

/-- A log magnitude as a lookup's result: the field in pass 1 (R196), the exact value in passes 2 and 3 (R197). -/
def logLk (k : Nat) (odd : Bool) (v : Fv) : Lk :=
  if k ≤ 1 then .log (if odd then (logField v).negate else logField v) else .logv odd v

/-- A lookup in a function slot in pass k (R195 to R197). `slot` names the slot for the values R194 does not give. -/
def lookup (b : BankImg) (slot k : Nat) (x : Fv) : Lk :=
  let h := Tab.hdr b
  let isLog := h.out == 1
  let odd := h.sign == 1 && x.sign
  let lin := fun (v : Fv) => Lk.lin (Fv.negIf odd (if v.isZero then Fv.zero else v))
  let fromSeg := fun (s : Seg) (y : Int) =>
    if isLog && decide (k ≤ 1) then
      let z := L36.ofMag false (if s.exp < 6 then rsh y (6 - s.exp).toNat else y * 2 ^ (s.exp - 6).toNat)
      Lk.log (if odd then z.negate else z)
    else
      let v := (Fv.ofInt y).scale (s.exp - 30 - 24 * (k - 1 : Nat))
      if isLog then .logv odd v else lin v
  if x.isNan then (if isLog then .log L36.nan else .lin .nan)
  else match select h x with
    | .edge c0 c1 a => let v := edgeVal c0 c1 a; if isLog then logLk k odd v else lin (Fv.trunc48 v)
    | .none => let v := Fv.of32 (Config.freeLookup slot (key32 x)).toNat; if isLog then logLk k odd v else lin v
    | .seg i f =>
      let s := Tab.seg b i
      fromSeg s (segRaw s k (Tab.offBits f 23 h.n h.w) h.w (f % 2 ^ (23 - h.n)) (23 - h.n))
    | .near u => let s := Tab.seg b (u >>> 15); fromSeg s (segRaw s k (u % 2 ^ 15) 15 (u % 2 ^ 15) 15)

/-- The threshold of a slot: its FLUSH_MAG, or the default for the output format (R153, R154). -/
def theta (b : BankImg) (dflt : Fv) : Fv :=
  let v := Fv.of32 (Tab.hdr b).flush
  if v.isNan then dflt else v

/-- The default threshold of an output format (R153). -/
def defTheta (f : Fmt) : Fv :=
  match f with
  | .fp16 => .fin false 1 (-25)
  | .bf16 => .fin false 1 (-134)
  | .l8 | .l16 | .l8b | .l16b => .fin false 1 (-257)
  | _ => .fin false 1 (-150)

/-- L36 image of an argument: the exact image where there is one, else `tol` of the FP32 form (R410). -/
def image (t : FnTab) (x : Fv) (img : Option L36) : L36 := img.getD (tol t.conv x)

/-- The exponential in pass k (R147, R148's table): `froml` of the field with levels 1 to k (R419: "as for exp2"), and the
correction term once, from the exact remainder of the field's rounding. `arg` is the exponent in units of 2^-24. -/
def expCorr (c : Conv) (k : Nat) (z : L36) (arg : Fv) : Fv :=
  let y := Fv.pr (fromlK c k z)
  if !z.isFin then y
  else
    let eps := Fv.pr ((Fv.sub arg (Fv.ofInt z.mag)).scale (-24))
    Fv.padd y (Fv.pmul (Fv.pmul y (Fv.pr ln2)) eps)

/-- FROML of a log magnitude that passes 2 and 3 hold as a pair (R148, R197): that of its field, with the remainder of the
field's rounding put back as exp2 puts back its own. -/
def fromlV (c : Conv) (k : Nat) (neg : Bool) (v : Fv) : Fv :=
  let p := Fv.pr v
  Fv.negIf neg (expCorr c k (logField p) (p.scale 24))

/-- k − 1 corrections of the pass-1 result (R147, R148). -/
def refine (corr : Fv → Fv) : Nat → Fv → Fv
  | 0, y => y
  | k + 1, y => corr (refine corr k y)

def corrRecip (x y : Fv) : Fv := Fv.padd y (Fv.pmul y (Fv.padd Fv.one (Fv.pmul x y).neg))
def corrSqrt (h x y : Fv) : Fv := Fv.padd y (Fv.pmul (Fv.padd x (Fv.pmul y y).neg) h)
def corrRsqrt (x y : Fv) : Fv :=
  Fv.padd y (Fv.pmul ((Fv.pmul y (Fv.padd Fv.one (Fv.pmul (Fv.pmul x y) y).neg))) (.fin false 1 (-1)))

/-- The pass-1 result in L36 and in the unrounded form. -/
def ofL (c : Conv) (z : L36) : FnRes := ⟨froml c z, some z, 0⟩

/-- The result of passes 2 and 3. -/
def ofPair (v : Fv) : FnRes := ⟨Fv.trunc48 v, none, 0⟩

/-- Any value of the unrounded form, from 64 free bits: sign, 14 bits of exponent, 49 bits of significand; the top
exponent stands for an infinity or a NaN. -/
def freeFv (w : BitVec 64) : Fv :=
  let e := bits w.toNat 62 49
  let m := w.toNat % 2 ^ 49
  if e = 2 ^ 14 - 1 then (if m = 0 then .inf w.msb else .nan) else .fin w.msb m ((e : Int) - 2 ^ 13)

/-- A root or reciprocal (`op`) whose pass-1 field is z: refined where finite, exact where R149 says so. Where the exact
image of an L-family argument is finite and its FP32 form x is not, the correction term has no value that the manual
gives: a free value. -/
def refined (c : Conv) (op k : Nat) (x : Fv) (z : L36) (corr : Fv → Fv) (exact3 : Option Fv) : FnRes :=
  if k ≤ 1 then ofL c z
  else if !z.isFin then ⟨froml c z, none, 0⟩
  else if !x.isFinNz then ofPair (freeFv (Config.freeRefined op k (z.mag % 2 ^ 64).toNat))
  else match k, exact3 with
    | 3, some v => ofPair v
    | _, _ => ofPair (refine corr (k - 1) (froml c z))

/-- The gate functions SiLU and GELU in pass k (R148's table, R199). Their tables are LOG by R198; on an image with OUT_KIND
LIN the product with x is formed linearly (log 88). -/
def gateFn (t : FnTab) (slot k : Nat) (x : Fv) (img : Option L36) : FnRes :=
  match lookup t.fn slot k x with
  | .lin v => ⟨Fv.trunc48 (Fv.mul x v), none, 0⟩
  | .log z => if k ≤ 1 then ofL t.conv (L36.mul (image t x img) z) else ofPair (Fv.pmul x (Fv.pr (froml t.conv z)))
  | .logv n v => ofPair (Fv.pmul x (fromlV t.conv k n v))

/-- A table function in pass k: TAB and, for a LOG table, FROML (R199; for tanh, erf and softplus on such an image log 88). -/
def tabFn (t : FnTab) (slot k : Nat) (x : Fv) : FnRes :=
  match lookup t.fn slot k x with
  | .lin v => if k ≤ 1 then ⟨v, none, 0⟩ else ofPair (Fv.pr v)
  | .log z => ofL t.conv z
  | .logv n v => ofPair (fromlV t.conv k n v)

/-- The recipe of a function in k passes, flush and infinities apart (R146 to R149, R199). -/
def recipe (f : Fn) (t : FnTab) (k : Nat) (x : Fv) (img : Option L36) : FnRes :=
  let c := t.conv
  match f with
  | .exp b2 =>
    let ce := { c with froml := t.fn }
    let z := expL b2 x
    if k ≤ 1 then ofL ce z else if z.isFin then ofPair (expCorr ce k z (expArg b2 x)) else ⟨froml ce z, none, 0⟩
  | .log nat => match img with
    | some z => ⟨logL nat k z, none, 0⟩
    | none => ⟨logF c nat k x, none, 0⟩
  | .recip => refined c 0 k x (image t x img).recip (corrRecip x) (some (Fv.div Fv.one x))
  | .sqrt =>
    let z := (image t x img).sqrt
    let h := (froml c z.recip).scale (-1)
    refined c 1 k x z (corrSqrt h x) (some (Fv.sqrt x))
  | .rsqrt => refined c 2 k x (image t x img).rsqrt (corrRsqrt x) none
  | .pow e =>
    let a := image t x img
    let z := pow a (Fv.of32 e)
    if k ≤ 1 then ofL c z
    else match powSpecial a (Fv.of32 e) with
      | some z => ⟨froml c z, none, 0⟩
      | none =>
        let l := match img with | some i => (Fv.ofInt i.mag).scale (-24) | none => log2K c k x
        let arg := Fv.pmul (l.scale 24) (Fv.of32 e)
        let z := L36.ofMag z.neg arg.rneInt
        ofPair (expCorr c k z arg)
  | .sigmoid => tabFn t 3 k x
  | .tanh => tabFn t 4 k x
  | .erf => tabFn t 5 k x
  | .softplus => tabFn t 6 k x
  | .silu => gateFn t 3 k x img
  | .geluErf => gateFn t 7 k x img
  | .geluTanh => gateFn t 8 k x img
  | .user s => tabFn t s k x
  | .prog _ => ⟨.nan, none, 0⟩

/-- Does the pass-1 recipe end in L36 (R151)? -/
def endsInL (f : Fn) (t : FnTab) : Bool :=
  match f with
  | .exp _ | .recip | .sqrt | .rsqrt | .pow _ => true
  | .sigmoid | .silu | .geluErf | .geluTanh | .user _ => (Tab.hdr t.fn).out == 1
  | _ => false

/-- The image of an exact result in L36: ±1, zero and infinity exactly, the argument by its own image (R160, R803). The
asymptote x occurs only beyond ±2, so ±1 is always the asymptote of that value. -/
def exactImg (t : FnTab) (x : Fv) (img : Option L36) (y : Fv) : L36 :=
  if y.isZero then L36.zeroS y.sign
  else if y.isInf then L36.infS y.sign
  else if Fv.eqv y.abs Fv.one then ⟨y.sign, .fin, 0⟩
  else image t x img

/-- A function outside COMPAT_GEN = 5: infinite arguments, the flush rule, else the recipe (R152, R803). -/
def eval (f : Fn) (t : FnTab) (k : Nat) (dflt : Fv) (x : Fv) (img : Option L36) : FnRes :=
  match f.tail with
  | none => recipe f t k x img
  | some tl =>
    match x with
    | .inf s => let y := RealFn.limit tl s; ⟨y, some (exactImg t x img y), 0⟩
    | _ =>
      match RealFn.flush tl (theta t.fn dflt) x with
      | some y => ⟨y, some (exactImg t x img y), cFLUSH⟩
      | none => recipe f t k x img

/-- `act_l36` (R151): the L36 result of pass 1 where there is one and PASSES is 1, else `tol` of the rounded value; an
exact result keeps its image. -/
def evalL (f : Fn) (t : FnTab) (k : Nat) (dflt : Fv) (x : Fv) (img : Option L36) : L36 × Nat :=
  let r := eval f t k dflt x img
  match r.log with
  | some z => (z, r.cns)
  | none => (tol t.conv (Fv.rne32 r.lin), r.cns)

/-- COMPAT_GEN = 5: a subnormal argument is read as a zero of its sign (R178). -/
def c5In (emin : Int) (x : Fv) : Fv := if x.isFinNz && decide (x.expo < emin) then Fv.zeroS x.sign else x

/-- COMPAT_GEN = 5: an exact result below the smallest normal magnitude 2^emin becomes a zero (R179); else it is kept. -/
def c5Out (emin : Int) (v : Fv) : Fv × Nat :=
  if v.isFinNz && decide (v.expo < emin) then (Fv.zeroS v.sign, cUND) else (v, 0)

/-- One FP32 operation of the S5: R179 and then one rounding. -/
def c5Op (v : Fv) : Fv × Nat := let r := c5Out (-126) v; (Fv.rne32 r.1, r.2)

/-- A function in the S5 sequence (R180, R200). -/
def evalS5 (f : Fn) (b : BankImg) (slot : Nat) (x : Fv) : FnRes :=
  let h := Tab.hdr b
  let exact := fun (v : Fv) => FnRes.mk v none 0
  let onM := h.mode == 0 || h.mode == 4
  let negArg := x.sign && x.isFinNz || x == .inf true
  if x.isNan then exact .nan
  else if negArg && (f == .log true || f == .sqrt || f == .rsqrt) then exact .nan
  else
    let odd := x.sign && (h.sign == 1 || f == .recip)
    match select h x with
    | .none | .near _ => exact (Fv.of32 (Config.freeLookup slot (key32 x)).toNat)
    | .edge c0 c1 a =>
      let v := edgeVal c0 c1 a
      let r := c5Op v
      let t := Fv.negIf odd r.1
      if !onM && (f == .silu || f == .geluTanh) then
        let r2 := c5Op (Fv.mul x t); ⟨r2.1, none, r.2 ||| r2.2⟩
      else ⟨t, none, r.2⟩
    | .seg i fr =>
      let ws := Tab.s5Words b i
      let e := x.expo
      let m : Fv := .fin false (2 ^ 23 + fr) (-23)
      let j := fr >>> (23 - h.n)
      let left : Fv := .fin false (2 ^ h.n + j) (-(h.n : Int))
      let arg := if onM then (if h.mode = 4 then m.scale (e % 2) else m)
                 else if h.sign = 2 then x else x.abs
      let xseg :=
        if onM then (if h.mode = 4 then left.scale (e % 2) else left)
        else if h.sign = 2 && x.sign then (Fv.scale e (.fin true (2 ^ h.n + j + 1) (-(h.n : Int))))
        else left.scale e
      let d := c5Op (Fv.sub arg xseg)
      let t := c5Op (Fv.add (Fv.mul (Fv.of32 ws.2) d.1) (Fv.of32 ws.1))
      let half := (e - e % 2) / 2
      let y := match f with
        | .log _ => c5Op (Fv.add (Fv.mul (Fv.ofInt e) (Fv.of32 0x3F317218)) t.1)
        | .recip => c5Op (t.1.scale (-e))
        | .sqrt => c5Op (t.1.scale half)
        | .rsqrt => c5Op (t.1.scale (-half))
        | .silu | .geluTanh => c5Op (Fv.mul x t.1)
        | _ => (t.1, 0)
      ⟨Fv.negIf odd y.1, none, d.2 ||| t.2 ||| y.2⟩

end Lane
end Sys2Proof.Machine
end

