-- ==== Sys2Proof/Machine/Reduce.lean ====
section
/-!
DEFINITION. The fixed order of every reduction (R255 to R258), terms and exact chunk registers (R260 to R265), the range
retry (R284 to R288), the softmax state (R308, R313), the shifted variance (R321) and the S5's sums (R292).
-/
namespace Sys2Proof.Machine
open Sys2Proof Sys2Proof.Machine.Num

/-- An element of an input as the lanes see it: its FP32 form (R410), the exact image of an L-family element, the value of
its code before any scale, its block's scale code and the census counts of its decoding. -/
structure El where
  x : Fv
  img : Option L36
  val : Fv
  sc : Nat
  cns : Nat
deriving DecidableEq, Repr

/-- Is the element an infinity of a sign? The exact image of an L-family element decides, whatever its FP32 form (R60, R814). -/
def El.isInfS (e : El) (neg : Bool) : Bool :=
  match e.img with
  | some z => z.isInf && z.neg == neg
  | none => e.x == .inf neg

/-- One chunk: its index in the logical row, and its 32 positions (a masked position is none). -/
structure Chunk where
  idx : Nat
  els : List (Option El)
deriving DecidableEq, Repr

/-- What a row of elements is: the format's family decides the form of its terms (R260). `t` is the per-tensor scale. -/
inductive RowFam where
  | ieee
  | log
  | exact (t : Nat)
deriving DecidableEq, Repr

namespace Red

/-- EMPTY is an absent operand (R256). -/
def comb (a b : Option Fv) : Option Fv :=
  match a, b with
  | none, b => b
  | a, none => a
  | some x, some y => some (Fv.add32 x y)

/-- One level of the pairwise tree. -/
def pairs : List (Option Fv) → List (Option Fv)
  | a :: b :: r => comb a b :: pairs r
  | r => r

/-- The pairwise tree over 32 operands: five levels (R256). -/
def tree (ts : List (Option Fv)) : Option Fv := ((pairs (pairs (pairs (pairs (pairs ts))))).head?).join

/-- Unmasked elements. -/
def live (c : Chunk) : List El := c.els.filterMap id

/-- Is the value of an element, in the form that enters the row, a NaN or an infinity (R261)? -/
def valFv (f : RowFam) (e : El) : Fv :=
  match f with
  | .ieee => e.x
  | .log => match e.img with
    | some z => if z.isNan then .nan else if z.isInf then .inf z.neg else if z.isZero then Fv.zeroS z.neg
                else .fin z.neg 1 (z.mag / 2 ^ 24)
    | none => e.x
  | .exact _ => if e.sc = 0xFF then .nan else e.val

/-- floor(log2 |v|) of an element's exact value, where it is finite and not zero (R285). -/
def expoOf (f : RowFam) (e : El) : Option Int :=
  match f with
  | .exact t =>
    if e.sc ≠ 0xFF && e.val.isFinNz then some (Fv.scale ((e.sc : Int) - 127) (Fv.mul (Fv.of32 t) e.val)).expo else none
  | f => let v := valFv f e; if v.isFinNz then some v.expo else none

/-- A term (R260): the value, or its square, under the retry scaling 2^-k. -/
def term (c : Conv) (f : RowFam) (sq : Bool) (k : Int) (e : El) : Fv :=
  match f, e.img with
  | .log, some z =>
    let z := if sq then (L36.mul z z).addInt (-2 * k) else z.addInt (-k)
    Fv.rne32 (Lane.froml c z)
  | _, _ => let v := e.x.scale (-k); Fv.rne32 (if sq then Fv.mul v v else v)

/-- The exact chunk register and its one rounding (R262 to R265). -/
def chunkExact (t : Nat) (sq : Bool) (k : Int) (ch : Chunk) : Option Fv :=
  let es := live ch
  match es with
  | [] => none
  | e0 :: _ =>
    if e0.sc = 0xFF then some .nan
    else
      let r := es.foldl (fun a e => Fv.add a (if sq then Fv.mul e.val e.val else e.val)) Fv.zero
      if r.isZero then some (Fv.zeroS (!sq && es.all (fun e => e.val.isZero && e.val.sign)))
      else
        let tv := Fv.of32 t
        let kb : Int := (e0.sc : Int) - 127
        some (Fv.rne32 (if sq then (Fv.mul r (Fv.mul tv tv)).scale (2 * kb - 2 * k) else (Fv.mul r tv).scale (kb - k)))

/-- A chunk's total (R256, R264). -/
def chunkTotal (c : Conv) (f : RowFam) (sq : Bool) (k : Int) (ch : Chunk) : Option Fv :=
  match f with
  | .exact t => chunkExact t sq k ch
  | f => tree (ch.els.map (fun e => e.map (term c f sq k)))

/-- Chunks grouped by segment, in order; 128 chunks make a segment (R255). -/
def segments : List Chunk → List (Nat × List Chunk)
  | [] => []
  | c :: cs =>
    match segments cs with
    | (g, xs) :: r => if g = c.idx / 128 then (g, c :: xs) :: r else (c.idx / 128, [c]) :: (g, xs) :: r
    | [] => [(c.idx / 128, [c])]

/-- The largest exponent among unmasked finite nonzero elements (R285). -/
def emax (f : RowFam) (es : List El) : Option Int :=
  es.foldl (fun a e => match expoOf f e, a with
    | none, a => a
    | some x, none => some x
    | some x, some y => some (max x y)) none

/-- What R261 says of a row: a NaN, infinities of both signs, one infinity, or nothing. -/
inductive Spec where
  | plain
  | nan
  | both
  | inf (neg : Bool)
deriving DecidableEq, Repr

def spec (vs : List Fv) : Spec :=
  if vs.any Fv.isNan then .nan
  else
    let p := vs.any (· == .inf false)
    let n := vs.any (· == .inf true)
    if p && n then .both else if p then .inf false else if n then .inf true else .plain

/-- The sum that R261 delivers. -/
def specTotal (s : Spec) (sq : Bool) : Option Fv :=
  match s with
  | .plain => none
  | .nan => some .nan
  | .both => some (if sq then .inf false else .nan)
  | .inf n => some (.inf (if sq then false else n))

/-- ceil(log2 n). -/
def clog2 (n : Nat) : Int := if n ≤ 1 then 0 else (Nat.log2 (n - 1) + 1 : Nat)

/-- The retry's k (R285). -/
def retryK (attempt : Nat) (emax : Int) (ncnt : Nat) (sq overflowed : Bool) : Int :=
  let l := clog2 ncnt
  let k1 := if sq then emax - (98 - l) / 2 else emax + l - 99
  if attempt ≤ 1 then k1
  else let d : Int := if sq then 12 else 24; if overflowed then k1 + d else k1 - d

/-- 2^-96. -/
def lowBound : Fv := .fin false 1 (-96)

/-- Does an attempt's total call for a retry (R284)? `nz`: an unmasked element is nonzero. -/
def trigger (sq nz : Bool) (t : Fv) : Bool :=
  !t.isFin || (if sq then nz && Fv.lt t lowBound else t.isFinNz && Fv.lt t.abs lowBound)

/-- Elements of a row. -/
def rowEls (cs : List Chunk) : List El := cs.flatMap live

/-- A value with the UNDERFLOW count of a flushed step under COMPAT_GEN = 5 (R179). -/
abbrev C5 := Option Fv × Nat

/-- One step of an S5 accumulator. -/
def comb5 (a : C5) (b : Option Fv) : C5 :=
  match a.1, b with
  | none, b => (b, a.2)
  | a', none => (a', a.2)
  | some x, some y => let r := Lane.c5Op (Fv.add x y); (some r.1, a.2 ||| r.2)

/-- The S5's row sum: four interleaved accumulators (R292). Each term stands with its logical index. -/
def sum5 (ts : List (Nat × Fv)) : Fv × Nat :=
  let acc := fun (j : Nat) => (ts.filter (fun t => t.1 % 4 == j)).foldl (fun a t => comb5 a (some t.2)) (none, 0)
  let a := acc 0; let b := acc 1; let c := acc 2; let d := acc 3
  let ab := comb5 (a.1, a.2 ||| b.2) b.1
  let cd := comb5 (c.1, c.2 ||| d.2) d.1
  let r := comb5 (ab.1, ab.2 ||| cd.2) cd.1
  (r.1.getD Fv.zero, r.2)

/-- Unmasked elements with their logical indices. -/
def indexed (cs : List Chunk) : List (Nat × El) :=
  cs.flatMap (fun c => (c.els.mapIdx (fun i e => (32 * c.idx + i, e))).filterMap (fun p => p.2.map (fun e => (p.1, e))))

/-- The square of an element under COMPAT_GEN = 5 (R292); its count belongs to the element (R179). -/
def sq5 (e : El) : Fv × Nat := Lane.c5Op (Fv.mul e.x e.x)

/-- The S5's sum or sum of squares of a row, with the UNDERFLOW count of its additions. -/
def rowSum5 (sq : Bool) (cs : List Chunk) : Fv × Nat :=
  sum5 ((indexed cs).map (fun p => (p.1, if sq then (sq5 p.2).1 else p.2.x)))

/-- A softmax state: s relative to m (R308). -/
structure St where
  s : Option Fv
  m : Fv
deriving DecidableEq, Repr

def St.empty : St := ⟨none, .inf true⟩

/-- How terms are formed: the exponential's banks, the number of passes, and under COMPAT_GEN = 5 the bank of the S5
exponential. -/
structure SoftCtx where
  t : FnTab
  k : Nat
  s5 : Option BankImg
deriving DecidableEq, Repr

/-- `ex(d)` (R308, R310), flushed under the default FP32 threshold (R313); the S5 exponential, with its UNDERFLOW counts
(R179), under COMPAT_GEN = 5. -/
def ex (c : SoftCtx) (d : Fv) : Fv × Nat :=
  match d with
  | .inf s => (if s then Fv.zero else .inf false, 0)
  | _ =>
    match c.s5 with
    | some b =>
      let q := Lane.c5Op d
      let r := Lane.evalS5 (.exp false) b 56 q.1
      (r.lin, q.2 ||| r.cns)
    | none =>
      match RealFn.flush .exp (.fin false 1 (-150)) d with
      | some y => (y, 0)
      | none => (Fv.rne32 (Lane.recipe (.exp false) c.t c.k d none).lin, 0)

/-- `rescale(s, d)`: one rounding of the product in L36 (R308), or an FP32 product under COMPAT_GEN = 5. -/
def rescale (c : SoftCtx) (s d : Fv) : Fv × Nat :=
  if c.s5.isSome then let e := ex c d; let r := Lane.c5Op (Fv.mul s e.1); (r.1, e.2 ||| r.2)
  else (Fv.rne32 (Lane.froml { c.t.conv with froml := c.t.fn } (L36.mul (Lane.tol c.t.conv s) (Lane.expL false d))), 0)

/-- `comb` of two sums of a state. -/
def combS (c : SoftCtx) (a b : Option Fv) : C5 := if c.s5.isSome then comb5 (a, 0) b else (comb a b, 0)

/-- The term of an element under a maximum m (R308): +0 for −∞, and 1 for +∞, so that the sum of a row with infinite elements
counts them (R315). The exact image decides what is infinite (R814): an element that is finite and no more than its FP32 form
overflows adds nothing beside an infinite maximum, and is no number beside a maximum of −∞ (log 88). -/
def softTerm (ex : Fv → Fv × Nat) (m : Fv) (e : El) : Fv × Nat :=
  if e.isInfS true then (Fv.zero, 0)
  else if m == .inf false then (if e.isInfS false then Fv.one else Fv.zero, 0)
  else ex (Fv.sub e.x m)

/-- The step of a segment state by one chunk (R308), and the UNDERFLOW counts of the step (R179). -/
def chunkStep (c : SoftCtx) (r : St) (els : List (Option El)) : St × Nat :=
  match els.filterMap id with
  | [] => (r, 0)
  | lv =>
    let m := (lv.map (fun (e : El) => e.x)).foldl Fv.maxT r.m
    let s : C5 := match r.s with
      | some s => if Fv.lt r.m m then let q := rescale c s (Fv.sub r.m m); (some q.1, q.2) else (some s, 0)
      | none => (none, 0)
    let ts := els.map (fun e => e.map (softTerm (ex c) m))
    let q := combS c s.1 (tree (ts.map (fun t => t.map (·.1))))
    (⟨q.1, m⟩, s.2 ||| q.2 ||| ts.foldl (fun a t => a ||| (t.map (·.2)).getD 0) 0)

/-- States of two stretches merged (R308), and the UNDERFLOW counts of the merge. -/
def merge (c : SoftCtx) (a b : St) : St × Nat :=
  match a.s, b.s with
  | none, _ => (b, 0)
  | _, none => (a, 0)
  | some sa, some sb =>
    let m := Fv.maxT a.m b.m
    let sa := if Fv.eqv a.m m then (sa, 0) else rescale c sa (Fv.sub a.m m)
    let sb := if Fv.eqv b.m m then (sb, 0) else rescale c sb (Fv.sub b.m m)
    let q := combS c (some sa.1) (some sb.1)
    (⟨q.1, m⟩, sa.2 ||| sb.2 ||| q.2)

/-- A variance state (R321). -/
structure Vst where
  n : Nat
  mu : Fv
  m2 : Fv
deriving DecidableEq, Repr

/-- One FP32 step of a variance state: rounded to nearest, or under COMPAT_GEN = 5 flushed first (R179). -/
def stepV (c5 : Bool) (v : Fv) : Fv × Nat := if c5 then Lane.c5Op v else (Fv.rne32 v, 0)

/-- The tree over the steps of a chunk. -/
def treeV (c5 : Bool) (ts : List (Option Fv)) : C5 :=
  if c5 then
    let lvl := fun (xs : List C5) => (List.range ((xs.length + 1) / 2)).map (fun i =>
      let a := xs.getD (2 * i) (none, 0)
      let b := xs.getD (2 * i + 1) (none, 0)
      comb5 (a.1, a.2 ||| b.2) b.1)
    (lvl (lvl (lvl (lvl (lvl (ts.map (fun t => (t, 0)))))))).headD (none, 0)
  else (tree ts, 0)

/-- A chunk's variance state, whether a shifted value is nonzero (R323), and the UNDERFLOW counts of its steps. -/
structure ChunkV where
  st : Vst
  nz : Bool
  cns : Nat
deriving DecidableEq, Repr

/-- The counts of a list of steps together. -/
def orCns (ts : List (Option (Fv × Nat))) : Nat := ts.foldl (fun a t => a ||| (t.map (·.2)).getD 0) 0

/-- One chunk's variance state under scaling 2^-k (R321). -/
def chunkV (c5 : Bool) (k : Int) (ch : Chunk) : Option ChunkV :=
  let ys := ch.els.map (fun e => e.map (fun e => (stepV c5 (e.x.scale (-k))).1))
  match ys.filterMap id with
  | [] => none
  | sh :: r =>
    let n := r.length + 1
    let shifted := ys.map (fun y => y.map (fun y => stepV c5 (Fv.sub y sh)))
    let d := treeV c5 (shifted.map (fun y => y.map (·.1)))
    let db := stepV c5 (Fv.div (d.1.getD Fv.zero) (Fv.ofNat n))
    let devs := shifted.map (fun y => y.map (fun y => stepV c5 (Fv.sub y.1 db.1)))
    let sqs := devs.map (fun y => y.map (fun y => stepV c5 (Fv.mul y.1 y.1)))
    let q := treeV c5 (sqs.map (fun y => y.map (·.1)))
    let mu := stepV c5 (Fv.add sh db.1)
    some ⟨⟨n, mu.1, q.1.getD Fv.zero⟩, shifted.any (fun y => match y with | some v => !v.1.isZero | none => false),
      orCns shifted ||| d.2 ||| db.2 ||| orCns devs ||| orCns sqs ||| q.2 ||| mu.2⟩

/-- `merge_v` (R321), with the UNDERFLOW counts of its steps under COMPAT_GEN = 5. -/
def mergeV (c5 : Bool) (a b : Vst) : Vst × Nat :=
  let n := a.n + b.n
  let d := stepV c5 (Fv.sub b.mu a.mu)
  let w := stepV c5 (Fv.div (Fv.ofNat (a.n * b.n)) (Fv.ofNat n))
  let f := stepV c5 (Fv.div (Fv.ofNat b.n) (Fv.ofNat n))
  let df := stepV c5 (Fv.mul d.1 f.1)
  let mu := stepV c5 (Fv.add a.mu df.1)
  let dd := stepV c5 (Fv.mul d.1 d.1)
  let dw := stepV c5 (Fv.mul dd.1 w.1)
  let mm := stepV c5 (Fv.add a.m2 b.m2)
  let m2 := stepV c5 (Fv.add mm.1 dw.1)
  (⟨n, mu.1, m2.1⟩, d.2 ||| w.2 ||| f.2 ||| df.2 ||| mu.2 ||| dd.2 ||| dw.2 ||| mm.2 ||| m2.2)

def mergeVO (c5 : Bool) (a b : Option Vst) : Option Vst × Nat :=
  match a, b with
  | none, b => (b, 0)
  | a, none => (a, 0)
  | some x, some y => let q := mergeV c5 x y; (some q.1, q.2)

/-- The retry trigger of ROWSTAT (R323). -/
def triggerV (nz : Bool) (v : Vst) : Bool := !v.mu.isFin || !v.m2.isFin || (nz && Fv.lt v.m2 lowBound)

end Red

/-- The value that a forward pass carries for a row or an element: EMPTY, a number, a softmax state or a variance state
(R529). -/
inductive Acc where
  | empty
  | num (v : Fv)
  | st (s m : Fv)
  | vst (n : Nat) (mu m2 : Fv)
deriving DecidableEq, Repr

/-- The combining step of a forward pass. -/
inductive AccOp where
  | sum
  | max
  | min
  | soft
  | var
deriving DecidableEq, Repr

namespace Acc

def ofO : Option Fv → Acc
  | none => .empty
  | some v => .num v

def ofSt (s : Red.St) : Acc := match s.s with | none => .empty | some v => .st v s.m

def ofV : Option Red.Vst → Acc
  | none => .empty
  | some v => .vst v.n v.mu v.m2

def toO : Acc → Option Fv
  | .num v => some v
  | _ => none

def toSt : Acc → Red.St
  | .st s m => ⟨some s, m⟩
  | _ => Red.St.empty

def toV : Acc → Option Red.Vst
  | .vst n mu m2 => some ⟨n, mu, m2⟩
  | _ => none

/-- ⊕ of the forward pass, with the UNDERFLOW counts of its steps under COMPAT_GEN = 5 (R179): EMPTY is the absent operand. -/
def combN (op : AccOp) (c : Red.SoftCtx) (a b : Acc) : Acc × Nat :=
  match a, b with
  | .empty, b => (b, 0)
  | a, .empty => (a, 0)
  | a, b =>
    match op with
    | .sum => let q := Red.combS c a.toO b.toO; (ofO q.1, q.2)
    | .max => (match a, b with | .num x, .num y => .num (Fv.maxT x y) | a, _ => a, 0)
    | .min => (match a, b with | .num x, .num y => .num (Fv.minT x y) | a, _ => a, 0)
    | .soft => let q := Red.merge c a.toSt b.toSt; (ofSt q.1, q.2)
    | .var => let q := Red.mergeVO c.s5.isSome a.toV b.toV; (ofV q.1, q.2)

/-- ⊕ of the forward pass. -/
def comb (op : AccOp) (c : Red.SoftCtx) (a b : Acc) : Acc := (combN op c a b).1

def fold (op : AccOp) (c : Red.SoftCtx) (a : Acc) (xs : List Acc) : Acc := xs.foldl (comb op c) a

end Acc
end Sys2Proof.Machine
end

