-- ==== Sys2Proof/Machine/Elementwise.lean ====
section
/-!
DEFINITION. The output path and the epilogue (R87 to R92), the elementwise operations CONVERT, FUNC, CLAMP, GATE and
AFFINE (R157 to R160, R410 to R420), the strict forms (R173 to R177) and micro-programs (R221 to R229).
-/
namespace Sys2Proof.Machine
open Sys2Proof Sys2Proof.Machine.Num

/-- What every element of a descriptor is computed under: the tables of its conversion steps, the number of passes, the
output reference, the clip bounds and whether COMPAT_GEN is 5. -/
structure Ctx where
  c5 : Bool
  conv : Conv
  passes : Nat
  o : ORef
  clip : Option (Nat × Nat)
deriving DecidableEq, Repr

/-- A function with the bank of its function slot, or with its program bank and the slots that the program names. -/
structure FnUse where
  fn : Fn
  bank : BankImg
  progSlots : List (Nat × BankImg)
deriving DecidableEq, Repr

/-- The epilogue fields: scale, bias by column, activation (R87). -/
structure Epi where
  scale : Option Nat
  bias : Option (List Nat)
  act : Option FnUse
deriving DecidableEq, Repr

def Epi.off : Epi := ⟨none, none, none⟩

/-- A value on its way to narrowing and the census counts made so far. -/
structure Cut where
  v : Nv
  cns : Nat
deriving DecidableEq, Repr

namespace Path

/-- Clip by exact comparison; a NaN stays (R88). A descriptor's bounds are in order (R90); where a program's CLAMP names bounds
that are not, the lower one is applied first (log 88). -/
def clipV (b : Option (Nat × Nat)) (v : Fv) : Fv :=
  match b with
  | none => v
  | some (lo, hi) =>
    if Fv.lt v (Fv.of32 lo) then Fv.of32 lo else if Fv.lt (Fv.of32 hi) v then Fv.of32 hi else v

/-- Clip of an L36 value against the bounds' images (R89). -/
def clipL (c : Conv) (b : Option (Nat × Nat)) (z : L36) : L36 :=
  match b with
  | none => z
  | some (lo, hi) =>
    let l := Lane.tol c (Fv.of32 lo)
    let h := Lane.tol c (Fv.of32 hi)
    if L36.lt z l then l else if L36.lt h z then h else z

/-- Subtraction of log2 of the output's per-tensor scale (R87); a field that leaves the L36 range becomes class infinite or zero,
as R139 has it for the fields of R138 (log 88). -/
def subT (o : ORef) (z : L36) : L36 := z.addInt (-(Elem.log2T o.t))

/-- q = v ÷ T (R87, R92). -/
def divT (o : ORef) (v : Fv) : Fv := Fv.div32 v (Fv.of32 o.t)

/-- The least normal exponent of an output format. -/
def emin (f : Fmt) : Int := 1 - f.bias

/-- An L36 value to the case of the output family (R157). -/
def outL (x : Ctx) (z : L36) : Cut :=
  match x.o.fmt.fam with
  | .ieee => ⟨.lin (clipV x.clip (Lane.froml x.conv z)), 0⟩
  | .log => ⟨.log (subT x.o (clipL x.conv x.clip z)), 0⟩
  | .scaled => ⟨.lin (divT x.o (clipV x.clip (Fv.rne32 (Lane.froml x.conv z)))), 0⟩

/-- A value in the unrounded form to the case of the output family (R87, R151, R179). -/
def outU (x : Ctx) (v : Fv) : Cut :=
  match x.o.fmt.fam with
  | .ieee =>
    let w := clipV x.clip v
    if x.c5 then let r := Lane.c5Out (emin x.o.fmt) w; ⟨.lin r.1, r.2⟩ else ⟨.lin w, 0⟩
  | .log => ⟨.log (subT x.o (clipL x.conv x.clip (Lane.tol x.conv (Fv.rne32 v)))), 0⟩
  | .scaled => ⟨.lin (divT x.o (clipV x.clip (Fv.rne32 v))), 0⟩

/-- The bank tables of a function. -/
def tabOf (x : Ctx) (f : FnUse) : FnTab := ⟨x.conv, f.bank⟩

/-- A function's result on the output path with nothing between (R411, R150, R151). -/
def fnOut (x : Ctx) (f : FnUse) (v : Fv) (img : Option L36) : Cut :=
  if x.c5 then
    let r := Lane.evalS5 f.fn f.bank ((f.fn.s5Slot).getD 0) v
    let c := outU x r.lin
    ⟨c.v, c.cns ||| r.cns⟩
  else
    let th := Lane.defTheta x.o.fmt
    match x.o.fmt.fam with
    | .log =>
      let r := Lane.evalL f.fn (tabOf x f) x.passes th v img
      ⟨.log (subT x.o (clipL x.conv x.clip r.1)), r.2⟩
    | _ =>
      let r := Lane.eval f.fn (tabOf x f) x.passes th v img
      let c := outU x r.lin
      ⟨c.v, c.cns ||| r.cns⟩

/-- y = fma(acc, s, b), rounded once; acc itself where both are off (R87). -/
def scaleBias (x : Ctx) (e : Epi) (acc : Fv) (col : Nat) : Fv × Nat :=
  match e.scale, e.bias with
  | none, none => (acc, 0)
  | s, b =>
    let sv := Fv.of32 (s.getD 0x3F800000)
    let sv := if x.c5 then Lane.c5In (-126) sv else sv
    let bv := match b with | some v => Fv.of32 (v.getD col 0) | none => Fv.zeroS true
    let bv := if x.c5 then Lane.c5In (-126) bv else bv
    let r := Fv.add (Fv.mul acc sv) bv
    if x.c5 then Lane.c5Op r else (Fv.rne32 r, 0)

/-- One element through the epilogue (R87). `img` is the exact image of an L-family element. -/
def epilogue (x : Ctx) (e : Epi) (acc : Fv) (img : Option L36) (col : Nat) : Cut :=
  let y := scaleBias x e acc col
  let c : Cut := match e.act with
    | some f => fnOut x f y.1 none
    | none =>
      match x.o.fmt.fam, img, e.scale.isNone && e.bias.isNone with
      | .log, some z, true => ⟨.log (subT x.o (clipL x.conv x.clip z)), 0⟩
      | .log, _, _ => ⟨.log (subT x.o (clipL x.conv x.clip (Lane.tol x.conv y.1))), 0⟩
      | _, _, _ => outU x y.1
  ⟨c.v, c.cns ||| y.2⟩

/-- CONVERT and CLAMP of one element (R412, R413). -/
def convert (x : Ctx) (e : Epi) (a : El) (col : Nat) : Cut :=
  let c := epilogue x e a.x a.img col
  ⟨c.v, c.cns ||| a.cns⟩

/-- FUNC of one element with a built-in or a user table (R411). -/
def func (x : Ctx) (e : Epi) (f : FnUse) (a : El) (col : Nat) : Cut :=
  if e.scale.isNone && e.bias.isNone && e.act.isNone then
    let c := fnOut x f a.x a.img
    ⟨c.v, c.cns ||| a.cns⟩
  else
    let r := if x.c5 then Lane.evalS5 f.fn f.bank ((f.fn.s5Slot).getD 0) a.x
             else Lane.eval f.fn (tabOf x f) x.passes (Lane.defTheta x.o.fmt) a.x a.img
    let c := epilogue x e (Fv.rne32 r.lin) none col
    ⟨c.v, c.cns ||| r.cns ||| a.cns⟩

/-- The L36 image of an operand (R157, R418). -/
def imageOf (x : Ctx) (a : El) : L36 := a.img.getD (Lane.tol x.conv a.x)

/-- GATE of one pair (R157 to R160, R181). -/
def gate (x : Ctx) (f : FnUse) (a b : El) : Cut :=
  if x.c5 then
    let r := Lane.evalS5 f.fn f.bank ((f.fn.s5Slot).getD 0) a.x
    let p := Lane.c5Op (Fv.mul r.lin b.x)
    let c := outU x p.1
    ⟨c.v, c.cns ||| p.2 ||| r.cns ||| a.cns ||| b.cns⟩
  else
    let r := Lane.evalL f.fn (tabOf x f) 1 (Lane.defTheta x.o.fmt) a.x a.img
    let c := outL x (L36.mul r.1 (imageOf x b))
    ⟨c.v, c.cns ||| r.2 ||| a.cns ||| b.cns⟩

/-- The forms of AFFINE (R417). -/
inductive Form where
  | add
  | mul
  | fma
  | div
deriving DecidableEq, Repr

def Form.ofCode (c : Nat) : Form :=
  match c with | 0 => .add | 1 => .mul | 2 => .fma | _ => .div

/-- The product or quotient of AFFINE in k passes as a value, before the output path; L36 where it stays in L36
(R418, R419). -/
def product (x : Ctx) (dv : Bool) (a b : El) : Cut :=
  let ia := imageOf x a
  let ib := imageOf x b
  let z := if dv then L36.div ia ib else L36.mul ia ib
  if x.passes ≤ 1 then ⟨.log z, 0⟩
  else if a.img.isSome then
    if x.o.fmt.isL then ⟨.log z, 0⟩ else ⟨.lin (Fv.trunc48 (Fv.pr (Lane.fromlK x.conv x.passes z))), 0⟩
  else if !dv then ⟨.lin (Fv.trunc48 (Fv.pr (Fv.mul a.x b.x))), 0⟩
  else if !z.isFin then ⟨.lin (Lane.froml x.conv z), 0⟩
  else
    let r := Fv.pr (Lane.froml x.conv ib.recip)
    let corr := fun (q : Fv) => Fv.padd q (Fv.pmul (Fv.padd a.x (Fv.pmul b.x q).neg) r)
    ⟨.lin (Fv.trunc48 (Lane.refine corr (x.passes - 1) (Lane.froml x.conv z))), 0⟩

/-- AFFINE of one element outside STRICT (R418, R419, R181). -/
def affine (x : Ctx) (f : Form) (a b : El) (c : Option El) : Cut :=
  let cns := a.cns ||| b.cns ||| (match c with | some e => e.cns | none => 0)
  let cx := match c with | some e => e.x | none => Fv.zero
  let fin := fun (r : Cut) => Cut.mk r.v (r.cns ||| cns)
  if x.c5 then
    match f with
    | .add => let r := outU x (Fv.add a.x b.x); fin r
    | .mul => let p := Lane.c5Op (Fv.mul a.x b.x); let r := outU x p.1; fin ⟨r.v, r.cns ||| p.2⟩
    | .div => let p := Lane.c5Op (Fv.div a.x b.x); let r := outU x p.1; fin ⟨r.v, r.cns ||| p.2⟩
    | .fma => let p := Lane.c5Op (Fv.mul a.x b.x); let r := outU x (Fv.add p.1 cx); fin ⟨r.v, r.cns ||| p.2⟩
  else
    match f with
    | .add => fin (outU x (Fv.add a.x b.x))
    | .mul => let p := product x false a b
              fin (match p.v with | .log z => outL x z | .lin v => outU x v)
    | .div => let p := product x true a b
              fin (match p.v with | .log z => outL x z | .lin v => outU x v)
    | .fma => let p := product x false a b
              let m := match p.v with | .log z => Lane.fromlK x.conv x.passes z | .lin v => v
              fin (outU x (Fv.add (Fv.rne32 m) cx))

end Path

namespace Strict

/-- IEEE 754 exception flags: invalid 1, division by zero 2, overflow 4, underflow 8, inexact 16. -/
abbrev fINV : Nat := 1
abbrev fDIV : Nat := 2
abbrev fOVF : Nat := 4
abbrev fUND : Nat := 8
abbrev fINX : Nat := 16

/-- Rounding of an exact result to the output format with its flags; tininess is detected after rounding (R175, R176). -/
def round (f : Fmt) (v : Fv) : Fv × Nat :=
  let p := f.manBits + 1
  let emax := f.bias
  let emin := 1 - f.bias
  let r := Fv.roundTo p emin emax .rne v
  match v with
  | .fin _ m _ =>
    if m = 0 then (r, 0)
    else
      let inx := !(Fv.eqv r v)
      let tiny := decide ((Fv.roundU p v).expo < emin)
      if r.isInf then (r, fOVF ||| fINX) else (r, (if inx then fINX else 0) ||| (if tiny && inx then fUND else 0))
  | _ => (r, 0)

/-- The flag of a signalling NaN operand (R51). -/
def snan (f : Fmt) (code : Nat) : Nat :=
  if (Elem.value f [] code).isNan && !bit code (f.manBits - 1) then fINV else 0

/-- A new NaN from operands that are none is an invalid operation. -/
def invalid (ops : List Fv) (r : Fv) : Nat := if r.isNan && !ops.any Fv.isNan then fINV else 0

/-- One strict operation: its exact result, and the flags of rounding it once to the output format (R175, R177). -/
def op (f : Fmt) (ops : List Fv) (r : Fv) (dz : Bool) : Fv × Nat :=
  (r, (round f r).2 ||| invalid ops r ||| (if dz then fDIV else 0))

/-- The quotient with more bits than FP64 rounding reads. -/
def div (a b : Fv) : Fv := Fv.div a b

def isDz (a b : Fv) : Bool := a.isFinNz && b.isZero

/-- The forms of AFFINE, and with FMA the SCALE and BIAS of CONVERT and FUNC: exact result and flags. -/
def affine (f : Fmt) (fm : Path.Form) (a b c : Fv) : Fv × Nat :=
  match fm with
  | .add => op f [a, b] (Fv.add a b) false
  | .mul => op f [a, b] (Fv.mul a b) false
  | .div => op f [a, b] (div a b) (isDz a b)
  | .fma =>
    let m := Fv.mul a b
    let r := Fv.add m c
    let q := op f [a, b, c] r false
    -- ∞ × 0 is invalid whatever the addend
    (q.1, q.2 ||| (if m.isNan && !a.isNan && !b.isNan then fINV else 0))

def recip (f : Fmt) (a : Fv) : Fv × Nat := op f [a] (div Fv.one a) (a.isZero)
def sqrt (f : Fmt) (a : Fv) : Fv × Nat := op f [a] (Fv.sqrt a) false
def conv (f : Fmt) (a : Fv) : Fv × Nat := op f [a] a false

end Strict

namespace Prog

/-- A register: FP32 or L36 (R223). -/
inductive Reg where
  | f (v : Fv)
  | l (z : L36)
deriving DecidableEq, Repr

def Reg.toF : Reg → Fv
  | .f v => v
  | .l _ => .nan

def Reg.toL : Reg → L36
  | .l z => z
  | .f _ => L36.nan

/-- A directory entry (R221). -/
structure Dir where
  start : Nat
  nSteps : Nat
  nConst : Nat
  nSlots : Nat
  valid : Bool
  chunkSum : Bool
deriving DecidableEq, Repr

def dir (b : List Byte) (i : Nat) : Dir :=
  let f := fun o n => field b (8 * i + o) n
  ⟨f 0 2, f 2 2, f 4 1, f 5 1, bit (f 6 1) 0, bit (f 6 1) 1⟩

/-- Word w of a program bank. -/
def word (b : List Byte) (w : Nat) : Nat := field b (4 * w) 4

/-- The slot references of a body: slot and generation (R222). -/
def slotRefs (b : List Byte) (d : Dir) : List (Nat × Nat) :=
  (List.range d.nSlots).map (fun i => (word b (d.start + 2 * i) % 256, word b (d.start + 2 * i + 1)))

def const (b : List Byte) (d : Dir) (i : Nat) : Nat := word b (d.start + 2 * d.nSlots + i)

def step (b : List Byte) (d : Dir) (i : Nat) : Nat := word b (d.start + 2 * d.nSlots + d.nConst + i)

/-- What a program runs on: its bank, the banks of its slots, the conversion tables, the number of passes. -/
structure Env where
  bank : List Byte
  d : Dir
  slots : List (Nat × BankImg)
  conv : Conv
  k : Nat
deriving DecidableEq, Repr

/-- The registers of a lane; v0 holds the decoded input. -/
abbrev Regs := List Reg

def get (r : Regs) (i : Nat) : Reg := r.getD i (.f Fv.zero)

/-- An F operand with its modifiers. -/
def opF (w nb ab : Nat) (v : Fv) : Fv := let v := if bit w ab then v.abs else v; Fv.negIf (bit w nb) v

/-- An L operand: NEG negates the log field, making a reciprocal (R227). -/
def opL (w nb : Nat) (z : L36) : L36 := if bit w nb then z.recip else z

/-- One step of one lane, CHUNKSUM apart (R226, R227). Where a program references a slot at two generations, TAB reads the first
reference (log 88). -/
def exec1 (e : Env) (w : Nat) (r : Regs) : Reg :=
  let sa := get r (bits w 22 20)
  let sb := get r (bits w 19 17)
  let sc := get r (bits w 16 14)
  let imm := bits w 13 8
  let a := opF w 0 2 sa.toF
  let b := opF w 1 3 sb.toF
  let c := fun i => Fv.of32 (const e.bank e.d i)
  let old := get r (bits w 25 23)
  match bits w 31 26 with
  | 0x01 => .l (Lane.tol e.conv a)
  | 0x02 => .f (Fv.rne32 (Lane.froml e.conv sa.toL))
  | 0x03 => .l (L36.mul (opL w 0 sa.toL) (opL w 1 sb.toL))
  | 0x04 => .l (Lane.pow sa.toL (c imm))
  | 0x05 =>
    let bank := ((e.slots.find? (fun s => s.1 == imm)).map (·.2)).getD (.img [])
    match Lane.lookup bank imm e.k a with
    | .lin v => .f (Fv.rne32 v)
    | .log z => .l z
    | .logv n v => let z := Lane.logField v; .l (if n then z.negate else z)
  | 0x06 => .f (Fv.add32 a b)
  | 0x07 => .f (Fv.mul32 a b)
  | 0x08 => .f (Fv.fma32 a b sc.toF)
  | 0x09 =>
    let t := match imm with | 0 => Fv.eqv a b | 1 => Fv.lt a b | _ => Fv.le a b
    if t then sc else old
  | 0x0A => .f (Path.clipV (some (const e.bank e.d imm, const e.bank e.d (imm + 1))) a)
  | 0x0B => .f (c imm)
  | _ => old

/-- One step over the 32 lanes of a chunk; a masked lane adds +0 to CHUNKSUM (R229). -/
def stepAll (e : Env) (live : List Bool) (rs : List Regs) (w : Nat) : List Regs :=
  let d := bits w 25 23
  if bits w 31 26 = 0x0C then
    let ts := (rs.zip live).map (fun p => some (if p.2 then opF w 0 2 (get p.1 (bits w 22 20)).toF else Fv.zero))
    let s := (Red.tree ts).getD Fv.zero
    rs.map (fun r => r.set d (.f s))
  else if bits w 31 26 = 0 then rs
  else rs.map (fun r => r.set d (exec1 e w r))

/-- A program over one chunk; the result of each unmasked lane is v0 at END (R224). -/
def run (e : Env) (els : List (Option El)) : List (Option Reg) :=
  let init := els.map (fun x => (Reg.f (match x with | some a => a.x | none => Fv.zero)) :: List.replicate 7 (Reg.f Fv.zero))
  let live := els.map Option.isSome
  let rs := (List.range e.d.nSteps).foldl (fun rs i => stepAll e live rs (step e.bank e.d i)) init
  (rs.zip live).map (fun p => if p.2 then some (get p.1 0) else none)

/-- The program that a function use names; its directory entry is read as it stands, VALID clear included (log 88). -/
def env (x : Ctx) (f : FnUse) (idx : Nat) : Env :=
  let b := match f.bank with | .img b => b | .rom _ => []
  ⟨b, dir b idx, f.progSlots, x.conv, x.passes⟩

/-- FUNC with a micro-program over one chunk (R224, R411). -/
def func (x : Ctx) (e : Epi) (f : FnUse) (idx : Nat) (els : List (Option El)) (col0 : Nat) : List (Option Cut) :=
  let rs := run (env x f idx) els
  (els.zip rs).mapIdx (fun i p =>
    match p with
    | (some a, some r) =>
      let c : Cut :=
        if e.scale.isNone && e.bias.isNone && e.act.isNone then
          match r with | .f v => Path.outU x v | .l z => Path.outL x z
        else
          let acc := match r with | .f v => v | .l z => Fv.rne32 (Lane.froml x.conv z)
          Path.epilogue x e acc none (col0 + i)
      some ⟨c.v, c.cns ||| a.cns⟩
    | _ => none)

end Prog
end Sys2Proof.Machine
end

