-- ==== Sys2Proof/Machine/Hash.lean ====
section
/-!
DEFINITION. The checks that the manual computes over bytes: the CRC-64 of hallmarks and digests (R364), the CRC-32
of flits and journal records (R545), SHA-256 of an ingot (R201, R202) and the Ed25519 signature of its header
(R201, RFC 8032, with SHA-512).
-/
namespace Sys2Proof.Machine.Hash
open Sys2Proof

/-- One bit step of a reflected CRC. -/
def crcBit (poly c : Nat) : Nat := if c % 2 = 1 then (c >>> 1) ^^^ poly else c >>> 1

/-- `n` bit steps. -/
def crcBits (poly : Nat) : Nat → Nat → Nat
  | 0, c => c
  | n + 1, c => crcBits poly n (crcBit poly c)

/-- One byte into a reflected CRC. -/
def crcByte (poly c : Nat) (b : Byte) : Nat := crcBits poly 8 (c ^^^ b.toNat)

/-- The CRC-64 of R364 before the final exclusive or. -/
def crc64From (c : Nat) (bs : List Byte) : Nat := bs.foldl (crcByte 0xC96C5795D7870F42) c

/-- The CRC-64 of R364. -/
def crc64 (bs : List Byte) : Nat := crc64From 0xFFFFFFFFFFFFFFFF bs ^^^ 0xFFFFFFFFFFFFFFFF

/-- The CRC-32 of R545. -/
def crc32 (bs : List Byte) : Nat := bs.foldl (crcByte 0xEDB88320) 0xFFFFFFFF ^^^ 0xFFFFFFFF

/-- The number that bytes spell, most significant byte first. -/
def ofBytesBE (bs : List Byte) : Nat := bs.foldl (fun a b => a * 256 + b.toNat) 0

/-- `n` bytes of `x`, most significant first. -/
def toBytesBE (n x : Nat) : List Byte := (toBytes n x).reverse

/-- Rotation to the right within `w` bits. -/
def rotr (w x n : Nat) : Nat := ((x >>> n) ||| (x <<< (w - n))) % 2 ^ w

/-- The message padded to whole blocks of `blk` bytes, its length in `lb` bytes at the end (FIPS 180-4, 5.1). -/
def shaPad (blk lb : Nat) (m : List Byte) : List Byte :=
  let z := (blk - (m.length + 1 + lb) % blk) % blk
  m ++ [0x80#8] ++ zeroBytes z ++ toBytesBE lb (8 * m.length)

/-- Bytes cut into pieces of `k`, at most `fuel` of them. -/
def pieces (k : Nat) : Nat → List Byte → List (List Byte)
  | 0, _ => []
  | f + 1, bs => if bs.isEmpty then [] else bs.take k :: pieces k f (bs.drop k)

/-- The rotation amounts of a SHA-2 width: Σ0, Σ1, σ0 and σ1. -/
structure ShaRot where
  a0 : Nat
  a1 : Nat
  a2 : Nat
  b0 : Nat
  b1 : Nat
  b2 : Nat
  c0 : Nat
  c1 : Nat
  c2 : Nat
  d0 : Nat
  d1 : Nat
  d2 : Nat

def rot256 : ShaRot := ⟨2, 13, 22, 6, 11, 25, 7, 18, 3, 17, 19, 10⟩
def rot512 : ShaRot := ⟨28, 34, 39, 14, 18, 41, 1, 8, 7, 19, 61, 6⟩

/-- The message schedule, newest word first. -/
def shaSched (w : Nat) (r : ShaRot) : Nat → List Nat → List Nat
  | 0, ws => ws
  | n + 1, ws =>
    let g := fun i => ws.getD i 0
    let x := g 14
    let y := g 1
    let s0 := rotr w x r.c0 ^^^ rotr w x r.c1 ^^^ (x >>> r.c2)
    let s1 := rotr w y r.d0 ^^^ rotr w y r.d1 ^^^ (y >>> r.d2)
    shaSched w r n ((g 15 + s0 + g 6 + s1) % 2 ^ w :: ws)

/-- One round of the compression function. -/
def shaRound (w : Nat) (r : ShaRot) (s : List Nat) (kw : Nat × Nat) : List Nat :=
  match s with
  | [a, b, c, d, e, f, g, h] =>
    let s1 := rotr w e r.b0 ^^^ rotr w e r.b1 ^^^ rotr w e r.b2
    let ch := (e &&& f) ^^^ ((2 ^ w - 1 - e) &&& g)
    let t1 := h + s1 + ch + kw.1 + kw.2
    let s0 := rotr w a r.a0 ^^^ rotr w a r.a1 ^^^ rotr w a r.a2
    let mj := (a &&& b) ^^^ (a &&& c) ^^^ (b &&& c)
    [(t1 + s0 + mj) % 2 ^ w, a, b, c, (d + t1) % 2 ^ w, e, f, g]
  | _ => s

/-- One block into the state. -/
def shaBlock (w : Nat) (r : ShaRot) (k : List Nat) (h : List Nat) (blk : List Byte) : List Nat :=
  let ws := (pieces (w / 8) 16 blk).map ofBytesBE
  let sch := (shaSched w r (k.length - 16) ws.reverse).reverse
  let o := (k.zip sch).foldl (shaRound w r) h
  (h.zip o).map (fun p => (p.1 + p.2) % 2 ^ w)

/-- The initial words of SHA-256: fractional parts of the square roots of the first eight primes (FIPS 180-4). -/
def h256 : List Nat :=
   [0x6A09E667, 0xBB67AE85, 0x3C6EF372, 0xA54FF53A, 0x510E527F, 0x9B05688C, 0x1F83D9AB, 0x5BE0CD19]

/-- The round constants of SHA-256: fractional parts of the cube roots of the first 64 primes. -/
def k256 : List Nat :=
   [0x428A2F98, 0x71374491, 0xB5C0FBCF, 0xE9B5DBA5, 0x3956C25B, 0x59F111F1, 0x923F82A4, 0xAB1C5ED5] ++
   [0xD807AA98, 0x12835B01, 0x243185BE, 0x550C7DC3, 0x72BE5D74, 0x80DEB1FE, 0x9BDC06A7, 0xC19BF174] ++
   [0xE49B69C1, 0xEFBE4786, 0xFC19DC6, 0x240CA1CC, 0x2DE92C6F, 0x4A7484AA, 0x5CB0A9DC, 0x76F988DA] ++
   [0x983E5152, 0xA831C66D, 0xB00327C8, 0xBF597FC7, 0xC6E00BF3, 0xD5A79147, 0x6CA6351, 0x14292967] ++
   [0x27B70A85, 0x2E1B2138, 0x4D2C6DFC, 0x53380D13, 0x650A7354, 0x766A0ABB, 0x81C2C92E, 0x92722C85] ++
   [0xA2BFE8A1, 0xA81A664B, 0xC24B8B70, 0xC76C51A3, 0xD192E819, 0xD6990624, 0xF40E3585, 0x106AA070] ++
   [0x19A4C116, 0x1E376C08, 0x2748774C, 0x34B0BCB5, 0x391C0CB3, 0x4ED8AA4A, 0x5B9CCA4F, 0x682E6FF3] ++
   [0x748F82EE, 0x78A5636F, 0x84C87814, 0x8CC70208, 0x90BEFFFA, 0xA4506CEB, 0xBEF9A3F7, 0xC67178F2]

/-- The initial words of SHA-512. -/
def h512 : List Nat :=
   [0x6A09E667F3BCC908, 0xBB67AE8584CAA73B, 0x3C6EF372FE94F82B, 0xA54FF53A5F1D36F1] ++
   [0x510E527FADE682D1, 0x9B05688C2B3E6C1F, 0x1F83D9ABFB41BD6B, 0x5BE0CD19137E2179]

/-- The round constants of SHA-512. -/
def k512 : List Nat :=
   [0x428A2F98D728AE22, 0x7137449123EF65CD, 0xB5C0FBCFEC4D3B2F, 0xE9B5DBA58189DBBC] ++
   [0x3956C25BF348B538, 0x59F111F1B605D019, 0x923F82A4AF194F9B, 0xAB1C5ED5DA6D8118] ++
   [0xD807AA98A3030242, 0x12835B0145706FBE, 0x243185BE4EE4B28C, 0x550C7DC3D5FFB4E2] ++
   [0x72BE5D74F27B896F, 0x80DEB1FE3B1696B1, 0x9BDC06A725C71235, 0xC19BF174CF692694] ++
   [0xE49B69C19EF14AD2, 0xEFBE4786384F25E3, 0xFC19DC68B8CD5B5, 0x240CA1CC77AC9C65] ++
   [0x2DE92C6F592B0275, 0x4A7484AA6EA6E483, 0x5CB0A9DCBD41FBD4, 0x76F988DA831153B5] ++
   [0x983E5152EE66DFAB, 0xA831C66D2DB43210, 0xB00327C898FB213F, 0xBF597FC7BEEF0EE4] ++
   [0xC6E00BF33DA88FC2, 0xD5A79147930AA725, 0x6CA6351E003826F, 0x142929670A0E6E70] ++
   [0x27B70A8546D22FFC, 0x2E1B21385C26C926, 0x4D2C6DFC5AC42AED, 0x53380D139D95B3DF] ++
   [0x650A73548BAF63DE, 0x766A0ABB3C77B2A8, 0x81C2C92E47EDAEE6, 0x92722C851482353B] ++
   [0xA2BFE8A14CF10364, 0xA81A664BBC423001, 0xC24B8B70D0F89791, 0xC76C51A30654BE30] ++
   [0xD192E819D6EF5218, 0xD69906245565A910, 0xF40E35855771202A, 0x106AA07032BBD1B8] ++
   [0x19A4C116B8D2D0C8, 0x1E376C085141AB53, 0x2748774CDF8EEB99, 0x34B0BCB5E19B48A8] ++
   [0x391C0CB3C5C95A63, 0x4ED8AA4AE3418ACB, 0x5B9CCA4F7763E373, 0x682E6FF3D6B2B8A3] ++
   [0x748F82EE5DEFB2FC, 0x78A5636F43172F60, 0x84C87814A1F0AB72, 0x8CC702081A6439EC] ++
   [0x90BEFFFA23631E28, 0xA4506CEBDE82BDE9, 0xBEF9A3F7B2C67915, 0xC67178F2E372532B] ++
   [0xCA273ECEEA26619C, 0xD186B8C721C0C207, 0xEADA7DD6CDE0EB1E, 0xF57D4F7FEE6ED178] ++
   [0x6F067AA72176FBA, 0xA637DC5A2C898A6, 0x113F9804BEF90DAE, 0x1B710B35131C471B] ++
   [0x28DB77F523047D84, 0x32CAAB7B40C72493, 0x3C9EBE0A15C9BEBC, 0x431D67C49C100D4C] ++
   [0x4CC5D4BECB3E42B6, 0x597F299CFC657E2A, 0x5FCB6FAB3AD6FAEC, 0x6C44198C4A475817]

/-- SHA-256 (FIPS 180-4). -/
def sha256 (m : List Byte) : List Byte :=
  let p := shaPad 64 8 m
  let h := (pieces 64 (p.length / 64) p).foldl (shaBlock 32 rot256 k256) h256
  h.flatMap (toBytesBE 4)

/-- SHA-512 (FIPS 180-4). -/
def sha512 (m : List Byte) : List Byte :=
  let p := shaPad 128 16 m
  let h := (pieces 128 (p.length / 128) p).foldl (shaBlock 64 rot512 k512) h512
  h.flatMap (toBytesBE 8)

/-- The field prime of edwards25519. -/
def edP : Nat := 2 ^ 255 - 19

/-- The order of the base point. -/
def edL : Nat := 2 ^ 252 + 27742317777372353535851937790883648493

/-- b^e modulo m over `fuel` bits of the exponent. -/
def powMod (m : Nat) : Nat → Nat → Nat → Nat
  | 0, _, _ => 1 % m
  | k + 1, b, e =>
    let h := powMod m k (b * b % m) (e / 2)
    if e % 2 = 1 then b * h % m else h

/-- The inverse modulo the field prime. -/
def edInv (x : Nat) : Nat := powMod edP 255 (x % edP) (edP - 2)

/-- The curve constant d = −121665 ÷ 121666. -/
def edD : Nat := (edP - 121665) * edInv 121666 % edP

/-- A point in extended coordinates (X, Y, Z, T). -/
structure EdPt where
  x : Nat
  y : Nat
  z : Nat
  t : Nat

/-- The sum of two points (RFC 8032, 5.1.4). -/
def EdPt.add (p q : EdPt) : EdPt :=
  let a := (p.y + edP - p.x) * (q.y + edP - q.x) % edP
  let b := (p.y + p.x) * (q.y + q.x) % edP
  let c := p.t * 2 % edP * edD % edP * q.t % edP
  let d := p.z * 2 * q.z % edP
  let e := (b + edP - a) % edP
  let f := (d + edP - c) % edP
  let g := (d + c) % edP
  let h := (b + a) % edP
  ⟨e * f % edP, g * h % edP, f * g % edP, e * h % edP⟩

/-- The neutral point. -/
def EdPt.id : EdPt := ⟨0, 1, 1, 0⟩

/-- n times a point, over `fuel` bits of n. -/
def EdPt.mul : Nat → Nat → EdPt → EdPt
  | 0, _, _ => EdPt.id
  | k + 1, n, p =>
    let h := EdPt.mul k (n / 2) (p.add p)
    if n % 2 = 1 then p.add h else h

/-- Equality of points. -/
def EdPt.same (p q : EdPt) : Bool :=
  p.x * q.z % edP == q.x * p.z % edP && p.y * q.z % edP == q.y * p.z % edP

/-- The x coordinate for a y coordinate and a sign bit (RFC 8032, 5.1.3). -/
def edX (y sgn : Nat) : Option Nat :=
  if y ≥ edP then none else
  let u := (y * y + edP - 1) % edP
  let v := (edD * (y * y % edP) + 1) % edP
  let x2 := u * edInv v % edP
  if x2 = 0 then (if sgn = 1 then none else some 0) else
  let x := powMod edP 255 x2 ((edP + 3) / 8)
  let x := if x * x % edP = x2 then x else x * powMod edP 255 2 ((edP - 1) / 4) % edP
  if x * x % edP ≠ x2 then none
  else some (if x % 2 = sgn then x else edP - x)

/-- A point from its 32 bytes. -/
def edDecode (bs : List Byte) : Option EdPt :=
  let n := ofBytes bs
  let y := n % 2 ^ 255
  match edX y (n / 2 ^ 255) with
  | none => none
  | some x => some ⟨x, y, 1, x * y % edP⟩

/-- The base point: y = 4 ÷ 5, x even. -/
def edBase : EdPt :=
  let y := 4 * edInv 5 % edP
  let x := (edX y 0).getD 0
  ⟨x, y, 1, x * y % edP⟩

/-- Does the signature verify (RFC 8032, 5.1.7)? -/
def ed25519 (key msg sig : List Byte) : Bool :=
  if key.length ≠ 32 ∨ sig.length ≠ 64 then false else
  match edDecode key, edDecode (sig.take 32) with
  | some a, some r =>
    let s := ofBytes (sig.drop 32)
    if s ≥ edL then false else
    let k := ofBytes (sha512 (sig.take 32 ++ key ++ msg)) % edL
    (edBase.mul 256 s).same (r.add (a.mul 256 k))
  | _, _ => false

end Sys2Proof.Machine.Hash
end

