-- ==== Sys2Proof/Machine/Desc.lean ====
section
/-!
DEFINITION. Descriptors (R355, R383, R389, R407 to R447): the fields of the header and of every body, which fields and
values are reserved (R8, R385, R386, R391, R395, R399, R400, R490), and the memory ranges that a descriptor names (R405).
-/
namespace Sys2Proof.Machine
open Sys2Proof

/-- The operations of R383. -/
inductive Op where
  | fence | mark | capture | convert | affine | func | gate | clamp | rmsn | smax | lsmax | rowred | rowstat | scan
  | mcombine | chain | halo | upd | loadIngot | switch | peek
deriving DecidableEq, Repr

namespace Op

def ofCode (c : Nat) : Option Op :=
  match c with
  | 0x01 => some .fence | 0x02 => some .mark | 0x03 => some .capture
  | 0x10 => some .convert | 0x11 => some .affine | 0x12 => some .func | 0x13 => some .gate | 0x14 => some .clamp
  | 0x20 => some .rmsn | 0x21 => some .smax | 0x22 => some .lsmax | 0x23 => some .rowred | 0x24 => some .rowstat
  | 0x25 => some .scan | 0x30 => some .mcombine | 0x40 => some .chain | 0x41 => some .halo | 0x50 => some .upd
  | 0x60 => some .loadIngot | 0x61 => some .switch | 0x7F => some .peek
  | _ => none

/-- The operations of the control, table and debug classes: they read no tile and write none. -/
def isControl : Op → Bool
  | .fence | .mark | .capture | .loadIngot | .switch | .peek => true
  | _ => false

def isData (o : Op) : Bool := !o.isControl

def isElementwise : Op → Bool
  | .convert | .affine | .func | .gate | .clamp => true
  | _ => false

def isRow : Op → Bool
  | .rmsn | .smax | .lsmax | .rowred | .rowstat | .scan => true
  | _ => false

/-- The standard layout (R407). -/
def isStd : Op → Bool
  | .convert | .func | .clamp | .smax | .lsmax | .rowred | .rowstat | .scan => true
  | _ => false

end Op

/-- The 128 bytes of a descriptor. -/
abbrev Desc := List Byte

/-- A tensor reference (R389). -/
structure TRef where
  eoff : Nat
  soff : Nat
  t : Nat
  code : Nat
  sat : Bool
  grad : Bool
  headroom : Nat
  lp : Nat
  voff : Nat
deriving DecidableEq, Repr

namespace TRef

def fmt (r : TRef) : Fmt := (Fmt.ofCode r.code).getD .fp32

/-- Row pitch of the element plane in bytes (R390). -/
def pitch (r : TRef) : Nat := r.lp * 32 * r.fmt.width

/-- Row pitch of the scale plane in bytes (R390). -/
def spitch (r : TRef) : Nat := r.lp * 8

end TRef

namespace Desc

/-- Bits m to l of the field of n bytes at byte o. -/
def fb (d : Desc) (o n m l : Nat) : Nat := bits (field d o n) m l

def opcode (d : Desc) : Nat := field d 0 1
def op (d : Desc) : Option Op := Op.ofCode d.opcode
def fuse (d : Desc) : Bool := bit (field d 1 1) 0
def last (d : Desc) : Bool := bit (field d 1 1) 1
def strict (d : Desc) : Bool := bit (field d 1 1) 2
def capture (d : Desc) : Bool := bit (field d 1 1) 3
def irq (d : Desc) : Bool := bit (field d 1 1) 4
def rowHash (d : Desc) : Bool := bit (field d 1 1) 5
def passes (d : Desc) : Nat := d.fb 2 1 1 0
def tag (d : Desc) : Nat := field d 4 4
def step (d : Desc) : Nat := field d 8 4
def shapeAddr (d : Desc) : Nat := field d 16 8
def rows (d : Desc) : Nat := field d 24 2
def planRows (d : Desc) : Nat := field d 26 2
def cols (d : Desc) : Nat := field d 28 4
def planCols (d : Desc) : Nat := field d 32 4
def rowHashAddr (d : Desc) : Nat := field d 40 8

/-- BASE × 4,096 plus an offset, in u64 arithmetic (R388). -/
def addr (d : Desc) (off : Nat) : Nat := (field d 48 5 * 4096 + off) % 2 ^ 64

def tref (d : Desc) (o : Nat) : TRef :=
  let w := field d (o + 12) 4
  ⟨field d o 4, field d (o + 4) 4, field d (o + 8) 4, bits w 4 0, bit w 5, bit w 6, bits w 8 7, bits w 23 9, bits w 31 24⟩

def is (d : Desc) (o : Op) : Bool := d.op == some o
def std (d : Desc) : Bool := match d.op with | some o => o.isStd | none => false
def row (d : Desc) : Bool := match d.op with | some o => o.isRow | none => false
def elementwise (d : Desc) : Bool := match d.op with | some o => o.isElementwise | none => false
def data (d : Desc) : Bool := match d.op with | some o => o.isData | none => false

def f1 (d : Desc) : Nat := field d 53 1

/-- FORM of AFFINE (R417). -/
def form (d : Desc) : Nat := d.f1 % 4
def isFma (d : Desc) : Bool := d.is .affine && d.form == 2

/-- ACT, where the layout has it (R407, R431); GATE's activation stands in F1. -/
def act (d : Desc) : Nat := if d.std || d.is .mcombine then field d 54 1 else 0

def scaleEn (d : Desc) : Bool := (d.std || d.is .mcombine) && bit (field d 55 1) 0
def biasEn (d : Desc) : Bool := (d.std || d.is .mcombine) && bit (field d 55 1) 1
def clipEn (d : Desc) : Bool := (d.std || d.is .mcombine || d.is .affine) && bit (field d 55 1) 2
def biasFmt (d : Desc) : Nat := d.fb 55 1 7 3
def biasOff (d : Desc) : Nat := field d 100 4
def scale (d : Desc) : Nat := field d 88 4
def clipLo (d : Desc) : Nat := if d.is .affine then field d 104 4 else field d 92 4
def clipHi (d : Desc) : Nat := if d.is .affine then field d 108 4 else field d 96 4

def curAll (d : Desc) : Bool :=
  if d.is .rmsn then bit (field d 127 1) 0
  else (d.std || d.is .gate || d.is .affine || d.is .mcombine) && bit (field d 125 1) 0
def padEn (d : Desc) : Bool := d.std && bit (field d 125 1) 1
def padCh (d : Desc) : Nat := d.fb 125 1 4 2
def span (d : Desc) : Bool :=
  if d.is .rmsn then bit (field d 127 1) 5 else d.std && bit (field d 125 1) 5

/-- CHAIN_ID, where the layout has it. -/
def chainId (d : Desc) : Nat :=
  if d.is .rmsn then field d 54 2
  else if d.is .chain then field d 64 2
  else if d.is .halo then field d 88 2
  else if d.is .upd then field d 54 2
  else field d 126 2

/-- COL_OFF in units of 256 columns (R424). -/
def colOff (d : Desc) : Nat := if d.is .rmsn then field d 124 3 else if d.row then field d 108 3 else 0

-- RMSN (R426)
def gammaEn (d : Desc) : Bool := d.is .rmsn && bit d.f1 0
def resEn (d : Desc) : Bool := d.is .rmsn && bit d.f1 1
def hsumEn (d : Desc) : Bool := d.is .rmsn && bit d.f1 2
def rmsEn (d : Desc) : Bool := d.is .rmsn && bit d.f1 3

-- MCOMBINE (R431)
def nSplit (d : Desc) : Nat := d.f1
def srcMem (d : Desc) : Bool := bit (field d 126 1) 0
def preload (d : Desc) : Nat := d.fb 126 1 2 1
def tileTag (d : Desc) : Nat := field d 127 1
def partOff (d : Desc) : Nat := field d 104 4

-- CHAIN and HALO (R437, R442)
def chainOp (d : Desc) : Nat := d.f1
def relaxed (d : Desc) : Bool := d.is .chain && bit (field d 54 1) 0
def ret (d : Desc) : Bool := d.is .chain && bit (field d 54 1) 1
def haloNext (d : Desc) : Bool := bit d.f1 0
def haloPrev (d : Desc) : Bool := bit d.f1 1
def haloW (d : Desc) : Nat := field d 54 2

-- UPD (R561)
def wdMode (d : Desc) : Nat := d.f1 % 4
def bcEn (d : Desc) : Bool := bit d.f1 2
def copyEn (d : Desc) : Bool := d.is .upd && bit d.f1 3
def prot (d : Desc) : Nat := bits d.f1 5 4
def inSet (d : Desc) : Nat := b2n (bit d.f1 6)
def soffN (d : Desc) (n : Nat) : Nat := field d (88 + 4 * n) 4
def moffN (d : Desc) (n : Nat) : Nat := field d (100 + 4 * n) 4
def paramAddr (d : Desc) : Nat := d.addr (64 * field d 96 4)

-- Control and table bodies (R447, R450)
def allRings (d : Desc) : Bool := bit (field d 48 1) 0
def ckpt (d : Desc) : Bool := d.is .mark && bit (field d 48 1) 0
def capAddr (d : Desc) : Nat := field d 48 8
def capLen (d : Desc) : Nat := field d 56 8
def peekGran (d : Desc) : Nat := field d 48 2
def peekCount (d : Desc) : Nat := field d 50 2
def peekDest (d : Desc) : Nat := field d 56 8
def ingotAddr (d : Desc) : Nat := field d 48 8
def target (d : Desc) : Nat := field d 56 1
def romFlag (d : Desc) : Bool := bit (field d 57 1) 0
def generation (d : Desc) : Nat := field d 60 4

/-- The table slot of a target; 64 stands for the program store. -/
def slotOf (d : Desc) : Nat := if d.target = 0x80 then 64 else d.target

/-- The primary output reference. -/
def outRef (d : Desc) : Option TRef :=
  match d.op with
  | some .chain => none
  | some .upd => if d.copyEn then some (d.tref 72) else none
  | some o => if o.isData then some (d.tref 72) else none
  | none => none

/-- Input tensor references with the byte at which each stands, in the order of R601. -/
def inRefs (d : Desc) : List (Nat × TRef) :=
  let a := (56, d.tref 56)
  let b := (88, d.tref 88)
  match d.op with
  | some .convert | some .func | some .clamp | some .smax | some .lsmax | some .rowred | some .rowstat | some .scan
  | some .halo | some .upd => [a]
  | some .gate => [a, b]
  | some .affine => if d.isFma then [a, b, (104, d.tref 104)] else [a, b]
  | some .rmsn => if d.resEn then [a, b] else [a]
  | some .mcombine => if d.preload = 2 then [a] else []
  | _ => []

/-- The write-back reference of RMSN (R427). -/
def wbRef (d : Desc) : Option TRef :=
  if d.hsumEn then some { d.tref 88 with eoff := field d 104 4, soff := field d 108 4 } else none

/-- Every tensor reference of the descriptor, outputs included. -/
def refs (d : Desc) : List TRef := d.inRefs.map (·.2) ++ d.outRef.toList

/-- Does any output have GRAD set (R400)? -/
def grad (d : Desc) : Bool := match d.outRef with | some r => r.grad | none => false

/-- Is any output stochastically rounded (R111, R112)? -/
def stochastic (d : Desc) : Bool :=
  match d.outRef with | some r => r.grad && r.fmt != .fp32 && !d.is .halo && !d.is .rmsn | none => false

/-- Where the draw fields stand: TENSOR_ID, ELEM_BASE, LROW and the byte of STREAM. -/
def drawAt (d : Desc) : Nat × Nat × Nat × Nat := if d.is .upd then (108, 112, 118, 120) else (112, 116, 122, 124)
def tensorId (d : Desc) : Nat := field d d.drawAt.1 4
def elemBase (d : Desc) : Nat := 256 * field d d.drawAt.2.1 6
def lrow (d : Desc) : Nat := 256 * field d d.drawAt.2.2.1 2
def stream (d : Desc) : Nat := d.fb d.drawAt.2.2.2 1 3 0
def srCode (d : Desc) : Nat := d.fb d.drawAt.2.2.2 1 5 4

/-- The number of random bits (R113). -/
def srBits (d : Desc) (f : Fmt) : Nat :=
  match d.srCode with | 1 => 8 | 2 => 16 | _ => if f.width = 16 then 16 else 8

def fcur (d : Desc) : Bool := (d.std || d.is .gate) && bit (field d 124 1) 6
def acur (d : Desc) : Bool := (d.std || d.is .mcombine) && !d.row && bit (field d 124 1) 7
def fgen (d : Desc) : Nat := field d 104 4
def agen (d : Desc) : Nat := field d 108 4

/-- The slot of a function code, 64 for a program (R408). -/
def codeSlot (c : Nat) : Option Nat :=
  if 0xC0 ≤ c ∧ c ≤ 0xFF then some 64
  else if 0x89 ≤ c ∧ c ≤ 0xB7 then some (c - 0x80)
  else match c with
    | 0x01 | 0x02 => some 1 | 0x09 | 0x0A => some 3 | 0x0B => some 4 | 0x0C => some 5 | 0x0D => some 6 | 0x0E => some 7
    | 0x0F => some 8 | _ => none

/-- The function slot that FGEN governs (R397, R408, and the row operations' slot 1). -/
def fslot (d : Desc) : Option Nat :=
  match d.op with
  | some .func | some .gate => codeSlot d.f1
  | some .smax | some .lsmax => some 1
  | some .rowred => if d.f1 % 8 = 5 then some 1 else none
  | some .scan => if d.f1 % 2 = 1 then some 1 else none
  | _ => none

/-- The function slot that AGEN governs; the row operations have no AGEN. -/
def aslot (d : Desc) : Option Nat := if d.row then none else codeSlot d.act

-- Reserved fields ----------------------------------------------------------------------------------------------------

/-- The bits m to l of byte o. -/
def mb (o m l : Nat) : Nat := (2 ^ (m - l + 1) - 1) <<< (8 * o + l)
/-- All bits of n bytes from byte o on. -/
def my (o n : Nat) : Nat := (2 ^ (8 * n) - 1) <<< (8 * o)
/-- A mask where a condition holds. -/
def on (b : Bool) (m : Nat) : Nat := if b then m else 0

/-- The fields of the common header that R355 gives a meaning. -/
def maskHeader : Nat :=
  my 0 1 ||| mb 1 5 0 ||| mb 2 1 0 ||| my 4 8 ||| my 16 20 ||| (mb 40 7 3 ||| my 41 7)

/-- The header's fields under an operation (R386) and with a shape word. -/
def maskHead (d : Desc) : Nat :=
  match d.op with
  | some o =>
    if o.isControl then my 0 1 ||| mb 1 1 0 ||| mb 1 4 4 ||| my 4 4
    else if d.shapeAddr ≠ 0 then maskHeader - (my 24 2 ||| my 28 4) else maskHeader
  | none => maskHeader

/-- Used bits of a tensor reference at byte o: `inp` an input whose SAT, GRAD and HEADROOM have no use, `plane` whether
EOFF, SOFF and LP name memory, `lp` whether LP is in use, `vt` whether VOFF is (R391, R395, R490). A code that names no format is
read as FP32 here: its SOFF and VOFF count as reserved, and check 1 precedes FORMAT_INVALID (log 88). -/
def maskRef (d : Desc) (o : Nat) (inp plane lp vt : Bool) : Nat :=
  let r := d.tref o
  let f := r.fmt
  on plane (my o 4) ||| on (plane && f.scaled) (my (o + 4) 4) ||| my (o + 8) 4 ||| mb (o + 12) 4 0 |||
  on (!inp) (mb (o + 12) 8 5) ||| on (plane && lp) (mb (o + 12) 23 9) ||| on (vt && f.isB) (my (o + 15) 1)

def maskIn (d : Desc) (o : Nat) : Nat := d.maskRef o true true true true

/-- Operand A: its planes come from staging under FUSE (R395). -/
def maskA (d : Desc) : Nat := d.maskRef 56 true (!d.fuse) true (!d.fuse)

/-- Does O's reference name memory (R490)? -/
def outPlanes (d : Desc) : Bool := d.last || d.is .rowred || d.is .rowstat || d.is .halo

def perRowOut (d : Desc) : Bool := d.is .rowred || d.is .rowstat
def maskO (d : Desc) : Nat := d.maskRef 72 false d.outPlanes (!d.perRowOut) true

def maskDraw (d : Desc) : Nat :=
  let p := d.drawAt
  on d.grad (my p.1 4 ||| my p.2.1 6 ||| my p.2.2.1 2 ||| mb p.2.2.2 5 0)

/-- The generation fields and current bits that are in use (R399). -/
def maskGen (d : Desc) : Nat :=
  let f := d.fslot.isSome && !d.curAll
  let a := d.aslot.isSome && !d.curAll
  on (f && !d.fcur) (my 104 4) ||| on f (mb 124 6 6) ||| on (a && !d.acur) (my 108 4) ||| on a (mb 124 7 7)

def maskBody (d : Desc) : Nat :=
  let b55 := mb 55 2 0 ||| on d.biasEn (mb 55 7 3)
  let epi := on d.scaleEn (my 88 4) ||| on d.clipEn (my 92 8) ||| on d.biasEn (my 100 4)
  match d.op with
  | some .fence | some .mark => mb 48 0 0
  | some .capture => (mb 48 7 6 ||| my 49 7) ||| (mb 56 7 6 ||| my 57 7)
  | some .peek => my 48 4 ||| (mb 56 7 6 ||| my 57 7)
  | some .loadIngot =>
    on (!d.romFlag) (mb 48 7 6 ||| my 49 7) ||| my 56 1 ||| on (d.target ≤ 8) (mb 57 0 0) ||| my 60 4
  | some .switch => my 56 1 ||| my 60 4
  | some .gate =>
    my 48 6 ||| d.maskA ||| d.maskO ||| d.maskIn 88 ||| d.maskDraw ||| d.maskGen ||| mb 125 0 0
  | some .affine =>
    my 48 5 ||| mb 53 1 0 ||| mb 55 2 2 ||| d.maskA ||| d.maskO ||| d.maskIn 88 ||| mb 125 0 0 |||
    (if d.isFma then d.maskIn 104 else on d.clipEn (my 104 8) ||| d.maskDraw)
  | some .rmsn =>
    my 48 5 ||| mb 53 3 0 ||| on d.span (my 54 2) ||| d.maskA ||| d.maskO |||
    on d.resEn (d.maskRef 88 false true true true) ||| on d.hsumEn (my 104 4) |||
    on (d.hsumEn && (d.tref 88).fmt.scaled) (my 108 4) ||| my 112 4 ||| on d.gammaEn (my 116 4) |||
    on d.rmsEn (my 120 4) ||| my 124 3 ||| mb 127 0 0 ||| mb 127 5 5
  | some .mcombine =>
    my 48 7 ||| b55 ||| epi |||
    (if d.fuse then d.maskA else if d.preload = 2 then d.maskIn 56 else if d.preload = 1 then my 56 4 ||| mb 68 4 0 else 0) |||
    d.maskO ||| on d.srcMem (my 104 4) ||| d.maskDraw ||| d.maskGen ||| mb 125 0 0 ||| mb 126 2 0 ||| on (!d.srcMem) (my 127 1)
  | some .chain => my 48 6 ||| mb 54 1 0 ||| my 56 10
  | some .halo => my 48 5 ||| mb 53 1 0 ||| my 54 2 ||| d.maskA ||| d.maskO ||| my 88 2
  | some .upd =>
    my 48 5 ||| mb 53 6 0 ||| on (d.prot == 2) (my 54 2) ||| d.maskIn 56 |||
    on d.copyEn (d.maskRef 72 false true true true) ||| my 88 12 ||| on (d.prot != 0) (my 100 8) ||| d.maskDraw
  | some o =>
    let f1m := match o with
      | .func => my 53 1 | .rowred => mb 53 2 0 | .rowstat => mb 53 0 0 | .scan => mb 53 0 0 | _ => 0
    my 48 5 ||| f1m ||| my 54 1 ||| b55 ||| epi ||| d.maskA ||| d.maskO ||| d.maskGen ||| d.maskDraw |||
    on (o.isRow) (my 108 3) ||| on (o == .func && d.f1 == 8) (my 108 4) |||
    mb 125 1 0 ||| on d.padEn (mb 125 4 2) ||| mb 125 5 5 ||| on d.span (my 126 2)
  | none => 0

/-- An ACT code that R408 allows in the ACT byte. -/
def actOk (c : Nat) : Bool := c == 0 || (c ≤ 0x0F && c != 0x08) || (0x89 ≤ c && c ≤ 0xB7)

/-- An F1 code of FUNC that R408 lists. -/
def funcOk (c : Nat) : Bool := (1 ≤ c && c ≤ 0x0F) || (0x89 ≤ c && c ≤ 0xB7) || (0xC0 ≤ c && c ≤ 0xFF)

/-- Values that an encoding table marks as reserved (R402), and the bits that R385 and R446 make reserved. -/
def reservedValue (d : Desc) : Bool :=
  let single := d.fuse || !d.last
  let sr := d.grad && d.srCode == 3
  match d.op with
  | some .fence | some .mark | some .capture | some .switch | some .peek => single ||
      (d.is .switch && !(d.target ≤ 55 || d.target == 0x80))
  | some .loadIngot => single || !(d.target ≤ 55 || d.target == 0x80)
  | some .chain => single || decide (2 < d.chainOp)
  | some .upd => single || d.wdMode == 3 || d.prot == 3 || sr
  | some .func => !funcOk d.f1 || !actOk d.act || sr
  | some .gate => d.f1 == 0 || !actOk d.f1 || sr
  | some .mcombine =>
    d.nSplit == 0 || decide (64 < d.nSplit) || d.preload == 3 || (d.fuse && d.preload != 2) || !actOk d.act || sr
  | some .rowred => decide (5 < d.f1 % 8) || !actOk d.act || sr
  | some .affine => sr
  | some o => if o.isStd then !actOk d.act || sr else false
  | none => false

/-- Check 1 of R344. -/
def reservedSet (d : Desc) : Bool :=
  match d.op with
  | none => ofBytes (d.take 48) &&& maskHeader != ofBytes (d.take 48)
  | some _ =>
    let m := d.maskHead ||| d.maskBody
    (ofBytes d &&& m != ofBytes d) || d.reservedValue || (d.shapeAddr % 32 != 0)

-- Ranges -------------------------------------------------------------------------------------------------------------

/-- A range of memory: first byte and length. -/
abbrev Range := Nat × Nat

/-- The ranges of a tensor reference (R405): element plane and scale plane of `cols` columns. -/
def refRanges (d : Desc) (r : TRef) (cols : Nat) : List Range :=
  let f := r.fmt
  (d.addr (32 * r.eoff), (d.planRows - 1) * r.pitch + f.rowBytes cols) ::
    (if f.scaled then [(d.addr (8 * r.soff), (d.planRows - 1) * r.spitch + cols / 32)] else [])

/-- The value table of a B3 or B2 reference (R63, R389). -/
def vtRange (d : Desc) (r : TRef) : List Range :=
  if r.fmt == .b3 then [(d.addr (64 * r.voff), 32)] else if r.fmt == .b2 then [(d.addr (64 * r.voff), 16)] else []

def vec (d : Desc) (off : Nat) : Range := (d.addr (32 * off), 4 * d.planCols)

/-- Bytes of a per-row output value (R393). -/
def perRowSize (d : Desc) : Nat := if d.is .rowstat then 32 else (d.tref 72).fmt.width / 8

/-- The pitch of a state set's rows (R560), and a set's range (R570). -/
def setPitch (d : Desc) : Nat := (d.tref 56).lp * 4096
def setAddr (d : Desc) (n : Nat) : Nat := d.addr (32 * d.soffN n)
def setRange (d : Desc) (n : Nat) : Range := (d.setAddr n, (d.planRows - 1) * d.setPitch + 16 * d.planCols)

/-- Address of partial j (R432), and the range of all partials (R405). -/
def partSize (d : Desc) : Nat := d.planRows * (d.tref 72).lp * 1024
def partAddr (d : Desc) (j : Nat) : Nat := d.addr (d.partOff * 32 + j * d.partSize)

/-- Input ranges in memory; a staged operand has none (R405). -/
def inRanges (d : Desc) : List Range :=
  let ts := d.inRefs.flatMap (fun p => if p.1 = 56 && d.fuse then [] else d.refRanges p.2 d.planCols ++ d.vtRange p.2)
  let vt := match d.outRef with | some r => d.vtRange r | none => []
  let bias := if d.biasEn then [d.vec d.biasOff] else []
  match d.op with
  | some .rmsn => ts ++ vt ++ (if d.gammaEn then [d.vec (field d 116 4)] else [])
  | some .mcombine =>
    ts ++ vt ++ bias ++ (if d.preload = 1 then [d.vec (d.tref 56).eoff] else []) ++
      (if d.srcMem then [(d.partAddr 0, d.nSplit * d.partSize)] else [])
  | some .chain => [(d.addr (32 * field d 56 4), d.planRows * d.planCols * 4)]
  | some .upd => ts ++ vt ++ [(d.paramAddr, 64)]
  | some _ => ts ++ vt ++ bias
  | none => []

/-- Output ranges in memory, one list for each output (R405, R490). -/
def outRanges (d : Desc) : List (List Range) :=
  let prim := match d.op with
    | some .chain => [[(d.addr (32 * field d 60 4), d.planRows * d.planCols * 4)]]
    | some .upd => [[d.setRange 0], [d.setRange 1]] ++ (if d.copyEn then [d.refRanges (d.tref 72) d.planCols] else [])
    | some .rowred | some .rowstat => [[(d.addr (32 * (d.tref 72).eoff), d.planRows * d.perRowSize)]]
    | some .peek => [[(d.peekDest, d.peekCount * 65536)]]
    | some o => if o.isData && d.last then [d.refRanges (d.tref 72) d.planCols] else []
    | none => []
  prim ++ (match d.wbRef with | some r => [d.refRanges r d.planCols] | none => []) ++
    (if d.rmsEn then [[(d.addr (32 * field d 120 4), d.planRows * 4)]] else [])

/-- The per-row hallmark area (R367). -/
def hashRange (d : Desc) : List Range := if d.rowHash && d.data then [(d.rowHashAddr, 8 * d.planRows)] else []

/-- Do two ranges share a byte? -/
def overlap (a b : Range) : Bool := decide (0 < a.2 ∧ 0 < b.2 ∧ a.1 < b.1 + b.2 ∧ b.1 < a.1 + a.2)
def anyOverlap (xs ys : List Range) : Bool := xs.any (fun x => ys.any (overlap x))

/-- What the descriptor reads and writes (R500, R571): a UPD reads the set of IN_SET and writes the other. -/
def readRanges (d : Desc) : List Range := d.inRanges ++ (if d.is .upd then [d.setRange d.inSet] else [])
def writeRanges (d : Desc) : List Range :=
  (if d.is .upd then d.setRange (1 - d.inSet) :: (d.outRanges.drop 2).flatten else d.outRanges.flatten) ++ d.hashRange

/-- Every range that the descriptor names under R405 (R482, R498): a control operation has none. -/
def allRanges (d : Desc) : List Range := if d.data then d.inRanges ++ d.outRanges.flatten ++ d.hashRange else []

/-- Check 6 of R344 (R302, R368, R406, R570). R368 tests the address of the hallmark
area; R406 tests one output against another, so the two planes of one output are not compared. -/
def inPlace (d : Desc) : Bool :=
  let outs := d.outRanges
  let pairwise := (List.range outs.length).any (fun i => (List.range i).any (fun j => anyOverlap (outs.getD i []) (outs.getD j [])))
  d.data && (anyOverlap outs.flatten d.inRanges || pairwise || anyOverlap (d.hashRange.map (fun r => (r.1, 1))) (outs.flatten ++ d.inRanges))

end Desc
end Sys2Proof.Machine
end

