-- ==== Sys2Proof/Machine/Mem.lean ====
section
/-!
DEFINITION. The staging store as data (R481, R749): a list of (address, byte) pairs in one canonical form, addresses strictly
rising and below 64 MiB. An address that is not listed holds no known value (R677 leaves staging undefined after cold
reset): a read of it gives a free byte.
-/
namespace Sys2Proof.Machine
open Sys2Proof

/-- The staging store: listed cells only. -/
abbrev Memory := List Host.Cell

namespace Memory

/-- Bytes of the staging store (R26). -/
def size : Nat := 2 ^ 26

/-- What an unlisted address holds: nothing known. -/
def unlisted : Option Byte := none

/-- Addresses above `lo`, strictly rising, in the store. -/
def wfFrom (lo : Nat) : Memory → Bool
  | [] => true
  | c :: r => decide (lo ≤ c.1) && decide (c.1 < size) && wfFrom (c.1 + 1) r

/-- The canonical form. -/
def wf (m : Memory) : Bool := wfFrom 0 m

/-- The byte at an address, where one is listed. -/
def get (a : Nat) : Memory → Option Byte
  | [] => unlisted
  | c :: r => if c.1 = a then some c.2 else get a r

/-- One byte stored; the order stays. -/
def put (a : Nat) (b : Byte) : Memory → Memory
  | [] => [(a, b)]
  | c :: r => if a < c.1 then (a, b) :: c :: r else if a = c.1 then (a, b) :: r else c :: put a b r

/-- A byte stored where the address exists. -/
def store (m : Memory) (a : Nat) (b : Byte) : Memory := if a < size then put a b m else m

/-- Bytes stored from an address on; an absent byte is a byte whose strobe is low. -/
def write (m : Memory) : Nat → List (Option Byte) → Memory
  | _, [] => m
  | a, some b :: r => write (m.store a b) (a + 1) r
  | a, none :: r => write m (a + 1) r

/-- Cells of a range forgotten: their contents are no longer known. -/
def forget (lo n : Nat) (m : Memory) : Memory := m.filter (fun c => decide (c.1 < lo ∨ lo + n ≤ c.1))

/-- A byte as a read gives it: a free byte where none is known. `era` tells one read from another. -/
def read (m : Memory) (era a : Nat) : Byte := (get a m).getD (Config.stageByte era a)

/-- `n` bytes from an address on. -/
def readN (m : Memory) (era a n : Nat) : List Byte := (List.range n).map (fun i => m.read era (a + i))

end Memory
end Sys2Proof.Machine
end

