-- ==== Sys2Proof/Machine/StateTypes.lean ====
section
/-!
DEFINITION. The pieces of the block's state, as plain data: registers, rings, groups of descriptors, the journal, table
banks, clusters, toll counters, the causeway, incidents, the start, the governor and what leaves at the ports.
-/
namespace Sys2Proof.Machine
open Sys2Proof

/-- Registers that firmware writes and the block only reads, or that hold a value across writes (20). -/
structure Regs where
  debugCtl : BitVec 32
  dbgAddr : BitVec 32
  drawStage : BitVec 128
  geomStage : BitVec 512
  startCtl : BitVec 32
  startAddr : BitVec 64
  startHint : BitVec 512
  wbBase : BitVec 64
  wbCtl : BitVec 32
  wbResume : BitVec 64
  wbKeep : BitVec 64
  wbmBase : BitVec 64
  wbmCtl : BitVec 32
  stageCtl : BitVec 32
  stageAper : BitVec 64
  mpCtl : BitVec 32
  asCtl : BitVec 32
  cwCtl : BitVec 32
  mirrorBase : BitVec 64
  mirrorSize : BitVec 32
  clkCtl : BitVec 32
  govCtl : BitVec 32
  govSlew : BitVec 16
  govLead : BitVec 32
  govGuard : BitVec 32
  incCtl : BitVec 32
  assayCtl : BitVec 32
  key1 : BitVec 256
  key2 : BitVec 256
deriving DecidableEq, Repr

/-- One access path of the setup window (R764, R765, R783): holding copies and snapshots by offset, the last transfer's
read data and PSLVERR. -/
structure Path' where
  holds : List (Nat × Nat)
  snaps : List (Nat × Nat)
  rdata : BitVec 32
  slverr : Bool
deriving DecidableEq, Repr

/-- The two access paths. -/
inductive PathId where
  | apb
  | dbg
deriving DecidableEq, Repr

/-- DX_SETUP_STATUS (R784, R785), the access paths, the interrupt registers and the bell counts (R785). -/
structure SetupSt where
  lastError : BitVec 8
  err : Bool
  lastOffset : BitVec 16
  errCount : BitVec 16
  dbgErr : Bool
  apb : Path'
  dbg : Path'
  irqDone : BitVec 64
  irqIncident : BitVec 5
  irqReady : BitVec 16
  bellIgnored : BitVec 32
  bellReceived : BitVec 32
deriving DecidableEq, Repr

/-- The pad channels (R481): values in force, shadow copies, and the pending set (R16). -/
structure Pad where
  active : List (BitVec 32)
  shadow : List (BitVec 32)
  pendingSet : Option (List (BitVec 32))
deriving DecidableEq, Repr

/-- The sealed fields, by their FIELD code in a SEAL entry (R608). -/
inductive SealField where
  | compat
  | repro
  | geometry
  | drawKey
deriving DecidableEq, Repr

/-- A change that waits for its quiet point, or for the report of its SEAL entry (R699, R702). -/
structure SealPend where
  field : SealField
  value : Nat
  written : Bool
deriving DecidableEq, Repr

/-- A change made while the waybook was not ready (R703). -/
structure SealDone where
  field : SealField
  change : Nat
  old : Nat
  new : Nat
deriving DecidableEq, Repr

/-- Sealed settings (R697, R504): values in force, change counts, pending and unjournalled changes. -/
structure Seals where
  compatGen : BitVec 8
  reproClass : BitVec 8
  geometry : BitVec 512
  drawKey : BitVec 128
  changes : List (BitVec 2)
  pending : List SealPend
  unjournalled : List SealDone
deriving DecidableEq, Repr

/-- RING_STATUS (R331). -/
inductive RStat where
  | running | disabled | overrun | fetchError | journalError | replay
deriving DecidableEq, Repr

/-- What the outstanding head-record read serves. -/
inductive HeadRead where
  | bell
  | enable
  | recovery
deriving DecidableEq, Repr

/-- The descriptor at a ring's head, checked (steps 2 to 5 of R343): its outcome so far, whether it waits for a function,
and whether NOT_READY has settled it. -/
structure Head where
  bytes : Desc
  status : Nat
  waiting : Bool
  settled : Bool
deriving DecidableEq, Repr

/-- A ring's capture area (R453). -/
structure CapArea where
  addr : Nat
  len : Nat
  next : Nat
  dropped : Nat
deriving DecidableEq, Repr

/-- A ring: its setup fields, the block's copy of its head record, and what it has fetched. `known`: its indices have been read from
its head record or rebuilt; `seqKnown`: LAST_SEQ is known, since the journal began here or a waymark of the ring has been seen
(R331). `rebuilt`: a scan has found
waymarks of it that its head record may not show (R347). `resume`: the status that it shows after its replay (R810). -/
structure Ring where
  ctl : BitVec 32
  base : BitVec 64
  head : BitVec 64
  cpl : BitVec 64
  pending : Bool
  reading : Option HeadRead
  next : BitVec 32
  done : BitVec 32
  prod : BitVec 32
  lastSeq : Nat
  known : Bool
  seqKnown : Bool
  rebuilt : Bool
  status : RStat
  resume : RStat
  halted : Bool
  arrived : List Desc
  atHead : Option Head
  cap : Option CapArea
deriving DecidableEq, Repr

/-- A tile by rows: element codes, scale codes, and which positions the descriptor produced (R493). -/
structure Tile where
  fmt : Fmt
  t : Nat
  tab : List Nat
  rows : List (List Nat)
  scales : List (List Nat)
  made : List (List Bool)
deriving DecidableEq, Repr

/-- The run-time shape of a descriptor (R465, R466): bounds, masks (an absent mask leaves every position live), and the bytes of
the shape word, where one has been read. -/
structure Shape where
  rows : Nat
  cols : Nat
  rmask : Option (List Byte)
  cmask : Option (List Byte)
  raw : List Byte
deriving DecidableEq, Repr

/-- A beat that an open accumulator tile has taken (R277): data as 32 FP32 words. -/
structure TBeat where
  split : Nat
  row : Nat
  chunk : Nat
  data : List Byte
deriving DecidableEq, Repr

/-- A chunk of an open accumulator tile under way (R277): the next split that it needs, and its running value at each of its 32
positions with the counts of its own steps, none where nothing has been added yet. -/
structure AccChunk where
  row : Nat
  chunk : Nat
  next : Nat
  vals : List (Option (Fv × Nat))
deriving DecidableEq, Repr

/-- What a descriptor has read: operand tiles by their place in the body, vectors, partials, state records. -/
structure Inputs where
  tiles : List (Nat × Tile)
  bias : List Nat
  gamma : List Nat
  parts : List Tile
  vals : List (List Nat)
  recs : List (List (List Byte))
deriving DecidableEq, Repr

/-- The result of a descriptor (R366): its tile, the bytes of per-row outputs and of state records row by row, and the
write-back tile. -/
structure Result where
  tile : Option Tile
  perRow : List (List Byte)
  recs : List (List (List Byte))
  wback : Option Tile
  rms : List (List Byte)
deriving DecidableEq, Repr

/-- A digest that a member recorded or that a scan found (R601 to R603): record type, item or attempt, digest. -/
structure Digest where
  ty : Nat
  kind : Nat
  item : Nat
  digest : Nat
  count : Nat
deriving DecidableEq, Repr

/-- A descriptor that has its waymark: the waymark's content, its part in its group's work, and its milepost. `run`: the chunks of
its accumulator tile. `capSet`: its capture space has been dealt with; `caps`: the addresses of the capture entries reserved for
its input items, in their order (R454); `capHeads`: entry headers, by address, whose data writes have not been answered (R455);
`owed`: digests of items read that wait for the other half of their INPUT_DIGEST entry. -/
structure Member where
  seq : Nat
  ring : Nat
  idx : BitVec 32
  bytes : Desc
  status : Nat
  compat : Nat
  reads : List (Nat × Nat)
  progGen : Nat
  fgen : Nat
  agen : Nat
  padVal : Nat
  rnum : Nat
  resv : Nat
  taken : Bool
  fault : Nat
  shape : Option Shape
  tabs : List (Nat × List Nat)
  param : Option (List Byte)
  inputs : Option Inputs
  beats : List TBeat
  run : List AccChunk
  retries : Nat
  result : Option Result
  census : Census
  ieee : Nat
  digests : List Digest
  owed : List Digest
  seen : List Digest
  mirrorDone : Bool
  capSet : Bool
  caps : List (Option Nat)
  capHeads : List (Nat × List Byte)
  milepost : Option (List Byte)
  pubSeen : Bool
  respReturned : Bool
deriving DecidableEq, Repr

/-- A fused group, or one still open at its ring. `gran` names the granules it holds, in the order of R486; `dead`: it will
not execute, or a member has faulted; `wrote`: its output writes have left; `outDone`: their responses have returned;
`published`: the last PUBLISHED entry has been reported; `posted`: its mileposts have left; `waited`: it has met too few free
granules at its issue, and waits for staging (R488). -/
structure Group where
  ring : Nat
  members : List Member
  ended : Bool
  dead : Bool
  issued : Bool
  waited : Bool
  gran : List Nat
  closeWritten : Bool
  closeReported : Bool
  wrote : Bool
  outDone : Bool
  published : Bool
  posted : Bool
  replay : Bool
  openSeen : Bool
  closeSeen : Bool
deriving DecidableEq, Repr

/-- What the report of a record lets happen (R606). -/
inductive Act where
  | none
  | waymark (seq : Nat)
  | groupClose (seq : Nat)
  | entry (seq : Nat)
  | published (seq : Nat)
  | seal (f : SealField)
  | toll
  | tollSet (counter : Nat)
  | checkpoint (walk mark : Nat)
  | incident (pos : Nat)
  | epoch
  | tableSwitch (seq : Nat)
deriving DecidableEq, Repr

/-- A journal record that has been written and not yet reported. -/
structure Rec where
  rnum : Nat
  bytes : List Byte
  ok : Bool
  acked : Bool
  act : Act
deriving DecidableEq, Repr

/-- The waybook unit (15). `mirror`: records sent to PARTNER that it has not acknowledged, `sent`: the messages without a done, by
their first and last record (R623, R626). `wbmFirst`: the first record that the sender of the mirrored journal has offered, `wbmRuns`:
what of it has been written (R604, R624). -/
structure Wb where
  tail : Nat
  ckpt : Nat
  epoch : Nat
  mirrorLost : Bool
  wbmHigh : Nat
  wbmCkpt : Nat
  trim : Nat
  nextSeq : Nat
  recs : List Rec
  since : Nat
  stopped : Bool
  mirror : List (Nat × List Byte)
  sent : List (Nat × Nat)
  wbmFirst : Option Nat
  wbmRuns : List (Nat × Nat)
deriving DecidableEq, Repr

/-- A bank of a slot (R184): the generation, the ingot id (R598) and the contents, where it is resident. -/
structure Bank where
  gen : Nat
  ingot : Nat
  img : Option BankImg
deriving DecidableEq, Repr

/-- A table slot, or the program store (slot 64): two banks, the active one, whether the other is closing, and its replica
position (R210, R215). -/
structure Slot where
  b0 : Bank
  b1 : Bank
  active : Bool
  closing : Bool
  replica : Option Nat
deriving DecidableEq, Repr

/-- Where a LOAD_INGOT stands (R210); a SWITCH is done at once (R213). -/
inductive LoadPhase where
  | accepted
  | waitPins
  | reading
  | done
deriving DecidableEq, Repr

structure Load where
  seq : Nat
  slot : Nat
  bank : Bool
  oldGen : Nat
  oldEmpty : Bool
  phase : LoadPhase
  hdr : List Byte
deriving DecidableEq, Repr

/-- A band slot of a cluster (R270), by the sequence number of its MCOMBINE. -/
inductive Band where
  | empty
  | filling (seq : Nat)
  | draining (seq : Nat)
deriving DecidableEq, Repr

/-- A usable codebook entry (R162, R165, R170): the descriptor context and the scale code that tag it and, for every code of the
input format, the value at the cut point with one bit per census counter. -/
structure CbEntry where
  seq : Nat
  scale : Nat
  cells : List Cut
deriving DecidableEq, Repr

/-- A cluster (16, 04, 07, 18). `cache` holds the codebook from the least recently gathered entry on (R168), `fills` the queued
fills by context and scale (R166). -/
structure Cluster where
  spare : List (BitVec 16)
  retired : Bool
  passed : Bool
  suspectFrom : Nat
  workedPub : Nat
  cache : List CbEntry
  fills : List (Nat × Nat)
  slotA : Band
  slotB : Band
  gated : Bool
deriving DecidableEq, Repr

/-- The codebook of the contexts that `p` names ends: its entries and its queued fills (R169). -/
def Cluster.dropBook (k : Cluster) (p : Nat → Bool) : Cluster :=
  { k with cache := k.cache.filter (fun e => !p e.seq), fills := k.fills.filter (fun f => !p f.1) }

/-- A row context (R259): its running value, the segment that it adds next, the totals that it has added, in segment order, and
those that it parks. -/
structure RowCx where
  seq : Nat
  row : Nat
  next : Nat
  value : Acc
  tots : List Acc
  parked : List (Nat × Acc)
deriving DecidableEq, Repr

/-- A toll answer in an issuer's memo (R373). -/
structure Memo where
  issuer : Nat
  counter : Nat
  seq : Nat
  ticket : Nat
  valid : Bool
deriving DecidableEq, Repr

/-- An answer that waits for its TOLL record (R381). -/
structure TollWait where
  req : WinReq
  memo : Memo
  isMemo : Bool
  rnum : Nat
deriving DecidableEq, Repr

/-- The toll counters (R369 to R382). `asks` holds accesses that wait for waybook space or for a seal change, `sets` the
control writes that wait for their entry. -/
structure Tolls where
  count : List (BitVec 32)
  limit : List (BitVec 32)
  memos : List Memo
  waits : List TollWait
  asks : List (WinReq × Option Nat)
  sets : List (WinReq × Nat)
deriving DecidableEq, Repr

/-- A flit to send: port, destination id and content (R543). `peer` is the position that it goes to; `own` the member of whose
exchange it is part, 0 where it is link-only; `resends`: how often it has been resent (R549). None of the three is in its bytes
beyond what DEST_ID and CHAIN_ID say. -/
structure TxFlit where
  peer : Nat
  cd : Bool
  dest : Nat
  kind : Nat
  last : Bool
  attempt : Nat
  chainId : Nat
  lseq : Nat
  offset : Nat
  payload : List Byte
  own : Nat
  resends : Nat
deriving DecidableEq, Repr

/-- A routing entry in the cache (R512, R513). -/
structure Route where
  pos : Nat
  dest : Nat
  cu : Bool
  valid : Bool
deriving DecidableEq, Repr

/-- A link context (R542 to R549, R554). `sync`: 0 while a restart waits for the peer's SYNC, else one more than the answers given
to its repeats. `credits`: what the peer has granted and this end has not spent; `granted`: what this end has granted (R546);
`resent`: how often a SYNC without an answer has gone again; `again`: the flits of a resend under way that have still to leave
(R548). -/
structure Link where
  peer : Nat
  cd : Bool
  txSeq : Nat
  rxSeq : Nat
  credits : Nat
  granted : Nat
  epoch : Nat
  sync : Nat
  failed : Bool
  resent : Nat
  unacked : List TxFlit
  again : List TxFlit
  queue : List TxFlit
  landing : List (Nat × Flit)
deriving DecidableEq, Repr

/-- One item of a forward or return pass: the value, and what R533 and R534 carry beside it. `inf`: a sum formed on this attempt
was infinite; `nan`: a term was NaN or infinite; `nz`: a shifted value of R323 was nonzero; `cns`: counts that its combination
made here, which do not travel. -/
structure Item where
  v : Acc
  emax : Option Int
  ncnt : Nat
  inf : Bool
  nan : Bool
  nz : Bool
  k : Int
  retry : Bool
  cns : Nat
deriving DecidableEq, Repr

/-- A flit of an exchange that has arrived: KIND, sender, attempt, OFFSET, LAST, payload. -/
structure RxItem where
  kind : Nat
  src : Nat
  attempt : Nat
  offset : Nat
  last : Bool
  payload : List Byte
deriving DecidableEq, Repr

/-- An open or retained exchange at this position (R517 to R541): the peers that have granted, those whose signature has
matched, those that send to it (`senders`) and those that have published (`pubs`); the items of the attempt under way (`todo`),
each item's k, retries and accepted total, what has arrived, which messages have left (kind, peer, attempt), the flits kept for
their receivers, and a digest for each attempt (its number, the digest, the flits). `done`: its result stands. -/
structure Exch where
  chain : Nat
  seq : Nat
  isOpen : Bool
  granted : List Nat
  signed : List Nat
  attempt : Nat
  todo : List Nat
  ks : List Int
  tries : List Nat
  totals : List (Option Item)
  rx : List RxItem
  sent : List (Nat × Nat × Nat)
  kept : List TxFlit
  pubs : List Nat
  senders : List Nat
  digest : List (Nat × Nat × Nat)
  done : Bool
  gran : List Nat
deriving DecidableEq, Repr

/-- A MIRROR, PARITY or WAYBOOK message being received (R576, R623). -/
structure RxMsg where
  src : Nat
  kind : Nat
  seq : Nat
  moff : Nat
  count : Nat
  logSize : Nat
  bytes : List (Nat × List Byte)
  awaiting : Bool
deriving DecidableEq, Repr

/-- The causeway unit. `credCu`, `credCd`: transport credits of the tx lanes (R766); `rxCredCu`, `rxCredCd`: those of the rx lanes that
the transport holds (R767). `early`: grants (CHAIN_ID, peer) of exchanges that have not opened here yet (R519, R544). -/
structure Cw where
  routes : List Route
  links : List Link
  exchs : List Exch
  credCu : List Nat
  credCd : List Nat
  rxCredCu : List Nat
  rxCredCd : List Nat
  early : List (Nat × Nat)
  rx : List RxMsg
deriving DecidableEq, Repr

/-- An incident-log entry (R662), with whether its INCIDENT record has been reported. -/
structure IncEntry where
  seq : Nat
  sev : Nat
  sevFinal : Nat
  state : Nat
  source : Nat
  unit : Nat
  detail : Nat
  action : Nat
  related : Nat
  addr : Nat
  time : Nat
  id : Nat
  count : Nat
  written : Bool
  reported : Bool
deriving DecidableEq, Repr

/-- S1 occurrences since the last record of a source, with the latest finding and the time of that record (R664). -/
structure S1Since where
  count : Nat
  last : Option Finding
  time : Option Nat
deriving DecidableEq, Repr

/-- The incident unit (16). `scanDue`: an S3 recovery waits for the journal to be shown. -/
structure Inc where
  log : List (Option IncEntry)
  nextId : BitVec 16
  lost : BitVec 16
  overflow : Bool
  cur : Option Nat
  fenced : Bool
  s1cnt : List (BitVec 32)
  s1since : List S1Since
  fenceEntry : Option IncEntry
  scanDue : Bool
deriving DecidableEq, Repr

/-- A start step's outcome (R689). -/
inductive StepCode where
  | pass | passAlt | skipped | failed
deriving DecidableEq, Repr

/-- The start (17). `codes` holds an outcome for each resolved step; `running` the steps under way with the attempt each is
at; `stuck`: retention has failed its check, and only a cold reset helps (R680). -/
structure StartSt where
  active : Bool
  warm : Bool
  waitingGo : Bool
  parked : Bool
  copyFailed : Bool
  running : List (Nat × Nat)
  codes : List (Option StepCode)
  failLast : BitVec 16
  altUse : BitVec 16
  prev : Option (List Byte)
  rec' : BitVec 512
  ready : BitVec 16
  warmCount : BitVec 32
  parkStep : BitVec 8
  hintUsed : Bool
  hintBad : Bool
  repairAlt : Bool
  calProv : Bool
  halfCu : Bool
  halfCd : Bool
  rerun : List Nat
  stuck : Bool
deriving DecidableEq, Repr

/-- A calibration entry (R731). -/
structure Cal where
  drop : BitVec 8
  trig : BitVec 8
  valid : Bool
  provisional : Bool
deriving DecidableEq, Repr

/-- An outstanding forecast (R716, R718, R720). -/
structure Forecast where
  level : Nat
  lead : Nat
  token : Nat
deriving DecidableEq, Repr

/-- The load-step governor and the rails (18). `ramp`: the level that it is moving to; `unforecast`: without a forecast (R722);
`filler`: the clusters run the filler pattern (R721). -/
structure Gov where
  level : BitVec 4
  demand : BitVec 4
  budget : BitVec 4
  cap : BitVec 4
  stretch : Bool
  calProv : Bool
  recal : Bool
  pgLost : Bool
  pgBad : BitVec 12
  stretchCnt : BitVec 32
  cals : List Cal
  forecast : Option Forecast
  token : BitVec 8
  ramp : Option Nat
  unforecast : Bool
  filler : Bool
  coreGood : Bool
  sramGood : Bool
deriving DecidableEq, Repr

/-- The assay scheduler (R658, R661): the next cluster of the round, the one that FORCE names, the one being assayed. -/
structure Assay where
  next : Nat
  forced : Option Nat
  running : Option Nat
deriving DecidableEq, Repr

/-- The resets (R742). -/
structure Rst where
  cold : Bool
  warm : Bool
deriving DecidableEq, Repr

/-- The response of a store-window access (R749, R750). -/
inductive WinResp where
  | okay
  | slverr
  | decerr
deriving DecidableEq, Repr

/-- What leaves the block at a port. `mpWriteBits` is a byte of which only the bits of `mask` are written; `rxCredit` is `n` pulses of
cu_rx_cred or cd_rx_cred of a lane (R767). -/
inductive Out where
  | mpWrite (addr : Nat) (bytes : List Byte)
  | mpWriteBits (addr : Nat) (value mask : Byte)
  | mpRead (addr len : Nat)
  | winRead (req : WinReq) (data : List Byte) (resp : WinResp)
  | winWrite (req : WinReq) (resp : WinResp)
  | flit (f : TxFlit)
  | rxCredit (cd : Bool) (lane n : Nat)
  | pg (word : Nat)
deriving DecidableEq, Repr

end Sys2Proof.Machine
end

