-- ==== Sys2Proof/Machine/State.lean ====
section
/-!
DEFINITION. The state of the block, why a step may stop, and the state after reset.
-/
namespace Sys2Proof.Machine
open Sys2Proof

/-- Why a step would stop with a fault. -/
inductive Fault where
  /-- Nobody raises it: what the manual calls a fault of a descriptor is a status in its milepost (R360), and what it calls
  an error is an incident (R642). Safe. -/
  | never
deriving DecidableEq, Repr

/-- Why a step has no meaning. -/
inductive Refusal where
  /-- Raised only by an arm of `exec` whose command has no meaning yet. Safe. -/
  | notModelled (mnemonic : String)
deriving DecidableEq, Repr

/-- The block. -/
structure State where
  /-- Commands that are waiting, first in, first out. -/
  pending : List Instr
  /-- The model's own counter of free values. -/
  freeCtr : Nat
  /-- Enabled clusters among 0 to 15 (R27): a property of the part. -/
  grade : Nat
  rst : Rst
  regs : Regs
  setup : SetupSt
  pad : Pad
  seals : Seals
  rings : List Ring
  groups : List Group
  wb : Wb
  slots : List Slot
  loads : List Load
  staging : Memory
  /-- Words of staging (256 bits each, by index) in which an uncorrectable error has been found and that nothing has written since
  (R644). -/
  ue : List Nat
  clusters : List Cluster
  standin : BitVec 5
  assay : Assay
  rowCtx : List RowCx
  asHeld : List (Option Beat)
  asSeen : List (List Nat)
  asBad : Bool
  asStray : BitVec 32
  asCheckFail : BitVec 32
  tolls : Tolls
  cw : Cw
  inc : Inc
  start : StartSt
  gov : Gov
  /-- What has left at the ports, in order. -/
  out : List Out
deriving DecidableEq, Repr

namespace State

/-- The geometry record's reset value (R503), bytes 63 to 0. -/
def resetGeometry : BitVec 512 :=
  BitVec.ofNat 512 (0x0001 + (0x0001 <<< 16) + (0x0001 <<< 48) + (0xFFFF <<< 64) + (0x0001 <<< 128))

def resetRegs : Regs where
  debugCtl := 0
  dbgAddr := 0
  drawStage := 0
  geomStage := resetGeometry
  startCtl := 0x00640000
  startAddr := 0
  startHint := 0
  wbBase := 0
  wbCtl := 0x0010000C
  wbResume := 0
  wbKeep := 0
  wbmBase := 0
  wbmCtl := 0x0000000C
  stageCtl := 0
  stageAper := 0
  mpCtl := 0x00080033
  asCtl := 0x00642710
  cwCtl := 0x05102710
  mirrorBase := 0
  mirrorSize := 0
  clkCtl := 0
  govCtl := 0x015E001E
  govSlew := 0x3350
  govLead := 0x000000AF
  govGuard := 0x01F41806
  incCtl := 0x00000002
  assayCtl := 0x000003E8
  key1 := 0
  key2 := 0

def resetPath : Path' := ⟨[], [], 0, false⟩

def resetSetup : SetupSt where
  lastError := 0
  err := false
  lastOffset := 0
  errCount := 0
  dbgErr := false
  apb := resetPath
  dbg := resetPath
  irqDone := 0
  irqIncident := 0
  irqReady := 0
  bellIgnored := 0
  bellReceived := 0

def resetSeals : Seals := ⟨6, 0, resetGeometry, 0, List.replicate 4 0, [], []⟩

def resetRing : Ring where
  ctl := 0x03E80000
  base := 0
  head := 0
  cpl := 0
  pending := false
  reading := none
  next := 0
  done := 0
  prod := 0
  lastSeq := 0
  known := false
  seqKnown := false
  rebuilt := false
  status := .disabled
  resume := .disabled
  halted := false
  arrived := []
  atHead := none
  cap := none

def resetWb : Wb where
  tail := 0
  ckpt := 0
  epoch := 0
  mirrorLost := false
  wbmHigh := 0
  wbmCkpt := 0
  trim := 0
  nextSeq := 1
  recs := []
  since := 0
  stopped := false
  mirror := []
  sent := []
  wbmFirst := none
  wbmRuns := []

def emptyBank : Bank := ⟨0, 0, none⟩

/-- A slot after cold reset (R185, R215). -/
def resetSlot (i : Nat) : Slot :=
  ⟨if Tab.hasRom i then ⟨0, 0, some (.rom i)⟩ else emptyBank, emptyBank, false, false, if i < 3 then some i else none⟩

def resetCluster : Cluster := ⟨List.replicate 8 0, false, false, 0, 0, [], [], .empty, .empty, true⟩

def resetTolls : Tolls := ⟨List.replicate 64 0, List.replicate 64 0, [], [], [], []⟩

/-- No transport credits to send (R766); the 32 receive credits of each lane have been given (R767). -/
def resetCw : Cw := ⟨[], [], [], List.replicate 8 0, List.replicate 8 0, List.replicate 8 32, List.replicate 8 32, [], []⟩

def resetInc : Inc :=
  ⟨List.replicate 32 none, 0, 0, false, none, false, List.replicate 32 0, List.replicate 32 ⟨0, none, none⟩, none, false⟩

/-- The start of S0 at a cold reset (R675, R692). -/
def resetStart : StartSt where
  active := true
  warm := false
  waitingGo := false
  parked := false
  copyFailed := false
  running := [(0, 1)]
  codes := List.replicate 10 none
  failLast := 0
  altUse := 0
  prev := none
  rec' := 0
  ready := 0x0003
  warmCount := 0
  parkStep := 0xFF
  hintUsed := false
  hintBad := false
  repairAlt := false
  calProv := false
  halfCu := false
  halfCd := false
  rerun := []
  stuck := false

def resetGov : Gov where
  level := 0
  demand := 0
  budget := 0
  cap := 0xF
  stretch := false
  calProv := false
  recal := false
  pgLost := false
  pgBad := 0
  stretchCnt := 0
  cals := List.replicate 3 ⟨0, 0, false, false⟩
  forecast := none
  token := 0
  ramp := none
  unforecast := false
  filler := false
  coreGood := false
  sramGood := false

/-- The block right after rst_cold_n is released: every setup field at its reset value, S0 running (R675, R677). -/
def reset : State where
  pending := []
  freeCtr := 0
  grade := 16
  rst := ⟨false, false⟩
  regs := resetRegs
  setup := resetSetup
  pad := ⟨List.replicate 8 0, List.replicate 8 0, none⟩
  seals := resetSeals
  rings := List.replicate 64 resetRing
  groups := []
  wb := resetWb
  slots := (List.range 65).map resetSlot
  loads := []
  staging := []
  ue := []
  clusters := List.replicate 17 resetCluster
  standin := 0x1F
  assay := ⟨0, none, none⟩
  rowCtx := []
  asHeld := List.replicate 16 none
  asSeen := List.replicate 16 []
  asBad := false
  asStray := 0
  asCheckFail := 0
  tolls := resetTolls
  cw := resetCw
  inc := resetInc
  start := resetStart
  gov := resetGov
  out := []

end State
end Sys2Proof.Machine
end

