-- ==== Sys2Proof/Machine/Ops.lean ====
section
/-!
DEFINITION. The named operations over the state that the meanings share: rings, groups and members, the geometry, readiness,
memory as a command shows it, table banks and pins, the fingerprint.
-/
namespace Sys2Proof.Machine
open Sys2Proof

/-- A list cut into pieces of `n`; `fuel` bounds the number of pieces. -/
def cutGo {α : Type} (n : Nat) : Nat → List α → List (List α)
  | 0, _ => []
  | fuel + 1, xs => match xs with | [] => [] | _ => xs.take n :: cutGo n fuel (xs.drop n)

/-- A list cut into pieces of `n` elements, the last one shorter where they do not divide. -/
def cut {α : Type} (n : Nat) (xs : List α) : List (List α) := cutGo (max 1 n) xs.length xs

/-- A meaning ends in a next state. -/
abbrev Res := Host.Outcome State Fault Refusal

-- Status codes (R360)
namespace St
abbrev ok : Nat := 0x0000
abbrev reservedSet : Nat := 0x0101
abbrev opcodeInvalid : Nat := 0x0102
abbrev formatInvalid : Nat := 0x0103
abbrev formatMismatch : Nat := 0x0104
abbrev scaleInvalid : Nat := 0x0105
abbrev clipInvalid : Nat := 0x0106
abbrev passesInvalid : Nat := 0x0107
abbrev strictUnsupported : Nat := 0x0108
abbrev compatUnavailable : Nat := 0x0109
abbrev epsInvalid : Nat := 0x010A
abbrev epilogueInvalid : Nat := 0x010B
abbrev padUnsupported : Nat := 0x010C
abbrev drawRange : Nat := 0x010D
abbrev inPlace : Nat := 0x010E
abbrev reproRefused : Nat := 0x010F
abbrev tileOwned : Nat := 0x0110
abbrev tableGen : Nat := 0x0111
abbrev tableLimit : Nat := 0x0112
abbrev tableBusy : Nat := 0x0113
abbrev planInvalid : Nat := 0x0114
abbrev fuseOrphan : Nat := 0x0115
abbrev groupOpen : Nat := 0x0116
abbrev groupTooLong : Nat := 0x0117
abbrev notReady : Nat := 0x0118
abbrev shapeExceedsPlan : Nat := 0x0201
abbrev allocOverflow : Nat := 0x0202
abbrev codeTableInvalid : Nat := 0x0203
abbrev splitRange : Nat := 0x0204
abbrev partialConflict : Nat := 0x0205
abbrev partialMissing : Nat := 0x0206
abbrev ingotSignature : Nat := 0x0207
abbrev ingotInvalid : Nat := 0x0208
abbrev shapeInvalid : Nat := 0x0209
abbrev groupFault : Nat := 0x020A
abbrev dataError : Nat := 0x020B
abbrev busError : Nat := 0x020C
end St

namespace State

-- Outputs and free values --------------------------------------------------------------------------------------------

/-- Something leaves at a port. -/
def emit (s : State) (o : Out) : State := { s with out := s.out ++ [o] }

/-- One free value used. -/
def bump (s : State) : State := { s with freeCtr := s.freeCtr + 1 }

/-- The count of CK_G cycles at this moment: time is not modelled. -/
def now (s : State) : Nat := (Config.freeTime s.freeCtr).toNat

/-- Is a reset asserted (R742)? Nothing crosses the ports then, RAIL_GOOD apart (R710). -/
def inReset (s : State) : Bool := s.rst.cold || s.rst.warm

-- Rings --------------------------------------------------------------------------------------------------------------

def ring (s : State) (r : Nat) : Ring := s.rings.getD r resetRing
def modRing (s : State) (r : Nat) (f : Ring → Ring) : State := { s with rings := s.rings.modify r f }
def modRings (s : State) (f : Ring → Ring) : State := { s with rings := s.rings.map f }

end State

namespace Ring

def enabled (r : Ring) : Bool := r.ctl.getLsbD 0
def irqEn (r : Ring) : Bool := r.ctl.getLsbD 1
def sizeLog2 (r : Ring) : Nat := bits r.ctl.toNat 11 8
def waitLimit (r : Ring) : Nat := bits r.ctl.toNat 31 16
/-- Slots of the ring (R328). -/
def slots (r : Ring) : Nat := 2 ^ (r.sizeLog2 + 4)
def descAddr (r : Ring) (i : BitVec 32) : Nat := r.base.toNat + 128 * (i.toNat % r.slots)
def cplAddr (r : Ring) (i : BitVec 32) : Nat := r.cpl.toNat + 64 * (i.toNat % r.slots)

end Ring

def RStat.code : RStat → Nat
  | .running => 0 | .disabled => 1 | .overrun => 2 | .fetchError => 3 | .journalError => 4 | .replay => 5

namespace State

-- Groups and members -------------------------------------------------------------------------------------------------

def members (s : State) : List Member := s.groups.flatMap (·.members)
def member? (s : State) (seq : Nat) : Option Member := s.members.find? (·.seq == seq)

/-- The group that holds a member with this sequence number. -/
def group? (s : State) (seq : Nat) : Option Group := s.groups.find? (fun g => g.members.any (·.seq == seq))

def modGroup (s : State) (seq : Nat) (f : Group → Group) : State :=
  { s with groups := s.groups.map (fun g => if g.members.any (·.seq == seq) then f g else g) }

def modMember (s : State) (seq : Nat) (f : Member → Member) : State :=
  { s with groups := s.groups.map (fun g => { g with members := g.members.map (fun m => if m.seq == seq then f m else m) }) }

/-- The members of a ring whose waymarks have not been reported, and what ACCEPT_IDX shows beside them (R331). -/
def untaken (s : State) (r : Nat) : List Member := s.members.filter (fun m => m.ring == r && !m.taken)

def acceptIdx (s : State) (r : Nat) : BitVec 32 :=
  match s.untaken r with | m :: _ => m.idx | [] => (s.ring r).next

end State

namespace Group

/-- The waymark sequence number that names a group: its first member's. -/
def firstSeq (g : Group) : Nat := match g.members with | m :: _ => m.seq | [] => 0
def lastSeq (g : Group) : Nat := match g.members.getLast? with | some m => m.seq | none => 0

/-- Has every member its waymark reported? -/
def allTaken (g : Group) : Bool := g.members.all (·.taken)

/-- Has the group a member that was rejected or that has faulted? -/
def bad (g : Group) : Bool := g.dead || g.members.any (fun m => m.status != 0 || m.fault != 0)

/-- The group's member before the one with this number. -/
def pred? (g : Group) (seq : Nat) : Option Member :=
  match g.members.findIdx? (·.seq == seq) with
  | some (n + 1) => g.members[n]?
  | _ => none

end Group

namespace Member

def accepted (m : Member) : Bool := m.status == 0
/-- The status that the milepost carries. -/
def final (m : Member) : Nat := if m.status != 0 then m.status else m.fault

end Member

namespace State

-- Settings -----------------------------------------------------------------------------------------------------------

/-- A field of the geometry record in force (R503): n bytes from byte o on. -/
def geo (s : State) (o n : Nat) : Nat := bits s.seals.geometry.toNat (8 * (o + n) - 1) (8 * o)
def chainLen (s : State) : Nat := s.geo 2 2
def position (s : State) : Nat := s.geo 4 2
def segLen (s : State) : Nat := s.geo 6 2
def partner (s : State) : Nat := s.geo 8 2
/-- SPAN_LEN of the span class in bits [15:12] of a CHAIN_ID (R509). -/
def spanLen (s : State) (chain : Nat) : Nat := s.geo (16 + 2 * (chain / 4096)) 2
def routeAddr (s : State) : Nat := s.geo 48 8
def standby (s : State) : Bool := s.position == 0xFFFF
def noPartner (s : State) : Bool := s.partner == 0xFFFF

def compat5 (s : State) : Bool := s.seals.compatGen == 5
def strictRepro (s : State) : Bool := s.seals.reproClass == 1

/-- Function n of R692 is ready. -/
def isReady (s : State) (n : Nat) : Bool := s.start.ready.getLsbD n

/-- GEOM_DIGEST (R508). -/
def geomDigest (s : State) : Nat :=
  let b := toBytes 64 s.seals.geometry.toNat
  Hash.crc64 (b.take 8 ++ zeroBytes 2 ++ (b.drop 10).take 38 ++ zeroBytes 8 ++ b.drop 56)

/-- The fingerprint (R594). -/
def fingerprint (s : State) (compat : Nat) (geom draw : Bool) (ingots : List Nat) : Nat :=
  Hash.crc64 (toBytes 4 0x50463653 ++ toBytes 1 compat ++ toBytes 1 s.seals.reproClass.toNat ++ toBytes 1 (b2n geom + 2 * b2n draw) ++
    toBytes 1 ingots.length ++ toBytes 8 (if geom then s.geomDigest else 0) ++ toBytes 16 (if draw then s.seals.drawKey.toNat else 0) ++
    ingots.flatMap (toBytes 8))

/-- The settings fingerprint, and that of class A (R599). -/
def fpSettings (s : State) : Nat := s.fingerprint s.seals.compatGen.toNat true true []
def fpA (s : State) : Nat := s.fingerprint s.seals.compatGen.toNat false false []

-- Staging and memory -------------------------------------------------------------------------------------------------

/-- Resident granules, and the base of the staging range in the descriptors' map (R481, R782). -/
def resident (s : State) : Nat := bits s.regs.stageCtl.toNat 10 0
def aper (s : State) : Nat := s.regs.stageAper.toNat

/-- The staging address that serves a byte of memory (R482): none where the byte is not in the resident range. -/
def stageAddr (s : State) (a : Nat) : Option Nat :=
  if s.aper ≤ a ∧ a < s.aper + s.resident * 65536 then some (a - s.aper) else none

end State

/-- A byte of memory as a command shows it: the first stretch that holds the address; an address in none reads as 0. -/
def Image.byte (img : Image) (a : Nat) : Byte :=
  match img.find? (fun g => decide (g.base ≤ a ∧ a < g.base + g.bytes.length)) with
  | some g => g.bytes.getD (a - g.base) 0
  | none => 0

/-- `n` bytes of memory as a command shows it. -/
def Image.read (img : Image) (a n : Nat) : List Byte :=
  match img.find? (fun g => decide (g.base ≤ a ∧ a + n ≤ g.base + g.bytes.length)) with
  | some g => (g.bytes.drop (a - g.base)).take n
  | none => (List.range n).map (fun i => Image.byte img (a + i))

namespace State

/-- Bytes that a descriptor reads: from staging where the resident range serves them (R482), from memory elsewhere. -/
def rd (s : State) (img : Image) (a n : Nat) : List Byte :=
  if s.resident = 0 ∨ a + n ≤ s.aper ∨ s.aper + s.resident * 65536 ≤ a then Image.read img a n
  else (List.range n).map (fun i => match s.stageAddr (a + i) with
    | some p => s.staging.read s.freeCtr p
    | none => Image.byte img (a + i))

/-- Bytes stored in staging; a word that is written holds no known error any more (R644). -/
def stageWrite (s : State) (a : Nat) (bs : List (Option Byte)) : State :=
  let hit := fun (w : Nat) => (bs.zipIdx).any (fun p => p.1.isSome && decide ((a + p.2) / 32 = w))
  { s with staging := s.staging.write a bs, ue := s.ue.filter (fun w => !hit w) }

/-- The address of a word with an uncorrectable error in a range of staging, where there is one (R644). -/
def ueIn (s : State) (a n : Nat) : Option Nat :=
  (s.ue.find? (fun w => decide (0 < n ∧ a < 32 * w + 32 ∧ 32 * w < a + n))).map (32 * ·)

/-- Bytes that a descriptor writes: to staging in the resident range, as a write on MP0-MP7 elsewhere (R482, R747). -/
def wr (s : State) (a : Nat) (bs : List Byte) : State :=
  match bs with
  | [] => s
  | _ =>
    if s.resident = 0 ∨ a + bs.length ≤ s.aper ∨ s.aper + s.resident * 65536 ≤ a then s.emit (.mpWrite a bs)
    else
      let cut := fun (inside : Bool) => bs.mapIdx (fun i b => if (s.stageAddr (a + i)).isSome == inside then some b else none)
      let start := if s.aper ≤ a then a - s.aper else 0
      let s1 := s.stageWrite start ((cut true).drop (if s.aper ≤ a then 0 else s.aper - a))
      (bs.mapIdx (fun i b => (a + i, b))).foldl (fun s p =>
        if (s.stageAddr p.1).isSome then s else s.emit (.mpWrite p.1 [p.2])) s1

/-- A read of the aligned 128 bytes that hold an item leaves (R745), unless staging serves it (R40). -/
def ask (s : State) (a : Nat) : State :=
  let b := a - a % 128
  if (s.stageAddr b).isSome then s else s.emit (.mpRead b 128)

/-- The block's half of a head record, bytes 63 to 32 (R331). -/
def headHalf (s : State) (r : Nat) : List Byte :=
  let g := s.ring r
  toBytes 4 (s.acceptIdx r).toNat ++ toBytes 4 g.done.toNat ++ toBytes 2 g.status.code ++ zeroBytes 6 ++ toBytes 8 g.lastSeq ++ zeroBytes 8

/-- The block's half of a head record is written as one aligned 32-byte write (R331, R332): not once the block is fenced (R654), nor
while the ring's indices are not known (R337, R347). -/
def writeHead (s : State) (r : Nat) : State :=
  if s.inc.fenced || !(s.ring r).known then s else s.wr ((s.ring r).head.toNat + 32) (s.headHalf r)

-- Table banks --------------------------------------------------------------------------------------------------------

def slot (s : State) (i : Nat) : Slot := s.slots.getD i ⟨emptyBank, emptyBank, false, false, none⟩
def modSlot (s : State) (i : Nat) (f : Slot → Slot) : State := { s with slots := s.slots.modify i f }

end State

namespace Slot

def bank (t : Slot) (b : Bool) : Bank := if b then t.b1 else t.b0
def setBank (t : Slot) (b : Bool) (k : Bank) : Slot := if b then { t with b1 := k } else { t with b0 := k }
def activeBank (t : Slot) : Bank := t.bank t.active

/-- The bank that holds a generation and is not closing (R205, R207). -/
def holds (t : Slot) (gen : Nat) : Option Bool :=
  if t.activeBank.img.isSome && t.activeBank.gen == gen then some t.active
  else if (t.bank (!t.active)).img.isSome && (t.bank (!t.active)).gen == gen && !t.closing then some (!t.active)
  else none

/-- The bank that holds a generation, closing or not: what a pinned read finds. -/
def anyBank (t : Slot) (gen : Nat) : Option Bank :=
  if t.activeBank.img.isSome && t.activeBank.gen == gen then some t.activeBank
  else if (t.bank (!t.active)).img.isSome && (t.bank (!t.active)).gen == gen then some (t.bank (!t.active))
  else none

end Slot

/-- A reference to a generation: named, or the current one (R397, R398). -/
inductive GRef where
  | gen (n : Nat)
  | cur
deriving DecidableEq, Repr

namespace Desc

/-- The functions that a descriptor evaluates, beside its row operation: F1's and ACT's (R408). -/
def f1Fn (d : Desc) : Option Fn :=
  match d.op with
  | some .func | some .gate => Fn.ofCode d.f1 d.agen
  | _ => none
def actFn (d : Desc) : Option Fn := if d.act = 0 then none else Fn.ofCode d.act 0

/-- The functions of R200 that an operation evaluates under COMPAT_GEN = 5. -/
def s5Fns (d : Desc) : List Fn :=
  let own : List Fn := match d.op with
    | some .rmsn => if d.rmsEn then [.rsqrt, .sqrt] else [.rsqrt]
    | some .smax => [.exp false]
    | some .lsmax => [.exp false, .log true]
    | some .rowred => if d.f1 % 8 = 5 then [.exp false, .log true] else []
    | some .scan => if d.f1 % 2 = 1 then [.exp false, .log true] else []
    | _ => []
  d.f1Fn.toList ++ d.actFn.toList ++ own

/-- Is a tensor of the L family named anywhere (R806)? -/
def anyL (d : Desc) : Bool := d.refs.any (fun r => r.fmt.isL)

/-- The conversion slots that an operation reads (R806). -/
def convSlots (d : Desc) : List Nat :=
  let own := match d.op with
    | some .rmsn | some .smax | some .gate | some .upd => [0, 1]
    | some .lsmax => [0, 1, 2]
    | some .rowred => if d.f1 % 8 = 5 then [0, 1, 2] else []
    | some .scan => if d.f1 % 2 = 1 then [0, 1, 2] else []
    | some .affine => if d.form = 0 then [] else [0, 1]
    | _ => []
  own ++ (if d.anyL then [0, 1] else [])

/-- The references to slots that a descriptor makes (R199, R397, R398, R806, R813); slot 64 is the program store. The slots
that a program names come from its bank (`prog`). -/
def slotRefs (d : Desc) (c5 : Bool) (prog : List (Nat × Nat)) : List (Nat × GRef) :=
  if d.strict then []
  else if c5 then (d.s5Fns.filterMap (·.s5Slot)).map (fun i => (i, .gen 0))
  else
    let dflt : GRef := if d.curAll then .cur else .gen 0
    let fref : GRef := if d.curAll || d.fcur then .cur else .gen d.fgen
    let aref : GRef := if d.curAll || d.acur then .cur else .gen d.agen
    let fnRefs := fun (f : Fn) (own : Option Nat) (r : GRef) => f.slots.map (fun i => (i, if some i = own then r else dflt))
    let f1 := match d.f1Fn with
      | some (.prog _) => (64, fref) :: prog.map (fun p => (p.1, GRef.gen p.2))
      | some f => fnRefs f d.fslot fref
      | none => match d.fslot with | some i => [(i, fref)] | none => []
    let a := match d.actFn with | some f => fnRefs f d.aslot aref | none => []
    f1 ++ a ++ d.convSlots.map (fun i => (i, dflt))

end Desc

/-- Insertion in ascending slot, then ascending generation, without repeats. -/
def insPair (p : Nat × Nat) : List (Nat × Nat) → List (Nat × Nat)
  | [] => [p]
  | q :: r => if p = q then q :: r else if p.1 < q.1 ∨ (p.1 = q.1 ∧ p.2 < q.2) then p :: q :: r else q :: insPair p r

def sortPairs (ps : List (Nat × Nat)) : List (Nat × Nat) := ps.foldl (fun a p => insPair p a) []

/-- What a descriptor's references resolve to (R205): the pairs that it reads, program store apart, the program's
generation, and the generations of F1 and ACT. -/
structure Resolved where
  reads : List (Nat × Nat)
  progGen : Nat
  fgen : Nat
  agen : Nat
deriving DecidableEq, Repr

namespace State

/-- The generation of a reference; none where a current reference meets an empty active bank (R209). -/
def genOf (s : State) (slot : Nat) : GRef → Option Nat
  | .gen n => some n
  | .cur => if (s.slot slot).activeBank.img.isSome then some (s.slot slot).activeBank.gen else none

/-- The bytes of a program bank of a generation. -/
def progBytes (s : State) (gen : Nat) : List Byte :=
  match (s.slot 64).anyBank gen with
  | some b => (match b.img with | some (.img bs) => bs | _ => [])
  | none => []

end State

/-- The slot references of program `i` of a bank (R222). -/
def progSlotRefs (b : List Byte) (i : Nat) : List (Nat × Nat) :=
  let start := field b (8 * i) 2
  (List.range (field b (8 * i + 5) 1)).map (fun j => (field b (4 * (start + 2 * j)) 1, field b (4 * (start + 2 * j) + 4) 4))

namespace State

/-- The slot references of the program that a FUNC runs, in the bank that its reference names now. -/
def progRefs (s : State) (d : Desc) : List (Nat × Nat) :=
  match d.f1Fn with
  | some (.prog i) =>
    match s.genOf 64 (if d.curAll || d.fcur then .cur else .gen d.fgen) with
    | some g => progSlotRefs (s.progBytes g) i
    | none => []
  | _ => []

/-- Steps 4 and check 9 of R344 for the generations: every reference resolved, and resident in a bank that is not closing
(R205 to R209). -/
def resolve (s : State) (d : Desc) : Option Resolved :=
  let refs := d.slotRefs s.compat5 (s.progRefs d)
  let go := refs.map (fun p => (p.1, s.genOf p.1 p.2))
  if go.all (fun p => match p.2 with | some g => ((s.slot p.1).holds g).isSome | none => false) then
    let ps := sortPairs (go.filterMap (fun p => p.2.map (fun g => (p.1, g))))
    let g := fun (sl : Option Nat) (cur : Bool) (n : Nat) => match sl with
      | some i => if s.compat5 then 0 else (s.genOf i (if d.curAll || cur then .cur else .gen n)).getD 0
      | none => 0
    some ⟨ps.filter (fun p => p.1 < 64), ((ps.find? (fun p => p.1 == 64)).map (·.2)).getD 0, g d.fslot d.fcur d.fgen, g d.aslot d.acur d.agen⟩
  else none

/-- Who pins banks: accepted members without a published milepost, of a faulted group too, and checked descriptors at a ring's head
(R205). -/
def pinned (s : State) (slot gen : Nat) : Bool :=
  s.groups.any (fun g => g.members.any (fun m =>
    m.accepted && !m.respReturned && (if slot = 64 then m.progGen == gen && m.progGen != 0 else m.reads.contains (slot, gen)))) ||
  s.rings.any (fun r => match r.atHead with
    | some h => h.status == 0 && (match s.resolve h.bytes with
      | some q => if slot = 64 then q.progGen == gen && q.progGen != 0 else q.reads.contains (slot, gen)
      | none => false)
    | none => false)

/-- A bank's contents for a read. Generation 0 denotes ROM contents and no other, resident or not (R186). -/
def imgOf (s : State) (slot gen : Nat) : BankImg :=
  match (s.slot slot).anyBank gen with
  | some b => b.img.getD (.img [])
  | none => if gen = 0 && Tab.hasRom slot then .rom slot else .img []

/-- The ingot id of a bank at a generation (R598). -/
def ingotOf (s : State) (slot gen : Nat) : Nat :=
  match (s.slot slot).anyBank gen with | some b => b.ingot | none => 0

/-- Is a LOAD_INGOT accepted for a slot without a published milepost (R219, R793)? -/
def loading (s : State) (slot : Nat) : Bool :=
  s.members.any (fun m => m.accepted && m.bytes.is .loadIngot && m.bytes.slotOf == slot)

end State
end Sys2Proof.Machine
end

