-- ==== Sys2Proof/Machine/Links.lean ====
section
/-!
DEFINITION. Links and flits on their way out: the routing cache (R512 to R515), link contexts (R542, R546 to R549, R554),
transport credits (R766 to R769), and messages cut into flits (R543, R544).
-/
namespace Sys2Proof.Machine
open Sys2Proof

-- Message kinds (R544)
namespace Kind
abbrev grant : Nat := 1
abbrev ack : Nat := 2
abbrev run : Nat := 3
abbrev offset : Nat := 4
abbrev segtot : Nat := 5
abbrev total : Nat := 6
abbrev halo : Nat := 7
abbrev sign : Nat := 8
abbrev pub : Nat := 9
abbrev abort : Nat := 10
abbrev mirror : Nat := 11
abbrev parity : Nat := 12
abbrev waybook : Nat := 13
abbrev sync : Nat := 14

/-- Kinds that stand outside the order of LSEQ. -/
def control (k : Nat) : Bool := k == ack || k == sync
end Kind

/-- A link context that nothing has used in its epoch: LSEQ 0 at both ends, no credits. -/
def Link.fresh (peer : Nat) (cd : Bool) (epoch sync : Nat) : Link := ⟨peer, cd, 0, 0, 0, 0, epoch, sync, false, 0, [], [], [], []⟩

/-- Does a link have something to send? -/
def Link.waits (l : Link) : Bool := !l.queue.isEmpty || !l.again.isEmpty

namespace State

def modCw (s : State) (f : Cw → Cw) : State := { s with cw := f s.cw }

def route? (s : State) (peer : Nat) : Option Route := s.cw.routes.find? (·.pos == peer)
def link? (s : State) (peer : Nat) : Option Link := s.cw.links.find? (·.peer == peer)
def modLink (s : State) (peer : Nat) (f : Link → Link) : State :=
  s.modCw (fun c => { c with links := c.links.map (fun l => if l.peer == peer then f l else l) })

/-- Reads a routing entry when a peer is needed and none is cached (R512, R513); the cache holds 64 entries. An entry with
VALID 0 or a reserved bit set is no route (R515). -/
def needRoute (s : State) (img : Image) (peer : Nat) : State :=
  if (s.route? peer).isSome then s
  else
    let w := ofBytes (s.rd img (s.routeAddr + 4 * peer) 4)
    if bit w 17 && bits w 31 18 == 0 then
      s.modCw (fun c => { c with routes := (⟨peer, bits w 15 0, bit w 16, true⟩ :: c.routes).take 64 })
    else s

/-- A link context for a peer, where one of the 128 is free (R542). -/
def needLink (s : State) (peer : Nat) : State :=
  if (s.link? peer).isSome then s
  else if s.cw.links.length < 128 then
    s.modCw (fun c => { c with links := c.links ++ [Link.fresh peer false 0 1] })
  else s

/-- Links without unacknowledged flits and without a retained exchange are freed (R542); this is done when a context is needed
and none is left (log 91: DEDUCED). A failed link keeps its context until a route change (R549). -/
def freeLinks (s : State) : State :=
  s.modCw (fun c => { c with links := c.links.filter (fun l =>
    !(l.unacked.isEmpty && l.queue.isEmpty && l.landing.isEmpty) || l.failed ||
    c.exchs.any (fun e => (e.isOpen && (e.senders.contains l.peer || e.granted.contains l.peer)) || e.kept.any (fun f => f.peer == l.peer && !e.pubs.contains l.peer)) ||
    c.rx.any (fun m => m.src == l.peer)) })

/-- One flit joins the queue of its link. -/
def queueFlit (s : State) (f : TxFlit) : State :=
  (s.needLink f.peer).modLink f.peer (fun l => { l with queue := l.queue ++ [f] })

/-- Has the peer of a flit granted the exchange that the flit is part of? -/
def grantedBy (s : State) (f : TxFlit) : Bool :=
  s.cw.exchs.any (fun (e : Exch) => e.seq == f.own && e.granted.contains f.peer)

/-- Does a flit belong to an exchange? PARITY flits within a parity group do, those to its holder are link-only (R544, R583,
R584). -/
def exchFlit (f : TxFlit) : Bool := f.own != 0

/-- May a queued flit of a link leave now, transport credits apart? A link-only kind needs the window alone, a kind of an
exchange also the grant and a credit (R519, R546); while a restart waits for the peer's SYNC, nothing else leaves (R554). -/
def eligible (s : State) (l : Link) (f : TxFlit) : Bool :=
  Kind.control f.kind ||
  (l.sync != 0 && decide (l.unacked.length < 64) &&
    (!exchFlit f || (decide (0 < l.credits) && s.grantedBy f)))

/-- The lowest lane of a port that holds a transport credit; half width uses lanes 0 to 3 (R766, R769). -/
def freeLane (s : State) (cd : Bool) : Option Nat :=
  let cr := if cd then s.cw.credCd else s.cw.credCu
  let half := if cd then s.start.halfCd else s.start.halfCu
  ((cr.take (if half then 4 else 8)).findIdx? (fun n => decide (0 < n)))

/-- The pulses of cu_rx_cred and cd_rx_cred after reset release: one for each place of each lane's buffer of 32 flits (R767). -/
def giveRxCredits (s : State) : State :=
  { s with out := s.out ++ [false, true].flatMap (fun cd => (List.range 8).map (fun l => Out.rxCredit cd l 32)) }

/-- Is a lane of a port in use (R769)? -/
def laneUsed (s : State) (cd : Bool) (lane : Nat) : Bool :=
  decide (lane < if (if cd then s.start.halfCd else s.start.halfCu) then 4 else 8)

/-- Has the transport a receive credit for a lane? It delivers no flit without one (R767). -/
def rxCredit (s : State) (cd : Bool) (lane : Nat) : Bool := decide (0 < (if cd then s.cw.rxCredCd else s.cw.rxCredCu).getD lane 0)

/-- A flit has been delivered into the buffer of its lane: the credit for it is spent. The block removes it at once and pulses a
credit, on a lane in use (R767, R769). -/
def takeRx (s : State) (cd : Bool) (lane : Nat) : State :=
  if s.laneUsed cd lane then s.emit (.rxCredit cd lane 1)
  else s.modCw (fun c =>
    if cd then { c with rxCredCd := c.rxCredCd.modify lane (· - 1) } else { c with rxCredCu := c.rxCredCu.modify lane (· - 1) })

/-- A flit leaves on a lane and spends one transport credit. -/
def spendLane (s : State) (cd : Bool) (lane : Nat) : State :=
  s.modCw (fun c => if cd then { c with credCd := c.credCd.modify lane (· - 1) } else { c with credCu := c.credCu.modify lane (· - 1) })

/-- The place in a link's queue of the flit that leaves next: the first that may leave, but WAYBOOK flits go before those of
MIRROR and PARITY (R626). -/
def nextFlit (s : State) (l : Link) : Option Nat :=
  let wb := fun (f : TxFlit) => s.eligible l f && f.kind == Kind.waybook
  match l.queue.findIdx? (s.eligible l) with
  | some i =>
    let k := (l.queue[i]?.map TxFlit.kind).getD 0
    if k == Kind.mirror || k == Kind.parity then ((l.queue.findIdx? wb).getD i) else i
  | none => none

/-- Can a port send: ready, not parked, not fenced (R654)? -/
def portSends (s : State) (cd : Bool) : Bool := !s.inc.fenced && !s.start.parked && s.isReady (if cd then 7 else 6)

/-- A new flit leaves: its link numbers it, and it is kept until it is acknowledged (R548). -/
def sendNew (s : State) (l : Link) (r : Route) (i lane : Nat) (f : TxFlit) : State :=
  let cd := !r.cu
  let f := { f with cd := cd, dest := r.dest, lseq := if Kind.control f.kind then 0 else l.txSeq }
  let l' := { l with
    queue := l.queue.eraseIdx i, cd := cd,
    txSeq := if Kind.control f.kind then l.txSeq else (l.txSeq + 1) % 2 ^ 32,
    credits := if exchFlit f then l.credits - 1 else l.credits,
    unacked := if Kind.control f.kind then l.unacked else l.unacked ++ [f] }
  ((s.modLink l.peer (fun _ => l')).spendLane cd lane).emit (.flit f)

/-- The first flit of a resend leaves, with the bytes it had (R548); the resend is counted (R549). -/
def sendAgain (s : State) (l : Link) (lane : Nat) (f : TxFlit) : State :=
  let l' := { l with
    again := l.again.drop 1,
    unacked := l.unacked.map (fun (x : TxFlit) => if x.lseq = f.lseq then { x with resends := x.resends + 1 } else x) }
  ((s.modLink l.peer (fun _ => l')).spendLane f.cd lane).emit (.flit { f with resends := 0 })

/-- One flit of one link leaves, if any can: one of a resend first, in LSEQ order, else the next of its queue. -/
def pumpLink (s : State) (peer : Nat) : Option State :=
  match s.link? peer, s.route? peer with
  | some l, some r =>
    if l.failed then none
    else match l.again with
      | f :: _ =>
        match s.freeLane f.cd with
        | some lane => if s.portSends f.cd then some (s.sendAgain l lane f) else none
        | none => none
      | [] =>
        match s.nextFlit l, s.freeLane (!r.cu) with
        | some i, some lane =>
          match l.queue[i]? with
          | some f => if s.portSends (!r.cu) then some (s.sendNew l r i lane f) else none
          | none => none
        | _, _ => none
  | _, _ => none

/-- Flits leave one after another, as many as `n`, while some link has one that can leave. -/
def pumpN : Nat → State → State
  | 0, s => s
  | n + 1, s =>
    match s.cw.links.findSome? (fun l => s.pumpLink l.peer) with
    | some s' => pumpN n s'
    | none => s

/-- Every flit that can leave leaves. -/
def pump (s : State) : State := pumpN ((s.cw.links.map (fun l => l.queue.length + l.again.length)).sum) s

/-- Routes that links with something to send wait for are read when a command shows memory (R513, R515); what each held up
leaves before the next is read. -/
def learnRoutes (s : State) (img : Image) : State :=
  let lacks := fun (s : State) (l : Link) => l.waits && (s.route? l.peer).isNone
  if img.isEmpty || s.cw.links.all (fun (l : Link) => !lacks s l) then s
  else s.cw.links.foldl (fun (s : State) (l : Link) => if lacks s l then (s.needRoute img l.peer).pump else s) s

end State

/-- The payload of a flit: 44 bytes, zero past the end (R543). -/
def padPayload (bs : List Byte) : List Byte := bs.take 44 ++ zeroBytes (44 - bs.length)

/-- A flit before its link numbers it. -/
def mkFlit (peer kind chain attempt off : Nat) (last : Bool) (payload : List Byte) : TxFlit :=
  ⟨peer, false, 0, kind, last, attempt, chain, 0, off, padPayload payload, 0, 0⟩

/-- A message of packed items: as many whole items in a flit as 44 bytes take, OFFSET the index of the first (R543). -/
def itemFlits (peer kind chain attempt : Nat) (items : List (List Byte)) : List TxFlit :=
  let size := (items.head?.map List.length).getD 4
  let per := max 1 (44 / size)
  let gs := cut per items
  gs.mapIdx (fun i g => mkFlit peer kind chain attempt (i * per) (i + 1 == gs.length) g.flatten)

/-- A byte stream in flits of 44 bytes, OFFSET the byte offset (R576). -/
def streamFlits (peer kind chain attempt : Nat) (bs : List Byte) : List TxFlit :=
  let gs := cut 44 bs
  gs.mapIdx (fun i g => mkFlit peer kind chain attempt (44 * i) (i + 1 == gs.length) g)

namespace State

def queueAll (s : State) (fs : List TxFlit) : State := fs.foldl queueFlit s

/-- The 64 bytes of a flit (R543). -/
def flitBytes (s : State) (f : TxFlit) : List Byte :=
  let h := f.kind + (b2n f.last <<< 4) + (f.attempt <<< 5) + (f.chainId <<< 8) + (s.position <<< 24) + (f.dest <<< 40)
  let b := toBytes 8 h ++ toBytes 4 f.lseq ++ toBytes 4 f.offset ++ padPayload f.payload
  b ++ toBytes 4 (Hash.crc32 b)

end State
end Sys2Proof.Machine
end

