-- ==== Sys2Proof/Machine/Journal.lean ====
section
/-!
DEFINITION. The waybook as it is written: record layouts (R605, R608), space (R611 to R613), the writing of entries in RNUM
order, and mirroring to PARTNER (R623).
-/
namespace Sys2Proof.Machine
open Sys2Proof

-- Record types (R608)
namespace Ty
abbrev waymark : Nat := 0x01
abbrev inputDigest : Nat := 0x02
abbrev streamDigest : Nat := 0x03
abbrev cwDigest : Nat := 0x04
abbrev groupOpen : Nat := 0x05
abbrev groupClose : Nat := 0x06
abbrev published : Nat := 0x07
abbrev sealed : Nat := 0x08
abbrev tableSwitch : Nat := 0x09
abbrev incident : Nat := 0x0A
abbrev start : Nat := 0x0B
abbrev toll : Nat := 0x0C
abbrev checkpoint : Nat := 0x0D
abbrev epoch : Nat := 0x0E
abbrev tollSet : Nat := 0x0F
end Ty

/-- Bytes padded with zeros to a length. -/
def padTo (n : Nat) (bs : List Byte) : List Byte := bs.take n ++ zeroBytes (n - bs.length)

/-- A record (R605): `part` of `parts`, 44 bytes of payload, CRC-32 over bytes 59:0. -/
def recBytes (rnum ty part parts epoch : Nat) (payload : List Byte) : List Byte :=
  let b := toBytes 8 rnum ++ toBytes 1 ty ++ toBytes 1 (part + ((parts - 1) <<< 4)) ++ zeroBytes 2 ++ toBytes 4 epoch ++ padTo 44 payload
  b ++ toBytes 4 (Hash.crc32 b)

namespace State

def modWb (s : State) (f : Wb → Wb) : State := { s with wb := f s.wb }

def wbSize (s : State) : Nat := 2 ^ bits s.regs.wbCtl.toNat 4 0
def mirrorEn (s : State) : Bool := s.regs.wbCtl.getLsbD 5
def keepEn (s : State) : Bool := s.regs.wbCtl.getLsbD 6
def ckptInterval (s : State) : Nat := bits s.regs.wbCtl.toNat 31 16

/-- The byte address of record n (R604). -/
def recAddr (s : State) (n : Nat) : Nat := s.regs.wbBase.toNat + 64 * (n % s.wbSize)

/-- The trim point (R611). -/
def trimPoint (s : State) : Nat :=
  if s.keepEn && decide (s.regs.wbKeep.toNat < s.wb.trim) then s.regs.wbKeep.toNat else s.wb.trim

/-- Free records (R611). -/
def wbFree (s : State) : Nat := s.wbSize - (s.wb.tail - s.trimPoint)

/-- Reserved records not yet written (R612, R613). -/
def wbReserved (s : State) : Nat := (s.members.map (·.resv)).sum

/-- May `n` more records be reserved? 64 stay free outside all reservations (R612). -/
def wbRoom (s : State) (n : Nat) : Bool := decide (s.wbReserved + n + 64 ≤ s.wbFree)

/-- The flits of a WAYBOOK message of consecutive records (R623). -/
def waybookMsg (s : State) (first : Nat) (recs : List (List Byte)) : List TxFlit :=
  mkFlit s.partner Kind.waybook 0 0 0xFFFFFFFF false
    (toBytes 8 first ++ toBytes 4 recs.length ++ toBytes 4 s.wb.epoch ++ toBytes 1 (bits s.regs.wbCtl.toNat 4 0)) ::
  streamFlits s.partner Kind.waybook 0 0 recs.flatten

/-- The records that PARTNER has not acknowledged, in messages of up to 64 (R623, R626). -/
def mirrorMsgs (s : State) : List TxFlit :=
  (cut 64 s.wb.mirror).flatMap (fun (g : List (Nat × List Byte)) => s.waybookMsg ((g.head?.map (·.1)).getD 0) (g.map (·.2)))

/-- The first and the last record of each of those messages. -/
def mirrorRuns (s : State) : List (Nat × Nat) :=
  (cut 64 s.wb.mirror).map (fun (g : List (Nat × List Byte)) => ((g.head?.map (·.1)).getD 0, (g.getLast?.map (·.1)).getD 0))

/-- An entry is written: its records follow the tail, each is written to memory and, under MIRROR_EN, to PARTNER. What the report
of its last record lets happen is `act`. -/
def wbWrite (s : State) (ty : Nat) (parts : List (List Byte)) (act : Act) : State :=
  let n := parts.length
  let recs := parts.mapIdx (fun i p =>
    Rec.mk (s.wb.tail + i) (recBytes (s.wb.tail + i) ty i n s.wb.epoch p) false false (if i + 1 = n then act else .none))
  let s1 := s.modWb (fun w => { w with tail := w.tail + n, recs := w.recs ++ recs, since := w.since + n })
  let s2 := recs.foldl (fun s r => s.wr (s.recAddr r.rnum) r.bytes) s1
  if s.mirrorEn && !s.noPartner then
    let sent := recs.map (fun (r : Rec) => (r.rnum, r.bytes))
    let run := if recs.isEmpty then [] else [(s.wb.tail, s.wb.tail + n - 1)]
    ((s2.modWb (fun w => { w with mirror := w.mirror ++ sent, sent := w.sent ++ run })).queueAll (s.waybookMsg s.wb.tail (recs.map (·.bytes)))).pump
  else s2

/-- A record of a member's own reservation (R612). -/
def wbWriteFor (s : State) (seq : Nat) (ty : Nat) (parts : List (List Byte)) (act : Act) : State :=
  (s.wbWrite ty parts act).modMember seq (fun m => { m with resv := m.resv - parts.length })

end State

/-- INPUT_DIGEST payloads: two items in a record (R608). -/
def inputDigestParts (seq : Nat) (ds : List Digest) : List (List Byte) :=
  (cut 2 ds).map (fun g =>
    toBytes 8 seq ++ padTo 32 (g.flatMap (fun d => toBytes 1 d.kind ++ zeroBytes 1 ++ toBytes 2 d.item ++ zeroBytes 4 ++ toBytes 8 d.digest)) ++
      toBytes 1 g.length)

def streamDigestPart (seq digest beats : Nat) : List Byte := toBytes 8 seq ++ toBytes 8 digest ++ toBytes 4 beats

def cwDigestPart (seq chain attempt digest flits : Nat) : List Byte :=
  toBytes 8 seq ++ toBytes 2 chain ++ toBytes 1 attempt ++ zeroBytes 1 ++ toBytes 8 digest ++ toBytes 4 flits

def groupOpenPart (first n ring gran : Nat) : List Byte :=
  toBytes 8 first ++ toBytes 1 n ++ toBytes 1 ring ++ toBytes 2 gran

def groupClosePart (first n ring : Nat) : List Byte := toBytes 8 first ++ toBytes 1 n ++ toBytes 1 ring

/-- The two parts of PUBLISHED. -/
def publishedParts (milepost : List Byte) (idx : Nat) : List (List Byte) :=
  [milepost.take 44, (milepost.drop 44).take 20 ++ toBytes 4 idx]

def SealField.code : SealField → Nat
  | .compat => 0 | .repro => 1 | .geometry => 2 | .drawKey => 3

/-- Value length in bytes (R608). -/
def SealField.len : SealField → Nat
  | .compat => 1 | .repro => 1 | .geometry => 64 | .drawKey => 16

def SealField.ofCode (c : Nat) : SealField :=
  match c with | 0 => .compat | 1 => .repro | 2 => .geometry | _ => .drawKey

def sealParts (f : SealField) (changes frontier old new : Nat) : List (List Byte) :=
  let head := toBytes 1 f.code ++ toBytes 1 changes ++ toBytes 1 f.len ++ zeroBytes 1 ++ toBytes 8 frontier
  let vals := toBytes f.len old ++ toBytes f.len new
  head :: cut 44 vals

def tableSwitchPart (slot bank : Nat) (oldEmpty sw : Bool) (oldGen newGen ingot seq : Nat) : List Byte :=
  toBytes 1 (if slot = 64 then 0x80 else slot) ++ toBytes 1 bank ++ toBytes 1 (b2n oldEmpty + 2 * b2n sw) ++ zeroBytes 1 ++
    toBytes 4 (if oldEmpty then 0 else oldGen) ++ toBytes 4 newGen ++ toBytes 8 ingot ++ toBytes 8 seq

/-- An incident-log entry (R662). -/
def incBytes (e : IncEntry) : List Byte :=
  toBytes 8 e.seq ++ toBytes 1 (e.sev % 8 + ((e.sevFinal % 8) <<< 3) + ((e.state % 4) <<< 6)) ++ toBytes 1 e.source ++ toBytes 2 e.unit ++
    toBytes 2 e.detail ++ toBytes 1 e.action ++ toBytes 1 e.related ++ toBytes 8 e.addr ++ toBytes 4 e.time ++ toBytes 2 e.id ++
    toBytes 2 e.count

def startPart (warm : Bool) (ready codes fp : Nat) : List Byte :=
  toBytes 1 (b2n warm) ++ toBytes 2 ready ++ zeroBytes 1 ++ toBytes 4 codes ++ toBytes 8 fp

def tollPart (m : Memo) : List Byte :=
  toBytes 1 1 ++ zeroBytes 3 ++
    (toBytes 1 m.counter ++ toBytes 1 m.seq ++ toBytes 2 m.issuer ++ toBytes 4 m.ticket ++ toBytes 1 (b2n m.valid))

def tollSetPart (counter count limit old : Nat) : List Byte :=
  toBytes 1 counter ++ zeroBytes 3 ++ toBytes 4 count ++ toBytes 4 limit ++ toBytes 4 old

def checkpointPart (walk walkSeq nextSeq fp cause markSeq : Nat) : List Byte :=
  toBytes 8 walk ++ toBytes 8 walkSeq ++ toBytes 8 nextSeq ++ toBytes 8 fp ++ toBytes 1 cause ++ zeroBytes 3 ++ toBytes 8 markSeq

def epochPart (epoch cause lastSeq walk : Nat) : List Byte :=
  toBytes 4 epoch ++ toBytes 1 cause ++ zeroBytes 3 ++ toBytes 8 lastSeq ++ toBytes 8 walk

/-- The parts of a WAYMARK (R608). -/
def waymarkParts (seq idx ring compat status : Nat) (gens : List (Nat × Nat)) (padCh padVal progGen : Nat) (d : Desc) : List (List Byte) :=
  let p0 := toBytes 8 seq ++ toBytes 4 idx ++ toBytes 1 ring ++ toBytes 1 compat ++ toBytes 2 status ++ toBytes 1 gens.length ++
    toBytes 1 padCh ++ zeroBytes 2 ++ toBytes 4 padVal ++ toBytes 4 progGen
  [p0, d.take 44, (d.drop 44).take 44, (d.drop 88).take 40] ++
    (cut 5 gens).map (fun g => g.flatMap (fun p => toBytes 1 p.1 ++ zeroBytes 3 ++ toBytes 4 p.2))

namespace State

/-- The member whose waymark is WALK_RNUM: the oldest descriptor whose group has no reported PUBLISHED entry for its last member
(R615). One whose waymark has been written counts as taken: it is reported before a CHECKPOINT behind it is. Groups stay in the
state until then. -/
def oldest (s : State) : Option Member :=
  (s.groups.filter (fun g => !g.published)).foldl (fun a g =>
    g.members.foldl (fun a m => match a with | some x => if x.seq < m.seq then a else some m | none => some m) a) none

/-- A CHECKPOINT is written (R614, R615); `mark` is the sequence number of the MARK that asked, or 0. -/
def writeCheckpoint (s : State) (mark : Nat) : State :=
  let walk := match s.oldest with | some m => m.rnum | none => s.wb.tail
  let walkSeq := match s.oldest with | some m => m.seq | none => s.wb.nextSeq
  let p := checkpointPart walk walkSeq s.wb.nextSeq s.fpSettings (if mark = 0 then 0 else 1) mark
  (if mark = 0 then s.wbWrite Ty.checkpoint [p] (.checkpoint walk 0) else s.wbWriteFor mark Ty.checkpoint [p] (.checkpoint walk mark)).modWb
    (fun w => { w with since := 0 })

end State
end Sys2Proof.Machine
end

