-- ==== Sys2Proof/Machine/Checks.lean ====
section
/-!
DEFINITION. The checks at taking (R344, R402) in their order, the functions that a descriptor needs (R383, R809), and the
journal records that it can cause (R612).
-/
namespace Sys2Proof.Machine
open Sys2Proof

namespace State

/-- The group of a ring that still waits for its GROUP_LAST member. -/
def openGroup (s : State) (r : Nat) : Option Group := s.groups.find? (fun g => g.ring == r && !g.ended)

/-- The descriptor before a fused one, in its group. -/
def predDesc (s : State) (r : Nat) : Option Desc := (s.openGroup r).bind (fun g => g.members.getLast?.map (·.bytes))

-- Check 3: the structure of the group (R356 to R358) -----------------------------------------------------------------

def checkStructure (s : State) (r : Nat) (d : Desc) : Nat :=
  match s.openGroup r with
  | none => if d.fuse then St.fuseOrphan else 0
  | some g => if !d.fuse then St.groupOpen else if 16 ≤ g.members.length then St.groupTooLong else 0

end State

namespace Desc

-- Check 4: R402 ------------------------------------------------------------------------------------------------------

/-- 1: COMPAT_UNAVAILABLE (R115, R182, R200, R384). -/
def compatBad (d : Desc) : Bool :=
  d.is .upd || (d.data && (d.strict || d.passes != 1 || d.grad || d.wbRef.any (·.grad))) ||
    (d.f1Fn.toList ++ d.actFn.toList).any (fun f => f.s5Slot.isNone)

/-- A format code that is legal for an output of ROWRED (R318, R403). -/
def rowredOut (d : Desc) : Bool :=
  match (d.tref 72).fmt with
  | .fp32 | .fp16 | .bf16 => true
  | .l8 | .l16 => 2 ≤ d.f1 % 8 && d.f1 % 8 ≤ 4
  | _ => false

/-- 2: FORMAT_INVALID. The preload bias of MCOMBINE carries a format code without being a tensor (R267). -/
def formatBad (d : Desc) (c5 : Bool) : Bool :=
  let codes := d.refs.map (·.code)
  codes.any (fun c => decide (15 < c)) ||
    (!d.strict && codes.contains 3) ||
    (c5 && codes.any (fun c => decide (2 < c))) ||
    (d.biasEn && d.biasFmt != 0) ||
    (d.is .mcombine && d.preload == 1 && (d.tref 56).code != 0) ||
    (d.is .rowstat && (d.tref 72).code != 0) ||
    (d.is .rowred && !d.rowredOut) ||
    ((d.is .gate || d.is .upd) && codes.contains 3)

/-- 3: FORMAT_MISMATCH (R78, R80). -/
def mismatch (d : Desc) (pred : Option Desc) : Bool :=
  (match d.op with
    | some .gate => (d.tref 56).code != (d.tref 88).code
    | some .affine => (d.tref 56).code != (d.tref 88).code || (d.isFma && (d.tref 104).code != (d.tref 56).code)
    | some .rmsn => d.resEn && (d.tref 56).code != (d.tref 88).code
    | some .halo => (d.tref 56).code != (d.tref 72).code
    | _ => false) ||
  (d.fuse && match pred.bind outRef with
    | some o => (d.tref 56).code != o.code
    | none => false)

/-- Is a per-tensor scale legal for its format (R68 to R70)? -/
def scaleOk (r : TRef) : Bool :=
  let e := bits r.t 30 23
  if r.fmt.isIeee then r.t == 0x3F800000
  else if r.fmt.isL then decide (1 ≤ e ∧ e ≤ 254) && bits r.t 31 31 == 0 && bits r.t 22 0 == 0
  else decide (1 ≤ e ∧ e ≤ 254) && bits r.t 31 31 == 0

/-- 4: SCALE_INVALID (R68 to R70, R396). -/
def scaleBad (d : Desc) (pred : Option Desc) : Bool :=
  d.refs.any (fun r => !scaleOk r) ||
  (d.fuse && match pred.bind outRef with | some o => (d.tref 56).t != o.t | none => false)

/-- 5: STRICT_UNSUPPORTED (R173, R174, R304, R563). -/
def strictBad (d : Desc) : Bool :=
  d.data && d.strict &&
    (!(d.is .convert || d.is .affine || (d.is .func && (d.f1 == 5 || d.f1 == 6))) ||
      d.refs.any (fun r => !r.fmt.isIeee) || d.act != 0 || d.grad || d.passes != 1)

/-- 6: PASSES_INVALID (R144, R158). -/
def passesBad (d : Desc) : Bool := d.data && (d.passes == 0 || (d.is .gate && d.passes != 1))

/-- 7: EPILOGUE_INVALID (R304, R311, R409, R413, R414, R421, R423, R428, R563, R807). -/
def epilogueBad (d : Desc) : Bool :=
  let sba := d.scaleEn || d.biasEn || d.act != 0
  match d.op with
  | some .func => d.f1 == 8 && d.act != 0
  | some .clamp => sba || !d.clipEn
  | some .convert => d.act != 0
  | some .affine => d.isFma && ((d.tref 72).grad || d.clipEn)
  | some .rmsn => (d.hsumEn && !d.resEn) || (d.tref 72).grad || (d.resEn && (d.tref 88).grad)
  | some .rowstat => sba || d.clipEn
  | some .smax | some .lsmax | some .rowred | some .scan => sba
  | some .halo => (d.tref 72).grad
  | some .upd => d.copyEn && (d.tref 72).code != 0 && !(d.tref 72).grad
  | _ => false

/-- 8: PAD_UNSUPPORTED (R296, R422). -/
def padBad (d : Desc) : Bool :=
  d.padEn && !(d.is .convert || d.is .scan || (d.is .rowred && 2 ≤ d.f1 % 8 && d.f1 % 8 ≤ 4))

/-- 9: CLIP_INVALID (R90). -/
def clipBad (d : Desc) : Bool :=
  d.clipEn && (
    let lo := Fv.of32 d.clipLo
    let hi := Fv.of32 d.clipHi
    lo.isNan || hi.isNan || Fv.lt hi lo)

/-- 10: EPS_INVALID (R298): negative, infinite or NaN; −0 is read as +0. -/
def epsBad (d : Desc) : Bool :=
  d.is .rmsn && (
    let e := field d 112 4
    bits e 30 23 == 255 || (bit e 31 && bits e 30 0 != 0))

/-- 11: DRAW_RANGE (R123, R401). -/
def drawBad (d : Desc) : Bool :=
  d.grad && decide ((2 : Int) ^ 56 - 1 < d.elemBase + ((d.planRows : Int) - 1) * d.lrow + ((d.planCols : Int) - 1))

/-- The operation checks of R402, in order. -/
def checkOp (d : Desc) (c5 : Bool) (pred : Option Desc) : Nat :=
  if c5 && d.compatBad then St.compatUnavailable
  else if d.formatBad c5 then St.formatInvalid
  else if d.mismatch pred then St.formatMismatch
  else if d.scaleBad pred then St.scaleInvalid
  else if d.strictBad then St.strictUnsupported
  else if d.passesBad then St.passesInvalid
  else if d.epilogueBad then St.epilogueInvalid
  else if d.padBad then St.padUnsupported
  else if d.clipBad then St.clipInvalid
  else if d.epsBad then St.epsInvalid
  else if d.drawBad then St.drawRange
  else 0

-- Check 5 ------------------------------------------------------------------------------------------------------------

/-- What REPRO_CLASS = STRICT refuses (R208, R441, R460). -/
def reproBad (d : Desc) : Bool := d.curAll || d.fcur || d.acur || d.relaxed || d.is .peek

-- Check 7 ------------------------------------------------------------------------------------------------------------

def shortPlan (d : Desc) : Bool :=
  [32, 64, 128, 256, 512].contains d.planRows && d.planCols % 256 == 0 && decide (256 ≤ d.planCols ∧ d.planCols ≤ 65536)
def longPlan (d : Desc) : Bool :=
  d.planRows == 32 && d.planCols % 4096 == 0 && decide (69632 ≤ d.planCols ∧ d.planCols ≤ 1048576)

/-- Does an exchange of the causeway belong to the descriptor? -/
def exchanges (d : Desc) : Bool := d.is .chain || d.is .halo || d.span || (d.is .upd && d.prot == 2)

end Desc

namespace State

/-- Segments of a span (R510). -/
def spanSegs (s : State) (chain : Nat) : Nat := ceilDiv (s.spanLen chain) (max 1 s.segLen)

/-- First position of this position's span (R509), and its index in it. -/
def spanFirst (s : State) (chain : Nat) : Nat := (s.position / max 1 (s.spanLen chain)) * s.spanLen chain
def spanIndex (s : State) (chain : Nat) : Nat := s.position - s.spanFirst chain

/-- Does a range touch the working region's part of the staging range (R482)? -/
def inWorking (s : State) (r : Desc.Range) : Bool :=
  Desc.overlap r (s.aper + s.resident * 65536, 67108864 - s.resident * 65536)

/-- The resident granules that a list of ranges touches. -/
def residentOf (s : State) (rs : List Desc.Range) : List Nat :=
  (List.range s.resident).filter (fun g => rs.any (Desc.overlap (s.aper + g * 65536, 65536)))

/-- UPD's own plan checks (R563, R585). -/
def updPlanBad (s : State) (d : Desc) : Bool :=
  let n := s.spanLen d.chainId
  !d.shortPlan || (d.prot != 0 && s.standby) || (d.prot == 1 && s.noPartner) ||
    (d.prot == 2 && (decide (n < 2 ∨ 64 < n) ||
      (s.spanIndex d.chainId + 1 == n &&
        (s.noPartner || (decide (s.spanFirst d.chainId ≤ s.partner) && decide (s.partner < s.spanFirst d.chainId + n))))))

/-- PLAN_INVALID (R425, R444, R462 to R465, R482, R491, R492, R511, R539, R563, R585, R805). -/
def planBad (s : State) (d : Desc) (pred : Option Desc) : Bool :=
  if d.is .peek then
    decide (1023 < d.peekGran) || d.peekCount == 0 || decide (1024 < d.peekGran + d.peekCount)
  else if d.data then
    (if d.is .upd then s.updPlanBad d else !(d.shortPlan || (d.longPlan && (d.elementwise || d.row)))) ||
    (d.shapeAddr == 0 && (decide (d.planRows < d.rows ∨ d.planCols < d.cols) || d.cols % 32 != 0)) ||
    (d.span && d.colOff % 16 != 0) ||
    (d.fuse && (match pred with | some p => p.planRows != d.planRows || p.planCols != d.planCols | none => false)) ||
    ((d.is .rowred || d.is .rowstat || d.is .halo) && !d.last) ||
    (d.is .halo && (decide (d.haloW < 32 ∨ 4096 < d.haloW ∨ d.planCols < d.haloW) || d.haloW % 32 != 0)) ||
    ((d.is .chain || d.is .halo || d.span) && (s.spanLen d.chainId == 0 || s.standby)) ||
    (d.relaxed && decide (64 < s.spanSegs d.chainId)) ||
    d.allRanges.any s.inWorking
  else false

-- Check 8 ------------------------------------------------------------------------------------------------------------

/-- Is a resident granule that the descriptor names owned by another ring (R498, R499)? A ring owns the granules of its
accepted descriptors from the writing of their waymarks (R811) until the milepost of the last that names them is published. -/
def ownedElsewhere (s : State) (r : Nat) (d : Desc) : Bool :=
  let mine := s.residentOf d.allRanges
  !mine.isEmpty && s.members.any (fun m =>
    m.ring != r && m.accepted && !m.respReturned && (s.residentOf m.bytes.allRanges).any mine.contains)

-- Check 9 ------------------------------------------------------------------------------------------------------------

/-- TABLE_GEN, TABLE_BUSY or TABLE_LIMIT (R207, R209, R212, R214, R217, R219, R448). -/
def checkTables (s : State) (d : Desc) : Nat :=
  let t := s.slot d.slotOf
  if d.is .loadIngot then
    if d.romFlag != (d.generation == 0) then St.tableGen
    else if t.activeBank.img.isSome && t.activeBank.gen == d.generation then St.tableGen
    else if s.loading d.slotOf then St.tableBusy
    else 0
  else if d.is .switch then
    if (t.holds d.generation).isNone then St.tableGen else 0
  else match s.resolve d with
    | none => St.tableGen
    | some q => if 13 < (q.reads.map (·.1)).eraseDups.countP (fun i => decide (2 < i)) then St.tableLimit else 0

-- All checks ---------------------------------------------------------------------------------------------------------

/-- The status of a descriptor at a ring's head (R344): 0 where every check passes. -/
def check (s : State) (r : Nat) (d : Desc) : Nat :=
  let pred := if d.fuse then s.predDesc r else none
  let st := s.checkStructure r d
  let ops := d.checkOp s.compat5 pred
  if d.reservedSet then St.reservedSet
  else if d.op.isNone then St.opcodeInvalid
  else if d.is .peek && !s.regs.debugCtl.getLsbD 0 then St.opcodeInvalid
  else if st != 0 then st
  else if ops != 0 then ops
  else if s.strictRepro && d.reproBad then St.reproRefused
  else if d.inPlace then St.inPlace
  else if s.planBad d pred then St.planInvalid
  else if s.ownedElsewhere r d then St.tileOwned
  else s.checkTables d

-- Step 3: readiness --------------------------------------------------------------------------------------------------

/-- The functions that a descriptor needs (R383, R564, R809), by their bits in DX_READY, the waybook's apart. -/
def needs (s : State) (d : Desc) : List Nat :=
  let cw := if 1 < s.spanLen d.chainId then [6, 7] else []
  let user := fun (c : Nat) => if 0x89 ≤ c then [4] else []
  match d.op with
  | some .convert | some .affine | some .clamp => 2 :: user d.act
  | some .func => 2 :: user d.f1 ++ user d.act
  | some .gate => 2 :: user d.f1
  | some .rmsn | some .smax | some .lsmax | some .rowred | some .rowstat | some .scan => 3 :: (if d.span then cw else [])
  | some .mcombine => 2 :: (if d.srcMem then [] else [8]) ++ user d.act
  | some .chain => cw
  | some .halo => if 1 < s.spanLen d.chainId then (if d.haloPrev then [6] else []) ++ (if d.haloNext then [7] else []) else []
  | some .upd => 5 :: (if d.prot = 0 then [] else [6, 7])
  | some .loadIngot | some .switch => [4]
  | some .peek => [0]
  | _ => []

def needsReady (s : State) (d : Desc) : Bool := (s.needs d).all s.isReady

-- Step 5: the reservation --------------------------------------------------------------------------------------------

end State

namespace Desc

/-- Input items of R601, counted from the fields at their maximum (R612). -/
def itemsMax (d : Desc) : Nat :=
  let planes := (d.inRefs.map (fun p => if p.1 = 56 && d.fuse then 0 else if p.2.fmt.scaled then 2 else 1)).sum
  let tabs := (d.inRefs.filter (fun p => p.2.fmt.isB && !(p.1 = 56 && d.fuse))).length +
    (match d.outRef with | some o => b2n o.fmt.isB | none => 0)
  let vecs := b2n d.biasEn + b2n (d.is .rmsn && d.gammaEn) + b2n (d.is .mcombine && d.preload == 1) + b2n (d.is .chain)
  let parts := if d.is .mcombine && d.srcMem then d.nSplit else 0
  if d.data then planes + tabs + vecs + parts + b2n (d.is .upd) + b2n (d.shapeAddr != 0) else 0

end Desc

namespace State

/-- Records that R612 reserves; `first`: the descriptor opens a group; `n`: pairs at a nonzero generation. -/
def reserve (d : Desc) (ok first : Bool) (n : Nat) : Nat :=
  6 + ceilDiv n 5 + (if first then 2 else 0) +
    (if ok then
      ceilDiv d.itemsMax 2 + b2n (d.is .mcombine && !d.srcMem) + (if d.span then 3 else 0) +
        b2n (d.is .chain || d.is .halo || (d.is .upd && d.prot == 2)) + b2n (d.is .loadIngot || d.is .switch) + b2n d.ckpt
    else 0)

end State
end Sys2Proof.Machine
end

