-- ==== Sys2Proof/Machine/Groups.lean ====
section
/-!
DEFINITION. Groups from the drain point to the end of their mileposts: hallmarks (R364 to R367), output writes (R35, R366,
R494, R500, R622), mileposts (R359 to R363, R649), PUBLISHED entries (R621), faults (R496, R648), allocation (R485 to R489).
-/
namespace Sys2Proof.Machine
open Sys2Proof

namespace Desc

-- Allocation ---------------------------------------------------------------------------------------------------------

/-- tile(f) of R485, for a number of columns. -/
def tileGran (d : Desc) (f : Fmt) (cols : Nat) : Nat :=
  ceilDiv (d.planRows * cols * f.container) 65536 + (if f.scaled then ceilDiv (d.planRows * cols / 32) 65536 else 0)

end Desc

namespace State

/-- Does a plane begin in the resident region? -/
def isResident (s : State) (a : Nat) : Bool := (s.stageAddr a).isSome

/-- The granules of a member's items, in the order of R485, R527 and R573. -/
def allocItems (s : State) (d : Desc) : List Nat :=
  let inp := fun (p : Nat × TRef) =>
    if (p.1 = 56 && d.fuse) || s.isResident (d.addr (32 * p.2.eoff)) then 0 else d.tileGran p.2.fmt d.planCols
  let acc := d.tileGran .fp32 d.planCols
  let o := d.tref 72
  let prim := if d.last && s.isResident (d.addr (32 * o.eoff)) then 0 else d.tileGran o.fmt d.planCols
  let span := if d.span then [1] else []
  let hash := if d.rowHash then [1] else []
  match d.op with
  | some .chain => [acc, acc] ++ hash
  | some .halo => [d.tileGran (d.tref 56).fmt d.planCols, d.tileGran o.fmt (2 * d.haloW)] ++ hash
  | some .upd =>
    let set := ceilDiv (d.planRows * d.planCols * 16) 65536
    [d.tileGran (d.tref 56).fmt d.planCols, set, set] ++ (if d.copyEn then [d.tileGran o.fmt d.planCols] else []) ++
      (if d.prot = 2 then [ceilDiv (d.planRows * d.planCols * 14) 65536] else []) ++ hash
  | some .mcombine =>
    let plain := o.fmt == .fp32 && !d.scaleEn && !d.biasEn && d.act == 0 && !d.clipEn
    d.inRefs.map inp ++ [acc] ++ (if d.srcMem then [] else [(d.nSplit - 1) * acc]) ++ [if plain then 0 else prim] ++ hash
  | some .rowred | some .rowstat => d.inRefs.map inp ++ [1] ++ hash ++ span
  | some op =>
    if op.isControl then []
    else d.inRefs.map inp ++ [prim] ++ (match d.wbRef with | some r => [d.tileGran r.fmt d.planCols] | none => []) ++
      (if d.rmsEn then [1] else []) ++ hash ++ span
  | none => []

def allocOf (s : State) (d : Desc) : Nat := (s.allocItems d).sum

/-- Working granules (R481). -/
def working (s : State) : Nat := 1024 - s.resident

/-- The granules that groups and retained exchanges hold (R488, R489, R528). -/
def heldGran (s : State) : List Nat := s.groups.flatMap (·.gran) ++ s.cw.exchs.flatMap (·.gran)

/-- The free working granules, lowest first. -/
def freeGran (s : State) : List Nat :=
  let held := s.heldGran
  ((List.range s.working).map (· + s.resident)).filter (fun g => !held.contains g)

/-- The granules of one member within its group's. -/
def memberGran (s : State) (g : Group) (seq : Nat) : List Nat :=
  let before := ((g.members.takeWhile (·.seq != seq)).map (fun m => s.allocOf m.bytes)).sum
  match g.members.find? (·.seq == seq) with
  | some m => (g.gran.drop before).take (s.allocOf m.bytes)
  | none => []

end State

namespace Member

def rows (m : Member) : Nat := match m.shape with | some q => q.rows | none => 0
def cols (m : Member) : Nat := match m.shape with | some q => q.cols | none => 0

/-- A zero run-time shape (R470). -/
def zeroShape (m : Member) : Bool := m.bytes.data && m.shape.isSome && (m.rows == 0 || m.cols == 0)

/-- The pairs at a nonzero generation (R359). -/
def nonzero (m : Member) : List (Nat × Nat) := m.reads.filter (fun p => p.2 != 0)

/-- OUT_FMT of a hallmark header (R365, R461, R569). -/
def outFmt (m : Member) : Nat :=
  match m.bytes.op with
  | some .upd => 0x1E
  | some .chain => 0
  | some o => if o.isControl then 0x1F else (m.bytes.tref 72).code
  | none => 0x1F

/-- Columns of the hallmark header: those of O for HALO (R365). -/
def hallCols (m : Member) : Nat := if m.bytes.is .halo then 2 * m.bytes.haloW else m.cols

end Member

namespace Tile

/-- Row r of a tile in the stream of R366: its codes, then its scale bytes, of `cols` columns. -/
def rowBytes (t : Tile) (r cols : Nat) : List Byte :=
  Elem.pack t.fmt ((t.rows.getD r []).take cols) ++
    (if t.fmt.scaled then ((t.scales.getD r []).take (cols / 32)).map (BitVec.ofNat 8) else [])

end Tile

namespace Member

/-- The outputs of a member, each as its rows' bytes, in the order of R366, R430 and R569. -/
def outputs (m : Member) : List (List (List Byte)) :=
  match m.result with
  | some q =>
    if m.bytes.data then
      let rs := List.range m.rows
      (if q.recs.isEmpty then [] else [q.recs.map List.flatten]) ++
        (match q.tile with | some t => [rs.map (fun r => t.rowBytes r m.hallCols)] | none => []) ++
        (if q.perRow.isEmpty then [] else [q.perRow]) ++
        (match q.wback with | some t => [rs.map (fun r => t.rowBytes r m.cols)] | none => []) ++
        (if q.rms.isEmpty then [] else [q.rms])
    else [q.perRow]
  | none => []

/-- The output stream of R366, and that of one row (R367). -/
def stream (m : Member) : List Byte := if m.zeroShape then [] else (m.outputs.map List.flatten).flatten
def rowStream (m : Member) (r : Nat) : List Byte := m.outputs.flatMap (fun o => o.getD r [])

end Member

namespace State

/-- The ingot ids of R597 over a list of members. -/
def ingotIds (s : State) (ms : List Member) : List Nat :=
  let tabs := sortPairs (ms.flatMap (·.nonzero))
  let progs := ms.filterMap (fun m => if m.progGen = 0 then none else some (64, m.progGen))
  ((tabs ++ progs).map (fun p => s.ingotOf p.1 p.2)).eraseDups

/-- The fingerprint of a member (R594, R596). -/
def memberFp (s : State) (g : Group) (m : Member) : Nat :=
  let ms := g.members.filter (fun q => decide (q.seq ≤ m.seq))
  s.fingerprint m.compat (ms.any (fun q => q.bytes.is .chain || q.bytes.is .halo || q.bytes.span))
    (ms.any (fun q => q.bytes.data && q.bytes.stochastic)) (s.ingotIds ms)

/-- A hallmark header (R365). -/
def hallHeader (s : State) (g : Group) (m : Member) (row : Option Nat) : List Byte :=
  let d := m.bytes
  toBytes 4 0x364B4D48 ++ toBytes 1 d.opcode ++ toBytes 1 m.outFmt ++ toBytes 1 m.compat ++
    toBytes 1 (b2n m.zeroShape + 2 * b2n row.isSome) ++ toBytes 2 m.rows ++ toBytes 2 m.reads.length ++ toBytes 4 m.hallCols ++
    toBytes 8 (s.memberFp g m) ++ toBytes 4 (row.getD 0) ++ toBytes 4 m.progGen ++
    m.reads.flatMap (fun p => toBytes 1 p.1 ++ zeroBytes 3 ++ toBytes 4 p.2)

/-- A member's hallmark, and a row's (R364, R367). -/
def hallmark (s : State) (g : Group) (m : Member) : Nat := Hash.crc64 (s.hallHeader g m none ++ m.stream)
def rowHallmark (s : State) (g : Group) (m : Member) (r : Nat) : Nat := Hash.crc64 (s.hallHeader g m (some r) ++ m.rowStream r)

end State

-- Output writes ------------------------------------------------------------------------------------------------------

/-- The runs of kept bytes of a row that starts at an address. -/
def keptRuns (a : Nat) : List (Bool × Byte) → List (Nat × List Byte)
  | [] => []
  | (k, b) :: r =>
    match keptRuns (a + 1) r with
    | (a', bs) :: q => if k then (if a' = a + 1 then (a, b :: bs) :: q else (a, [b]) :: (a', bs) :: q) else (a', bs) :: q
    | [] => if k then [(a, [b])] else []

namespace Desc

/-- The bits of byte k of a row at which a produced position stands (R57, R478). -/
def madeBits (width : Nat) (made : List Bool) (k : Nat) : Byte :=
  BitVec.ofNat 8 (((List.range 8).map (fun j => if made.getD ((8 * k + j) / width) false then 2 ^ j else 0)).sum)

/-- The writes of a tile's rows below `rows` (R55, R56, R390, R480). `sparse`: masked positions stay unwritten (R478), and a row
without a produced position is not written at all (R297). -/
def tileWrites (d : Desc) (r : TRef) (t : Tile) (rows cols : Nat) (sparse : Bool) : List (Nat × List Byte) :=
  (List.range rows).flatMap (fun i =>
    let a := (d.addr (32 * r.eoff) + i * r.pitch) % 2 ^ 64
    let bs := Elem.pack t.fmt ((t.rows.getD i []).take cols)
    let made := t.made.getD i []
    let el := if sparse then keptRuns a (bs.mapIdx (fun k b => (madeBits t.fmt.width made k == 0xFF, b))) else [(a, bs)]
    if sparse && !made.any id then []
    else el ++ (if t.fmt.scaled then
      [((d.addr (8 * r.soff) + i * r.spitch) % 2 ^ 64, ((t.scales.getD i []).take (cols / 32)).map (BitVec.ofNat 8))] else []))

/-- The bytes of a sparse tile that hold produced and masked positions side by side (R478), each with the bits that are written. -/
def tileBits (d : Desc) (r : TRef) (t : Tile) (rows cols : Nat) : List (Nat × Byte × Byte) :=
  (List.range rows).flatMap (fun i =>
    let made := t.made.getD i []
    ((Elem.pack t.fmt ((t.rows.getD i []).take cols)).mapIdx (fun k b =>
      ((d.addr (32 * r.eoff) + i * r.pitch + k) % 2 ^ 64, b, madeBits t.fmt.width made k))).filter (fun w => w.2.2 != 0 && w.2.2 != 0xFF))

/-- Rows of bytes at a pitch. -/
def rowWrites (a pitch : Nat) (rows : List (List Byte)) : List (Nat × List Byte) := rows.mapIdx (fun i b => (a + i * pitch, b))

end Desc

namespace State

/-- Every output write of a member (R366, R367, R393, R427, R490, R560, R808). -/
def outWrites (s : State) (g : Group) (m : Member) : List (Nat × List Byte) :=
  let d := m.bytes
  match m.result with
  | none => []
  | some q =>
    if m.zeroShape then []
    else
      let prim := match d.op with
        | some .chain => Desc.rowWrites (d.addr (32 * field d 60 4)) (4 * d.planCols) q.perRow
        | some .peek => [(d.peekDest, q.perRow.flatten)]
        | some .rowred | some .rowstat => Desc.rowWrites (d.addr (32 * (d.tref 72).eoff)) d.perRowSize q.perRow
        | some .upd => Desc.rowWrites (d.setAddr (1 - d.inSet)) d.setPitch (q.recs.map List.flatten)
        | _ => []
      let tile := match q.tile with
        | some t =>
          if d.is .halo then d.tileWrites (d.tref 72) t m.rows (2 * d.haloW) false
          else if d.last then d.tileWrites (d.tref 72) t m.rows m.cols (d.is .scan) else []
        | none => []
      let wb := match d.wbRef, q.wback with | some r, some t => d.tileWrites r t m.rows m.cols false | _, _ => []
      let rms := Desc.rowWrites (d.addr (32 * field d 120 4)) 4 q.rms
      let hash := if d.rowHash && d.data then
          (List.range m.rows).map (fun r => (d.rowHashAddr + 8 * r, toBytes 8 (s.rowHallmark g m r))) else []
      prim ++ tile ++ wb ++ rms ++ hash

/-- The bytes of which a member writes some bits only (R478). -/
def outBits (m : Member) : List (Nat × Byte × Byte) :=
  match m.result.bind (·.tile) with
  | some t => if m.bytes.is .scan && m.bytes.last && !m.zeroShape then m.bytes.tileBits (m.bytes.tref 72) t m.rows m.cols else []
  | none => []

/-- Some bits of a byte are written; the others stay as memory or staging holds them (R478). -/
def wrBits (s : State) (a : Nat) (v mask : Byte) : State :=
  match s.stageAddr a with
  | some p => s.stageWrite p [some ((s.staging.read s.freeCtr p &&& ~~~mask) ||| (v &&& mask))]
  | none => s.emit (.mpWriteBits a v mask)

/-- Has the write phase of a group closed (R500)? One that has faulted before its writes left never opens it. -/
def writesClosed (e : Group) : Bool := e.outDone || e.published || (e.dead && !e.wrote)

/-- Do a group's writes wait (R500, R571, R622)? An earlier descriptor of its ring reads what it writes and is unpublished, faulted
or not, or writes it and has not finished. -/
def writesWait (s : State) (g : Group) : Bool :=
  let outs := g.members.flatMap (fun m => m.bytes.writeRanges)
  s.groups.any (fun e => e.ring == g.ring && decide (e.firstSeq < g.firstSeq) && e.members.any (fun m => m.accepted &&
    ((!e.published && Desc.anyOverlap m.bytes.readRanges outs) || (!writesClosed e && Desc.anyOverlap m.bytes.writeRanges outs))))

/-- Does a member's reading wait for an earlier descriptor of its ring, in its own group or before it, to finish writing (R500)? A
group that reads from memory what an earlier member of it writes there waits for good: R620 holds its first write until every
input has been read (log 89). -/
def readsWait (s : State) (m : Member) : Bool :=
  s.groups.any (fun e => e.ring == m.ring && !writesClosed e &&
    e.members.any (fun q => q.accepted && decide (q.seq < m.seq) && Desc.anyOverlap q.bytes.writeRanges m.bytes.readRanges))

-- Protection of the written set (R575, R576, R583, R584)

/-- The bytes of a PARITY stream that has arrived. -/
def parityIn (e : Exch) (n : Nat) : List Byte :=
  ((List.range (ceilDiv n 44)).flatMap (fun i =>
    match e.rx.find? (fun (x : RxItem) => x.kind == Kind.parity && x.offset == 44 * i) with
    | some x => x.payload
    | none => [])).take n

/-- The packed stream of a member's written records, joined to what has arrived from the position before it in its parity group. -/
def protStream (s : State) (m : Member) : List Byte :=
  let own := match m.result with
    | some q => q.recs.flatten.flatMap (fun (r : List Byte) => r.take 14)
    | none => []
  match s.cw.exchs.find? (fun (e : Exch) => e.isOpen && e.seq == m.seq) with
  | some e => if m.bytes.prot = 2 && !e.senders.isEmpty then List.zipWith (· ^^^ ·) own (parityIn e own.length) else own
  | none => own

/-- The link-only message that protects a member's written set: to PARTNER under MIRROR, from the last position to the holder
under PARITY. -/
def protMsg (s : State) (m : Member) : List TxFlit :=
  if m.mirrorDone then []
  else
    let kind := if m.bytes.prot = 1 then Kind.mirror else Kind.parity
    mkFlit s.partner kind 0 0 0xFFFFFFFF false (toBytes 8 m.seq ++ toBytes 4 (m.bytes.moffN (1 - m.bytes.inSet)) ++ toBytes 4 (m.rows * m.cols)) ::
      streamFlits s.partner kind 0 0 (s.protStream m)

/-- A group's output writes leave, when GROUP_CLOSE has been reported and no earlier descriptor holds them up; with them what
protects a written set. -/
def startWrites (s : State) (g : Group) : State :=
  if g.closeReported && !g.wrote && !g.dead && !s.inc.fenced && !s.writesWait g then
    let ws := g.members.flatMap (s.outWrites g)
    let s0 := ws.foldl (fun s w => s.wr w.1 w.2) s
    let s1 := (g.members.flatMap outBits).foldl (fun s w => s.wrBits w.1 w.2.1 w.2.2) s0
    ((s1.modGroup g.firstSeq (fun g => { g with wrote := true })).queueAll (g.members.flatMap s.protMsg)).pump
  else s

/-- The write responses of a group's capture data have returned with those of its outputs: the entry headers follow (R455, log 12). -/
def writeHeads (s : State) (g : Group) : State :=
  g.members.foldl (fun s m =>
    if m.capHeads.isEmpty then s
    else (m.capHeads.foldl (fun s h => s.wr h.1 h.2) s).modMember m.seq (fun m => { m with capHeads := [] })) s

/-- Every group whose writes waited. -/
def retryWrites (s : State) : State := s.groups.foldl (fun s g => match s.group? g.firstSeq with | some g' => s.startWrites g' | none => s) s

-- Mileposts ----------------------------------------------------------------------------------------------------------

/-- PHASE of an index (R359). -/
def phase (s : State) (r : Nat) (idx : BitVec 32) : Nat := 1 - b2n (bit idx.toNat ((s.ring r).sizeLog2 + 4))

/-- The 64 bytes of a milepost (R359, R649). -/
def milepostBytes (s : State) (g : Group) (m : Member) : List Byte :=
  let ok := m.final == 0
  let nz := if m.accepted then m.nonzero else []
  let hashed := ok && m.bytes.rowHash && m.bytes.data && !m.zeroShape
  toBytes 8 m.seq ++ toBytes 4 m.bytes.tag ++ toBytes 2 m.final ++ toBytes 1 (m.ring + (s.phase m.ring m.idx <<< 6)) ++
    toBytes 1 (b2n (ok && m.zeroShape) + 2 * b2n hashed + (if ok then m.ieee <<< 2 else 0)) ++
    (if ok then m.census.flatMap (toBytes 2) else zeroBytes 16) ++
    toBytes 8 (if ok then s.hallmark g m else 0) ++ toBytes 8 s.now ++ toBytes 1 m.compat ++ toBytes 1 nz.length ++
    toBytes 1 ((nz[0]?.map (·.1)).getD 0xFF) ++ toBytes 1 ((nz[1]?.map (·.1)).getD 0xFF) ++
    toBytes 4 ((nz[0]?.map (·.2)).getD 0) ++ toBytes 4 ((nz[1]?.map (·.2)).getD 0) ++
    toBytes 4 (if m.accepted then m.progGen else 0)

/-- An exchange stays while its group is there or a receiver of its data has not published (R528). -/
def keepExch (s : State) (e : Exch) : Bool :=
  e.isOpen || !e.kept.isEmpty || s.groups.any (fun (g : Group) => !g.posted && g.members.any (·.seq == e.seq))

/-- PUB to every peer whose data a group's exchanges took, once its mileposts are out (R544), and the end of those
exchanges: what was sent is kept until its receivers have published (R528). -/
def endExchanges (s : State) (g : Group) : State :=
  let mine := s.cw.exchs.filter (fun e => g.members.any (·.seq == e.seq))
  let s1 := mine.foldl (fun s e => s.queueAll (e.senders.map (fun p => mkFlit p Kind.pub e.chain 0 0 true []))) s
  let close := fun (e : Exch) =>
    if g.members.any (·.seq == e.seq) then { e with isOpen := false, gran := if e.kept.isEmpty then [] else s.memberGran g e.seq } else e
  (s1.modCw (fun c => { c with exchs := (c.exchs.map close).filter s.keepExch })).pump

/-- The mileposts of a ring leave in index order (R361, R621): group after group, as long as the next one's PUBLISHED entries
have been reported. -/
def postGo : Nat → Nat → State → State
  | 0, _, s => s
  | n + 1, r, s =>
    match s.groups.find? (fun g => g.ring == r && !g.posted) with
    | some g =>
      if g.published && !s.inc.fenced then
        let s1 := g.members.foldl (fun s m =>
          s.wr ((s.ring r).cplAddr m.idx) (m.milepost.getD [])) s
        postGo n r ((s1.modGroup g.firstSeq (fun g => { g with posted := true })).endExchanges g)
      else s
    | none => s

def post (s : State) (r : Nat) : State := postGo s.groups.length r s

/-- The PUBLISHED entries of a group are written, in member order (R621), for every member whose entry a walk has not found
(R635); the report of the last lets the mileposts leave. -/
def finishGroup (s : State) (g : Group) : State :=
  let todo := g.members.filter (fun m => !m.pubSeen)
  let last := (todo.getLast?.map (·.seq)).getD 0
  let s1 := todo.foldl (fun s m =>
    let b := s.milepostBytes g m
    ((s.modMember m.seq (fun m => { m with milepost := some b })).wbWriteFor m.seq Ty.published (publishedParts b m.idx.toNat)
      (if m.seq = last then .published g.firstSeq else .entry m.seq)).bump) s
  if todo.isEmpty then (s1.modGroup g.firstSeq (fun g => { g with published := true })).post g.ring else s1

/-- Has a group nothing left to do before its PUBLISHED entries? -/
def finishable (s : State) (g : Group) : Bool :=
  !s.inc.fenced && g.ended && g.allTaken && !g.published && g.members.all (fun m => m.milepost.isNone || m.pubSeen) &&
    (if g.dead then !g.wrote || g.outDone else g.outDone && g.members.all (·.mirrorDone))

/-- Have the PUBLISHED entries of a group been written? -/
def entered (g : Group) : Bool := g.published || g.members.all (fun m => m.milepost.isSome)

/-- The groups of a ring complete in index order (R361, R452: the TIMESTAMP of a milepost is that of its turn). -/
def finishGo : Nat → Nat → State → State
  | 0, _, s => s
  | n + 1, r, s =>
    match s.groups.find? (fun g => g.ring == r && !entered g) with
    | some g => if s.finishable g then finishGo n r (s.finishGroup g) else s
    | none => s

/-- A group completes once nothing holds it, and then those behind it in its ring. -/
def tryFinish (s : State) (seq : Nat) : State :=
  match s.group? seq with
  | some g => finishGo s.groups.length g.ring s
  | none => s

-- Input items --------------------------------------------------------------------------------------------------------

end State

namespace Desc

/-- The input items of a descriptor by kind, in the order of R601 and R455: 0 element planes, 1 scale planes, 2 value tables, 3
vectors, 4 the shape word, 5 partials, 6 the parameter record. The second part tells items of one kind apart: the byte of a
reference, the number of a partial, or for a vector 0 bias, 1 gamma, 2 preload bias, 3 the values of a CHAIN. -/
def items (d : Desc) : List (Nat × Nat) :=
  let ins := d.inRefs.filter (fun p => !(p.1 = 56 && d.fuse))
  let vec := fun (b : Bool) (i : Nat) => if b then [(3, i)] else []
  if d.data then
    ins.map (fun p => (0, p.1)) ++ (ins.filter (fun p => p.2.fmt.scaled)).map (fun p => (1, p.1)) ++
      (ins.filter (fun p => p.2.fmt.isB)).map (fun p => (2, p.1)) ++
      (match d.outRef with | some o => if o.fmt.isB then [(2, 72)] else [] | none => []) ++
      vec d.biasEn 0 ++ vec d.gammaEn 1 ++ vec (d.is .mcombine && d.preload == 1) 2 ++ vec (d.is .chain) 3 ++
      (if d.shapeAddr != 0 then [(4, 0)] else []) ++
      (if d.is .mcombine && d.srcMem then (List.range d.nSplit).map (fun j => (5, j)) else []) ++
      (if d.is .upd then [(6, 0)] else [])
  else []

end Desc

namespace Member

/-- The bytes of an item that a member keeps once it has been read: a value table, the shape word with its masks, the parameter
record. -/
def kept (m : Member) (k : Nat × Nat) : Option (List Byte) :=
  match k.1 with
  | 2 => (m.tabs.find? (fun t => t.1 == k.2)).map (fun t => t.2.flatMap (toBytes 4))
  | 4 => m.shape.bind (fun q => if q.raw.isEmpty then none else some (q.raw ++ q.rmask.getD [] ++ q.cmask.getD []))
  | 6 => m.param
  | _ => none

/-- The digest of an item of a member, by its place in the order of R601. -/
def itemDigest (m : Member) (k : Nat × Nat) (bs : List Byte) : Digest :=
  ⟨Ty.inputDigest, k.1, m.bytes.items.findIdx (· == k), Hash.crc64 bs, 0⟩

/-- Has a walk found an entry for this digest's type and item (R635)? -/
def found (m : Member) (d : Digest) : Bool := m.seen.any (fun e => e.ty == d.ty && e.item == d.item)

end Member

namespace State

/-- The digests of items that a member has read (R601): each is owed to the journal once, unless a walk has found its entry (R635). -/
def noteDigests (s : State) (seq : Nat) (ds : List Digest) : State :=
  s.modMember seq (fun m =>
    let new := ds.filter (fun d => !m.digests.any (fun e => e.ty == d.ty && e.item == d.item))
    { m with digests := m.digests ++ new, owed := m.owed ++ new.filter (fun d => !m.found d) })

/-- INPUT_DIGEST entries for what a member owes, two items each (R608, R619); `all`: an odd last one too, as no further item
follows. -/
def writeDigests (s : State) (seq : Nat) (all : Bool) : State :=
  match s.member? seq with
  | some m =>
    let n := if all then m.owed.length else m.owed.length / 2 * 2
    let s1 := (cut 2 (m.owed.take n)).foldl (fun s g => s.wbWriteFor seq Ty.inputDigest (inputDigestParts seq g) .none) s
    s1.modMember seq (fun m => { m with owed := m.owed.drop n })
  | none => s

/-- A member has read one item that it keeps. -/
def noteItem (s : State) (seq : Nat) (k : Nat × Nat) (bs : List Byte) : State :=
  match s.member? seq with
  | some m => (s.noteDigests seq [m.itemDigest k bs]).writeDigests seq false
  | none => s

-- Faults -------------------------------------------------------------------------------------------------------------

/-- The working state that a group's execution holds beside its members: row contexts, bands, exchanges that are open. -/
def dropWork (s : State) (g : Group) : State :=
  let has := fun q => g.members.any (·.seq == q)
  let cl := fun (b : Band) => match b with
    | .filling q => if has q then Band.empty else b
    | .draining q => if has q then Band.empty else b
    | .empty => b
  let clus := fun (c : Cluster) =>
    { c.dropBook has with slotA := cl c.slotA, slotB := cl c.slotB }
  let left := fun (l : Link) => { l with queue := l.queue.filter (fun (f : TxFlit) => f.own == 0 || !has f.own) }
  let waiting := fun (f : TxFlit) => s.cw.links.any (fun (l : Link) => l.queue.contains f)
  let shut := fun (e : Exch) => if has e.seq then { e with isOpen := false, kept := e.kept.filter (fun f => !waiting f) } else e
  let s1 := { s with rowCtx := s.rowCtx.filter (fun c => !has c.seq), clusters := s.clusters.map clus }
  s1.modCw (fun c => { c with exchs := c.exchs.map shut, links := c.links.map left })

/-- A group faults (R496, R648): each member carries the status that `code` names, and the group does nothing more. The first
fault of a group stands. A group that ends before its drain point writes the digests of what it has read, and no GROUP_CLOSE
(R816). -/
def faultGroup (s : State) (seq : Nat) (code : Member → Nat) : State :=
  match s.group? seq with
  | some g =>
    if g.dead || g.published || g.members.any (fun m => m.milepost.isSome && !m.pubSeen) then s
    else
      let s0 := if g.issued && !g.closeWritten then g.members.foldl (fun s m => s.writeDigests m.seq true) s else s
      let s1 := s0.modGroup seq (fun g => { g with dead := true, members := g.members.map (fun m => { m with fault := code m }) })
      (s1.dropWork g).tryFinish seq
  | none => s

/-- A member faults with a status, every other member of its group with GROUP_FAULT. -/
def faultMember (s : State) (seq code : Nat) : State := s.faultGroup seq (fun m => if m.seq = seq then code else St.groupFault)

/-- A group whose members will not execute (R495, R497, R812). -/
def killGroup (s : State) (g : Group) : State :=
  s.modGroup g.firstSeq (fun g => { g with dead := true, members := g.members.map (fun m =>
    { m with fault := if m.accepted then St.groupFault else 0 }) })

/-- The open group of a ring ends where it is (R497, R812). -/
def endOpenGroup (s : State) (r : Nat) : State :=
  match s.openGroup r with
  | some g => ((s.killGroup g).modGroup g.firstSeq (fun g => { g with ended := true })).tryFinish g.firstSeq
  | none => s

end State
end Sys2Proof.Machine
end

