-- ==== Sys2Proof/Machine/Exchange.lean ====
section
/-!
DEFINITION. Exchanges as a set of peers: who sends to whom in a span (R509, R510, R530, R536, R538, R540, R583), opening and
granting (R518, R519), aborting (R520 to R525), and the restart of links (R554).
-/
namespace Sys2Proof.Machine
open Sys2Proof

/-- A position's place in its span (R509, R510): the first position, the length, the index, and the causeway segment's head and
tail, as indices. -/
structure Place where
  first : Nat
  n : Nat
  i : Nat
  seg : Nat
  nseg : Nat
  head : Nat
  tail : Nat
  segLen : Nat
deriving DecidableEq, Repr

namespace Place

def isHead (p : Place) : Bool := p.i == p.head
def isTail (p : Place) : Bool := p.i == p.tail
def lastHead (p : Place) : Nat := (p.nseg - 1) * p.segLen
def atLastHead (p : Place) : Bool := p.i == p.lastHead
/-- The position at an index. -/
def pos (p : Place) (i : Nat) : Nat := p.first + i

end Place

namespace State

def place (s : State) (chain : Nat) : Place :=
  let n := max 1 (s.spanLen chain)
  let l := max 1 s.segLen
  let i := s.spanIndex chain
  let j := i / l
  ⟨s.spanFirst chain, n, i, j, ceilDiv n l, j * l, min ((j + 1) * l) n - 1, l⟩

end State

namespace Desc

/-- Does the exchange have a return pass (R536)? -/
def returns (d : Desc) : Bool := if d.is .chain then d.ret else d.span && !d.is .scan

/-- The peers, by position, that this position sends to in an exchange. -/
def receivers (d : Desc) (p : Place) : List Nat :=
  let next := if p.isTail then [] else [p.i + 1]
  let idx :=
    if d.is .halo then
      (if d.haloNext && p.i + 1 < p.n then [p.i + 1] else []) ++ (if d.haloPrev && 0 < p.i then [p.i - 1] else [])
    else if d.is .upd then (if p.i + 1 < p.n then [p.i + 1] else [])
    else
      let fwd := next ++ (if p.isTail && !p.isHead then [p.head] else []) ++
        (if p.isHead && p.seg + 1 < p.nseg then [if d.relaxed then p.lastHead else p.head + p.segLen] else [])
      let back := if d.returns then (if p.isHead && 0 < p.seg then [p.head - p.segLen] else []) ++ next else []
      fwd ++ back
  (idx.eraseDups.filter (fun j => j != p.i)).map p.pos

/-- The peers that send to this position: those that count it among their receivers. -/
def senders (d : Desc) (p : Place) : List Nat :=
  let prev := if p.isHead then [] else [p.i - 1]
  let idx :=
    if d.is .halo then
      (if d.haloNext && p.i + 1 < p.n then [p.i + 1] else []) ++ (if d.haloPrev && 0 < p.i then [p.i - 1] else [])
    else if d.is .upd then (if 0 < p.i then [p.i - 1] else [])
    else
      let fwd := prev ++ (if p.isHead && !p.isTail then [p.tail] else []) ++
        (if d.relaxed then (if p.atLastHead then (List.range (p.nseg - 1)).map (· * p.segLen) else [])
          else if p.isHead && 0 < p.seg then [p.head - p.segLen] else [])
      let back := if d.returns then (if p.isHead && p.seg + 1 < p.nseg then [p.head + p.segLen] else []) ++ prev else []
      fwd ++ back
  (idx.eraseDups.filter (fun j => j != p.i)).map p.pos

end Desc

namespace State

def exch? (s : State) (chain : Nat) : Option Exch := s.cw.exchs.find? (fun e => e.isOpen && e.chain == chain)
def exchOf? (s : State) (seq : Nat) : Option Exch := s.cw.exchs.find? (fun e => e.isOpen && e.seq == seq)

def modExch (s : State) (seq : Nat) (f : Exch → Exch) : State :=
  s.modCw (fun c => { c with exchs := c.exchs.map (fun e => if e.isOpen && e.seq == seq then f e else e) })

/-- Does a descriptor's span hold more than one position? -/
def wide (s : State) (d : Desc) : Bool := d.exchanges && decide (1 < s.spanLen d.chainId)

/-- Must a UPD wait for a done (R579, R584)? -/
def needsDone (s : State) (d : Desc) : Bool :=
  d.is .upd && (d.prot == 1 || (d.prot == 2 && s.spanIndex d.chainId + 1 == s.spanLen d.chainId))

/-- The peers of a member's exchange, in both directions. -/
def peersOf (s : State) (d : Desc) : List Nat :=
  let p := s.place d.chainId
  (d.receivers p ++ d.senders p).eraseDups

/-- The routes and the link contexts to a member's peers (R512, R513, R542). -/
def needPeers (s : State) (img : Image) (d : Desc) : State :=
  let more := if d.is .upd && s.needsDone d then [s.partner] else []
  ((s.peersOf d) ++ more).foldl (fun s p => (s.needRoute img p).needLink p) s

/-- GRANT of an exchange to a peer that sends to it, with the credits that it adds (R519, R544, R546). -/
def grantFlit (chain peer credits : Nat) : TxFlit := mkFlit peer Kind.grant chain 0 0 true (toBytes 2 credits)

/-- Credits up to the window of 64 (R546): those of the link that have not been granted yet. -/
def grantTo (s : State) (chain peer : Nat) : State :=
  let s1 := s.needLink peer
  let had := ((s1.link? peer).map Link.granted).getD 64
  (s1.modLink peer (fun l => { l with granted := 64 })).queueFlit (grantFlit chain peer (64 - had))

/-- The grants of a link that starts anew, one for each exchange: the first brings the window (R546, R554). -/
def grantAnew (peer : Nat) (chains : List Nat) : List TxFlit :=
  chains.mapIdx (fun i c => grantFlit c peer (if i = 0 then 64 else 0))

/-- An exchange opens (R518, R519). -/
def openExch (s : State) (m : Member) : State :=
  let d := m.bytes
  if s.wide d then
    let from' := d.senders (s.place d.chainId)
    let recv := d.receivers (s.place d.chainId)
    let mine := s.cw.early.filter (fun p => p.1 == d.chainId && recv.contains p.2)
    let e : Exch := ⟨d.chainId, m.seq, true, (mine.map (·.2)).eraseDups, [], 0, [], [], [], [], [], [], [], [], from', [], false, []⟩
    (from'.foldl (fun s p => s.grantTo d.chainId p)
      (s.modCw (fun c => { c with exchs := c.exchs ++ [e], early := c.early.filter (fun p => !mine.contains p) }))).pump
  else s

/-- A flit of an exchange leaves for its peer once that has granted; it is kept until the peer has published (R528). -/
def sendFlits (s : State) (seq : Nat) (fs : List TxFlit) : State :=
  let fs := fs.map (fun f => { f with own := seq })
  ((s.modExch seq (fun e => { e with kept := e.kept ++ fs })).queueAll fs).pump

/-- ABORT to every peer of an exchange that has not sent one, and its end here (R520, R521, R523, R525). -/
def sendAborts (s : State) (e : Exch) (peers : List Nat) (code : Nat) : State :=
  (s.queueAll (peers.map (fun p => mkFlit p Kind.abort e.chain 0 0 true (toBytes 2 code)))).pump

/-- An exchange is aborted: its descriptor completes with a status, its peers hear of it; `from'` is the peer that sent the
ABORT, if one did. -/
def abortExch (s : State) (e : Exch) (code : Nat) (from' : List Nat) : State :=
  match s.member? e.seq with
  | some m =>
    let ps := (s.peersOf m.bytes).filter (fun p => !from'.contains p)
    (s.sendAborts e ps code).faultMember e.seq code
  | none => s

-- Restart ------------------------------------------------------------------------------------------------------------

/-- SYNC with a link's epoch. -/
def syncFlit (peer epoch : Nat) : TxFlit := mkFlit peer Kind.sync 0 0 0 true (toBytes 4 epoch)

/-- A link context restarts (R554), on its own account (`sync` 0) or after the peer (1): a new epoch, LSEQ 0, receive state dropped; what the peer has not published goes again on
its grants, and so do link-only messages that are not done; open exchanges grant the peer anew. -/
def restartLinkTo (s : State) (peer epoch sync : Nat) : State :=
  match s.link? peer with
  | some l =>
    let control := ((l.unacked ++ l.queue).filter (fun f => f.kind == Kind.pub || f.kind == Kind.abort || f.offset == 0xFFFFFFFE)).map
      (fun (f : TxFlit) => { f with resends := 0 })
    let owed := (s.groups.filter (fun (g : Group) => g.wrote && !g.dead)).flatMap (fun (g : Group) => g.members.flatMap s.protMsg)
    let messages := (if peer = s.partner then s.mirrorMsgs ++ owed else [])
    let again := s.cw.exchs.flatMap (fun e => if e.pubs.contains peer then [] else e.kept.filter (fun f => f.peer == peer))
    let grants := grantAnew peer ((s.cw.exchs.filter (fun e => e.isOpen && e.senders.contains peer)).map Exch.chain)
    let l' : Link := { Link.fresh peer l.cd epoch sync with
      granted := if grants.isEmpty then 0 else 64, queue := syncFlit peer epoch :: control ++ grants ++ messages ++ again }
    let s1 := s.modCw (fun c => { c with
      exchs := c.exchs.map (fun (e : Exch) => { e with granted := e.granted.filter (· != peer) }),
      early := c.early.filter (fun (p : Nat × Nat) => p.2 != peer),
      rx := c.rx.filter (fun (m : RxMsg) => m.src != peer || m.awaiting) })
    let s1 := if peer = s.partner then { s1 with wb := { s1.wb with sent := s.mirrorRuns } } else s1
    (s1.modLink peer (fun _ => l')).pump
  | none => s

/-- A restart that this end begins; it waits for the peer's SYNC. -/
def restartLink (s : State) (peer : Nat) : State :=
  match s.link? peer with
  | some l => s.restartLinkTo peer ((l.epoch + 1) % 2 ^ 32) 0
  | none => s

/-- Every flit of a link that waits for an acknowledgement goes again, in LSEQ order, as its port has lanes for them (R548). -/
def resend (s : State) (peer : Nat) : State := (s.modLink peer (fun l => { l with again := l.unacked })).pump

end State
end Sys2Proof.Machine
end

