-- ==== Sys2Proof/Machine/Scan.lean ====
section
/-!
DEFINITION. The journal scan and the state that it rebuilds (R609, R610, R627 to R637): intact records, entries, the walk
start, binding waymarks, and groups as they stand before a replay.
-/
namespace Sys2Proof.Machine
open Sys2Proof

/-- An intact entry: the RNUM of its first record, its type, and the payloads (44 bytes) of its records. -/
structure JEntry where
  rnum : Nat
  ty : Nat
  parts : List (List Byte)
deriving DecidableEq, Repr

namespace JEntry

/-- A field of a part, by record byte offset (R608). -/
def fld (e : JEntry) (part o n : Nat) : Nat := field (e.parts.getD part []) (o - 16) n

/-- The sequence number that an entry names. -/
def seq (e : JEntry) : Nat :=
  if e.ty = Ty.published then e.fld 0 16 8
  else if e.ty = Ty.tableSwitch then e.fld 0 36 8
  else if e.ty = Ty.checkpoint then e.fld 0 52 8
  else if e.ty = Ty.waymark || e.ty = Ty.inputDigest || e.ty = Ty.streamDigest || e.ty = Ty.cwDigest || e.ty = Ty.groupOpen || e.ty = Ty.groupClose
  then e.fld 0 16 8 else 0

end JEntry

namespace State

/-- Record n as memory shows it, where it is intact under an epoch (R609). -/
def intactRec (s : State) (img : Image) (n epoch : Nat) : Option (List Byte) :=
  let b := s.rd img (s.recAddr n) 64
  let ty := field b 8 1
  if field b 0 8 == n && field b 60 4 == Hash.crc32 (b.take 60) && decide (1 ≤ ty ∧ ty ≤ 15) &&
      (field b 12 4 == epoch || ty == Ty.epoch) then some b else none

/-- The entry at a position: every record of it intact, its parts in order with one count (R609). -/
def intactEntry (s : State) (img : Image) (n epoch : Nat) : Option JEntry :=
  match s.intactRec img n epoch with
  | some b =>
    let cnt := bits (field b 9 1) 7 4 + 1
    let ty := field b 8 1
    let rs := (List.range cnt).map (fun i => s.intactRec img (n + i) epoch)
    if rs.zipIdx.all (fun p => match p.1 with
        | some r => field r 9 1 == p.2 + ((cnt - 1) <<< 4) && field r 8 1 == ty
        | none => false)
    then some ⟨n, ty, rs.map (fun r => ((r.getD []).drop 16).take 44)⟩ else none
  | none => none

/-- Entries from a position on, up to the first that is not intact: the journal end, the epoch and the entries, latest first. -/
def scanGo (s : State) (img : Image) : Nat → Nat → Nat → List JEntry → Nat × Nat × List JEntry
  | 0, n, ep, acc => (n, ep, acc)
  | fuel + 1, n, ep, acc =>
    match s.intactEntry img n ep with
    | some e => scanGo s img fuel (n + e.parts.length) (if e.ty = Ty.epoch then e.fld 0 16 4 else ep) (e :: acc)
    | none => (n, ep, acc)

/-- The entries between two positions, latest first: one that is not intact is passed over (R629). -/
def scanBetween (s : State) (img : Image) (stop : Nat) : Nat → Nat → Nat → List JEntry → List JEntry
  | 0, _, _, acc => acc
  | fuel + 1, n, ep, acc =>
    if stop ≤ n then acc
    else match s.intactEntry img n ep with
      | some e => scanBetween s img stop fuel (n + e.parts.length) (if e.ty = Ty.epoch then e.fld 0 16 4 else ep) (e :: acc)
      | none => scanBetween s img stop fuel (n + 1) ep acc

/-- What a scan finds (R610, R627, R629). -/
structure Scan where
  jend : Nat
  epoch : Nat
  walk : Nat
  nextSeq : Nat
  ckpt : Nat
  fp : Nat
  entries : List JEntry
deriving DecidableEq, Repr

/-- The scan that starts at the CHECKPOINT at a record number; none where that record is no intact CHECKPOINT (R628). -/
def scanFrom (s : State) (img : Image) (start : Nat) : Option Scan :=
  let ep := field (s.rd img (s.recAddr start) 64) 12 4
  match s.intactEntry img start ep with
  | some c =>
    if c.ty = Ty.checkpoint then
      let r := s.scanGo img s.wbSize start ep []
      let cp := (r.2.2.find? (fun e => e.ty == Ty.checkpoint)).getD c
      let walk := cp.fld 0 16 8
      let wep := field (s.rd img (s.recAddr walk) 64) 12 4
      let es := if walk < start then r.2.2 ++ s.scanBetween img start s.wbSize walk wep [] else r.2.2
      some ⟨r.1, r.2.1, walk, cp.fld 0 32 8, cp.rnum, c.fld 0 40 8, es.reverse.filter (fun e => decide (walk ≤ e.rnum ∧ e.rnum < r.1))⟩
    else none
  | none => none

end State

namespace Scan'

/-- The digests that intact entries hold for a descriptor (R635, R636). -/
def seen (es : List JEntry) (seq : Nat) : List Digest :=
  (es.filter (fun e => e.seq == seq)).flatMap (fun e =>
    if e.ty = Ty.inputDigest then
      (List.range (e.fld 0 56 1)).map (fun i => ⟨Ty.inputDigest, e.fld 0 (24 + 16 * i) 1, e.fld 0 (26 + 16 * i) 2, e.fld 0 (32 + 16 * i) 8, 0⟩)
    else if e.ty = Ty.streamDigest then [⟨Ty.streamDigest, 0, 0, e.fld 0 24 8, e.fld 0 32 4⟩]
    else if e.ty = Ty.cwDigest then [⟨Ty.cwDigest, 0, e.fld 0 26 1, e.fld 0 28 8, e.fld 0 36 4⟩]
    else if e.ty = Ty.tableSwitch then [⟨Ty.tableSwitch, 0, 0, 0, 0⟩]
    else if e.ty = Ty.checkpoint then [⟨Ty.checkpoint, 0, 0, 0, 0⟩]
    else [])

/-- The milepost of a PUBLISHED entry. -/
def published (es : List JEntry) (seq : Nat) : Option (List Byte) :=
  (es.find? (fun e => e.ty == Ty.published && e.seq == seq)).map (fun e => e.parts.getD 0 [] ++ (e.parts.getD 1 []).take 20)

/-- Records that the journal already holds for a descriptor. -/
def used (es : List JEntry) (seq : Nat) : Nat := ((es.filter (fun e => e.seq == seq && e.seq != 0)).map (fun e => e.parts.length)).sum

/-- The pairs at a nonzero generation that a WAYMARK lists. -/
def gens (e : JEntry) : List (Nat × Nat) :=
  (List.range (e.fld 0 32 1)).map (fun i => (e.fld (4 + i / 5) (16 + 8 * (i % 5)) 1, e.fld (4 + i / 5) (20 + 8 * (i % 5)) 4))

end Scan'

/-- A member as it stands at its acceptance. -/
def newMember (seq ring : Nat) (idx : BitVec 32) (d : Desc) (status compat : Nat) (q : Resolved) (padVal rnum resv : Nat) : Member where
  seq := seq
  ring := ring
  idx := idx
  bytes := d
  status := status
  compat := compat
  reads := q.reads
  progGen := q.progGen
  fgen := q.fgen
  agen := q.agen
  padVal := padVal
  rnum := rnum
  resv := resv
  taken := false
  fault := 0
  shape := none
  tabs := []
  param := none
  inputs := none
  beats := []
  run := []
  retries := 0
  result := none
  census := Census.zero
  ieee := 0
  digests := []
  owed := []
  seen := []
  mirrorDone := true
  capSet := false
  caps := []
  capHeads := []
  milepost := none
  pubSeen := false
  respReturned := false

/-- A new group. -/
def newGroup (ring : Nat) (m : Member) : Group :=
  ⟨ring, [m], false, m.status != 0, false, false, [], false, false, false, false, false, false, false, false, false⟩

namespace State

/-- The references of a descriptor at the generations that its waymark lists (R206, R633). A current reference of a slot stands at the
listed generation of it that no named reference gives, where there is one, else at the one that they share; a slot with nothing
listed is at generation 0. -/
def recorded (s : State) (d : Desc) (compat : Nat) (gs : List (Nat × Nat)) (prog : Nat) : Resolved :=
  let pr := match d.f1Fn with | some (.prog i) => progSlotRefs (s.progBytes prog) i | _ => []
  let refs := (d.slotRefs (compat == 5) pr).filter (fun p => decide (p.1 < 64))
  let of := fun (i : Nat) (r : GRef) => match r with
    | .gen n => n
    | .cur =>
      let mine := gs.filter (fun p => p.1 == i)
      match mine.find? (fun p => !refs.contains (i, .gen p.2)) with
      | some p => p.2
      | none => ((mine.head?).map (·.2)).getD 0
  let g := fun (sl : Option Nat) (cur : Bool) (n : Nat) => match sl with
    | some i => if compat == 5 then 0 else if i = 64 then prog else of i (if d.curAll || cur then .cur else .gen n)
    | none => 0
  ⟨sortPairs (refs.map (fun p => (p.1, of p.1 p.2))), prog, g d.fslot d.fcur d.fgen, g d.aslot d.acur d.agen⟩

/-- A member from its WAYMARK. -/
def memberOf (s : State) (es : List JEntry) (e : JEntry) : Member :=
  let seq := e.fld 0 16 8
  let d : Desc := (e.parts.getD 1 []).take 44 ++ (e.parts.getD 2 []).take 44 ++ (e.parts.getD 3 []).take 40
  let st := e.fld 0 30 2
  let gs := Scan'.gens e
  let q := if st = 0 then s.recorded d (e.fld 0 29 1) gs (e.fld 0 40 4) else ⟨[], 0, 0, 0⟩
  let m := newMember seq (e.fld 0 28 1) (BitVec.ofNat 32 (e.fld 0 24 4)) d st (e.fld 0 29 1) q (e.fld 0 36 4) e.rnum 0
  let pub := Scan'.published es seq
  { m with
    taken := true, seen := Scan'.seen es seq, milepost := pub, pubSeen := pub.isSome,
    resv := if pub.isSome then 0 else State.reserve d (st == 0) (!d.fuse || st == St.fuseOrphan) gs.length - Scan'.used es seq, mirrorDone := !(s.needsDone d) }

/-- A binding member joins the groups (R634, R812): its FUSE bit says whether it continues its ring's open group. FUSE_ORPHAN says that
there was none, and a group whose members have all their PUBLISHED entries had ended. -/
def joinGroup (es : List JEntry) (gs : List Group) (m : Member) : List Group :=
  let close := fun (g : Group) => if g.ring == m.ring && !g.ended then
    { g with ended := true, dead := true, members := g.members.map (fun q => { q with fault := if q.accepted then St.groupFault else 0 }) } else g
  let openG := gs.any (fun g => g.ring == m.ring && !g.ended && !g.members.all (·.pubSeen))
  let add := fun (g : Group) => if g.ring == m.ring && !g.ended then
    let bad := g.dead || m.status != 0
    let ms := g.members ++ [m]
    { g with dead := bad, ended := m.bytes.last, members := if bad then ms.map (fun q => { q with fault := if q.accepted then St.groupFault else 0 }) else ms }
    else g
  if openG && m.bytes.fuse && m.status != St.fuseOrphan then gs.map add
  else
    let g := newGroup m.ring m
    gs.map close ++ [{ g with ended := m.bytes.last, replay := true,
                              openSeen := es.any (fun e => e.ty == Ty.groupOpen && e.seq == m.seq),
                              closeSeen := es.any (fun e => e.ty == Ty.groupClose && e.seq == m.seq) }]

/-- The groups of the binding waymarks (R629 to R634). -/
def rebuilt (s : State) (c : Scan) : List Group :=
  let ms := (c.entries.filter (fun e => e.ty == Ty.waymark)).map (s.memberOf c.entries)
  let gs := ms.foldl (joinGroup c.entries) []
  gs.map (fun g => let all := g.members.all (·.pubSeen); { g with ended := g.ended || all, published := all })

/-- Records that survive a recovery: entries of no descriptor that landed before the journal end count as written; those that
did not are written again. What PARTNER has acknowledged of them stands (R606). -/
def keepRec (jend : Nat) (r : Rec) : Bool :=
  decide (r.rnum < jend) && (match r.act with | .toll | .tollSet _ | .seal _ | .incident _ => true | _ => false)

/-- Toll entries beyond the journal end are written again, and their waiting answers follow them (R381, R382). -/
def rewriteTolls (s : State) (old : List Rec) : State :=
  old.foldl (fun s r =>
    let again := fun (s : State) (ty : Nat) => s.wbWrite ty [(r.bytes.drop 16).take 44] r.act
    match r.act with
    | .toll =>
      let s1 := again s Ty.toll
      { s1 with tolls := { s1.tolls with waits := s1.tolls.waits.map (fun w => if w.rnum = r.rnum then { w with rnum := s.wb.tail } else w) } }
    | .tollSet _ =>
      let s1 := again s Ty.tollSet
      { s1 with tolls := { s1.tolls with sets := s1.tolls.sets.map (fun w => if w.2 = r.rnum then (w.1, s.wb.tail) else w) } }
    | _ => s) s

/-- A ring after the rebuild (R338, R347, R637, R810): it will read its head record where it is enabled or has binding descriptors,
and where its DISABLED has still to be shown. -/
def ringAfter (gs : List Group) (r : Nat) (g : Ring) : Ring :=
  let mine := gs.filter (fun q => q.ring == r)
  let lastM := (mine.flatMap (·.members)).foldl (fun (a : Option Member) m => match a with | some x => if x.seq < m.seq then some m else a | none => some m) none
  let owes := mine.any (fun q => q.ended && !q.published)
  let asks := g.enabled || !mine.isEmpty || g.status != .disabled
  let g0 := { g with arrived := [], atHead := none, halted := false, reading := if asks then some .recovery else none, known := g.known && !asks,
                     status := if owes then .replay else if asks then .running else .disabled, resume := .running }
  match lastM with
  | some m => { g0 with next := m.idx + 1, prod := m.idx + 1, lastSeq := m.seq, seqKnown := true, rebuilt := true }
  | none => { g0 with rebuilt := false }

/-- Records that memory holds go to PARTNER (again), in messages of up to 64 (R623, R626, R639). -/
def mirrorAgain (s : State) (img : Image) (from' upto : Nat) : State :=
  if s.mirrorEn && !s.noPartner then
    let s1 := s.needRoute img s.partner
    let rs := (List.range (upto - from')).map (fun i => (from' + i, s.rd img (s.recAddr (from' + i)) 64))
    let s2 := s1.modWb (fun w => { w with mirror := rs, sent := { s1 with wb := { w with mirror := rs } }.mirrorRuns })
    s2.queueAll s2.mirrorMsgs
  else s

/-- PUB to every sender of the exchanges of the groups that a walk has found published (R555). A group without a GROUP_OPEN never issued
and held no exchange (R816). -/
def pubAgain (s : State) (img : Image) : State :=
  let ms := (s.groups.filter (fun g => g.published && g.openSeen)).flatMap (fun g => g.members.filter (fun m => s.wide m.bytes))
  (ms.foldl (fun s m =>
    ((m.bytes.senders (s.place m.bytes.chainId)).foldl (fun s p => (s.needRoute img p).queueFlit (mkFlit p Kind.pub m.bytes.chainId 0 0 true [])) s)) s).pump

/-- Groups that owe no execution publish at once (R633): rejected and dead ones, and the open group of a ring that is disabled, which
nothing else ends (R497). -/
def startReplay (s : State) : State :=
  let s1 := (List.range 64).foldl (fun s r => if (s.ring r).enabled then s else s.endOpenGroup r) s
  s1.groups.foldl (fun s g => s.tryFinish g.firstSeq) s1

/-- The state that the walk begins with (R627 to R637), with the EPOCH entry written at the journal end. `from'`: the record
from which PARTNER is sent the journal again. -/
def rebuild (s : State) (c : Scan) (cause : Nat) (img : Image) (from' : Nat) : State :=
  let gs := s.rebuilt c
  let high := (gs.flatMap (·.members)).foldl (fun a m => max a m.seq) 0
  let old := s.wb.recs
  let s1 := s.modWb (fun w => { w with
    tail := c.jend, epoch := c.epoch + 1, ckpt := c.ckpt, trim := c.walk, nextSeq := max (high + 1) c.nextSeq, since := c.jend - (c.ckpt + 1),
    recs := (old.filter (keepRec c.jend)).map (fun r => { r with ok := true }), stopped := false })
  let s2 := (s1.mirrorAgain img from' c.jend).wbWrite Ty.epoch [epochPart (c.epoch + 1) cause high c.walk] .epoch
  let s3 := s2.rewriteTolls (old.filter (fun r => decide (c.jend ≤ r.rnum)))
  let lost := fun (a : Act) => old.any (fun r => decide (c.jend ≤ r.rnum) && r.act == a)
  let pend := fun (p : SealPend) => if lost (.seal p.field) then { p with written := false } else p
  let entry := fun (i : Nat) (e : Option IncEntry) => match e with
    | some x => some (if lost (.incident i) then { x with written := false } else x)
    | none => none
  let s4 := { s3 with
    groups := gs, rings := s3.rings.mapIdx (ringAfter gs), seals := { s3.seals with pending := s3.seals.pending.map pend },
    inc := { s3.inc with log := s3.inc.log.mapIdx entry } }
  (s4.rings.foldl (fun s g => if g.reading.isSome then s.ask g.head.toNat else s) s4).pubAgain img

/-- Abandons the compute of every issued group and frees the working region (R651). A LOAD_INGOT keeps its bank closing and
begins again at step 2. A ring goes back to its first descriptor that has not been taken. -/
def abandon (s : State) : State :=
  let empty := fun (c : Cluster) => { c with slotA := .empty, slotB := .empty, cache := [], fills := [] }
  let again := fun (l : Load) => if l.phase = .done then l else { l with phase := .accepted }
  let quiet := fun (i : Nat) (r : Ring) =>
    { r with arrived := [], atHead := none, reading := none, next := s.acceptIdx i, prod := s.acceptIdx i }
  let s1 := { s with groups := [], rowCtx := [], loads := s.loads.map again, clusters := s.clusters.map empty, rings := s.rings.mapIdx quiet,
                     wb := { s.wb with stopped := true } }
  let peers := (s.cw.exchs.flatMap (fun e => e.senders ++ e.kept.map (·.peer))).eraseDups
  let s2 := s1.modCw (fun c => { c with exchs := [] })
  peers.foldl restartLink s2

end State
end Sys2Proof.Machine
end

