-- ==== Sys2Proof/Machine/Incident.lean ====
section
/-!
DEFINITION. Incidents (R642 to R674): severity and resource of an error, the log, one recovery at a time, S2 repeats, S3
recoveries, the fence of an S4, and the INCIDENT records.
-/
namespace Sys2Proof.Machine
open Sys2Proof

-- Sources (R642)
namespace Src
abbrev stageCe : Nat := 0x01
abbrev stageUe : Nat := 0x02
abbrev tableCe : Nat := 0x03
abbrev tableUe : Nat := 0x04
abbrev progUe : Nat := 0x05
abbrev codebookPe : Nat := 0x07
abbrev laneAssay : Nat := 0x08
abbrev clusterFail : Nat := 0x09
abbrev memRead : Nat := 0x0C
abbrev memPoison : Nat := 0x0D
abbrev memWrite : Nat := 0x0E
abbrev recordWrite : Nat := 0x0F
abbrev journalWrite : Nat := 0x10
abbrev asDup : Nat := 0x11
abbrev asConflict : Nat := 0x12
abbrev asCheck : Nat := 0x13
abbrev cwStray : Nat := 0x14
abbrev cwConflict : Nat := 0x15
abbrev cwLinkFail : Nat := 0x16
abbrev exchTimeout : Nat := 0x17
abbrev mirror : Nat := 0x18
abbrev replayDigest : Nat := 0x19
abbrev bankCrc : Nat := 0x1A
abbrev drawFail : Nat := 0x1B
abbrev waybookScan : Nat := 0x1C
abbrev retention : Nat := 0x1D
abbrev logOverflow : Nat := 0x1E
abbrev fenceReq : Nat := 0x1F
end Src

/-- A finding of the block itself. -/
def finding (source unit seq addr : Nat) : Finding := ⟨source, unit, seq, 0, addr, false, []⟩

/-- The severity of a source (R642, R643, R644); 0 for a reserved code. -/
def severity (resident : Nat) (f : Finding) : Nat :=
  if f.source = Src.stageUe then (if f.unit < resident then 2 else if f.replayOnly then 3 else 2)
  else if [0x01, 0x03, 0x06, 0x07, 0x0A, 0x11, 0x14, 0x19].contains f.source then 1
  else if [0x0B, 0x0F, 0x10].contains f.source then 3
  else if [0x1B, 0x1C, 0x1D, 0x1E, 0x1F].contains f.source then 4
  else if f.source = 0 ∨ 0x1F < f.source then 0
  else 2

/-- The resource of a source: its kind, and its UNIT (R642); the journal and the control state are one resource each. -/
def resource (source unit : Nat) : Nat × Nat :=
  if source ≤ 0x02 then (1, unit)
  else if source ≤ 0x04 || source = Src.bankCrc then (2, unit)
  else if source = Src.progUe then (3, unit)
  else if source = 0x06 || source = 0x07 || source = Src.clusterFail then (4, unit)
  else if source = Src.laneAssay then (5, unit)
  else if source = 0x0A || source = 0x0B || source = Src.fenceReq then (6, 0)
  else if source ≤ 0x0F then (7, unit)
  else if source = Src.journalWrite || source = Src.replayDigest || source = Src.waybookScan then (8, 0)
  else if source ≤ 0x13 then (9, unit)
  else if source ≤ 0x18 then (10, unit)
  else (source, 0)

namespace State

def modInc (s : State) (f : Inc → Inc) : State := { s with inc := f s.inc }

/-- An entry of the log. -/
def entry? (s : State) (pos : Nat) : Option IncEntry := (s.inc.log[pos]?).join
def modEntry (s : State) (pos : Nat) (f : IncEntry → IncEntry) : State :=
  s.modInc (fun i => { i with log := i.log.modify pos (fun e => e.map f) })

/-- A bit of DX_IRQ_INCIDENT (R665): S2, S3, S4, OVERFLOW, DONE from bit 0. -/
def irqInc (s : State) (n : Nat) : State := { s with setup := { s.setup with irqIncident := s.setup.irqIncident ||| BitVec.ofNat 5 (1 <<< n) } }

-- Records ------------------------------------------------------------------------------------------------------------

/-- Is the waybook able to take entries of no descriptor? -/
def wbOpen (s : State) : Bool := s.isReady 9 && !s.wb.stopped && !s.inc.fenced && !s.start.parked

/-- The INCIDENT record of an entry that has ended (R663). -/
def writeEntry (s : State) (pos : Nat) : State :=
  match s.entry? pos with
  | some e =>
    if s.wbOpen && decide (2 ≤ e.state) && !e.written then
      (s.wbWrite Ty.incident [incBytes e] (.incident pos)).modEntry pos (fun e => { e with written := true })
    else s
  | none => s

/-- Every entry that waits for its record. -/
def flushInc (s : State) : State := (List.range 32).foldl writeEntry s

/-- An entry whose record has been reported leaves its position (R663); an S4 stays until reset. -/
def entryReported (s : State) (pos : Nat) : State :=
  match s.entry? pos with
  | some e => if e.sevFinal = 4 && e.state = 1 then s else s.modInc (fun i => { i with log := i.log.set pos none })
  | none => s

-- S1 -----------------------------------------------------------------------------------------------------------------

/-- An S1 (R664): counted, and recorded at most once per source in 1 ms (175,000 cycles of CK_G), each REPLAY_DIGEST for
itself. -/
def incidentS1 (s : State) (f : Finding) : State :=
  let old := s.inc.s1since.getD f.source ⟨0, none, none⟩
  let n := old.count + 1
  let t := s.now
  let due := f.source == Src.replayDigest || (match old.time with | some t0 => decide (175000 ≤ t - t0) | none => true)
  let go := s.regs.incCtl.getLsbD 1 && s.wbOpen && due
  let e : IncEntry := ⟨f.seq, 1, 1, 2, f.source, f.unit, f.detail, 0, 0xFF, f.addr, t % 2 ^ 32, 0,
    if f.source = Src.replayDigest then 1 else min n 0xFFFF, true, false⟩
  let s1 := s.modInc (fun i => { i with
    s1cnt := i.s1cnt.modify f.source (fun c => if c = 0xFFFFFFFF then c else c + 1),
    s1since := i.s1since.set f.source (if go then ⟨0, some f, some t⟩ else ⟨n, some f, old.time⟩) })
  if go then (s1.wbWrite Ty.incident [incBytes e] .none).bump else s1

-- The fence ----------------------------------------------------------------------------------------------------------

/-- The store-window accesses that have no answer yet are refused (R654). -/
def refuseWaiting (s : State) : State :=
  let asks := s.tolls.asks.map (fun a => match a.2 with | none => Out.winRead a.1 (zeroBytes 8) .slverr | some _ => Out.winWrite a.1 .slverr)
  let waits := s.tolls.waits.map (fun w => Out.winRead w.req (zeroBytes 8) .slverr)
  let sets := s.tolls.sets.map (fun w => Out.winWrite w.1 .slverr)
  { s with out := s.out ++ (asks ++ waits ++ sets), tolls := { s.tolls with asks := [], waits := [], sets := [] } }

/-- The block fences itself (R654). -/
def fence (s : State) : State :=
  if s.inc.fenced then s
  else
    let s1 := s.cw.exchs.foldl (fun s e => if e.isOpen then
      (match s.member? e.seq with | some m => s.sendAborts e (s.peersOf m.bytes) St.busError | none => s) else s) s
    let s2 := { s1 with start := { s1.start with ready := s1.start.ready &&& 3 }, wb := { s1.wb with stopped := true } }
    (s2.modInc (fun i => { i with fenced := true, scanDue := false })).refuseWaiting

-- Repeats ------------------------------------------------------------------------------------------------------------

/-- A member back at the start of its execution; what it has written counts as found (R635), and beats that are intact stay. -/
def freshMember (s : State) (m : Member) : Member :=
  { m with mirrorDone := !s.needsDone m.bytes, run := [], owed := [], shape := none, tabs := [], param := none, inputs := none, retries := 0, result := none, census := Census.zero, ieee := 0,
           seen := m.seen ++ m.digests.filter (fun d => !m.owed.contains d), digests := [] }

/-- An S2 repeat (R652): the group executes again from its inputs, on its granules and with its numbers; the links to the
peers of its exchanges restart. Groups that have ended, or have not issued, are not repeated. -/
def repeatGroup (s : State) (first : Nat) : State :=
  match s.group? first with
  | some g =>
    if !g.issued || g.dead || g.outDone || g.published then s
    else
      let mine := s.cw.exchs.filter (fun e => g.members.any (·.seq == e.seq))
      let fresh := fun (e : Exch) => if g.members.any (·.seq == e.seq) then
        { e with signed := [], attempt := 0, todo := [], ks := [], tries := [], totals := [], rx := [], sent := [], kept := [], digest := [], done := false } else e
      let s1 := s.modGroup g.firstSeq (fun g => { g with
        members := g.members.map s.freshMember, openSeen := true, closeSeen := g.closeSeen || g.closeWritten,
        closeWritten := false, closeReported := false, wrote := false })
      let s2 := { s1 with rowCtx := s1.rowCtx.filter (fun c => !g.members.any (·.seq == c.seq)) }
      let s3 := s2.modCw (fun c => { c with exchs := c.exchs.map fresh })
      let peers := (mine.flatMap (fun e => match s.member? e.seq with | some m => s.peersOf m.bytes | none => [])).eraseDups
      let bounded := fun (m : Member) => if m.bytes.data && m.bytes.shapeAddr = 0 then
        { m with shape := some ⟨m.bytes.rows, m.bytes.cols, none, none, []⟩ } else m
      peers.foldl restartLink (s3.modGroup g.firstSeq (fun g => { g with members := g.members.map bounded }))
  | none => s

/-- The suspect groups of a cluster (R660): unpublished and issued since SUSPECT_FROM. Every issued group gives work to every
active cluster. -/
def suspects (s : State) (from' : Nat) : List Nat :=
  (s.groups.filter (fun g => from' != 0 && g.issued && !g.published && decide (from' ≤ g.firstSeq))).map (·.firstSeq)

/-- A bank becomes empty (R646): the members that read it complete with TABLE_GEN, the others of their groups with
GROUP_FAULT. -/
def emptyBankOf (s : State) (slot : Nat) (bank : Bool) : State :=
  let b := (s.slot slot).bank bank
  let hit := fun (m : Member) => m.accepted && (if slot = 64 then m.progGen == b.gen && b.gen != 0 else m.reads.contains (slot, b.gen))
  let s1 := s.modSlot slot (fun t => t.setBank bank emptyBank)
  s.groups.foldl (fun s g =>
    if g.members.any hit then s.faultGroup g.firstSeq (fun m => if hit m then St.tableGen else St.groupFault) else s) s1

/-- What an S2 recovery does (R643 to R646, R652, R656, R657), and the ACTION that its entry names. None where the repeat
needs stream data that is gone (R653). -/
def actS2 (s : State) (e : IncEntry) : Option (State × Nat) :=
  if e.source = Src.stageUe then
    match s.groups.find? (fun g => g.gran.contains e.unit) with
    | some g =>
      if g.members.any (fun m => m.bytes.is .mcombine && !m.bytes.srcMem && !m.beats.isEmpty && (s.memberGran g m.seq).contains e.unit) then none
      else some (s.repeatGroup g.firstSeq, 1)
    | none => some (s, 7)
  else if e.source = Src.tableUe then
    let slot := e.unit / 2
    let bank := e.unit % 2 == 1
    let b := (s.slot slot).bank bank
    if b.gen = 0 then
      let hit := (s.groups.filter (fun g => g.issued && !g.dead && g.members.any (fun m => m.reads.contains (slot, 0)))).map (·.firstSeq)
      some (hit.foldl repeatGroup s, 1)
    else some (s.emptyBankOf slot bank, 7)
  else if e.source = Src.progUe then some (s.emptyBankOf 64 (e.unit % 2 == 1), 7)
  else if e.source = Src.laneAssay || e.source = Src.clusterFail then
    some ((s.suspects e.addr).foldl repeatGroup s, e.action)
  else some (s, 7)

-- Recoveries ---------------------------------------------------------------------------------------------------------

/-- The scan of an S3 recovery, once the journal is shown (R627, R628): every ring waits, an S4 follows where its start is not
intact. -/
def scanS3 (s : State) (img : Image) : State × Bool :=
  match s.scanFrom img s.wb.ckpt with
  | some c =>
    let from' := match s.wb.mirror with | p :: _ => min p.1 s.wb.ckpt | [] => s.wb.ckpt
    (((s.modInc (fun i => { i with scanDue := false })).rebuild c 1 img from').startReplay.pump, true)
  | none =>
    let halt := fun (r : Ring) => { r with halted := true }
    let s1 := { s with start := { s.start with ready := s.start.ready &&& 0xFDFF }, rings := s.rings.map halt }
    (s1.modInc (fun i => { i with scanDue := false }), false)

/-- The lowest free position of the log (R663). -/
def freePos (s : State) : Option Nat := s.inc.log.findIdx? Option.isNone

/-- A new entry. -/
def newEntry (s : State) (f : Finding) (sev action : Nat) : IncEntry :=
  ⟨f.seq, sev, sev, 0, f.source, f.unit, f.detail, action, 0xFF, f.addr, s.now % 2 ^ 32, s.inc.nextId.toNat, 1, false, false⟩

/-- An incident that must be stored as an S4 during a scan that failed (R628). -/
def storeS4 (s : State) (f : Finding) : State :=
  match s.freePos with
  | some p =>
    let s1 := s.modInc (fun i => { i with log := i.log.set p (some { s.newEntry f 4 6 with state := 1 }), nextId := i.nextId + 1, cur := some p })
    (s1.bump.irqInc 2).fence
  | none =>
    (((s.modInc (fun i => { i with lost := if i.lost = 0xFFFF then i.lost else i.lost + 1, overflow := true, cur := none })).irqInc 3).irqInc 2).fence

/-- A recovery ends with its entry marked (R670, R671): `st` 2 DONE or 3 SUBSUMED, `rel` the entry that took over. -/
def closeEntry (s : State) (pos st rel : Nat) : State :=
  ((s.modEntry pos (fun e => { e with state := st, related := if st = 3 then rel else e.related })).writeEntry pos)

/-- The scan of an S3 that is due (R627, R628): where it fails, an S4 takes the recovery over. -/
def scanNow (s : State) (img : Image) : State :=
  let r := s.scanS3 img
  if r.2 then r.1
  else
    let s2 := match r.1.inc.cur with | some p => r.1.closeEntry p 3 0xFF | none => r.1
    s2.storeS4 (finding Src.waybookScan 0 0 s.wb.ckpt)

/-- An S3 begins (R651): acceptance stops, issued groups are abandoned; the scan runs at once where the journal is shown. -/
def beginS3 (s : State) (img : Image) : State :=
  let s1 := s.abandon.modInc (fun i => { i with scanDue := true })
  if img.isEmpty then s1 else s1.scanNow img

/-- The entry at a position becomes the current recovery, at its SEV_FINAL (R651). -/
def activate (s : State) (pos : Nat) (img : Image) : State :=
  let s1 := (s.modEntry pos (fun e => { e with state := 1 })).modInc (fun i => { i with cur := some pos })
  match s1.entry? pos with
  | some e =>
    if e.sevFinal = 2 then
      match s1.actS2 e with
      | some (s2, act) => s2.modEntry pos (fun e => { e with action := act })
      | none => ((s1.modEntry pos (fun e => { e with sevFinal := 3, action := 5 })).irqInc 1).beginS3 img
    else if e.sevFinal = 3 then (s1.modEntry pos (fun e => { e with action := 5 })).beginS3 img
    else (s1.modEntry pos (fun e => { e with action := 6 })).fence
  | none => s

/-- The queued entry with the highest severity, the lowest ID among equals (R668). -/
def nextQueued (s : State) : Option Nat :=
  let q := s.inc.log.zipIdx.filterMap (fun p => match p.1 with | some e => if e.state = 0 then some (p.2, e.sevFinal, e.id) else none | none => none)
  (q.foldl (fun a x => match a with
    | some y => if y.2.1 < x.2.1 ∨ (y.2.1 = x.2.1 ∧ x.2.2 < y.2.2) then some x else a
    | none => some x) none).map (·.1)

/-- The current recovery ends (R651, R668). -/
def endRecovery (s : State) (img : Image) : State :=
  match s.inc.cur with
  | some p =>
    let s1 := (((s.closeEntry p 2 0xFF).flushInc).modInc (fun i => { i with cur := none })).irqInc 4
    match s1.nextQueued with
    | some q => s1.activate q img
    | none => s1
  | none => s

/-- An incident of S2 or above (R663, R667 to R673). `act` is the ACTION that its detector has taken already. -/
def incidentHigh (s : State) (f : Finding) (sev act : Nat) : State :=
  match s.freePos with
  | none =>
    let s1 := (s.modInc (fun i => { i with lost := if i.lost = 0xFFFF then i.lost else i.lost + 1, overflow := true })).irqInc 3
    if s.inc.fenced then s1
    else
      let s2 := match s1.inc.cur with | some p => s1.closeEntry p 3 0xFF | none => s1
      ((s2.modInc (fun i => { i with cur := none, fenceEntry := some { s.newEntry (finding Src.logOverflow 0 0 0) 4 6 with state := 1, id := 0 } })).irqInc 2).bump.fence
  | some pos =>
    let e := s.newEntry f sev act
    let put := fun (s : State) (e : IncEntry) => (s.modInc (fun i => { i with log := i.log.set pos (some e), nextId := i.nextId + 1 })).bump.irqInc (sev - 2)
    if s.inc.fenced then put s e
    else
      match s.inc.cur with
      | none => (put s e).activate pos f.mem
      | some p =>
        match s.entry? p with
        | none => (put s e).activate pos f.mem
        | some c =>
          if resource f.source f.unit == resource c.source c.unit then
            let s1 := (put s { e with state := 2, related := p }).writeEntry pos
            let sf := min 4 (c.sevFinal + 1)
            let s2 := (s1.modEntry p (fun c => { c with sevFinal := sf, action := if sf = 3 then 5 else 6 })).irqInc (sf - 2)
            if sf = 3 then s2.beginS3 f.mem else s2.fence
          else if c.sevFinal < sev then
            ((put s e).closeEntry p 3 pos).activate pos f.mem
          else
            let s1 := put s e
            if sev = 3 then s1.endRecovery f.mem else s1

/-- Is the current recovery an S2 whose statuses are set already (R651)? -/
def statusOnly (s : State) : Bool :=
  match s.inc.cur with
  | some p => (match s.entry? p with | some e => e.sevFinal == 2 && e.action == 7 | none => false)
  | none => false

/-- S2 recoveries that only set statuses end at once (R651), and the next entry becomes active. -/
def settleS2 (img : Image) : Nat → State → State
  | 0, s => s
  | n + 1, s => if s.statusOnly then settleS2 img n (s.endRecovery img) else s

/-- An error is given its severity and is counted, queued, escalated or made active (R642). A reserved source is no error. -/
def incident (s : State) (f : Finding) (act : Nat) : State :=
  let sev := severity s.resident f
  if sev = 0 then s else if sev = 1 then s.incidentS1 f else (s.incidentHigh f sev act).settleS2 f.mem 33

end State
end Sys2Proof.Machine
end

