-- ==== Sys2Proof/Machine/Rings.lean ====
section
/-!
DEFINITION. Rings, bells and taking up to the waymark (R328 to R358, R693, R701, R810 to R812): BELL, HEAD_RECORD_DATA,
DESCRIPTOR_DATA, WAYMARK_WRITE, READY_RECHECK, NOT_READY_TIMEOUT, and the two ends of a ring's service.
-/
namespace Sys2Proof.Machine
open Sys2Proof

namespace Ring

/-- Descriptors asked for and not yet here. -/
def fetching (g : Ring) : Nat := (g.prod - g.next).toNat - g.arrived.length - b2n g.atHead.isSome

/-- Does the ring take descriptors now (R335, R338, R637)? -/
def taking (g : Ring) : Bool := g.enabled && !g.halted && g.status == .running

end Ring

namespace State

-- Quiet points -------------------------------------------------------------------------------------------------------

/-- The start steps of a function's bit in DX_READY (R692). -/
def stepsOf (n : Nat) : List Nat :=
  match n with
  | 2 | 3 | 4 | 5 => [0, 1, 2, 3, 4, 5]
  | 6 => [0, 1, 7] | 7 => [0, 1, 8] | 8 => [0, 1, 9] | 9 => [0, 1, 6] | _ => []

/-- Is a function at a quiet point (00)? It holds no accepted descriptor without a milepost, no replay, no start step. While the
descriptors of an abandoned execution stand in the journal alone, none is. -/
def quiet (s : State) (n : Nat) : Bool :=
  !s.inc.scanDue && !(s.groups.any (fun g => !g.posted && g.members.any (fun m => m.accepted && (s.needs m.bytes).contains n))) &&
    !(s.start.running.any (fun p => (stepsOf n).contains p.1))

/-- The governed set of a sealed field (R701); COMPAT_GEN and REPRO_CLASS govern every descriptor. -/
def governed (f : SealField) : List Nat :=
  match f with
  | .compat | .repro => [2, 3, 4, 5, 6, 7, 8, 9]
  | .drawKey => [2, 3, 5]
  | .geometry => [6, 7, 3, 5]

/-- Does a pending change hold a descriptor up (R701)? -/
def sealHolds (s : State) (d : Desc) : Bool :=
  s.seals.pending.any (fun p => match p.field with
    | .compat | .repro => true
    | f => (governed f).any (s.needs d).contains)

/-- Has a SWITCH or a LOAD_INGOT its waymark without having had its effect at acceptance (R210 step 1, R213)? Acceptance is
serial, and no later descriptor is checked against the banks before. -/
def unsettled (s : State) : Bool :=
  s.groups.any (fun g => !g.dead && !g.published && g.members.any (fun m =>
    (m.bytes.is .switch || m.bytes.is .loadIngot) && m.accepted && !s.loads.any (fun l => l.seq == m.seq)))

-- Head records -------------------------------------------------------------------------------------------------------

/-- A head-record read leaves. -/
def askHead (s : State) (r : Nat) (why : HeadRead) : State :=
  (s.modRing r (fun g => { g with pending := false, reading := some why })).ask (s.ring r).head.toNat

/-- A pending flag is served (R342, R693). -/
def serveBell (s : State) (r : Nat) : State :=
  let g := s.ring r
  if g.pending && g.enabled && g.reading.isNone && s.isReady 9 && !s.inc.fenced then s.askHead r .bell else s

/-- A ring halts with a status (R335, R349): what it has fetched is dropped, its open group ends (R497). -/
def haltRing (s : State) (r : Nat) (st : RStat) : State :=
  ((s.modRing r (fun g => { g with halted := true, status := st, resume := st, arrived := [], atHead := none })).endOpenGroup r).writeHead r

/-- The next fetched descriptor comes to the head and is checked (R343 steps 2 and 3). -/
def promote (s : State) (r : Nat) : State :=
  let g := s.ring r
  match g.atHead, g.arrived with
  | none, d :: rest =>
    if g.taking then
      let st := s.check r d
      s.modRing r (fun g => { g with arrived := rest, atHead := some ⟨d, st, st == 0 && !s.needsReady d, false⟩ })
    else s
  | _, _ => s

/-- PROD_IDX has been read (R335, R343 step 1). One that lies behind what has been fetched shows nothing new. -/
def seeProd (s : State) (r : Nat) (prod : BitVec 32) : State :=
  let g := s.ring r
  if !g.taking then s
  else if g.slots < (prod - s.acceptIdx r).toNat then s.haltRing r .overrun
  else
    let base := s.acceptIdx r
    (List.range ((prod - base).toNat - (g.prod - base).toNat)).foldl (fun s k => s.ask (g.descAddr (g.prod + BitVec.ofNat 32 k)))
      (s.modRing r (fun g => { g with prod := if (g.prod - base).toNat < (prod - base).toNat then prod else g.prod }))

/-- The mileposts of published groups that a walk found (R632): written again from DONE_IDX on, the others are done. -/
def repost (s : State) (r : Nat) (done : BitVec 32) : State :=
  let beyond := fun (g : Group) => g.members.any (fun m => decide ((m.idx - done).toNat < 2 ^ 31))
  let s1 := { s with groups := s.groups.filter (fun g => !(g.ring == r && g.published && !beyond g)) }
  s1.post r

/-- RING_STATUS becomes DISABLED once every accepted descriptor of a disabled ring has its milepost (R338). -/
def settleRing (s : State) (r : Nat) : State :=
  let g := s.ring r
  if !g.enabled && g.known && g.status != .disabled && g.status != .replay && !s.groups.any (fun q => q.ring == r) then
    (s.modRing r (fun g => { g with status := .disabled })).writeHead r
  else s

/-- The head record of a ring after a rebuild (R347, R632, R810). -/
def headRecovered (s : State) (r : Nat) (data : List Byte) : State :=
  let g := s.ring r
  let rec' := field data 40 2
  let keeps := g.enabled && (rec' == 2 || rec' == 3)
  let st : RStat := if rec' = 2 then .overrun else .fetchError
  let s1 := s.modRing r (fun g => { g with
    done := BitVec.ofNat 32 (field data 36 4), prod := g.next,
    known := true, halted := keeps, resume := if keeps then st else g.resume, status := if keeps && g.status != .replay then st else g.status })
  let s2 := if g.rebuilt then s1 else
    s1.modRing r (fun g => { g with
      next := BitVec.ofNat 32 (field data 32 4), prod := BitVec.ofNat 32 (field data 32 4),
      lastSeq := if g.seqKnown then g.lastSeq else field data 48 8, seqKnown := true })
  let s3 := (s2.repost r (BitVec.ofNat 32 (field data 36 4))).writeHead r
  (s3.settleRing r).seeProd r (BitVec.ofNat 32 (field data 0 4))

/-- ENABLE goes from 0 to 1 (R337). -/
def enableRing (s : State) (r : Nat) : State :=
  let owes := s.groups.any (fun g => g.ring == r && g.replay && g.ended && !g.published)
  let s1 := s.modRing r (fun g => { g with halted := false, resume := .running, status := if owes then .replay else g.status, known := g.known && owes, arrived := [], atHead := none })
  if owes then s1
  else if s.isReady 9 && !s.inc.fenced then s1.askHead r .enable else s1.modRing r (fun g => { g with pending := true, reading := none, rebuilt := false, status := .disabled })

/-- ENABLE goes from 1 to 0 (R338, R497). A ring whose indices are not known shows DISABLED once they have been read. -/
def disableRing (s : State) (r : Nat) : State :=
  let s1 := s.modRing r (fun g => { g with
    arrived := [], atHead := none, reading := if g.reading == some .recovery then g.reading else none, resume := .running,
    status := if g.status == .disabled && !s.isReady 9 then .running else g.status })
  (s1.endOpenGroup r).settleRing r

/-- A ring that owed a replay and owes none now goes on (R637, R810). -/
def endReplay (s : State) (r : Nat) : State :=
  let g := s.ring r
  if g.status == .replay && !s.groups.any (fun q => q.ring == r && q.replay && q.ended && !q.published) then
    let s1 := (s.modRing r (fun g => { g with status := g.resume })).writeHead r
    if g.enabled && !g.halted && g.reading.isNone && !s.inc.fenced then s1.askHead r .bell else s1
  else s

end State

-- The commands -------------------------------------------------------------------------------------------------------

/-- A count of 32 bits that saturates. -/
def satInc (c : BitVec 32) : BitVec 32 := if c = 0xFFFFFFFF then c else c + 1

/-- The bell aperture (R749). -/
def WinReq'.inBell (r : WinReq) : Bool := decide (0x05000000 ≤ r.off ∧ r.off + r.len ≤ 0x05001000)

/-- Does the store window answer with SLVERR whatever is asked (R654, R686)? -/
def State.shut (s : State) : Bool := s.inc.fenced || s.start.parked

/-- BELL (R339 to R342, R750, R752, R785): a write to the bell aperture, with the aligned word that it brings and the strobes of
its bytes. Every write is answered with OKAY, a bell once its ring's pending flag is set; a fenced or parked block answers SLVERR
(R654, R686), as it does to a burst that is not INCR, and there is no effect. -/
def execBell (req : WinReq) (word strb : Nat) (s : State) : Res :=
  let r := bits word 5 0
  if s.inReset || !WinReq'.inBell req then .next s
  else if s.shut || !req.incr || req.atomic then .next (s.emit (.winWrite req .slverr))
  else if bits word 31 6 != 0 || bits strb 3 0 != 0xF || !(s.ring r).enabled then
    .next ({ s with setup := { s.setup with bellIgnored := satInc s.setup.bellIgnored } }.emit (.winWrite req .okay))
  else
    let s1 := { s with setup := { s.setup with bellReceived := satInc s.setup.bellReceived } }
    .next (((s1.modRing r (fun g => { g with pending := true })).emit (.winWrite req .okay)).serveBell r)

/-- HEAD_RECORD_DATA (R40, R335, R337, R342, R343, R349, R810): the 64 bytes of a head record arrive; those in the resident range are
read from staging. -/
def execHeadRecordData (ring : Nat) (resp : Resp) (data : List Byte) (s : State) : Res :=
  let g := s.ring ring
  match g.reading with
  | none => .next s
  | some why =>
    let s1 := s.modRing ring (fun g => { g with reading := none })
    if s.inc.fenced then .next s1
    else if resp != .okay then
      .next (((s1.haltRing ring .fetchError).incident
        (finding (if resp = .poison then Src.memPoison else Src.memRead) 0 0 g.head.toNat) 7).serveBell ring)
    else
      let data := s.rd [⟨g.head.toNat, data⟩] g.head.toNat 64
      let prod := BitVec.ofNat 32 (field data 0 4)
      let s2 := match why with
        | .bell => s1.seeProd ring prod
        | .enable =>
          let acc := BitVec.ofNat 32 (field data 32 4)
          let s2 := (s1.modRing ring (fun g => { g with
            next := acc, prod := acc, done := BitVec.ofNat 32 (field data 36 4), known := true,
            lastSeq := if g.seqKnown then g.lastSeq else field data 48 8, seqKnown := true, rebuilt := false, status := .running, halted := false })).writeHead ring
          s2.seeProd ring prod
        | .recovery => s1.headRecovered ring data
      .next (s2.serveBell ring)

/-- DESCRIPTOR_DATA (R40, R343 steps 1 to 3, R344, R349): the 128 bytes of the next fetched descriptor of a ring arrive; those in the
resident range are read from staging. -/
def execDescriptorData (ring : Nat) (resp : Resp) (data : List Byte) (s : State) : Res :=
  let g := s.ring ring
  if g.taking && decide (0 < g.fetching) && !s.inc.fenced then
    let a := g.descAddr (g.next + BitVec.ofNat 32 (g.arrived.length + b2n g.atHead.isSome))
    if resp = .okay then .next ((s.modRing ring (fun g => { g with arrived := g.arrived ++ [s.rd [⟨a, data⟩] a 128] })).promote ring)
    else .next ((s.haltRing ring .fetchError).incident (finding (if resp = .poison then Src.memPoison else Src.memRead) 0 0 a) 7)
  else .next s

/-- READY_RECHECK (R352): the functions that a waiting descriptor needs are ready; it is checked again. -/
def execReadyRecheck (ring : Nat) (s : State) : Res :=
  match (s.ring ring).atHead with
  | some h =>
    if h.waiting && s.needsReady h.bytes then
      .next (s.modRing ring (fun g => { g with atHead := some { h with status := s.check ring h.bytes, waiting := false } }))
    else .next s
  | none => .next s

/-- NOT_READY_TIMEOUT (R353, R354, R693): WAIT_LIMIT has passed since the descriptor reached step 3. -/
def execNotReadyTimeout (ring : Nat) (s : State) : Res :=
  match (s.ring ring).atHead with
  | some h =>
    if h.waiting && (s.ring ring).waitLimit != 0 && s.isReady 9 then
      .next (s.modRing ring (fun g => { g with atHead := some { h with status := St.notReady, waiting := false, settled := true } }))
    else .next s
  | none => .next s

namespace State

/-- The waymark of a descriptor is written (R343 steps 4 to 6, R476, R811, R812). -/
def writeWaymark (s : State) (r : Nat) (d : Desc) (status : Nat) (q : Resolved) : State :=
  let g := s.ring r
  let seq := s.wb.nextSeq
  let nz := q.reads.filter (fun p => p.2 != 0)
  let ok := status == 0
  let joins := d.fuse && (s.openGroup r).isSome
  let padVal := if ok && d.padEn then (s.pad.active.getD d.padCh 0).toNat else 0
  let resv := State.reserve d ok (!joins) nz.length
  let parts := waymarkParts seq g.next.toNat r s.seals.compatGen.toNat status nz (if ok && d.padEn then d.padCh else 0xFF) padVal q.progGen d
  let m := { newMember seq r g.next d status s.seals.compatGen.toNat q padVal s.wb.tail (resv - parts.length) with mirrorDone := !(s.needsDone d) }
  let s1 := if joins then s else s.endOpenGroup r
  let s2 := if joins then
      { s1 with groups := s1.groups.map (fun q => if q.ring == r && !q.ended then
          { q with members := q.members ++ [m], ended := d.last } else q) }
    else { s1 with groups := s1.groups ++ [{ newGroup r m with ended := d.last }] }
  let s3 := match s2.group? seq with
    | some q => if q.dead || !ok then s2.killGroup q else s2
    | none => s2
  let s4 := s3.modRing r (fun g => { g with next := g.next + 1, atHead := none })
  let s5 := s4.modWb (fun w => { w with nextSeq := seq + 1 })
  (s5.wbWrite Ty.waymark parts (.waymark seq)).promote r

end State

/-- WAYMARK_WRITE (R343, R612, R701, R811): the acceptance stage serves the descriptor at a ring's head. It is checked against
the state of this moment; one whose functions have ceased to be ready waits again, and one without waybook space waits. -/
def execWaymarkWrite (ring : Nat) (s : State) : Res :=
  let g := s.ring ring
  match g.atHead with
  | some h =>
    if h.waiting || !g.taking || s.wb.stopped || s.unsettled || !s.isReady 9 || s.inc.fenced || s.sealHolds h.bytes then .next s
    else
      let st := if h.settled then h.status else s.check ring h.bytes
      if st == 0 && !s.needsReady h.bytes then .next (s.modRing ring (fun g => { g with atHead := some { h with status := 0, waiting := true } }))
      else
        let q := if st == 0 then (s.resolve h.bytes).getD ⟨[], 0, 0, 0⟩ else ⟨[], 0, 0, 0⟩
        let joins := h.bytes.fuse && (s.openGroup ring).isSome
        let n := State.reserve h.bytes (st == 0) (!joins) (q.reads.filter (fun p => p.2 != 0)).length
        if s.wbRoom n then .next (s.writeWaymark ring h.bytes st q) else .next s
  | none => .next s

end Sys2Proof.Machine
end

