-- ==== Sys2Proof/Machine/Tolls.lean ====
section
/-!
DEFINITION. The toll counters behind the store window (R369 to R382, R750, R753): TOLL_REQUEST, TOLL_GRANT_REPORTED and
TOLL_SET.
-/
namespace Sys2Proof.Machine
open Sys2Proof

namespace WinReq'

/-- First byte of the toll aperture in the window (R749). -/
abbrev tollBase : Nat := 0x04000000

/-- Does a request address the toll aperture? -/
def inToll (r : WinReq) : Bool := decide (tollBase ≤ r.off ∧ r.off < 0x05000000)

def counter (r : WinReq) : Nat := bits (r.off - tollBase) 23 18
def issuer (r : WinReq) : Nat := bits (r.off - tollBase) 17 8
def tollSeq (r : WinReq) : Nat := bits (r.off - tollBase) 7 3

/-- An aligned 8-byte access (R369, R377); FIXED and WRAP bursts and atomics have none (R750). -/
def whole (r : WinReq) : Bool := r.incr && !r.atomic && r.len == 8 && bits r.off 2 0 == 0

/-- The form of a request, and that of a control write. -/
def isRequest (r : WinReq) : Bool := whole r && decide (issuer r < 0x3FF)
def isControl (r : WinReq) : Bool := whole r && issuer r == 0x3FF && tollSeq r == 0

end WinReq'

/-- The answer of R370. -/
def tollAnswer (m : Memo) (isMemo : Bool) : List Byte := toBytes 8 (m.ticket + (b2n m.valid <<< 32) + (b2n isMemo <<< 33))

namespace State


def modTolls (s : State) (f : Tolls → Tolls) : State := { s with tolls := f s.tolls }

/-- The stored answer of an issuer's memo (R372). -/
def memo? (s : State) (iss c q : Nat) : Option Memo := s.tolls.memos.find? (fun m => m.issuer == iss && m.counter == c && m.seq == q)

/-- A memo with one more answer: an issuer keeps its 16 most recent (R373). Memos stand from the oldest answer on. -/
def keepMemo (ms : List Memo) (m : Memo) : List Memo :=
  let full := 16 ≤ ms.countP (fun x => x.issuer == m.issuer)
  let ms' := if full then ms.eraseP (fun x => x.issuer == m.issuer) else ms
  ms' ++ [m]

/-- May the waybook take a toll entry now (R381, R382, R612)? -/
def tollRoom (s : State) : Bool := s.wbOpen && s.wbRoom 1

/-- Is a REPRO_CLASS change pending (R701)? -/
def reproPending (s : State) : Bool := s.seals.pending.any (fun p => p.field == .repro)

/-- A new grant (R371, R381): the answer is fixed, remembered and journalled, and goes out once its TOLL entry is reported. -/
def grantToll (s : State) (req : WinReq) : State :=
  let c := WinReq'.counter req
  let count := (s.tolls.count.getD c 0).toNat
  let limit := (s.tolls.limit.getD c 0).toNat
  let ok := decide (count < limit)
  let m : Memo := ⟨WinReq'.issuer req, c, WinReq'.tollSeq req, if ok then count else limit, ok⟩
  let rnum := s.wb.tail
  let s1 := s.modTolls (fun t => { t with
    count := if ok then t.count.set c (BitVec.ofNat 32 (count + 1)) else t.count,
    memos := keepMemo t.memos m, waits := t.waits ++ [⟨req, m, false, rnum⟩] })
  s1.wbWrite Ty.toll [tollPart m] .toll

/-- A toll access that waits its turn. -/
def askToll (s : State) (req : WinReq) (data : Option Nat) : State :=
  s.modTolls (fun t => { t with asks := t.asks ++ [(req, data)] })

/-- Does an earlier access to the counter still wait (R376, R377)? -/
def tollQueued (s : State) (req : WinReq) : Bool := s.tolls.asks.any (fun a => WinReq'.counter a.1 == WinReq'.counter req)

/-- The record of an answer that has not been reported, one from before a warm reset too (R381). -/
def owedToll (s : State) (m : Memo) : Option Nat :=
  match s.tolls.waits.find? (fun w => w.memo == m) with
  | some w => some w.rnum
  | none => (s.wb.recs.find? (fun r => r.act == .toll && (r.bytes.drop 16).take 44 == padTo 44 (tollPart m))).map (·.rnum)

/-- A toll request of the right form (R371 to R379). -/
def serveRequest (s : State) (req : WinReq) : State :=
  if s.strictRepro then s.emit (.winRead req (zeroBytes 8) .slverr)
  else if s.tollQueued req then s.askToll req none
  else
    let iss := WinReq'.issuer req
    let c := WinReq'.counter req
    let q := WinReq'.tollSeq req
    match s.memo? iss c q with
    | some m =>
      match s.owedToll m with
      | some n => s.modTolls (fun t => { t with waits := t.waits ++ [⟨req, m, true, n⟩] })
      | none => s.emit (.winRead req (tollAnswer m true) .okay)
    | none => if s.reproPending || !s.tollRoom then s.askToll req none else s.grantToll req

/-- A control write of the right form (R377, R382). -/
def serveSet (s : State) (req : WinReq) (data : Nat) : State :=
  if s.tollQueued req || !s.tollRoom then s.askToll req (some data)
  else
    let c := WinReq'.counter req
    let old := (s.tolls.count.getD c 0).toNat
    let rnum := s.wb.tail
    let s1 := s.modTolls (fun t => { t with
      count := t.count.set c (BitVec.ofNat 32 (bits data 31 0)), limit := t.limit.set c (BitVec.ofNat 32 (bits data 63 32)),
      memos := t.memos.filter (fun m => m.counter != c), sets := t.sets ++ [(req, rnum)] })
    s1.wbWrite Ty.tollSet [tollSetPart c (bits data 31 0) (bits data 63 32) old] (.tollSet c)

/-- Accesses that waited are served in their order of arrival. -/
def retryTolls (s : State) : State :=
  if s.tolls.asks.isEmpty || !s.wbOpen then s
  else
    let asks := s.tolls.asks
    asks.foldl (fun s a => match a.2 with
      | none => s.serveRequest a.1
      | some d => s.serveSet a.1 d) (s.modTolls (fun t => { t with asks := [] }))

end State

/-- TOLL_REQUEST (R369 to R379, R750): a read of the toll aperture. -/
def execTollRequest (req : WinReq) (s : State) : Res :=
  if s.inReset || !WinReq'.inToll req then .next s
  else if s.shut || !WinReq'.isRequest req then .next (s.emit (.winRead req (zeroBytes req.len) .slverr))
  else .next (s.serveRequest req)

/-- TOLL_GRANT_REPORTED (R381): the earliest answer whose TOLL entry has been reported goes to its issuer. -/
def execTollGrantReported (s : State) : Res :=
  match s.tolls.waits.findIdx? (fun w => !s.wb.recs.any (fun r => r.rnum == w.rnum)) with
  | some i =>
    match s.tolls.waits[i]? with
    | some w => .next ((s.modTolls (fun t => { t with waits := t.waits.eraseIdx i })).emit (.winRead w.req (tollAnswer w.memo w.isMemo) .okay))
    | none => .next s
  | none => .next s

/-- TOLL_SET (R377, R378, R382): a write to the toll aperture. A write whose strobes leave a byte out is no 8-byte access. -/
def execTollSet (req : WinReq) (data strb : Nat) (s : State) : Res :=
  if s.inReset || !WinReq'.inToll req then .next s
  else if s.shut || !WinReq'.isControl req || strb % 256 != 255 then .next (s.emit (.winWrite req .slverr))
  else .next (s.serveSet req data)

end Sys2Proof.Machine
end

