-- ==== Sys2Proof/Machine/Waybook.lean ====
section
/-!
DEFINITION. What the report of journal records lets happen, and the end of groups (R606, R613 to R616, R620, R621, R632):
WAYBOOK_WRITE_RESPONSE, MILEPOST_WRITE_RESPONSE, DRAIN_POINT, OUTPUT_WRITES_COMPLETE, CHECKPOINT.
-/
namespace Sys2Proof.Machine
open Sys2Proof

namespace Seals

/-- The value of a sealed field. -/
def value (x : Seals) : SealField → Nat
  | .compat => x.compatGen.toNat | .repro => x.reproClass.toNat | .geometry => x.geometry.toNat | .drawKey => x.drawKey.toNat

/-- Changes of a field since the last cold reset (R22). -/
def count (x : Seals) (f : SealField) : Nat := (x.changes.getD f.code 0).toNat

/-- A new value takes effect and is counted (R702, R703). -/
def apply (x : Seals) (f : SealField) (v : Nat) : Seals :=
  let y := { x with changes := x.changes.modify f.code (· + 1) }
  match f with
  | .compat => { y with compatGen := BitVec.ofNat 8 v }
  | .repro => { y with reproClass := BitVec.ofNat 8 v }
  | .geometry => { y with geometry := BitVec.ofNat 512 v }
  | .drawKey => { y with drawKey := BitVec.ofNat 128 v }

end Seals

namespace State

-- Reports ------------------------------------------------------------------------------------------------------------

/-- Has a record its write response, and its acknowledgement where one is needed (R606, R626)? -/
def reportable (s : State) (r : Rec) : Bool := r.ok && (r.acked || !s.mirrorEn || s.wb.mirrorLost)

/-- A waymark is reported: its descriptor is taken (R343 step 7, R346, R332). -/
def reportWaymark (s : State) (seq : Nat) : State :=
  match s.member? seq with
  | some m =>
    let s1 := s.modMember seq (fun m => { m with taken := true })
    let s2 := (s1.modRing m.ring (fun g => { g with lastSeq := seq, seqKnown := true })).writeHead m.ring
    s2.tryFinish seq
  | none => s

/-- The last PUBLISHED entry of a group is reported (R613, R621, R622, R637, R660). -/
def reportPublished (s : State) (first : Nat) : State :=
  match s.group? first with
  | some g =>
    let worked := fun (c : Cluster) =>
      if g.issued && c.suspectFrom != 0 && decide (c.suspectFrom ≤ first) then { c with workedPub := max c.workedPub g.lastSeq } else c
    let s0 := { s with clusters := s.clusters.map worked }
    let s1 := s0.modGroup first (fun g => { g with published := true, members := g.members.map (fun m => { m with resv := 0 }) })
    (((s1.post g.ring).endReplay g.ring).retryWrites).retryTolls
  | none => s

/-- A SEAL entry is reported: the value takes effect (R702). -/
def reportSeal (s : State) (f : SealField) : State :=
  match s.seals.pending.find? (fun p => p.field == f && p.written) with
  | some p =>
    ({ s with seals := { s.seals.apply f p.value with pending := s.seals.pending.filter (fun q => q.field != f) } }).retryTolls
  | none => s

/-- A TOLL_SET entry is reported: the control write is answered (R382). -/
def reportSet (s : State) (rnum : Nat) : State :=
  match s.tolls.sets.find? (fun w => w.2 == rnum) with
  | some w => (s.modTolls (fun t => { t with sets := t.sets.filter (fun w => w.2 != rnum) })).emit (.winWrite w.1 .okay)
  | none => s

/-- A CHECKPOINT is reported (R611, R614, R616). -/
def reportCheckpoint (s : State) (rnum walk mark : Nat) : State :=
  let s1 := s.modWb (fun w => { w with ckpt := rnum, trim := walk })
  let s2 := if mark = 0 then s1 else (s1.modGroup mark (fun g => { g with outDone := true })).tryFinish mark
  s2.retryTolls

/-- What the report of a record lets happen. -/
def runAct (s : State) (r : Rec) : State :=
  match r.act with
  | .none => s
  | .toll => s
  | .epoch => s.retryTolls
  | .tableSwitch _ => s
  | .waymark seq => s.reportWaymark seq
  | .groupClose first =>
    let s1 := s.modGroup first (fun g => { g with closeReported := true })
    (match s1.group? first with | some g => s1.startWrites g | none => s1)
  | .entry seq => s.modMember seq (fun m => { m with resv := 0 })
  | .published first => s.reportPublished first
  | .seal f => s.reportSeal f
  | .tollSet _ => s.reportSet r.rnum
  | .checkpoint walk mark => s.reportCheckpoint r.rnum walk mark
  | .incident pos => s.entryReported pos

/-- Reports in RNUM order, as far as they go. -/
def reportGo : Nat → State → State
  | 0, s => s
  | n + 1, s =>
    match s.wb.recs with
    | r :: rest =>
      if s.reportable r then reportGo n ((s.modWb (fun w => { w with recs := rest })).runAct r) else s
    | [] => s

def report (s : State) : State := reportGo s.wb.recs.length s

/-- A journal write has failed (R350, R607): every ring whose indices are known shows JOURNAL_ERROR, and acceptance stops. -/
def journalFailed (s : State) : State :=
  let s1 := (s.modRings (fun g => { g with status := .journalError, halted := true })).modWb (fun w => { w with stopped := true })
  (List.range 64).foldl writeHead s1

end State

/-- WAYBOOK_WRITE_RESPONSE (R606, R607, R350): the write response of a record. Nothing follows from it once the block is
fenced (R654). -/
def execWaybookWriteResponse (rnum : Nat) (resp : Resp) (mem : Image) (s : State) : Res :=
  if s.wb.recs.any (fun r => r.rnum == rnum && !r.ok) then
    if s.inc.fenced then
      let s1 := s.modWb (fun w => { w with recs := w.recs.map (fun r => if r.rnum = rnum then { r with ok := true } else r) })
      .next (if resp = .okay then s1 else s1.incident (finding Src.journalWrite 0 0 rnum) 5)
    else if resp = .okay then
      .next (((s.learnRoutes mem).modWb (fun w => { w with recs := w.recs.map (fun r => if r.rnum = rnum then { r with ok := true } else r) })).report)
    else .next (s.journalFailed.incident { finding Src.journalWrite 0 0 rnum with mem := mem } 5)
  else .next s

-- Mileposts ----------------------------------------------------------------------------------------------------------

namespace State

/-- DONE_IDX runs past the mileposts whose responses have returned (R362). -/
def advanceDone : Nat → State → Nat → State
  | 0, s, _ => s
  | n + 1, s, r =>
    let g := s.ring r
    if s.groups.any (fun q => q.ring == r && q.posted && q.members.any (fun m => m.idx == g.done && m.respReturned)) then
      advanceDone n (s.modRing r (fun g => { g with done := g.done + 1 })) r
    else s

/-- Groups all of whose mileposts are done, and passed by DONE_IDX, leave the block: their pins, granules and ownership with them
(R205, R362, R489, R498). -/
def removeDone (s : State) (r : Nat) : State :=
  let past := fun (i : BitVec 32) => decide (0 < ((s.ring r).done - i).toNat ∧ ((s.ring r).done - i).toNat < 2 ^ 31)
  let gone := fun (g : Group) => g.ring == r && g.posted && g.members.all (fun m => m.respReturned && past m.idx)
  { s with groups := s.groups.filter (fun g => !gone g) }

end State

/-- MILEPOST_WRITE_RESPONSE (R338, R362, R363, R489, R642): the write response of a milepost. -/
def execMilepostWriteResponse (seq : Nat) (resp : Resp) (mem : Image) (s : State) : Res :=
  match s.group? seq, s.member? seq with
  | some g, some m =>
    if !g.posted || m.respReturned then .next s
    else if resp = .okay then
      let r := m.ring
      let s1 := s.modMember seq (fun m => { m with respReturned := true })
      let s2 := if m.bytes.irq && (s.ring r).irqEn then
          { s1 with setup := { s1.setup with irqDone := s1.setup.irqDone ||| (1#64 <<< r) } } else s1
      let s3 := s2.advanceDone (s2.groups.map (fun q => q.members.length)).sum r
      let s4 := if (s3.ring r).done != (s.ring r).done && !s.inc.fenced then s3.writeHead r else s3
      .next (((s4.removeDone r).retryWrites).settleRing r)
    else .next (s.incident { finding Src.recordWrite 0 seq ((s.ring m.ring).cplAddr m.idx) with mem := mem } 5)
  | _, _ => .next s

-- The drain point ----------------------------------------------------------------------------------------------------

namespace State

/-- Has an exchange every signature that it waits for (R522)? -/
def signedAll (s : State) (m : Member) : Bool :=
  match s.exchOf? m.seq with
  | some e => e.senders.all e.signed.contains
  | none => true

/-- Is a group at its drain point (R494, R522)? -/
def drained (s : State) (g : Group) : Bool :=
  g.issued && !g.dead && !g.closeWritten && !s.inc.fenced && g.members.all (fun m => m.result.isSome && (!s.wide m.bytes || s.signedAll m))

end State

/-- DRAIN_POINT (R494, R522, R620, R635): GROUP_CLOSE is written, unless a walk has found it. -/
def execDrainPoint (seq : Nat) (s : State) : Res :=
  match s.group? seq with
  | some g =>
    if s.drained g then
      let s1 := s.modGroup seq (fun g => { g with closeWritten := true })
      if g.closeSeen then
        let s2 := s1.modGroup seq (fun g => { g with closeReported := true })
        .next (match s2.group? seq with | some q => s2.startWrites q | none => s2)
      else .next (s1.wbWriteFor g.firstSeq Ty.groupClose [groupClosePart g.firstSeq g.members.length g.ring] (.groupClose g.firstSeq))
    else .next s
  | none => .next s

/-- OUTPUT_WRITES_COMPLETE (R35, R500, R621): every output write response of a group has returned. -/
def execOutputWritesComplete (seq : Nat) (s : State) : Res :=
  match s.group? seq with
  | some g =>
    if g.wrote && !g.outDone then
      .next (((s.writeHeads g).modGroup seq (fun g => { g with outDone := true })).tryFinish seq).retryWrites
    else .next s
  | none => .next s

/-- CHECKPOINT (R614): enough records have been written since the last one. -/
def execCheckpoint (s : State) : Res :=
  if s.wbOpen && s.ckptInterval != 0 && decide (s.ckptInterval * 64 ≤ s.wb.since) then .next (s.writeCheckpoint 0) else .next s

end Sys2Proof.Machine
end

