-- ==== Sys2Proof/Machine/Ingots.lean ====
section
/-!
DEFINITION. Ingots (R201 to R204, R225, R449) and the commands that act on banks: LOAD_INGOT, INGOT_PINS_RELEASED,
INGOT_LOAD_DONE, SWITCH (R210 to R213, R220, R598).
-/
namespace Sys2Proof.Machine
open Sys2Proof

-- Program banks ------------------------------------------------------------------------------------------------------

/-- The type of a register while a program is checked; `either` is the type of a TAB on a slot whose OUT_KIND is not known when
the program is loaded. -/
inductive PTy where
  | f | l | either
deriving DecidableEq, Repr

namespace PTy

/-- May a register of this type be read as the other one? -/
def fits (t want : PTy) : Bool := t == want || t == .either || want == .either

end PTy

namespace ProgCheck

/-- The register types while a program is checked; none where nothing has been written (R225). -/
abbrev Tys := List (Option PTy)

def reads (ts : Tys) (r : Nat) (want : PTy) : Bool :=
  match ts.getD r none with | some t => t.fits want | none => false

/-- One step: whether it is legal, and the types after it (R225 to R227, R230). `outKind` gives the type of a TAB. -/
def step (d : Prog.Dir) (refs : List (Nat × Nat)) (outKind : Nat × Nat → PTy) (isLast : Bool) (w : Nat) (ts : Tys) : Bool × Tys :=
  let sa := bits w 22 20
  let sb := bits w 19 17
  let sc := bits w 16 14
  let dst := bits w 25 23
  let imm := bits w 13 8
  let res := bits w 7 4 == 0
  let wr := fun (ok : Bool) (t : PTy) => (ok && res && !isLast, ts.set dst (some t))
  match bits w 31 26 with
  | 0x00 => (isLast && res, ts)
  | 0x01 => wr (reads ts sa .f) .l
  | 0x02 => wr (reads ts sa .l) .f
  | 0x03 => wr (reads ts sa .l && reads ts sb .l) .l
  | 0x04 => wr (reads ts sa .l && decide (imm < d.nConst)) .l
  | 0x05 =>
    match refs.find? (fun p => p.1 == imm) with
    | some p => wr (reads ts sa .f) (outKind p)
    | none => (false, ts)
  | 0x06 | 0x07 => wr (reads ts sa .f && reads ts sb .f) .f
  | 0x08 => wr (reads ts sa .f && reads ts sb .f && reads ts sc .f) .f
  | 0x09 =>
    match ts.getD sc none, ts.getD dst none with
    | some t, some u => (reads ts sa .f && reads ts sb .f && t.fits u && decide (imm ≤ 2) && res && !isLast, ts.set dst (some (if t == .either then u else t)))
    | _, _ => (false, ts)
  | 0x0A => wr (reads ts sa .f && decide (imm + 1 < d.nConst)) .f
  | 0x0B => wr (decide (imm < d.nConst)) .f
  | 0x0C => wr (reads ts sa .f) .f
  | _ => (false, ts)

/-- Words that a body takes. -/
def bodyLen (d : Prog.Dir) : Nat := 2 * d.nSlots + d.nConst + d.nSteps

/-- Does a program pass the checks of one valid entry (R221, R222, R225) where its TABs give these types? -/
def program (b : List Byte) (outKind : Nat × Nat → PTy) (d : Prog.Dir) : Bool :=
  let refs := Prog.slotRefs b d
  let ws := (List.range d.nSteps).map (Prog.step b d)
  let r := ws.zipIdx.foldl (fun (a : Bool × Tys) p =>
    let q := step d refs outKind (p.2 + 1 == d.nSteps) p.1 a.2
    (a.1 && q.1, q.2)) (true, some PTy.f :: List.replicate 7 none)
  decide (128 ≤ d.start ∧ d.start + bodyLen d ≤ 2048) && decide (1 ≤ d.nSteps ∧ d.nSteps ≤ 256) && decide (d.nConst ≤ 16) &&
    decide (d.nSlots ≤ 4) &&
    (List.range d.nSlots).all (fun i => let w := Prog.word b (d.start + 2 * i); decide (3 ≤ w % 256 ∧ w % 256 ≤ 55) && w / 256 == 0) &&
    r.1 && d.chunkSum == ws.any (fun w => bits w 31 26 == 0x0C)

/-- Every choice of an OUT_KIND for some slot references. -/
def choices : List (Nat × Nat) → List (List ((Nat × Nat) × PTy))
  | [] => [[]]
  | p :: r => (choices r).flatMap (fun a => [(p, PTy.f) :: a, (p, PTy.l) :: a])

/-- The slot references of a program whose OUT_KIND is not known. -/
def unknown (b : List Byte) (outKind : Nat × Nat → PTy) (d : Prog.Dir) : List (Nat × Nat) :=
  ((Prog.slotRefs b d).filter (fun p => outKind p == .either)).eraseDups

/-- The choices under which a program reads every register at its type: a generation that is not resident has one OUT_KIND, so a
program that reads its TAB both ways has none (R225). -/
def feasible (b : List Byte) (outKind : Nat × Nat → PTy) (d : Prog.Dir) : List (List ((Nat × Nat) × PTy)) :=
  if decide (d.nSlots ≤ 4) then
    (choices (unknown b outKind d)).filter (fun a =>
      program b (fun p => match a.find? (fun q => q.1 == p) with | some q => q.2 | none => outKind p) d)
  else []

/-- Do the programs of a bank leave a slot reference only one OUT_KIND, and that one? -/
def forces (p : Nat × Nat) (t : PTy) (fs : List (List ((Nat × Nat) × PTy))) : Bool :=
  fs.all (fun a => a.contains (p, t))

/-- A program bank (R221 to R226): every valid entry of the directory, bodies that do not overlap, and no slot reference that two
programs read at different types. -/
def bank (b : List Byte) (outKind : Nat × Nat → PTy) : Bool :=
  let ds := (List.range 64).map (Prog.dir b)
  let vs := ds.filter (·.valid)
  let clear := (List.range 64).all (fun i => bits (field b (8 * i + 6) 1) 7 2 == 0 && field b (8 * i + 7) 1 == 0)
  let apart := (List.range vs.length).all (fun i => (List.range i).all (fun j =>
    match vs[i]?, vs[j]? with
    | some x, some y => decide (x.start + bodyLen x ≤ y.start ∨ y.start + bodyLen y ≤ x.start)
    | _, _ => true))
  let fs := vs.map (feasible b outKind)
  let us := (vs.flatMap (unknown b outKind)).eraseDups
  b.length == 8192 && clear && fs.all (fun f => !f.isEmpty) && apart &&
    us.all (fun p => !(fs.any (forces p .f) && fs.any (forces p .l)))

end ProgCheck

-- Ingots -------------------------------------------------------------------------------------------------------------

/-- Every header field and reserved field of R201, against the descriptor (R449). -/
def ingotHeaderOk (d : Desc) (h : List Byte) : Bool :=
  field h 0 4 == 0x54474E49 && field h 4 2 == 1 && field h 6 1 == (if d.slotOf = 64 then 2 else 1) && field h 7 1 == d.target &&
    field h 8 1 == 6 && decide (field h 9 1 ≤ 2) && field h 10 2 == 0 && field h 12 4 != 0 && field h 12 4 == d.generation &&
    field h 20 4 == 0 && field h 56 8 == 0

namespace State

/-- The key of a KEY_SEL (R201, R792). -/
def ingotKey (s : State) (sel : Nat) : List Byte :=
  toBytes 32 (match sel with | 0 => Config.romKey.toNat | 1 => s.regs.key1.toNat | _ => s.regs.key2.toNat)

/-- Does the signature verify? A licensee key of all zeros is no key (R202). -/
def ingotSigned (s : State) (h : List Byte) : Bool :=
  let sel := field h 9 1
  !(sel != 0 && ofBytes (s.ingotKey sel) == 0) && Hash.ed25519 (s.ingotKey sel) (h.take 64) ((h.drop 64).take 64)

/-- The type that a TAB on a slot at a generation gives (R227). -/
def tabType (s : State) (p : Nat × Nat) : PTy :=
  match (s.slot p.1).anyBank p.2 with
  | some b => (match b.img with | some i => if (Tab.hdr i).out = 0 then .f else .l | none => .either)
  | none => if p.2 = 0 && Tab.hasRom p.1 then (if (Tab.romHdr p.1).out = 0 then .f else .l) else .either

/-- Does a payload pass the checks of R203 that the header does not decide? -/
def ingotPayloadOk (s : State) (d : Desc) (h payload : List Byte) : Bool :=
  field h 16 4 == payload.length && Hash.sha256 payload == (h.drop 24).take 32 &&
    (if d.slotOf = 64 then ProgCheck.bank payload s.tabType
     else Tab.imgFieldsOk d.slotOf payload && field payload 32 4 == field h 12 4 &&
       field payload 40 8 == Hash.crc64 (payload.take 40 ++ (payload.drop 64)))

end State

/-- The ingot id (R202). -/
def ingotId (h payload : List Byte) : Nat := field (Hash.sha256 (h.take 64 ++ payload)) 0 8

namespace State

-- FENCE --------------------------------------------------------------------------------------------------------------

/-- Have the descriptors that a FENCE waits for published their mileposts (R451)? -/
def fenceDone (s : State) (f : Member) : Bool :=
  !s.groups.any (fun g => (f.bytes.allRings || g.ring == f.ring) && !g.posted && g.members.any (fun m => m.accepted && decide (m.seq < f.seq)))

/-- Does an earlier FENCE of its ring hold a group back (R451)? -/
def fenceBlocks (s : State) (g : Group) : Bool :=
  s.groups.any (fun e => e.ring == g.ring && decide (e.firstSeq < g.firstSeq) && e.members.any (fun m =>
    m.bytes.is .fence && m.accepted && !s.fenceDone m))

/-- A control operation that is due: its member accepted and taken, alive and not done; no FENCE holds it where `order` asks. -/
def due (s : State) (seq : Nat) (o : Op) (order : Bool) : Option (Group × Member) :=
  match s.group? seq, s.member? seq with
  | some g, some m =>
    if m.bytes.is o && m.accepted && m.taken && !g.dead && !g.outDone && !g.published && !s.inc.fenced && !(order && s.fenceBlocks g)
    then some (g, m) else none
  | _, _ => none

/-- A control operation is done: its milepost can be published (R361). -/
def controlDone (s : State) (seq : Nat) : State := (s.modGroup seq (fun g => { g with outDone := true })).tryFinish seq

-- Banks --------------------------------------------------------------------------------------------------------------

def load? (s : State) (seq : Nat) : Option Load := s.loads.find? (fun l => l.seq == seq)
def modLoad (s : State) (seq : Nat) (f : Load → Load) : State := { s with loads := s.loads.map (fun l => if l.seq == seq then f l else l) }

/-- Loads of descriptors that are gone are forgotten. -/
def pruneLoads (s : State) : State := { s with loads := s.loads.filter (fun l => (s.member? l.seq).isSome) }

/-- The table-switch record of a load or a switch, unless a walk has found it (R210, R213, R635). -/
def writeSwitch (s : State) (l : Load) (sw : Bool) (newGen ingot : Nat) : State :=
  match s.member? l.seq with
  | some m =>
    if m.seen.any (fun d => d.ty == Ty.tableSwitch) then s
    else s.wbWriteFor l.seq Ty.tableSwitch [tableSwitchPart l.slot (b2n l.bank) l.oldEmpty sw l.oldGen newGen ingot l.seq] (.tableSwitch l.seq)
  | none => s

/-- A load fails (R204, R220): its bank is empty, no record is written. -/
def loadFailed (s : State) (l : Load) (code : Nat) : State :=
  let s1 := s.modSlot l.slot (fun t => { t.setBank l.bank emptyBank with closing := false })
  (s1.modLoad l.seq (fun l => { l with phase := .done })).faultMember l.seq code

/-- A read of a load returns an error or poisoned data (R647). -/
def loadReadError (s : State) (l : Load) (poisoned : Bool) (addr : Nat) : State :=
  (s.loadFailed l (if poisoned then St.dataError else St.busError)).incident
    (finding (if poisoned then Src.memPoison else Src.memRead) 0 l.seq addr) 7

end State

/-- LOAD_INGOT (R210 step 1): the bank that is not active is closing from now on. -/
def execLoadIngot (seq : Nat) (s : State) : Res :=
  match s.due seq .loadIngot false with
  | some (_, m) =>
    if (s.load? seq).isSome then .next s
    else
      let n := m.bytes.slotOf
      let t := s.slot n
      let old := t.bank (!t.active)
      let l : Load := ⟨seq, n, !t.active, old.gen, old.img.isNone, .accepted, []⟩
      let s1 := s.pruneLoads.modSlot n (fun t => { t with closing := true })
      .next { s1 with loads := s1.loads ++ [l] }
  | none => .next s

/-- INGOT_PINS_RELEASED (R210 steps 2 and 3, R201, R204, R211, R449): no pin remains on the closing bank; the header has been
read. -/
def execIngotPinsReleased (seq : Nat) (resp : Resp) (hdr : List Byte) (s : State) : Res :=
  match s.due seq .loadIngot true, s.load? seq with
  | some (_, m), some l =>
    if l.phase != .accepted || (!l.oldEmpty && s.pinned l.slot l.oldGen) then .next s
    else
      let s1 := s.modSlot l.slot (fun t => t.setBank l.bank State.emptyBank)
      let go := s1.modLoad seq (fun l => { l with phase := .reading, hdr := hdr })
      if m.bytes.romFlag then .next go
      else if resp != .okay then .next (s1.loadReadError l (resp == .poison) m.bytes.ingotAddr)
      else if !ingotHeaderOk m.bytes hdr then .next (s1.loadFailed l St.ingotInvalid)
      else if !s1.ingotSigned hdr then .next (s1.loadFailed l St.ingotSignature)
      else .next go
  | _, _ => .next s

/-- INGOT_LOAD_DONE (R203, R210 steps 4 to 6, R211, R220, R598): the payload has been read. -/
def execIngotLoadDone (seq : Nat) (resp : Resp) (payload : List Byte) (s : State) : Res :=
  match s.due seq .loadIngot true, s.load? seq with
  | some (_, m), some l =>
    if l.phase != .reading then .next s
    else
      let fill := fun (b : Bank) =>
        let s1 := s.modSlot l.slot (fun t => { t.setBank l.bank b with closing := false })
        let s2 := s1.modLoad seq (fun l => { l with phase := .done })
        (s2.writeSwitch l false b.gen b.ingot).controlDone seq
      if m.bytes.romFlag then .next (fill ⟨0, 0, some (.rom l.slot)⟩)
      else if resp != .okay then .next (s.loadReadError l (resp == .poison) (m.bytes.ingotAddr + 128))
      else if !s.ingotPayloadOk m.bytes l.hdr payload then .next (s.loadFailed l St.ingotInvalid)
      else .next (fill ⟨m.bytes.generation, ingotId l.hdr payload, some (.img payload)⟩)
  | _, _ => .next s

/-- SWITCH (R213): the bank with the named generation becomes active. A replay that finds it active already writes the record of
the first time. -/
def execSwitch (seq : Nat) (s : State) : Res :=
  match s.due seq .switch false with
  | some (_, m) =>
    let n := m.bytes.slotOf
    let t := s.slot n
    let again := s.load? seq
    let l := again.getD ⟨seq, n, (t.holds m.bytes.generation).getD t.active, t.activeBank.gen, t.activeBank.img.isNone, .done, []⟩
    let s1 := match again with
      | some _ => s
      | none =>
        let s1 := s.pruneLoads.modSlot n (fun t => { t with active := l.bank })
        { s1 with loads := s1.loads ++ [l] }
    .next ((s1.writeSwitch l true m.bytes.generation (s1.ingotOf n m.bytes.generation)).controlDone seq)
  | none => .next s

end Sys2Proof.Machine
end

