-- ==== Sys2Proof/Machine/Control.lean ====
section
/-!
DEFINITION. The control and debug operations (R450 to R461): FENCE, MARK, CAPTURE.
-/
namespace Sys2Proof.Machine
open Sys2Proof

/-- A result without output. -/
def emptyResult : Result := ⟨none, [], [], none, []⟩

/-- The 64 bytes of a capture head (R453). -/
def capHead (c : CapArea) : List Byte := toBytes 8 c.next ++ toBytes 4 c.dropped ++ zeroBytes 52

namespace State

/-- Have the earlier groups of a group's ring reached their issue, with the capture space that they need reserved (R454: in
waymark order)? Entries take space once the run-time bounds are known. -/
def ringInOrder (s : State) (g : Group) : Bool :=
  !s.groups.any (fun e => e.ring == g.ring && decide (e.firstSeq < g.firstSeq) && !e.dead && !e.outDone && !e.published &&
    (!e.issued || e.members.any (fun m => m.bytes.capture && m.bytes.data && m.shape.isNone)))

/-- Is the accumulator tile of an MCOMBINE member open (R271)? -/
def tileOpen (m : Member) : Bool := m.bytes.is .mcombine && m.result.isNone

/-- The granules of a member's accumulator tile, in order (R485). -/
def accGran (s : State) (g : Group) (m : Member) : List Nat :=
  let items := s.allocItems m.bytes
  let k := m.bytes.inRefs.length
  ((s.memberGran g m.seq).drop (items.take k).sum).take (items.getD k 0)

/-- The granules of open accumulator tiles (R272 to R274): those of the accumulator itself. -/
def openGran (s : State) : List Nat :=
  s.groups.flatMap (fun g => if g.issued && !g.dead then g.members.flatMap (fun m => if tileOpen m then s.accGran g m else []) else [])

/-- GROUP_OPEN, unless a walk has found it (R619, R635). -/
def writeOpen (s : State) (g : Group) (gran : Nat) : State :=
  if g.openSeen then s
  else s.wbWriteFor g.firstSeq Ty.groupOpen [groupOpenPart g.firstSeq g.members.length g.ring gran] .none

end State

/-- FENCE (R451): it is done once the descriptors that it waits for have published their mileposts. -/
def execFence (seq : Nat) (s : State) : Res :=
  match s.due seq .fence false with
  | some (_, m) => if s.fenceDone m then .next (s.controlDone seq) else .next s
  | none => .next s

/-- MARK (R452, R614): nothing, or a CHECKPOINT whose report the milepost follows. -/
def execMark (seq : Nat) (s : State) : Res :=
  match s.due seq .mark true with
  | some (_, m) =>
    if !m.bytes.ckpt || m.seen.any (fun d => d.ty == Ty.checkpoint) then .next (s.controlDone seq)
    else if m.result.isSome || s.wb.stopped then .next s
    else .next ((s.modMember seq (fun m => { m with result := some emptyResult })).writeCheckpoint seq)
  | none => .next s

/-- CAPTURE (R453): the ring's capture area opens, or closes where CAP_LEN is 0. -/
def execCapture (seq : Nat) (s : State) : Res :=
  match s.due seq .capture true with
  | some (g, m) =>
    if !s.ringInOrder g then .next s
    else if m.bytes.capLen = 0 then .next ((s.modRing m.ring (fun r => { r with cap := none })).controlDone seq)
    else
      let c : CapArea := ⟨m.bytes.capAddr, m.bytes.capLen, 64, 0⟩
      .next (((s.modRing m.ring (fun r => { r with cap := some c })).wr c.addr (capHead c)).controlDone seq)
  | none => .next s

end Sys2Proof.Machine
end

