-- ==== Sys2Proof/Machine/Assay.lean ====
section
/-!
DEFINITION. The assay (R656 to R661): spare lanes, the stand-in, retirement, and the commands ASSAY_START and ASSAY_COMPLETE.
-/
namespace Sys2Proof.Machine
open Sys2Proof

namespace State

def cluster (s : State) (c : Nat) : Cluster := s.clusters.getD c resetCluster
def modCluster (s : State) (c : Nat) (f : Cluster → Cluster) : State := { s with clusters := s.clusters.modify c f }

/-- Does cluster 16 stand in for another (R657)? -/
def standsIn (s : State) : Bool := s.standin != 0x1F

/-- Is a cluster there for row work (R27, R657)? -/
def inService (s : State) (c : Nat) : Bool :=
  !(s.cluster c).retired && (if c = 16 then s.standsIn else decide (c < s.grade) && s.standin.toNat != c)

/-- Does a cluster take row work now? One under assay takes none, and cluster 16 covers for it (R658). -/
def takesWork (s : State) (c : Nat) : Bool :=
  match s.assay.running with
  | none => s.inService c
  | some k => if c = 16 then k != 16 && !(s.cluster 16).retired && (s.inService 16 || s.inService k) else s.inService c && c != k

/-- The active clusters. -/
def activeClusters (s : State) : List Nat := (List.range 17).filter s.takesWork

/-- The clusters that are left in service (R657). -/
def leftClusters (s : State) : List Nat := (List.range 17).filter s.inService

/-- The logical lane that a physical lane serves (R656): itself, or what its spare entry names; none where another lane has taken
its place. Entry k of the spare map is that of physical lane 256 + k; of two for one logical lane the later stands. -/
def logicalLane (s : State) (c lane : Nat) : Option Nat :=
  let es := (s.cluster c).spare.zipIdx
  let used := fun (l : Nat) => (es.filter (fun p => p.1.getLsbD 8 && bits p.1.toNat 7 0 == l)).getLast?.map (·.2)
  if lane < 256 then (if (used lane).isSome then none else some lane)
  else match (s.cluster c).spare[lane - 256]? with
    | some e => if e.getLsbD 8 && used (bits e.toNat 7 0) == some (lane - 256) then some (bits e.toNat 7 0) else none
    | none => none

/-- The lowest free spare of a cluster. -/
def freeSpare (s : State) (c : Nat) : Option Nat := (s.cluster c).spare.findIdx? (fun e => !e.getLsbD 8)

/-- A finding about a cluster: SEQ and ADDR as R642 and R660 give them. -/
def clusterFinding (s : State) (source unit c : Nat) : Finding :=
  finding source unit (s.cluster c).workedPub (s.cluster c).suspectFrom

/-- A cluster fails (R657): cluster 16 replaces it, or it retires. -/
def failCluster (s : State) (c : Nat) : State :=
  if !s.inService c && !(c == 16 && !(s.cluster 16).retired) then s
  else
    let f := s.clusterFinding Src.clusterFail c c
    if c != 16 && !(s.cluster 16).retired && !s.standsIn then
      ({ s with standin := BitVec.ofNat 5 c }).incident f 3
    else
      let s1 := s.modCluster c (fun k => { k with retired := true })
      let s2 := if c = 16 && s1.standsIn then
          ({ s1 with standin := 0x1F }).modCluster s1.standin.toNat (fun k => { k with retired := true }) else s1
      if s2.leftClusters.isEmpty then s2.incidentHigh f 4 6 else s2.incident f 4

/-- A physical lane is in error (R656). -/
def failLane (s : State) (c lane : Nat) : State :=
  match s.logicalLane c lane with
  | none => s
  | some l =>
    match s.freeSpare c with
    | some k =>
      let s1 := s.modCluster c (fun x => { x with spare := x.spare.set k (BitVec.ofNat 16 (l + 256)) })
      s1.incident (s.clusterFinding Src.laneAssay (c * 512 + lane) c) 2
    | none => s.failCluster c

/-- The outcome of one cluster's assay (R659, R660, R665). -/
def assayed (s : State) (r : AssayRes) : State :=
  let ok := r.lanes.isEmpty && !r.shared
  if ok then s.modCluster r.cluster (fun k => { k with passed := true, suspectFrom := 0, workedPub := 0 })
  else
    let s1 := s.modCluster r.cluster (fun k => { k with passed := false })
    if r.shared then s1.failCluster r.cluster else r.lanes.foldl (fun s l => s.failLane r.cluster l) s1

end State

/-- ASSAY_START (R658, R661): the next cluster's assay begins; a forced one goes first. -/
def execAssayStart (s : State) : Res :=
  if s.assay.running.isSome || s.start.active || s.shut then .next s
  else
    match s.assay.forced with
    | some c =>
      let s1 := { s with assay := { s.assay with forced := none, running := some c } }
      .next (s1.modCluster c (fun k => { k with gated := false }))
    | none =>
      if bits s.regs.assayCtl.toNat 15 0 = 0 then .next s
      else
        let c := s.assay.next
        let s1 := { s with assay := { s.assay with next := (c + 1) % 17, running := some c } }
        .next (s1.modCluster c (fun k => { k with gated := false }))

/-- ASSAY_COMPLETE (R656 to R660): the running assay ends; at the start of a round the Draw has been assayed too. -/
def execAssayComplete (r : AssayRes) (drawOk : Bool) (s : State) : Res :=
  if s.assay.running = some r.cluster then
    let s1 := ({ s with assay := { s.assay with running := none } }).assayed r
    .next (if r.cluster = 0 && !drawOk then s1.incident (finding Src.drawFail 0 0 0) 6 else s1)
  else .next s

end Sys2Proof.Machine
end

