-- ==== Sys2Proof/Machine/Flags.lean ====
section
/-!
DEFINITION. What a descriptor counts and flags: the census over its elements (R127 to R129) and the IEEE flags of a strict
descriptor (R175 to R177).
-/
namespace Sys2Proof.Machine
open Sys2Proof Sys2Proof.Machine.Num

namespace Flags

/-- The counts of one row's elements: those made on the way to narrowing and those of the narrowing, each counter at most once
for an element (R127). A masked element counts nothing (R128). -/
def rowMasks (cuts : List (Option Cut)) (cns : List Nat) : List Nat :=
  (cuts.zip cns).filterMap (fun p => p.1.map (fun c => c.cns ||| p.2))

/-- The counts of a strict element: an overflow in rounding, a nonzero result that became a zero (R127, R175). -/
def strictMask (r : Fv) (fl : Nat) : Nat :=
  (if fl &&& Strict.fOVF != 0 then cOVF else 0) ||| (if r.isZero && fl &&& Strict.fINX != 0 then cUND else 0)

/-- The IEEE flags of a descriptor: the OR over all its elements (R177). -/
def orAll (fs : List Nat) : Nat := fs.foldl (· ||| ·) 0

end Flags
end Sys2Proof.Machine
end

