-- ==== Sys2Proof/Machine/RowOps.lean ====
section
/-!
DEFINITION. The row operations on one row, once its total or state is known (R294 to R326): RMSN, SMAX, LSMAX, ROWRED,
ROWSTAT and SCAN.
-/
namespace Sys2Proof.Machine
open Sys2Proof Sys2Proof.Machine.Num

/-- What a row operation is computed under: the output path, the family of the row's elements, the exponential's banks
and the banks of the S5 functions that it evaluates. -/
structure RowCtx where
  x : Ctx
  fam : RowFam
  soft : Red.SoftCtx
  s5 : List (Nat × BankImg)
deriving DecidableEq, Repr

/-- The result of one row: for every tile column a value or none (masked), and counts of the row itself. -/
structure RowOut where
  els : List (Option Cut)
  cns : List Nat
deriving DecidableEq, Repr

namespace Row

/-- The positions of a row, in column order. -/
def cells (cs : List Chunk) : List (Option El) := cs.flatMap (·.els)

/-- A row with no unmasked element: +0 at every position, one MASKED_ROW (R297). -/
def zeroRow (x : Ctx) (cs : List Chunk) : RowOut :=
  let z : Nv := if x.o.fmt.isL then .log (L36.zeroS false) else .lin Fv.zero
  ⟨(cells cs).map (fun _ => some ⟨z, 0⟩), [cMROW]⟩

def retryMasks (n : Nat) : List Nat := List.replicate n cRETRY

/-- An S5 function of a row operation under COMPAT_GEN = 5. -/
def s5 (c : RowCtx) (f : Fn) (v : Fv) : Fv × Nat :=
  let s := (f.s5Slot).getD 0
  let b := ((c.s5.find? (fun p => p.1 == s)).map (·.2)).getD (.rom s)
  let r := Lane.evalS5 f b s v
  (r.lin, r.cns)

/-- The 48-bit significand of an unrounded value, without its sticky bit. -/
def top48 : Fv → Fv
  | .fin s m e => let n := Nat.log2 m + 1; if n ≤ 48 then .fin s m e else .fin s (m >>> (n - 48)) (e + (n - 48 : Nat))
  | x => x

/-- The L36 image of v in RMSN (R303). -/
def rmsLog (c : Conv) (v : Fv) : L36 :=
  match v with
  | .fin _ m _ =>
    if m = 0 then L36.zeroS false
    else
      let t := top48 v
      L36.ofMag false (v.expo * 2 ^ 24 + (Lane.tol c (Fv.rne32 (t.scale (-v.expo)))).mag)
  | .inf _ => L36.infS false
  | .nan => L36.nan

/-- The fields of RMSN that a row reads. -/
structure Rms where
  eps : Nat
  gamma : Option (List Nat)
  res : Bool
deriving DecidableEq, Repr

/-- An FP32 field or vector element as an input: a subnormal is a zero of its sign under COMPAT_GEN = 5 (R178). -/
def in32 (c5 : Bool) (w : Nat) : Fv := if c5 then Lane.c5In (-126) (Fv.of32 w) else Fv.of32 w

/-- γ of a tile column (R299). -/
def gammaAt (c5 : Bool) (r : Rms) (col : Nat) : Fv :=
  match r.gamma with | some g => in32 c5 (g.getD col 0) | none => Fv.one

/-- EPS, where −0 is read as +0 (R298). -/
def epsOf (c5 : Bool) (r : Rms) : Fv := let e := in32 c5 r.eps; if e.isZero then Fv.zero else e

/-- RMSN of a row whose total is t under k (R303 to R307), where `cn` are the UNDERFLOW counts of the total's additions; the
second part is the RMS side output with its count. A flushed step of the row value counts at each element that it reaches
(R179, log 81). -/
def rmsn (c : RowCtx) (p : Rms) (t : Fv) (k : Int) (n cn : Nat) (cs : List Chunk) : RowOut × Fv × Nat :=
  let x := c.x
  let conv := x.conv
  let ms := if x.c5 then Lane.c5Op (Fv.div t (Fv.ofNat n)) else (Fv.div32 t (Fv.ofNat n), 0)
  let eps := epsOf x.c5 p
  let v5 := if x.c5 then Lane.c5Op (Fv.add ms.1 eps) else (Fv.trunc48 (Fv.add (ms.1.scale (2 * k)) eps), 0)
  let v := v5.1
  let r5 := s5 c .rsqrt v
  let rowCn := if x.c5 then cn ||| ms.2 ||| v5.2 ||| r5.2 else 0
  let lv := rmsLog conv v
  let r := lv.rsqrt
  let rk := Lane.refine (Lane.corrRsqrt (top48 v)) (x.passes - 1) (Lane.froml conv r)
  let one := fun (col : Nat) (e : El) =>
    let g := gammaAt x.c5 p col
    let cut : Cut :=
      if v.isZero && g.isFin then outZero (e.x.sign != g.sign)
      else if v.isZero then ⟨.lin .nan, 0⟩
      else if x.c5 then
        let a := Lane.c5Op (Fv.mul e.x r5.1)
        let b := Lane.c5Op (Fv.mul a.1 g)
        let o := Path.outU x b.1
        ⟨o.v, o.cns ||| a.2 ||| b.2⟩
      else if x.passes ≤ 1 || !lv.isFin then
        let lx := if p.res then Lane.tol conv e.x else e.img.getD (Lane.tol conv e.x)
        Path.outL x (L36.mul (L36.mul lx r) (Lane.tol conv g))
      else
        -- x_i is the exact image of an L-family element (R305), taken out of the log form in the same pass
        let xi := match e.img with | some z => if p.res then e.x else Fv.pr (Lane.fromlK conv x.passes z) | none => e.x
        Path.outU x (Fv.trunc48 (Fv.pmul (Fv.pmul xi rk) g))
    Cut.mk cut.v (cut.cns ||| e.cns ||| rowCn ||| (if x.c5 then (Red.sq5 e).2 else 0))
  let els := (cells cs).mapIdx (fun i e => e.map (one i))
  let rms := if x.c5 then (let q := s5 c .sqrt ms.1; (q.1, q.2 ||| cn ||| ms.2))
             else (Lane.froml conv ((Lane.tol conv ms.1).sqrt.addInt k), 0)
  (⟨els, []⟩, if v.isZero then (Fv.zero, rms.2) else rms)
where
  outZero (s : Bool) : Cut := Path.outU { c.x with c5 := false } (Fv.zeroS s)

/-- ln S in the unrounded form (R309, R310), with the UNDERFLOW count of the S5's logarithm. -/
def lnS (c : RowCtx) (s : Fv) : Fv × Nat :=
  if c.x.c5 then s5 c (.log true) s else (Lane.logF c.x.conv true c.x.passes s, 0)

/-- One probability from an unmasked finite element (R309, R310, R312). -/
def prob (c : RowCtx) (m s xv : Fv) : Cut :=
  let x := c.x
  let d := Fv.sub xv m
  if x.c5 then
    let d5 := Lane.c5Op d
    let e := s5 c (.exp false) d5.1
    let p := Lane.c5Op (Fv.div e.1 s)
    let o := Path.outU x p.1
    ⟨o.v, o.cns ||| d5.2 ||| e.2 ||| p.2⟩
  else
    let th := Lane.theta c.soft.t.fn (Lane.defTheta x.o.fmt)
    let dist := match RealFn.tail .exp d with | some (v, _) => v | none => Fv.one
    if Fv.lt dist (Fv.mul th s) then let o := Path.outU x Fv.zero; ⟨o.v, o.cns ||| cFLUSH⟩
    else
      let z := Lane.expL false d
      if x.passes ≤ 1 then Path.outL x (L36.mul z (Lane.tol x.conv s).recip)
      else
        let ce := { x.conv with froml := c.soft.t.fn }
        let num := if z.isFin then Lane.expCorr ce x.passes z (Lane.expArg false d) else Lane.froml ce z
        let rs := Lane.refine (Lane.corrRecip s) (x.passes - 1) (Lane.froml x.conv (Lane.tol x.conv s).recip)
        Path.outU x (Fv.trunc48 (Fv.pmul num rs))

/-- The counts of an element and of its row value: the term that it gave to a sum of the S5 flushes by itself, and so do the
steps of the sum (R179, log 81). -/
def withRow (e : El) (term cn : Nat) (o : Cut) : Cut := ⟨o.v, o.cns ||| e.cns ||| term ||| cn⟩

/-- A term of the S5's softmax sum under the maximum m. -/
def term5 (c : RowCtx) (m : Fv) (e : El) : Fv × Nat :=
  Red.softTerm (fun d => let q := Lane.c5Op d; let r := s5 c (.exp false) q.1; (r.1, q.2 ||| r.2)) m e

/-- The maximum of a stretch in its FP32 forms (R308, R814). -/
def maxOf (cs : List Chunk) : Fv := (Red.rowEls cs).foldl (fun a e => Fv.maxT a e.x) (.inf true)

/-- The count of the term of each element of a stretch of the S5's sum. -/
def termCns (c : RowCtx) (cs : List Chunk) (e : El) : Nat := if c.x.c5 then (term5 c (maxOf cs) e).2 else 0

/-- SMAX of a row whose state is (m, s), where `cn` are the counts of the state (R309 to R316). -/
def smax (c : RowCtx) (m s : Fv) (cn : Nat) (cs : List Chunk) : RowOut :=
  let x := c.x
  let one := fun (e : El) =>
    withRow e (termCns c cs e) cn
      (if m.isNan || s.isNan then Path.outU x .nan
       else if e.isInfS true then Path.outU x Fv.zero
       else if m == .inf false then
         (if s.isZero then Path.outU x .nan
          else if e.isInfS false then
            (if x.o.fmt.isL then Path.outL x (Lane.tol x.conv s).recip else Path.outU x (Fv.div Fv.one s))
          else Path.outU x Fv.zero)
       else prob c m s e.x)
  ⟨(cells cs).map (fun e => e.map one), if m == .inf true && s.isZero then [cMROW] else []⟩

/-- LSMAX of a row whose state is (m, s), where `cn` are the counts of the state (R309, R314 to R316). -/
def lsmax (c : RowCtx) (m s : Fv) (cn : Nat) (cs : List Chunk) : RowOut :=
  let x := c.x
  let ln := lnS c s
  let one := fun (e : El) =>
    withRow e (termCns c cs e) (cn ||| ln.2)
      (if m.isNan || s.isNan then Path.outU x .nan
       else if e.isInfS true then Path.outU x (.inf true)
       else if m == .inf false then
         (if s.isZero then Path.outU x .nan
          else if e.isInfS false then Path.outU x (Fv.sub Fv.zero ln.1) else Path.outU x (.inf true))
       else if x.c5 then
         let d := Lane.c5Op (Fv.sub e.x m)
         let r := Path.outU x (Fv.sub d.1 ln.1); ⟨r.v, r.cns ||| d.2⟩
       else Path.outU x (Fv.sub (Fv.sub e.x m) ln.1))
  ⟨(cells cs).map (fun e => e.map one), if m == .inf true && s.isZero then [cMROW] else []⟩

/-- logsumexp of a state (R317, R326): M + ln S, formed exactly. A state whose maximum is infinite only as an FP32 form has no
sum to go with it (log 88). -/
def lse (c : RowCtx) (m s : Fv) : Fv × Nat :=
  if m.isNan || s.isNan then (.nan, 0)
  else if m.isInf then (if s.isZero && !m.sign then .nan else m, 0)
  else let l := lnS c s; (Fv.add m l.1, l.2)

/-- The S5's softmax state of a stretch: the maximum first, then the sum of R292, with the counts of its additions. -/
def softS5 (c : RowCtx) (cs : List Chunk) : Red.St × Nat :=
  match Red.indexed cs with
  | [] => (Red.St.empty, 0)
  | es =>
    let m := maxOf cs
    let s := Red.sum5 (es.map (fun p => (p.1, (term5 c m p.2).1)))
    (⟨some s.1, m⟩, s.2)

/-- The order of exact images in a maximum: −0 below +0 (R317). -/
def imgLt (a b : L36) : Bool := L36.lt a b || (a.isZero && b.isZero && a.neg && !b.neg)

/-- The extreme of a row (R317, R318): the element itself, so that an exact image survives. -/
def extreme (op : Nat) (es : List El) : Option El :=
  let better := fun (a b : El) =>
    match a.img, b.img with
    | some p, some q =>
      let p' := if op = 4 then { p with neg := false } else p
      let q' := if op = 4 then { q with neg := false } else q
      if op = 3 then imgLt q' p' else imgLt p' q'
    | _, _ =>
      let p := if op = 4 then a.x.abs else a.x
      let q := if op = 4 then b.x.abs else b.x
      if op = 3 then (Fv.lt q p || (Fv.eqv p q && q.sign && !p.sign)) else (Fv.lt p q || (Fv.eqv p q && p.sign && !q.sign))
  match es with
  | [] => none
  | e :: r => some (r.foldl (fun a b => if better a b then b else a) e)

/-- The value of an extreme on the output path. -/
def extremeOut (x : Ctx) (op : Nat) (e : El) : Cut :=
  match e.img with
  | some z =>
    let z := if op = 4 then { z with neg := false } else z
    Path.outL x z
  | none =>
    let v := if op = 4 then e.x.abs else e.x
    if x.o.fmt.isL then ⟨.log (Path.subT x.o (Path.clipL x.conv x.clip (Lane.tol x.conv v))), 0⟩ else Path.outU x v

/-- The value of a row's extreme as the FP32 number that travels between positions. -/
def extremeAcc (op : Nat) (es : List El) : Acc :=
  if es.any (fun e => e.x.isNan) then .num .nan
  else match extreme op es with
    | none => .empty
    | some e => .num (if op = 4 then e.x.abs else e.x)

/-- ROWRED's value for a row with no unmasked element (R297), without the clip (R804). -/
def redIdentity (x : Ctx) (op : Nat) : Nv :=
  let lin := fun (v : Fv) => if x.o.fmt.isL then
      Nv.log (match v with | .inf s => L36.infS s | v => L36.zeroS v.sign) else Nv.lin v
  match op with
  | 2 => lin (.inf true)
  | 3 => lin (.inf false)
  | 5 => lin (.inf true)
  | _ => lin Fv.zero

/-- The 32-byte record of ROWSTAT (R320, R322, R324), with the UNDERFLOW counts of its own two divisions and products under
COMPAT_GEN = 5. A record is no output element: a MEAN or VAR beyond the range of FP32 is written as the infinity of R83's
rounding, and the output reference's SAT bit takes no part (log 88). -/
def statRecord (c5 : Bool) (es : List El) (vsp : List Fv) (v : Option Red.Vst) (k : Int) (retries corr : Nat) : List Byte × Nat :=
  let n := match v with | some s => s.n | none => es.length
  let nan := es.any (fun e => e.x.isNan)
  let sp := Red.spec vsp
  let b32 := fun (f : Fv) => toBytes 4 (Fv.to32 (Fv.rne32 f))
  match v with
  | none => (b32 Fv.zero ++ b32 Fv.zero ++ b32 (.inf false) ++ b32 (.inf true) ++ b32 Fv.zero ++ toBytes 4 0 ++ zeroBytes 6 ++ toBytes 2 2, 0)
  | some s =>
    let mean := match sp with
      | .nan | .both => (Fv.nan, 0) | .inf g => (Fv.inf g, 0) | .plain => Red.stepV c5 (s.mu.scale k)
    let short := n ≤ corr
    let var := match sp with
      | .plain => if short then (Fv.zero, 0) else Red.stepV c5 (Fv.div (s.m2.scale (2 * k)) (Fv.ofNat (n - corr)))
      | _ => (Fv.nan, 0)
    let ext := fun op => if nan then Fv.nan else match extreme op es with
      | none => if op = 3 then Fv.inf false else if op = 2 then Fv.inf true else Fv.zero
      | some e => if op = 4 then e.x.abs else e.x
    (b32 mean.1 ++ b32 var.1 ++ b32 (ext 3) ++ b32 (ext 2) ++ b32 (ext 4) ++ toBytes 4 n ++
      toBytes 2 (min 0xFFFF (es.filter (fun e => e.x.isNan)).length) ++
      toBytes 2 (min 0xFFFF (es.filter (fun e => e.x.isInf)).length) ++
      toBytes 2 (ofSigned 16 k) ++ toBytes 2 (b2n (retries != 0) + (if short then 4 else 0)), mean.2 ||| var.2)

/-- The structure of a scan (R325, R326): inside a chunk `step` takes one element after the other; chunk totals combine within
a segment and segment totals across segments, from the incoming value `gs0`; every element is combined with its chunk's offset.
`tots` holds the segment totals that the row's context has delivered (R502); a later segment's is formed here. Each position
holds its output value with the UNDERFLOW counts of its own steps. -/
def scanWith {σ : Type} (none' : σ) (step : σ → El → σ × Nat) (cmb : σ → σ → σ × Nat) (gs0 : σ) (tots : List σ) (cs : List Chunk) :
    List (Option (σ × Nat)) × σ :=
  let chunk := fun (ch : Chunk) =>
    ch.els.foldl (fun (st : σ × List (Option (σ × Nat))) e =>
      match e with
      | none => (st.1, st.2 ++ [none])
      | some e => let p := step st.1 e; (p.1, st.2 ++ [some p])) (none', [])
  let seg := fun (gs : σ) (xs : List Chunk) =>
    xs.foldl (fun (st : σ × List (Option (σ × Nat))) ch =>
      let l := chunk ch
      let off := (cmb gs st.1).1
      ((cmb st.1 l.1).1, st.2 ++ l.2.map (fun o => o.map (fun q => let p := cmb off q.1; (p.1, q.2 ||| p.2)))))
      (none', [])
  let r := (Red.segments cs).zipIdx.foldl (fun (st : σ × List (Option (σ × Nat))) g =>
    let q := seg st.1 g.1.2
    ((cmb st.1 (tots.getD g.2 q.1)).1, st.2 ++ q.2)) (gs0, [])
  (r.2, r.1)

/-- The prefix sums of a row from the incoming running sum (R325). -/
def scanSum (c5 : Bool) (gs0 : Option Fv) (tots : List (Option Fv)) (cs : List Chunk) : List (Option (Option Fv × Nat)) × Option Fv :=
  let cmb := fun (a b : Option Fv) => if c5 then Red.comb5 (a, 0) b else (Red.comb a b, 0)
  scanWith none (fun a e => cmb a (some e.x)) cmb gs0 tots cs

/-- The log-cumulative states of a row from the incoming state (R326). -/
def scanLse (c : Red.SoftCtx) (gs0 : Red.St) (tots : List Red.St) (cs : List Chunk) : List (Option (Red.St × Nat)) × Red.St :=
  scanWith Red.St.empty (fun st e => Red.chunkStep c st [some e]) (Red.merge c) gs0 tots cs

end Row
end Sys2Proof.Machine
end

