-- ==== Sys2Proof/Machine/Upd.lean ====
section
/-!
DEFINITION. The optimiser step of UPD on one element (R556 to R559, R565 to R568).
-/
namespace Sys2Proof.Machine
open Sys2Proof Sys2Proof.Machine.Num

/-- The parameter record (R562), FP32 fields. -/
structure UParam where
  lr : Nat
  b1 : Nat
  c1 : Nat
  b2 : Nat
  c2 : Nat
  eps : Nat
  wdc : Nat
  bc1 : Nat
  bc2 : Nat
  gscale : Nat
deriving DecidableEq, Repr

def UParam.ofBytes (b : List Byte) : UParam :=
  let f := fun i => field b (4 * i) 4
  ⟨f 0, f 1, f 2, f 3, f 4, f 5, f 6, f 7, f 8, f 9⟩

/-- A state record's fields (R556). -/
structure URec where
  w : Nat
  m : Nat
  v : Nat
  x : Nat
deriving DecidableEq, Repr

def URec.ofBytes (b : List Byte) : URec := ⟨field b 0 4, field b 4 4, field b 8 4, field b 12 2⟩

def URec.toBytes (r : URec) : List Byte :=
  Sys2Proof.toBytes 4 r.w ++ Sys2Proof.toBytes 4 r.m ++ Sys2Proof.toBytes 4 r.v ++ Sys2Proof.toBytes 2 r.x ++ zeroBytes 2

namespace Upd

/-- The exponent of ulp32 of an FP32 magnitude (R557). -/
def ulpExp (w : Fv) : Int := if w.isFinNz then max w.expo (-126) - 23 else -149

/-- The master value of W and X (R557). -/
def master (w x : Nat) : Fv :=
  match Fv.of32 w with
  | .fin s m e =>
    let wv : Fv := .fin s m e
    let ext : Fv := .fin s x (ulpExp wv - 16)
    if x = 0 then wv else if m = 0 then ext else Fv.add wv ext
  | v => v

/-- Rounding to the master grid (R558). -/
def rneMaster (t : Fv) : Fv := if t.isZero then Fv.zero else Fv.roundTo 40 (-126) 127 .rne t

/-- W′ and X′ of a new master value (R559). -/
def split (mu : Fv) : Nat × Nat :=
  match mu with
  | .fin s m e =>
    let w := Fv.rz32 (.fin s m e)
    match Fv.sub (.fin false m e) w.abs with
    | .fin _ d q => (Fv.to32 w, (steps d q (ulpExp w - 16)).n)
    | _ => (Fv.to32 w, 0)
  | v => (Fv.to32 v, 0)

/-- The copy's value before narrowing (R567). -/
def copyNv (x : Ctx) (mu : Fv) : Nv := (Path.outU { x with clip := none } mu).v

/-- One element's result: the record, the value of its copy, and the counts of R568. -/
structure Res where
  rec' : URec
  copy : Nv
  cns : Nat
deriving DecidableEq, Repr

/-- The step of R565 on a live element. `x` is the context of the copy; `f32` narrows nothing and writes FP32. -/
def elem (x : Ctx) (sqrtUse : FnUse) (p : UParam) (wd : Nat) (bc : Bool) (g : El) (r : URec) : Res :=
  let f32 : Ctx := { x with o := ORef.plain .fp32, clip := none }
  let v32 := fun c => Fv.of32 c
  let mu := master r.w r.x
  let g0 := Fv.mul32 (v32 p.gscale) g.x
  let g1 := if wd = 2 then Fv.rne32 (Fv.add g0 (Fv.mul (v32 p.wdc) mu)) else g0
  let m1 := Fv.rne32 (Fv.add (Fv.mul (v32 p.b1) (v32 r.m)) (Fv.mul (v32 p.c1) g1))
  let v1 := Fv.rne32 (Fv.add (Fv.mul (v32 p.b2) (v32 r.v)) (Fv.mul (v32 p.c2) (Fv.mul g1 g1)))
  let mh := if bc then Fv.mul32 m1 (v32 p.bc1) else m1
  let vh := if bc then Fv.mul32 v1 (v32 p.bc2) else v1
  let sq := Fv.rne32 (Lane.eval .sqrt (Path.tabOf x sqrtUse) x.passes Fv.zero vh none).lin
  let d := Fv.add32 sq (v32 p.eps)
  let pl := fun (v : Fv) => El.mk v none v 0x7F 0
  let q := Path.product f32 true (pl mh) (pl d)
  let u := Fv.rne32 (match q.v with | .log z => Lane.froml x.conv z | .lin v => v)
  let t := Fv.sub mu (Fv.mul (v32 p.lr) u)
  let t := if wd = 1 then Fv.sub t (Fv.mul (v32 p.wdc) mu) else t
  let mu1 := rneMaster t
  let w := split mu1
  let spill := t.isFin && mu1.isInf
  let nan := mu1.isNan || m1.isNan || v1.isNan
  ⟨⟨w.1, Fv.to32 m1, Fv.to32 v1, w.2⟩, copyNv x mu1, g.cns ||| (if spill then cOVF else 0) ||| (if nan then cNAN else 0)⟩

/-- A masked element: its record as it was read, and a copy of its master value (R566). -/
def masked (x : Ctx) (r : List Byte) : List Byte × Nv := (r, copyNv x (master (URec.ofBytes r).w (URec.ofBytes r).x))

end Upd
end Sys2Proof.Machine
end

