-- ==== Sys2Proof/Machine/Operands.lean ====
section
/-!
DEFINITION. Operands of the data operations: the banks that each read uses (R205, R397, R806, R813), input items (R601) and
their capture (R454 to R457), tiles, live and padded positions (R471 to R474, R493), elements (R410), and narrowed tiles (R477).
-/
namespace Sys2Proof.Machine
open Sys2Proof Sys2Proof.Machine.Num

-- Positions ----------------------------------------------------------------------------------------------------------

/-- Bit i of a mask; without a mask every position is live (R466, R472). -/
def maskBit (mk : Option (List Byte)) (i : Nat) : Bool :=
  match mk with
  | none => true
  | some b => (b.getD (i / 8) 0).getLsbD (i % 8)

/-- Did the descriptor of a tile produce a position (R493)? -/
def Tile.madeAt (t : Tile) (r c : Nat) : Bool := (t.made.getD r []).getD c false

namespace Member

/-- The extents of the elements that a descriptor works on: its bounds, or its plan under PAD_EN (R473). -/
def tileRows (m : Member) : Nat := if m.bytes.padEn then m.bytes.planRows else m.rows
def tileCols (m : Member) : Nat := if m.bytes.padEn then m.bytes.planCols else m.cols

/-- Is a position inside the run-time bounds? -/
def inside (m : Member) (r c : Nat) : Bool := decide (r < m.rows) && decide (c < m.cols)

/-- Is a position unmasked (R471, R473, R493)? `pred` is the tile that a fused descriptor consumes. -/
def live (m : Member) (pred : Option Tile) (r c : Nat) : Bool :=
  (match pred with | some t => t.madeAt r c | none => true) &&
    (if m.inside r c then
      (match m.shape with | some q => maskBit q.rmask r && maskBit q.cmask c | none => true)
    else m.bytes.padEn)

/-- The live positions of a row. -/
def liveRow (m : Member) (pred : Option Tile) (r : Nat) : List Bool := (List.range m.tileCols).map (m.live pred r)

/-- The generation at which a descriptor reads a slot that neither FGEN nor AGEN governs (R397, R398, R813). -/
def dfltGen (m : Member) (slot : Nat) : Nat :=
  if m.bytes.curAll then ((m.reads.find? (fun p => p.1 == slot)).map (·.2)).getD 0 else 0

end Member

-- Elements -----------------------------------------------------------------------------------------------------------

/-- One element as the lanes see it (R71, R178, R410). -/
def elOf (c5 : Bool) (cv : Conv) (f : Fmt) (t : Nat) (tab : List Nat) (sc code : Nat) : El :=
  match f.fam with
  | .ieee =>
    let x := Elem.value f [] code
    let y := if c5 then Lane.c5In (Path.emin f) x else x
    ⟨y, none, y, 0x7F, if x.isNan then cNAN else 0⟩
  | .log =>
    let z := Elem.lmag f sc code t
    let x := Fv.rne32 (Lane.froml cv z)
    ⟨x, some z, x, sc, if z.isNan then cNAN else 0⟩
  | .scaled =>
    let v := Elem.value f tab code
    let x := Elem.decode f tab sc code t
    ⟨x, none, v, sc, if x.isNan then cNAN else if v.isFin && x.isInf then cOVF else 0⟩

/-- A padded element: the channel's FP32 value as its decoded input (R474). -/
def padEl (c5 : Bool) (cv : Conv) (f : Fmt) (v : Nat) : El :=
  let x := Fv.of32 v
  let y := if c5 then Lane.c5In (-126) x else x
  ⟨y, if f.isL then some (Lane.tol cv y) else none, y, 0x7F, if x.isNan then cNAN else 0⟩

/-- A row of an operand: an element at every unmasked position of the extents. -/
def rowEls (c5 : Bool) (cv : Conv) (m : Member) (pred : Option Tile) (t : Tile) (r : Nat) : List (Option El) :=
  let codes := t.rows.getD r []
  let scs := t.scales.getD r []
  (m.liveRow pred r).mapIdx (fun c lv =>
    if lv then
      some (if m.inside r c then elOf c5 cv t.fmt t.t t.tab (scs.getD (c / 32) 0x7F) (codes.getD c 0) else padEl c5 cv t.fmt m.padVal)
    else none)

/-- A row in chunks by logical index (R255, R424). -/
def chunksOf (m : Member) (els : List (Option El)) : List Chunk := (cut 32 els).mapIdx (fun k e => ⟨8 * m.bytes.colOff + k, e⟩)

-- Banks --------------------------------------------------------------------------------------------------------------

namespace State

/-- The tables of a member's conversion steps (R806). A program's TOL and FROML steps and its final conversion read the same
generations, which no rule names for an operation outside the L family: generation 0 then, unchecked and unpinned, and the
current one under CUR_ALL only where an L-family tensor is named (log 88). -/
def convOf (s : State) (m : Member) : Conv :=
  ⟨s.imgOf 0 (m.dfltGen 0), s.imgOf 1 (m.dfltGen 1), s.imgOf 2 (m.dfltGen 2)⟩

/-- A function with its bank at a generation, or with its program (R180, R205, R222, R408). -/
def fnUse (s : State) (m : Member) (f : Fn) (gen : Nat) : FnUse :=
  if m.compat = 5 then ⟨f, s.imgOf ((f.s5Slot).getD 0) 0, []⟩
  else match f with
    | .prog i => ⟨f, s.imgOf 64 m.progGen, (progSlotRefs (s.progBytes m.progGen) i).map (fun p => (p.1, s.imgOf p.1 p.2))⟩
    | f => ⟨f, match f.slot with | some i => s.imgOf i gen | none => .img [], []⟩

/-- How a member forms softmax terms: slot 1 under FGEN (R813), the S5 exponential under COMPAT_GEN = 5. -/
def softOf (s : State) (m : Member) : Red.SoftCtx :=
  ⟨⟨s.convOf m, s.imgOf 1 m.fgen⟩, max 1 m.bytes.passes, if m.compat = 5 then some (s.imgOf 56 0) else none⟩

/-- The S5 slots that a member reads. -/
def s5Of (s : State) (m : Member) : List (Nat × BankImg) :=
  if m.compat = 5 then (m.bytes.s5Fns.filterMap (·.s5Slot)).map (fun i => (i, s.imgOf i 0)) else []

/-- A target of narrowing. -/
def orefOf (s : State) (m : Member) (r : TRef) (tab : List Nat) : ORef :=
  let d := m.bytes
  ⟨r.fmt, r.t, r.sat, if r.grad && d.stochastic then some (d.srBits r.fmt) else none, r.headroom, tab, d.tensorId, d.step, d.stream,
   d.elemBase, d.lrow, s.seals.drawKey.toNat⟩

end State

namespace Member

/-- A value table that the member has read. -/
def tab (m : Member) (off : Nat) : List Nat := ((m.tabs.find? (fun t => t.1 == off)).map (·.2)).getD []

/-- The clip bounds in force (R88). -/
def clip (m : Member) : Option (Nat × Nat) := if m.bytes.clipEn then some (m.bytes.clipLo, m.bytes.clipHi) else none

end Member

namespace State

/-- What every element of a member is computed under, for its primary output. -/
def ctxOf (s : State) (m : Member) : Ctx :=
  let r := (m.bytes.outRef).getD (m.bytes.tref 72)
  ⟨m.compat == 5, s.convOf m, max 1 m.bytes.passes, s.orefOf m r (m.tab 72), m.clip⟩

/-- The epilogue of a member (R87). -/
def epiOf (s : State) (m : Member) (inp : Inputs) : Epi :=
  ⟨if m.bytes.scaleEn then some m.bytes.scale else none, if m.bytes.biasEn then some inp.bias else none,
   m.bytes.actFn.map (fun f => s.fnUse m f m.agen)⟩

/-- The context of a row operation. -/
def rowCtxOf (s : State) (m : Member) (f : Fmt) (t : Nat) : RowCtx :=
  let fam := if m.compat = 5 || m.bytes.resEn then RowFam.ieee else match f.fam with | .ieee => .ieee | .log => .log | .scaled => .exact t
  ⟨s.ctxOf m, fam, s.softOf m, s.s5Of m⟩

end State

-- Input items --------------------------------------------------------------------------------------------------------

/-- The source of an input item: its kind, what tells it apart, and the stretches that it is read from, in order. -/
structure ItemSrc where
  kind : Nat
  key : Nat
  parts : List (Nat × Nat)
deriving DecidableEq, Repr

namespace Member

/-- Where an input item lies (R392, R432, R562, R601, R808). -/
def source (m : Member) (k : Nat × Nat) : ItemSrc :=
  let d := m.bytes
  let r := d.tref k.2
  let rs := List.range m.rows
  let vecCols := if d.padEn then d.planCols else m.cols
  let parts := match k.1 with
    | 0 => rs.map (fun i => ((d.addr (32 * r.eoff) + i * r.pitch) % 2 ^ 64, r.fmt.rowBytes m.cols))
    | 1 => rs.map (fun i => ((d.addr (8 * r.soff) + i * r.spitch) % 2 ^ 64, m.cols / 32))
    | 2 => d.vtRange r
    | 3 => match k.2 with
      | 0 => [(d.addr (32 * d.biasOff), 4 * vecCols)]
      | 1 => [(d.addr (32 * field d 116 4), 4 * vecCols)]
      | 2 => [(d.addr (32 * (d.tref 56).eoff), 4 * vecCols)]
      | _ => rs.map (fun i => (d.addr (32 * field d 56 4) + 4 * i * d.planCols, 4 * m.cols))
    | 4 => (d.shapeAddr, 32) :: (match m.shape with
        | some q =>
          (if q.rmask.isSome then [(field q.raw 8 8, ceilDiv q.rows 8)] else []) ++
            (if q.cmask.isSome then [(field q.raw 16 8, ceilDiv q.cols 8)] else [])
        | none => [])
    | 5 => rs.map (fun i => (d.partAddr k.2 + i * (d.tref 72).lp * 1024, 4 * m.cols))
    | _ => [(d.paramAddr, 64)]
  ⟨k.1, k.2, parts⟩

/-- Does a descriptor read an item? One with a zero shape reads no plane, vector or partial (R470), but the bias of its
padded positions (R473). -/
def readsItem (m : Member) (k : Nat × Nat) : Bool :=
  !m.zeroShape || k.1 == 2 || k.1 == 4 || k.1 == 6 || (m.bytes.padEn && k == (3, 0))

end Member

namespace State

/-- The bytes of an item as memory and staging show them now. -/
def readItem (s : State) (img : Image) (x : ItemSrc) : List Byte := x.parts.flatMap (fun p => s.rd img p.1 p.2)

/-- Does a stretch touch a resident word with an uncorrectable error (R644)? The staging address of such a word. -/
def badPart (s : State) (parts : List (Nat × Nat)) : Option Nat :=
  parts.findSome? (fun p =>
    let lo := max p.1 s.aper
    let hi := min (p.1 + p.2) (s.aper + s.resident * 65536)
    if lo < hi then s.ueIn (lo - s.aper) (hi - lo) else none)

/-- A read finds an uncorrectable error in a resident word (R644): the member completes with DATA_ERROR. -/
def stageFault (s : State) (seq a : Nat) : State :=
  (s.faultMember seq St.dataError).incident (finding Src.stageUe (a / 65536) seq (a % 65536)) 7

/-- The digests of items that a member has just read: one that differs from what a walk found is an S1 (R636). -/
def checkDigests (s : State) (seq : Nat) (ds : List Digest) : State :=
  match s.member? seq with
  | some m => ds.foldl (fun s d =>
      match m.seen.find? (fun e => e.ty == d.ty && e.item == d.item) with
      | some e => if e.digest = d.digest then s else s.incident (finding Src.replayDigest d.item seq seq) 0
      | none => s) s
  | none => s

-- Capture ------------------------------------------------------------------------------------------------------------

/-- Place for an entry of `n` data bytes in a capture area, and the area after it; one that does not fit is counted (R454, R456). -/
def capPlace (c : CapArea) (n : Nat) : CapArea × Option Nat :=
  let len := 64 + 64 * ceilDiv n 64
  if c.next + len ≤ c.len then ({ c with next := c.next + len }, some (c.addr + c.next))
  else ({ c with dropped := (c.dropped + 1) % 2 ^ 32 }, none)

/-- The data of a capture entry, padded to 64 bytes (R454). -/
def capData (bs : List Byte) : List Byte := bs ++ zeroBytes (64 * ceilDiv bs.length 64 - bs.length)

/-- The header of a capture entry (R455). -/
def capEntry (seq src len kind : Nat) : List Byte := toBytes 8 seq ++ toBytes 8 src ++ toBytes 8 len ++ toBytes 1 kind ++ zeroBytes 39

/-- Space for the entries of one member (R454, R456); without a capture area there is nothing to capture into (R457). -/
def reserveMember (s : State) (m : Member) : State :=
  let s := s.modMember m.seq (fun m => { m with capSet := true })
  match (s.ring m.ring).cap with
  | some c =>
    let sizes := (m.bytes.items.filter m.readsItem).map (fun k => ((m.source k).parts.map (·.2)).sum)
    let go := sizes.foldl (fun (a : CapArea × List (Option Nat)) n => let q := capPlace a.1 n; (q.1, a.2 ++ [q.2])) (c, [])
    ((s.modMember m.seq (fun m => { m with caps := go.2 })).modRing m.ring (fun r => { r with cap := some go.1 })).wr c.addr (capHead go.1)
  | none => s

/-- Capture space is reserved in waymark order, as far as the bounds of the issued members are known, once for each; a replay
captures nothing (R454, R457). -/
def reserveCaps (s : State) (ring : Nat) : State :=
  let gs := s.groups.filter (fun g => g.ring == ring && !g.outDone && !g.published && !g.dead)
  let todo := gs.flatMap (fun g => g.members.map (fun m => (g, m)))
  let known := todo.takeWhile (fun p => p.1.issued && !(p.2.bytes.capture && p.2.bytes.data && p.2.shape.isNone))
  known.foldl (fun s p =>
    if !p.2.bytes.capture || !p.2.bytes.data || p.2.capSet then s
    else if p.1.replay then s.modMember p.2.seq (fun m => { m with capSet := true })
    else s.reserveMember p.2) s

/-- Capture space that a member's bounds, or the end of a group before it, have let the block reserve. -/
def dueCaps (s : State) (seq : Nat) : State :=
  match s.member? seq with
  | some m => if m.bytes.capture && !m.capSet then s.reserveCaps m.ring else s
  | none => s

/-- The data of the capture entries of a member's items are written, once; each header waits for their write responses (R455). -/
def writeCaps (s : State) (m : Member) (items : List (ItemSrc × List Byte)) : State :=
  let todo := (m.caps.zip items).filterMap (fun p => p.1.map (fun a => (a, p.2)))
  let s1 := todo.foldl (fun s p => s.wr (p.1 + 64) (capData p.2.2)) s
  let head := fun (p : Nat × ItemSrc × List Byte) =>
    (p.1, capEntry m.seq (((p.2.1.parts.head?).map (·.1)).getD 0) p.2.2.length p.2.1.kind)
  s1.modMember m.seq (fun m => { m with caps := m.caps.map (fun _ => none), capHeads := m.capHeads ++ todo.map head })

/-- An accumulator stream, or what an attempt of an exchange has brought, is captured as one entry of KIND 5 when all of it is here
(the text under R603; log 38): it has no address, and its space is taken then. -/
def captureFlow (s : State) (m : Member) (bs : List Byte) : State :=
  match s.group? m.seq, (s.ring m.ring).cap with
  | some g, some c =>
    if !m.bytes.capture || g.replay then s
    else
      let q := capPlace c bs.length
      let s1 := (s.modRing m.ring (fun r => { r with cap := some q.1 })).wr c.addr (capHead q.1)
      match q.2 with
      | some a =>
        (s1.wr (a + 64) (capData bs)).modMember m.seq (fun m => { m with capHeads := m.capHeads ++ [(a, capEntry m.seq 0 bs.length 5)] })
      | none => s1
  | _, _ => s

-- Reading ------------------------------------------------------------------------------------------------------------

/-- The rows of a plane that has been read, as element codes. -/
def planeRows (f : Fmt) (m : Member) (bs : List Byte) : List (List Nat) :=
  (List.range m.rows).map (fun i => Elem.unpack f m.cols ((bs.drop (i * f.rowBytes m.cols)).take (f.rowBytes m.cols)))

/-- FP32 words of a string of bytes. -/
def words (bs : List Byte) : List Nat := (cut 4 bs).map ofBytes

/-- What a member's items hold, by kind. -/
def inputsOf (m : Member) (xs : List (ItemSrc × List Byte)) : Inputs :=
  let get := fun (k i : Nat) => ((xs.find? (fun x => x.1.kind == k && x.1.key == i)).map (·.2)).getD []
  let tile := fun (p : Nat × TRef) =>
    let sc := if p.2.fmt.scaled then
        (List.range m.rows).map (fun i => (((get 1 p.1).drop (i * (m.cols / 32))).take (m.cols / 32)).map BitVec.toNat) else []
    (p.1, Tile.mk p.2.fmt p.2.t (m.tab p.1) (planeRows p.2.fmt m (get 0 p.1)) sc [])
  let ins := m.bytes.inRefs.filter (fun p => !(p.1 = 56 && m.bytes.fuse))
  let part := fun (j : Nat) => Tile.mk .fp32 0x3F800000 [] (planeRows .fp32 m (get 5 j)) [] []
  let chain := if m.bytes.is .chain then cut (max 1 m.cols) (words (get 3 3)) else []
  ⟨ins.map tile, words (get 3 0), words (get 3 (if m.bytes.is .rmsn then 1 else 2)),
   if m.bytes.is .mcombine && m.bytes.srcMem then (List.range m.bytes.nSplit).map part else [], chain, []⟩

/-- Is a member ready for its operation: its group under way, its shape, tables and parameter record read, its capture space
reserved, the tile that it consumes produced, and no earlier writer of its ring ahead of its reads (R467, R500)? -/
def opReady (s : State) (seq : Nat) (o : Op) : Option (Group × Member) :=
  match s.group? seq, s.member? seq with
  | some g, some m =>
    let tabs := m.bytes.items.all (fun k => (k.1 != 2 && k.1 != 6 && k.1 != 4) || (m.kept k).isSome)
    let pred := !m.bytes.fuse || (match g.pred? seq with | some p => p.result.isSome | none => false)
    let caps := !m.bytes.capture || m.capSet
    if m.bytes.is o && g.issued && !g.dead && m.result.isNone && m.inputs.isNone && m.shape.isSome && tabs && pred && caps &&
        !s.inc.fenced && !s.readsWait m then some (g, m) else none
  | _, _ => none

/-- The tile that a fused member consumes (R395, R433). -/
def predTile (g : Group) (m : Member) : Option Tile :=
  if m.bytes.fuse then (g.pred? m.seq).bind (fun p => p.result.bind (·.tile)) else none

/-- Operand A, P or G of a member: the staged tile under FUSE, else what it has read. -/
def tileA (g : Group) (m : Member) (inp : Inputs) : Tile :=
  match predTile g m with
  | some t => t
  | none => ((inp.tiles.find? (fun p => p.1 == 56)).map (·.2)).getD ⟨.fp32, 0, [], [], [], []⟩

def tileAt (inp : Inputs) (off : Nat) : Tile :=
  ((inp.tiles.find? (fun p => p.1 == off)).map (·.2)).getD ⟨.fp32, 0, [], [], [], []⟩

/-- What a member reads: each item with its place, its source and its bytes, kept ones from the member (R601). -/
def readList (s : State) (img : Image) (m : Member) : List ((Nat × Nat) × ItemSrc × List Byte) :=
  (m.bytes.items.filter m.readsItem).map (fun k => let x := m.source k; (k, x, (m.kept k).getD (s.readItem img x)))

/-- A member reads its inputs: their digests are checked and recorded, their bytes captured (R601, R619, R636). -/
def readInputs (s : State) (img : Image) (m : Member) : State × Inputs :=
  let xs := s.readList img m
  let dig := fun (x : (Nat × Nat) × ItemSrc × List Byte) => m.itemDigest x.1 x.2.2
  let s1 := ((s.checkDigests m.seq ((xs.filter (fun x => (m.kept x.1).isNone)).map dig)).noteDigests m.seq (xs.map dig)).writeDigests m.seq true
  ((s1.writeCaps m (xs.map (·.2))).bump, inputsOf m (xs.map (·.2)))

/-- What a member's items hold now, without recording that they have been read. -/
def inputsNow (s : State) (img : Image) (m : Member) : Inputs := inputsOf m ((s.readList img m).map (·.2))

/-- The first resident word with an error among the items that a member is about to read. -/
def badInput (s : State) (m : Member) : Option Nat :=
  (m.bytes.items.filter (fun k => m.readsItem k && (m.kept k).isNone)).findSome? (fun k => s.badPart (m.source k).parts)

/-- A member's work is done: its result, its census and its flags stand. -/
def finishOp (s : State) (seq : Nat) (res : Result) (cns : List Nat) (ieee : Nat) : State :=
  s.modMember seq (fun m => { m with result := some res, census := Census.addAll Census.zero cns, ieee := ieee })

end State

-- Narrowed tiles -----------------------------------------------------------------------------------------------------

/-- A row of an output tile: codes, scales, the counts of its unmasked elements, and the counts of narrowing at every position. -/
structure NRow where
  codes : List Nat
  scales : List Nat
  cns : List Nat
  all : List Nat
deriving DecidableEq, Repr

/-- One row narrowed (R93 to R110), with the codes of its masked positions. -/
def narrowWith (o : ORef) (r : Nat) (fill : Nat → Option Int → Nat) (cuts : List (Option Cut)) : NRow :=
  let q := Rnd.row o r fill (cuts.map (fun c => c.map (·.v)))
  ⟨q.codes, q.scales, Flags.rowMasks cuts q.cns, q.cns⟩

/-- One row narrowed, masked positions with the fill code (R477). -/
def narrowRow (o : ORef) (r : Nat) (cuts : List (Option Cut)) : NRow :=
  narrowWith o r (fun _ _ => o.fmt.fillCode (Rnd.bFill o.tab)) cuts

/-- A tile from its rows and the positions that were produced. -/
def mkTile (o : ORef) (rows : List NRow) (made : List (List Bool)) : Tile :=
  ⟨o.fmt, o.t, o.tab, rows.map (·.codes), if o.fmt.scaled then rows.map (·.scales) else [], made⟩

/-- A tile of a descriptor that works by rows of elements, with its counts. -/
def buildTile (o : ORef) (m : Member) (pred : Option Tile) (row : Nat → List (Option Cut)) : Tile × List Nat :=
  let rs := (List.range m.tileRows).map (fun r => narrowRow o r (row r))
  (mkTile o rs ((List.range m.tileRows).map (m.liveRow pred)), rs.flatMap (·.cns))

end Sys2Proof.Machine
end

