-- ==== Sys2Proof/Machine/RowWork.lean ====
section
/-!
DEFINITION. One row of a row operation: what this position contributes to its total (R529), how contributions combine (R530,
R533), when an attempt is repeated (R284 to R287, R323, R534), and the row's outputs once its total is known (R294 to R326).
-/
namespace Sys2Proof.Machine
open Sys2Proof Sys2Proof.Machine.Num

-- Items --------------------------------------------------------------------------------------------------------------

namespace Item

def empty : Item := ⟨.empty, none, 0, false, false, false, 0, false, 0⟩

/-- A bare value. -/
def ofAcc (v : Acc) : Item := { empty with v := v }

/-- The special mean of ROWSTAT states that hold NaN or infinite elements (R324). -/
def specMean (vs : List Fv) : Fv :=
  match Red.spec vs with | .inf g => .inf g | .plain => Fv.zero | _ => .nan

def muOf : Acc → List Fv
  | .vst _ mu _ => [mu]
  | _ => []

def nOf : Acc → Nat
  | .vst n _ _ => n
  | _ => 0

/-- The value of two items together, with the UNDERFLOW counts of the step (R179). Where the elements of one of them are special
(R261, R324), what they give stands, whatever the finite elements of the other made. -/
def combV (op : AccOp) (c : Red.SoftCtx) (a b : Item) : Acc × Nat :=
  match a.v, b.v with
  | .empty, v => (v, 0)
  | v, .empty => (v, 0)
  | va, vb =>
    match op with
    | .sum => if a.nan && !b.nan then (va, 0) else if b.nan && !a.nan then (vb, 0) else Acc.combN .sum c va vb
    | .var =>
      if a.nan || b.nan then
        (.vst (nOf va + nOf vb) (specMean ((if a.nan then muOf va else []) ++ (if b.nan then muOf vb else []))) .nan, 0)
      else Acc.combN .var c va vb
    | op => Acc.combN op c va vb

def maxO (a b : Option Int) : Option Int :=
  match a, b with
  | none, b => b
  | a, none => a
  | some x, some y => some (max x y)

/-- Is a value infinite, or a NaN that an infinity has made? -/
def overV : Acc → Bool
  | .num v => !v.isFin
  | .vst _ mu m2 => !mu.isFin || !m2.isFin
  | _ => false

/-- ⊕ of a forward pass with what R533 carries. -/
def comb (op : AccOp) (c : Red.SoftCtx) (a b : Item) : Item :=
  let v := combV op c a b
  ⟨v.1, maxO a.emax b.emax, a.ncnt + b.ncnt, a.inf || b.inf || (!(a.nan || b.nan) && overV v.1), a.nan || b.nan, a.nz || b.nz, a.k, false,
   a.cns ||| b.cns ||| v.2⟩

def fold (op : AccOp) (c : Red.SoftCtx) (a : Item) (xs : List Item) : Item := xs.foldl (comb op c) a

end Item

namespace Desc

/-- The combining step of an operation that has one. -/
def accOp (d : Desc) : AccOp :=
  match d.op with
  | some .smax | some .lsmax => .soft
  | some .rowstat => .var
  | some .rowred => match d.f1 % 8 with | 2 => .max | 4 => .max | 3 => .min | 5 => .soft | _ => .sum
  | some .scan => if d.f1 % 2 = 1 then .soft else .sum
  | some .chain => match d.chainOp with | 1 => .max | 2 => .min | _ => .sum
  | _ => .sum

/-- Is the sum one of squares? -/
def squares (d : Desc) : Bool := d.is .rmsn || (d.is .rowred && d.f1 % 8 == 1)

/-- Do the messages of the exchange carry row records (R533)? -/
def rowRecords (d : Desc) : Bool := d.is .rmsn || d.is .rowstat || (d.is .rowred && d.f1 % 8 ≤ 1)

end Desc

-- The row's inputs ---------------------------------------------------------------------------------------------------

/-- A residual sum h_i as an element (R300). -/
def resEl (c5 : Bool) (a b : El) : El :=
  let h := Fv.add a.x b.x
  let r := if c5 then Lane.c5Op h else (Fv.rne32 h, 0)
  ⟨r.1, none, r.1, 0x7F, a.cns ||| b.cns ||| r.2⟩

/-- What the rows of a member are computed under. -/
structure RowEnv where
  m : Member
  rc : RowCtx
  a : Tile
  b : Tile
  pred : Option Tile
  gamma : List Nat
  cxs : List RowCx
deriving DecidableEq, Repr

def State.rowEnv (s : State) (g : Group) (m : Member) (inp : Inputs) : RowEnv :=
  let a := State.tileA g m inp
  ⟨m, s.rowCtxOf m a.fmt a.t, a, State.tileAt inp 88, State.predTile g m, inp.gamma, s.rowCtx.filter (fun c => c.seq == m.seq)⟩

namespace RowEnv

/-- The elements of a row, after the residual. -/
def els (e : RowEnv) (r : Nat) : List (Option El) :=
  let c5 := e.rc.x.c5
  let as := rowEls c5 e.rc.x.conv e.m e.pred e.a r
  if e.m.bytes.resEn then
    (as.zip (rowEls c5 e.rc.x.conv e.m e.pred e.b r)).map (fun p =>
      match p with
      | (some a, some b) => some (resEl c5 a b)
      | _ => none)
  else as

def chunks (e : RowEnv) (r : Nat) : List Chunk := chunksOf e.m (e.els r)

-- Contributions ------------------------------------------------------------------------------------------------------

/-- What R533 carries for a stretch of elements; `vals` are their values as R261 or R324 reads them. -/
def carry (e : RowEnv) (es : List El) (vals : List Fv) (v : Acc) (nz : Bool) (cns : Nat) : Item :=
  let special := Red.spec vals != .plain
  ⟨v, Red.emax e.rc.fam es, es.length, !special && Item.overV v, special, nz, 0, false, cns⟩

/-- The segment total of a sum (R256, R261). -/
def segSum (e : RowEnv) (k : Int) (cs : List Chunk) : Item :=
  let sq := e.m.bytes.squares
  let es := Red.rowEls cs
  let vals := es.map (Red.valFv e.rc.fam)
  let v := match Red.specTotal (Red.spec vals) sq with
    | some t => Acc.num t
    | none => Acc.ofO ((cs.map (Red.chunkTotal e.rc.x.conv e.rc.fam sq k)).foldl Red.comb none)
  e.carry es vals v false 0

/-- The segment state of ROWSTAT (R321, R324). -/
def segVar (e : RowEnv) (k : Int) (cs : List Chunk) : Item :=
  let es := Red.rowEls cs
  let c5 := e.rc.x.c5
  let vs := cs.filterMap (Red.chunkV c5 k)
  let st := vs.foldl (fun (a : Option Red.Vst × Nat) v =>
    let q := Red.mergeVO c5 a.1 (some v.st); (q.1, a.2 ||| q.2 ||| v.cns)) (none, 0)
  let vals := es.map (fun (x : El) => x.x)
  match Red.spec vals with
  | .plain => e.carry es vals (Acc.ofV st.1) (vs.any (·.nz)) st.2
  | _ => e.carry es vals (.vst es.length (Item.specMean vals) .nan) (vs.any (·.nz)) 0

/-- The contributions of this position to a row, in order (R529), under the scaling 2^-k. -/
def contrib (e : RowEnv) (k : Int) (cs : List Chunk) : List Item :=
  let d := e.m.bytes
  let segs := Red.segments cs
  let es := Red.rowEls cs
  let count := fun (xs : List Chunk) => (Red.rowEls xs).length
  match d.accOp with
  | .soft =>
    if d.is .scan then segs.map (fun g => { Item.ofAcc (Acc.ofSt (Row.scanLse e.rc.soft Red.St.empty [] g.2).2) with ncnt := count g.2 })
    else if e.rc.x.c5 then
      let q := Row.softS5 e.rc cs
      [{ Item.ofAcc (Acc.ofSt q.1) with ncnt := es.length, cns := q.2 }]
    else segs.map (fun g =>
      { Item.ofAcc (Acc.ofSt (g.2.foldl (fun r ch => (Red.chunkStep e.rc.soft r ch.els).1) Red.St.empty)) with ncnt := count g.2 })
  | .max => [{ Item.ofAcc (Row.extremeAcc (d.f1 % 8) es) with ncnt := es.length }]
  | .min => [{ Item.ofAcc (Row.extremeAcc (d.f1 % 8) es) with ncnt := es.length }]
  | .var => segs.map (fun g => e.segVar k g.2)
  | .sum =>
    if d.is .scan then segs.map (fun g => { Item.ofAcc (Acc.ofO (Row.scanSum e.rc.x.c5 none [] g.2).2) with ncnt := count g.2 })
    else if e.rc.x.c5 then
      let q := Red.rowSum5 d.squares cs
      [e.carry es [] (if es.isEmpty then .empty else .num q.1) false q.2]
    else segs.map (fun g => e.segSum k g.2)

/-- The next attempt's k, where an attempt's total calls for one (R284 to R286, R323, R534): none under COMPAT_GEN = 5 (R293), for
an operation without retries, for special elements, and after two retries. -/
def again (e : RowEnv) (tries : Nat) (t : Item) : Option Int :=
  let d := e.m.bytes
  if !d.rowRecords || e.rc.x.c5 || t.nan || 2 ≤ tries then none
  else match t.emax with
    | none => none
    | some em =>
      let sq := d.squares || d.is .rowstat
      let trig := match t.v with
        | .num v => t.inf || Red.trigger sq true v
        | .vst n mu m2 => t.inf || Red.triggerV t.nz ⟨n, mu, m2⟩
        | _ => false
      if trig then some (Red.retryK (tries + 1) em t.ncnt sq (t.inf || Item.overV t.v)) else none

/-- A row's total where one position holds the whole row: at most two retries. -/
def totalGo (e : RowEnv) (cs : List Chunk) : Nat → Nat → Int → Item × Nat
  | 0, tries, k => ({ Item.fold e.m.bytes.accOp e.rc.soft Item.empty (e.contrib k cs) with k := k }, tries)
  | n + 1, tries, k =>
    let t := { Item.fold e.m.bytes.accOp e.rc.soft Item.empty (e.contrib k cs) with k := k }
    match e.again tries t with
    | some k' => totalGo e cs n (tries + 1) k'
    | none => (t, tries)

def total (e : RowEnv) (cs : List Chunk) : Item × Nat := e.totalGo cs 2 0 0

end RowEnv

-- Outputs ------------------------------------------------------------------------------------------------------------

/-- The outputs of one row: elements of a tile, a value of a per-row output, a record, the RMS value, and counts of the row
itself. -/
structure RowRes where
  els : List (Option Cut)
  one : Option Cut
  bytes : List Byte
  rms : Option (Fv × Nat)
  cns : List Nat
deriving DecidableEq, Repr

namespace RowEnv

/-- The value of ROWRED for a row with unmasked elements (R287, R317, R318). `local'`: the row stands on this position alone. -/
def redValue (e : RowEnv) (es : List El) (t : Item) (local' : Bool) : Cut :=
  let x := e.rc.x
  let op := e.m.bytes.f1 % 8
  match t.v with
  | .num v =>
    if op ≤ 1 then
      let r := Path.outU x (v.scale (if op = 1 then 2 * t.k else t.k)); ⟨r.v, r.cns ||| t.cns⟩
    else if v.isNan || !local' then
      (if x.o.fmt.isL then ⟨.log (Path.subT x.o (Path.clipL x.conv x.clip (Lane.tol x.conv v))), 0⟩ else Path.outU x v)
    else match Row.extreme op es with
      | some b => Row.extremeOut x op b
      | none => Path.outU x v
  | .st s m => let l := Row.lse e.rc m s; let r := Path.outU x l.1; ⟨r.v, r.cns ||| l.2 ||| t.cns⟩
  | _ => ⟨Row.redIdentity x op, 0⟩

/-- What an element's own step of a ROWRED total counts under COMPAT_GEN = 5: its square, or its softmax term (R179). -/
def ownCns (e : RowEnv) (cs : List Chunk) (x : El) : Nat :=
  if !e.rc.x.c5 then 0
  else match e.m.bytes.f1 % 8 with
    | 1 => (Red.sq5 x).2
    | 5 => Row.termCns e.rc cs x
    | _ => 0

/-- The segment totals that a row's context has delivered, in segment order (R259, R502). -/
def delivered (e : RowEnv) (r : Nat) : List Acc := ((e.cxs.find? (fun c => c.row == r)).map (·.tots)).getD []

/-- A row of SCAN from the incoming sum or state (R325, R326, R502, R532). -/
def scanRow (e : RowEnv) (cs : List Chunk) (tots : List Acc) (inc : Acc) : List (Option Cut) :=
  let x := e.rc.x
  let es := Row.cells cs
  let fin := fun (p : Option Cut × Option El) => match p with
    | (some c, some a) => some (Cut.mk c.v (c.cns ||| a.cns))
    | _ => none
  let out := fun (v : Fv × Nat) => let r := Path.outU x v.1; Cut.mk r.v (r.cns ||| v.2)
  let cuts : List (Option Cut) :=
    if e.m.bytes.f1 % 2 = 1 then
      (Row.scanLse e.rc.soft inc.toSt (tots.map Acc.toSt) cs).1.map (Option.map (fun q =>
        let l := Row.lse e.rc q.1.m (q.1.s.getD Fv.zero); out (l.1, l.2 ||| q.2)))
    else (Row.scanSum x.c5 inc.toO (tots.map Acc.toO) cs).1.map (Option.map (fun q => out (q.1.getD Fv.zero, q.2)))
  (cuts.zip es).map fin

/-- The outputs of a row whose accepted total is `t`, made in `tries` retries; `inc` is what a SCAN begins with, `corr` the
CORRECTION bit. -/
def finish (e : RowEnv) (r : Nat) (t : Item) (tries : Nat) (local' : Bool) (inc : Acc) : RowRes :=
  let d := e.m.bytes
  let cs := e.chunks r
  let es := Red.rowEls cs
  let none' := t.ncnt == 0
  let retr := Row.retryMasks tries
  let mrow := if none' then [cMROW] else []
  match d.op with
  | some .rmsn =>
    match t.v with
    | .num v =>
      let p : Row.Rms := ⟨field d 112 4, if d.gammaEn then some e.gamma else none, d.resEn⟩
      let q := Row.rmsn e.rc p v t.k t.ncnt t.cns cs
      ⟨q.1.els, none, [], if d.rmsEn then some q.2 else none, q.1.cns ++ retr⟩
    | _ => let q := Row.zeroRow e.rc.x cs; ⟨q.els, none, [], if d.rmsEn then some (Fv.zero, 0) else none, q.cns⟩
  | some .smax =>
    match t.v with
    | .st s m => let q := Row.smax e.rc m s t.cns cs; ⟨q.els, none, [], none, q.cns⟩
    | _ => let q := Row.zeroRow e.rc.x cs; ⟨q.els, none, [], none, q.cns⟩
  | some .lsmax =>
    match t.v with
    | .st s m => let q := Row.lsmax e.rc m s t.cns cs; ⟨q.els, none, [], none, q.cns⟩
    | _ => let q := Row.zeroRow e.rc.x cs; ⟨q.els, none, [], none, q.cns⟩
  | some .rowred =>
    ⟨[], some (if none' then ⟨Row.redIdentity e.rc.x (d.f1 % 8), 0⟩ else e.redValue es t local'), [], none,
      es.map (fun (x : El) => x.cns ||| e.ownCns cs x) ++ retr ++ mrow⟩
  | some .rowstat =>
    let vsp := if local' then es.map (fun x => x.x) else if t.nan then Item.muOf t.v else []
    let rec' := Row.statRecord e.rc.x.c5 es vsp t.v.toV t.k tries (d.f1 % 2)
    ⟨[], none, rec'.1, none, es.map (fun (x : El) => x.cns) ++ [t.cns ||| rec'.2] ++ retr ++ mrow⟩
  | some .scan => ⟨e.scanRow cs (e.delivered r) inc, none, [], none, if es.isEmpty then [cMROW] else []⟩
  | _ => ⟨[], none, [], none, []⟩

end RowEnv

namespace State

/-- A member's result from its rows, and its counts (R301, R393, R430, R479). `done` gives each row's outputs. -/
def rowResult (s : State) (e : RowEnv) (done : Nat → RowRes) : Result × List Nat :=
  let m := e.m
  let d := m.bytes
  let o := e.rc.x.o
  if d.perRowOut then
    let rs := (List.range m.rows).map done
    let one := fun (r : Nat) (q : RowRes) => match q.one with
      | some c =>
        let k := Rnd.elem o (o.mode r 0) 0 c.v
        (Elem.pack o.fmt [k.code], [c.cns ||| k.cns])
      | none => (q.bytes, [])
    let outs := rs.mapIdx one
    (⟨none, outs.map (·.1), [], none, []⟩, outs.flatMap (·.2) ++ rs.flatMap (·.cns))
  else
    let rs := (List.range m.tileRows).map done
    let rows := rs.mapIdx (fun r q => narrowRow o r q.els)
    let live := fun (r : Nat) => m.liveRow e.pred r
    let made := (List.range m.tileRows).map live
    let wb := match d.wbRef with
      | some w =>
        let wo := s.orefOf m w (m.tab 88)
        let wx : Ctx := { e.rc.x with o := wo, clip := none }
        let put := fun (z : El) => Path.outU wx z.x
        let h := fun (r : Nat) => (e.els r).map (Option.map put)
        let ws := (List.range m.tileRows).map (fun r => narrowRow wo r (h r))
        some (mkTile wo ws made, ws)
      | none => none
    let rms := rs.filterMap (fun q => q.rms.map (fun v =>
      let k := Rnd.elem (ORef.plain .fp32) .rne 0 (.lin v.1)
      (k.code, k.cns ||| v.2)))
    -- an element counts once in a counter whichever of its outputs gives the count; a masked position counts nothing
    let both := fun (r : Nat) (p : RowRes × NRow) =>
      let own := p.1.els
      let liv := live r
      let wcns := match wb with
        | some w => ((w.2[r]?).map (fun (q : NRow) => q.cns)).getD []
        | none => []
      let mask := fun (x : (Option Cut × Nat) × Bool) =>
        match x with
        | ((some c, n), true) => some (c.cns ||| n)
        | _ => none
      let masks : List Nat := ((own.zip p.2.all).zip liv).filterMap mask
      if wcns.isEmpty then masks else List.zipWith (· ||| ·) masks wcns
    let cns := ((rs.zip rows).mapIdx both).flatten
    (⟨some (mkTile o rows made), [], [], wb.map (·.1), rms.map (fun c => toBytes 4 c.1)⟩,
      cns ++ rms.map (·.2) ++ rs.flatMap (·.cns))

end State
end Sys2Proof.Machine
end

