-- ==== Sys2Proof/Machine/Span.lean ====
section
/-!
DEFINITION. Exchanges as what travels in them: signatures (R520, R522), items and their messages (R529 to R539, R543, R544), the
attempts of a span, and the digests of what arrives (R603). The engine works message by message: a message is sent once what it
depends on has arrived in full.
-/
namespace Sys2Proof.Machine
open Sys2Proof Sys2Proof.Machine.Num

-- Signatures ---------------------------------------------------------------------------------------------------------

/-- The signature of a member (R520, R582): the exchanged tile of HALO is A, of every other operation FP32 values. -/
def signature (m : Member) : List Byte :=
  let d := m.bytes
  let a := d.tref 56
  toBytes 1 d.opcode ++ toBytes 1 (if d.is .upd then 0 else d.f1) ++ toBytes 1 (b2n d.relaxed + 2 * b2n d.ret) ++ toBytes 1 (if d.is .halo then a.code else 0) ++
    toBytes 4 m.rows ++ toBytes 4 m.cols ++ toBytes 4 (if d.is .halo then d.haloW else 0) ++
    toBytes 4 (if d.is .halo then a.t else 0x3F800000) ++
    (if d.is .upd then toBytes 1 d.prot ++ toBytes 2 d.planRows ++ toBytes 4 d.planCols else [])

namespace State

/-- A flit of an open exchange that has arrived. -/
def rxOf (e : Exch) (kind src attempt offset : Nat) : Option RxItem :=
  e.rx.find? (fun x => x.kind == kind && x.src == src && x.attempt == attempt && x.offset == offset)

/-- The signatures that have arrived are held against the member's own, once its run-time shape is known (R520). -/
def checkSigns (s : State) (seq : Nat) : State :=
  match s.member? seq, s.exchOf? seq with
  | some m, some e =>
    if m.shape.isNone then s
    else
      let own := padPayload (signature m)
      let got := e.rx.filter (fun x => x.kind == Kind.sign)
      if got.any (fun x => x.payload != own) then s.abortExch e St.shapeInvalid []
      else s.modExch seq (fun e => { e with signed := (got.map (·.src)).eraseDups })
  | _, _ => s

/-- A message leaves once: its flits are queued for the peer, and kept for it. -/
def sendOnce (s : State) (seq kind peer attempt : Nat) (fs : List TxFlit) : State :=
  match s.exchOf? seq with
  | some e =>
    if e.sent.contains (kind, peer, attempt) then s
    else (s.modExch seq (fun e => { e with sent := e.sent ++ [(kind, peer, attempt)] })).sendFlits seq fs
  | none => s

/-- The signature goes to every peer that this position sends to (R520). -/
def sendSigns (s : State) (m : Member) : State :=
  let rs := m.bytes.receivers (s.place m.bytes.chainId)
  (rs.foldl (fun s p =>
    s.sendOnce m.seq Kind.sign p 0 [mkFlit p Kind.sign m.bytes.chainId 0 0 true (signature m)]) s).checkSigns m.seq

end State

-- Items as bytes -----------------------------------------------------------------------------------------------------

namespace Item

/-- The word that stands for an EMPTY value: a NaN code that no result has. -/
def emptyWord : Nat := 0xFFFFFFFF

def accBytes (op : AccOp) : Acc → List Byte
  | .num v => toBytes 4 (Fv.to32 v)
  | .st s m => toBytes 4 (Fv.to32 s) ++ toBytes 4 (Fv.to32 m)
  | .vst n mu m2 => toBytes 4 n ++ toBytes 4 (Fv.to32 mu) ++ toBytes 4 (Fv.to32 m2)
  | .empty => match op with
    | .soft => toBytes 4 emptyWord ++ zeroBytes 4
    | .var => zeroBytes 12
    | _ => toBytes 4 emptyWord

def accSize : AccOp → Nat
  | .soft => 8
  | .var => 12
  | _ => 4

def accOf (op : AccOp) (b : List Byte) : Acc :=
  match op with
  | .soft => if field b 0 4 = emptyWord then .empty else .st (Fv.of32 (field b 0 4)) (Fv.of32 (field b 4 4))
  | .var => if field b 0 4 = 0 then .empty else .vst (field b 0 4) (Fv.of32 (field b 4 4)) (Fv.of32 (field b 8 4))
  | _ => if field b 0 4 = emptyWord then .empty else .num (Fv.of32 (field b 0 4))

/-- No element is nonzero. -/
def noEmax : Nat := 0x80000000

/-- An item as it travels (R533, R534, R544): the value, for row records Emax, Ncnt and flags, and in TOTAL k and the decision. -/
def bytes (d : Desc) (tot : Bool) (x : Item) : List Byte :=
  accBytes d.accOp x.v ++
    (if d.rowRecords then
      toBytes 4 (match x.emax with | some e => ofSigned 32 e | none => noEmax) ++ toBytes 8 x.ncnt ++
        toBytes 1 (b2n x.inf + 2 * b2n x.nan + 4 * b2n x.nz) ++
        (if tot then toBytes 4 (ofSigned 32 x.k) ++ toBytes 1 (b2n x.retry) else [])
    else [])

def size (d : Desc) (tot : Bool) : Nat := accSize d.accOp + (if d.rowRecords then 13 + (if tot then 5 else 0) else 0)

/-- Items in a flit. -/
def per (d : Desc) (tot : Bool) : Nat := 44 / size d tot

def parse (d : Desc) (tot : Bool) (b : List Byte) : Item :=
  let v := accOf d.accOp b
  let o := accSize d.accOp
  if d.rowRecords then
    let f := field b (o + 12) 1
    ⟨v, if field b o 4 = noEmax then none else some (toSigned 32 (field b o 4)), field b (o + 4) 8, bit f 0, bit f 1, bit f 2,
     if tot then toSigned 32 (field b (o + 13) 4) else 0, tot && bit (field b (o + 17) 1) 0, 0⟩
  else { ofAcc v with ncnt := match v with | .empty => 0 | _ => 1 }

end Item

/-- Indices in runs of consecutive ones, at most `n` in each. -/
def runsOf (n : Nat) (is : List Nat) : List (List Nat) :=
  (is.foldl (fun (a : List (List Nat)) i =>
    match a with
    | r :: rest => if (r.head?).map (· + 1) == some i && decide (r.length < n) then (i :: r) :: rest else [i] :: a
    | [] => [[i]]) []).reverse.map List.reverse

-- The engine ---------------------------------------------------------------------------------------------------------

/-- Where the parts of an attempt stand at this position: none where a message has not arrived. -/
structure Pass where
  loc : Option (List Item)
  runIn : Option (List Item)
  off : Option (List Item)
  r : Option (List Item)
  tot : Option (List Item)
deriving DecidableEq, Repr

/-- What an exchange is computed from: the member, its place, and each item's contributions under a k. -/
structure SpanEnv where
  m : Member
  p : Place
  soft : Red.SoftCtx
  count : Nat
  row : RowEnv
  vals : List (List Nat)
deriving DecidableEq, Repr

namespace SpanEnv

/-- The contributions of this position to an item (R529). -/
def contrib (v : SpanEnv) (i : Nat) (k : Int) : List Item :=
  if v.m.bytes.is .chain then
    let c := ((v.vals.getD (i / max 1 v.m.cols) []).getD (i % max 1 v.m.cols) 0)
    let x := Fv.of32 c
    [Item.ofAcc (.num (if v.m.compat = 5 then Lane.c5In (-126) x else x))]
  else v.row.contrib k (v.row.chunks i)

/-- A message from a peer, in full. -/
def msg (v : SpanEnv) (e : Exch) (kind peer : Nat) : Option (List Item) :=
  let d := v.m.bytes
  let tot := kind == Kind.total
  let one := fun (run : List Nat) => match run with
    | i :: _ => (State.rxOf e kind (v.p.pos peer) e.attempt i).map (fun (x : RxItem) =>
        run.mapIdx (fun n _ => Item.parse d tot (x.payload.drop (n * Item.size d tot))))
    | [] => some []
  ((runsOf (Item.per d tot) e.todo).mapM one).map List.flatten

/-- What arrived for an item in messages of one kind, in the order of arrival (R538). -/
def arrivals (v : SpanEnv) (e : Exch) (kind : Nat) (run : List Nat) (n : Nat) : List Item :=
  let d := v.m.bytes
  (e.rx.filter (fun x => x.kind == kind && x.attempt == e.attempt && some x.offset == run.head?)).map (fun (x : RxItem) =>
    Item.parse d false (x.payload.drop (n * Item.size d false)))

/-- The messages that an attempt brings (R530, R536, R538): kind and sender's index. -/
def expects (v : SpanEnv) : List (Nat × Nat) :=
  let d := v.m.bytes
  let p := v.p
  (if p.isHead then [] else (Kind.run, p.i - 1) :: (if d.relaxed then [] else [(Kind.offset, p.i - 1)])) ++
    (if p.isHead && !p.isTail then [(Kind.segtot, p.tail)] else []) ++
    (if d.relaxed then (if p.atLastHead then (List.range (p.nseg - 1)).map (fun j => (Kind.segtot, j * p.segLen)) else [])
      else if p.isHead && 0 < p.seg then [(Kind.segtot, p.head - p.segLen)] else []) ++
    (if d.returns then
      (if p.isHead then (if p.seg + 1 < p.nseg then [(Kind.total, p.head + p.segLen)] else []) else [(Kind.total, p.i - 1)]) else [])

def combL (v : SpanEnv) (a b : List Item) : List Item := List.zipWith (Item.comb v.m.bytes.accOp v.soft) a b

/-- The last head's decision on an item (R534). -/
def decide' (v : SpanEnv) (e : Exch) (i : Nat) (t : Item) : Item :=
  match v.row.again (e.tries.getD i 0) t with
  | some k => { t with k := k, retry := true }
  | none => { t with k := e.ks.getD i 0, retry := false }

/-- The forward and the return pass of the attempt under way, as far as they have come (R530, R536, R538). -/
def pass (v : SpanEnv) (e : Exch) : Pass :=
  let d := v.m.bytes
  let p := v.p
  let nothing := e.todo.map (fun _ => Item.empty)
  let runIn := if p.isHead then some nothing else v.msg e Kind.run (p.i - 1)
  let own := e.todo.map (fun i => v.contrib i (e.ks.getD i 0))
  let loc := runIn.map (fun xs => List.zipWith (Item.fold d.accOp v.soft) xs own)
  let off :=
    if d.relaxed then some nothing
    else if p.isHead then (if p.seg = 0 then some nothing else v.msg e Kind.segtot (p.head - p.segLen))
    else v.msg e Kind.offset (p.i - 1)
  let segT := if p.isHead then (if p.isTail then loc else v.msg e Kind.segtot p.tail) else none
  let r := match off, segT with
    | some o, some t => some (if d.relaxed then t else v.combL o t)
    | _, _ => none
  let all := v.expects.all (fun x => x.1 != Kind.segtot || (v.msg e Kind.segtot x.2).isSome)
  let tot :=
    if p.atLastHead then
      (if all then r.map (fun xs =>
        let sums := if d.relaxed then
            ((runsOf (Item.per d false) e.todo).map (fun run => run.mapIdx (fun n _ =>
              -- its own segment's total first; that of its tail has arrived too and is not added twice
              let tails := if p.isTail then [] else [p.pos p.tail]
              let others := { e with rx := e.rx.filter (fun x => !(x.kind == Kind.segtot && tails.contains x.src)) }
              v.arrivals others Kind.segtot run n))).flatten
          else e.todo.map (fun _ => [])
        let ts := List.zipWith (Item.fold d.accOp v.soft) xs sums
        List.zipWith (v.decide' e) e.todo ts) else none)
    else if d.returns then (if p.isHead then v.msg e Kind.total (p.head + p.segLen) else v.msg e Kind.total (p.i - 1))
    else some nothing
  ⟨loc, runIn, off, r, tot⟩

/-- The messages that this position sends in an attempt (R530, R536, R538): kind, receiver's index, items. -/
def sends (v : SpanEnv) (q : Pass) : List (Nat × Nat × Option (List Item)) :=
  let d := v.m.bytes
  let p := v.p
  (if p.isTail then (if p.isHead then [] else [(Kind.segtot, p.head, q.loc)])
    else (Kind.run, p.i + 1, q.loc) :: (if d.relaxed then [] else [(Kind.offset, p.i + 1, q.off)])) ++
    (if p.isHead then
      (if d.relaxed then (if p.atLastHead then [] else [(Kind.segtot, p.lastHead, q.r)])
        else if p.seg + 1 < p.nseg then [(Kind.segtot, p.head + p.segLen, q.r)] else []) else []) ++
    (if d.returns then
      (if p.isHead && 0 < p.seg then [(Kind.total, p.head - p.segLen, q.tot)] else []) ++
        (if p.isTail then [] else [(Kind.total, p.i + 1, q.tot)]) else [])

/-- A message's flits. -/
def flits (v : SpanEnv) (e : Exch) (kind peer : Nat) (xs : List Item) : List TxFlit :=
  let d := v.m.bytes
  let tot := kind == Kind.total
  let runs := runsOf (Item.per d tot) e.todo
  let offs := runs.foldl (fun (a : Nat × List (Nat × Nat × Nat)) r => (a.1 + r.length, a.2 ++ [(a.1, r.length, r.headD 0)])) (0, [])
  offs.2.mapIdx (fun i o => mkFlit (v.p.pos peer) kind d.chainId e.attempt o.2.2 (i + 1 == runs.length)
    (((xs.drop o.1).take o.2.1).flatMap (Item.bytes d tot)))

end SpanEnv

-- Digests of what arrives ---------------------------------------------------------------------------------------------

/-- The kinds that enter a causeway digest (R603). -/
def Kind.digested (k : Nat) : Bool :=
  k == run || k == offset || k == segtot || k == total || k == halo || k == sign || k == parity

namespace State

/-- The term of a flit in its digest: bytes 59:0 with DEST_ID and LSEQ read as zero (R543, R603). -/
def flitDigest (kind : Nat) (f : Flit) : Nat :=
  let h := kind + (b2n f.last <<< 4) + (f.attempt <<< 5) + (f.chainId <<< 8) + (f.src <<< 24)
  Hash.crc64 (toBytes 8 h ++ zeroBytes 4 ++ toBytes 4 f.offset ++ padPayload f.payload)

/-- CW_DIGEST of an attempt that has been read in full (R603, R619, R635, R636). -/
def writeCwDigest (s : State) (seq chain attempt : Nat) : State :=
  match s.member? seq, s.exchOf? seq with
  | some m, some e =>
    let d := (e.digest.find? (fun x => x.1 == attempt)).getD (attempt, 0, 0)
    let dig : Digest := ⟨Ty.cwDigest, 0, attempt, d.2.1, d.2.2⟩
    let s1 := s.checkDigests seq [dig]
    let key := fun (x : RxItem) => (x.kind * 2 ^ 16 + x.src) * 2 ^ 32 + x.offset
    let data := ((e.rx.filter (fun x => Kind.digested x.kind && x.attempt == attempt)).mergeSort (fun a b => key a ≤ key b)).flatMap (·.payload)
    let s2 := if m.found dig then s1
      else (s1.wbWriteFor seq Ty.cwDigest [cwDigestPart seq chain attempt d.2.1 d.2.2] .none).captureFlow m data
    s2.modMember seq (fun m => { m with digests := m.digests ++ [dig] })
  | _, _ => s

/-- What a member's exchange is computed from. -/
def spanEnv (s : State) (g : Group) (m : Member) (inp : Inputs) : SpanEnv :=
  ⟨m, s.place m.bytes.chainId, s.softOf m, if m.bytes.is .chain then m.rows * m.cols else m.tileRows, s.rowEnv g m inp, inp.vals⟩

/-- One attempt: what can be sent is sent; once all of it has arrived and left, its digest is written and the next attempt
begins, or the exchange is done (R535). -/
def exchGo (v : SpanEnv) : Nat → State → State
  | 0, s => s
  | n + 1, s =>
    match s.exchOf? v.m.seq with
    | some e =>
      if e.done then s
      else
        let q := v.pass e
        let out := v.sends q
        let s1 := out.foldl (fun s x => match x.2.2 with
          | some xs => s.sendOnce v.m.seq x.1 (v.p.pos x.2.1) e.attempt (v.flits e x.1 x.2.1 xs)
          | none => s) s
        let arrived := v.expects.all (fun x => (v.msg e x.1 x.2).isSome) && e.senders.all e.signed.contains
        if arrived && out.all (fun x => x.2.2.isSome) then
          let s2 := s1.writeCwDigest v.m.seq e.chain e.attempt
          let d := v.m.bytes
          let give : List Item :=
            if d.returns then q.tot.getD []
            else if d.is .scan then v.combL (q.off.getD []) (q.runIn.getD [])
            else if d.relaxed && v.p.seg != 0 then
              e.todo.map (fun i => Item.ofAcc (.num (Fv.of32 ((Config.freeWord (s.freeCtr * 2 ^ 32 + i)).toNat % 2 ^ 32))))
            else v.combL (q.off.getD []) (q.loc.getD [])
          let ps := e.todo.zip give
          let more := (ps.filter (fun x => x.2.retry)).map (·.1)
          let put := fun (e : Exch) => ps.foldl (fun (e : Exch) x =>
            if x.2.retry then { e with ks := e.ks.set x.1 x.2.k, tries := e.tries.modify x.1 (· + 1) }
            else { e with totals := e.totals.set x.1 (some x.2) }) e
          let s3 := s2.modExch v.m.seq (fun e =>
            let e := put e
            if more.isEmpty then { e with done := true } else { e with attempt := e.attempt + 1, todo := more })
          exchGo v n s3.bump
        else s1
    | none => s

/-- An exchange begins; one without items (a zero shape, or a SPAN on an elementwise operation) sends signatures alone (R522). -/
def exchBegin (s : State) (v : SpanEnv) : State :=
  let n := if v.m.zeroShape then 0 else v.count
  let s1 := s.sendSigns v.m
  s1.modExch v.m.seq (fun e =>
    { e with todo := List.range n, ks := List.replicate n 0, tries := List.replicate n 0, totals := List.replicate n none })

end State
end Sys2Proof.Machine
end

