-- ==== Sys2Proof/Machine/Run.lean ====
section
/-!
DEFINITION. What the commands of the data operations share: reading the inputs, the zero shape (R470), the start of an exchange.
-/
namespace Sys2Proof.Machine
open Sys2Proof Sys2Proof.Machine.Num

namespace State

/-- A member that is ready reads its inputs (R494, R500, R601, R644), and `k` is what it does with them. -/
def withInputs (s₀ : State) (seq : Nat) (o : Op) (img : Image) (k : State → Group → Member → Inputs → State) : State :=
  let s := s₀.dueCaps seq
  match s.opReady seq o with
  | some (g, m) =>
    match s.badInput m with
    | some a => s.stageFault seq a
    | none => let q := (s.learnRoutes img).readInputs img m; k q.1 g m q.2
  | none => s

/-- Row contexts, codebook entries and queued fills of a descriptor end with it (R169, R259). -/
def dropContexts (s : State) (seq : Nat) : State :=
  { s with rowCtx := s.rowCtx.filter (fun c => c.seq != seq), clusters := s.clusters.map (fun c => c.dropBook (· == seq)) }

/-- The exchange of a member begins, where its span holds more than one position; `count` is the number of its items. -/
def startExch (s : State) (g : Group) (m : Member) (inp : Inputs) (count : Nat) : State :=
  if s.wide m.bytes then
    let v := { s.spanEnv g m inp with count := count }
    exchGo v 4 ((s.modMember m.seq (fun m => { m with inputs := some inp })).exchBegin v)
  else s

end State

/-- The result of a descriptor that produces no position. -/
def noResult (o : ORef) : Result := ⟨some ⟨o.fmt, o.t, o.tab, [], [], []⟩, [], [], none, []⟩

end Sys2Proof.Machine
end

