-- ==== Sys2Proof/Machine/Elwise.lean ====
section
/-!
DEFINITION. The elementwise operations (R410 to R421): CONVERT, AFFINE, FUNC, GATE, CLAMP, and their strict forms (R173 to
R177).
-/
namespace Sys2Proof.Machine
open Sys2Proof Sys2Proof.Machine.Num

/-- What the elements of an elementwise descriptor are computed from; `book` are the codebook entries of its context. -/
structure ElemEnv where
  m : Member
  x : Ctx
  e : Epi
  f1 : Option FnUse
  a : Tile
  b : Tile
  c : Tile
  pred : Option Tile
  book : List CbEntry
deriving DecidableEq, Repr

namespace Desc

/-- Does a program sum over its chunk (R230)? -/
def chunkSum (bank : List Byte) (d : Desc) : Bool :=
  match d.f1Fn with
  | some (.prog i) => (Prog.dir bank i).chunkSum
  | _ => false

/-- Does a descriptor take the codebook path (R161 to R163, R230, R415)? -/
def codebook (bank : List Byte) (d : Desc) : Bool :=
  let a := (d.tref 56).fmt
  let o := d.tref 72
  let wide8 := (d.stochastic && (o.fmt == .fp16 || o.fmt == .bf16 || o.fmt == .l8 || o.fmt == .l16)) || o.fmt == .l8b || o.fmt == .l16b
  (d.is .func || d.is .convert || d.is .clamp) && (a.isMx || a.isB || a == .l8 || a == .l8b) && !d.biasEn && !d.chunkSum bank &&
    !(wide8 && a.width == 8)

end Desc

namespace ElemEnv

def els (v : ElemEnv) (t : Tile) (r : Nat) : List (Option El) := rowEls v.x.c5 v.x.conv v.m v.pred t r

/-- Two operands at a position: a masked position has neither. -/
def pairs (v : ElemEnv) (r : Nat) : List (Option (El × El)) :=
  List.zipWith (fun a b => match a, b with
    | some x, some y => some (x, y)
    | _, _ => none) (v.els v.a r) (v.els v.b r)

/-- CONVERT or CLAMP of elements in column order (R412, R413). -/
def convertAll (v : ElemEnv) (es : List (Option El)) : List (Option Cut) :=
  es.mapIdx (fun c a => a.map (fun a => Path.convert v.x v.e a c))

/-- FUNC of elements in column order (R411): a built-in function or a user table element by element, a program chunk by chunk. -/
def funcAll (v : ElemEnv) (es : List (Option El)) : List (Option Cut) :=
  match v.f1 with
  | some f =>
    match f.fn with
    | .prog i => ((cut 32 es).mapIdx (fun k ch => Prog.func v.x v.e f i ch (32 * k))).flatten
    | _ => es.mapIdx (fun c a => a.map (fun a => Path.func v.x v.e f a c))
  | none => es.map (fun _ => none)

/-- The direct path of a single-input operation. -/
def direct (v : ElemEnv) (es : List (Option El)) : List (Option Cut) := if v.m.bytes.is .func then v.funcAll es else v.convertAll es

/-- The value at the cut point of R162 and its census bits (R170). Where R162 names the final element code, the cell holds that
code's value, from which narrowing gives the code back, and the counts of its rounding. -/
def cutCell (v : ElemEnv) (c : Cut) : Cut :=
  let o := v.x.o
  let final := o.fmt == .fp32 || ((o.fmt == .fp16 || o.fmt == .bf16 || o.fmt == .l8 || o.fmt == .l16) && o.srBits.isNone)
  if final then
    let k := Rnd.elem o .rne 0 c.v
    ⟨if o.fmt.isL then .log (Elem.lmag o.fmt 0x7F k.code 0x3F800000) else .lin (Elem.value o.fmt [] k.code), c.cns ||| k.cns⟩
  else c

/-- A fill: every code of the input format under one scale, on the direct path (R162, R167). -/
def entry (v : ElemEnv) (sc : Nat) : CbEntry :=
  let el := fun (code : Nat) => some (elOf v.x.c5 v.x.conv v.a.fmt v.a.t v.a.tab sc code)
  ⟨v.m.seq, sc, (v.direct ((List.range (2 ^ v.a.fmt.width)).map el)).map (fun o => (o.map v.cutCell).getD ⟨.lin Fv.zero, 0⟩)⟩

/-- The scale code of a block, the tag of its entry: 0 for L8, which has none (R165). -/
def blockScale (v : ElemEnv) (r k : Nat) : Nat := if v.a.fmt.scaled then (v.a.scales.getD r []).getD k 0x7F else 0

/-- The scale of a block that looks its entry up: it has an unmasked element (R172), and is no block NaN (R171). -/
def lookupScale (v : ElemEnv) (r k : Nat) : Option Nat :=
  let sc := v.blockScale r k
  if (v.a.fmt.scaled && sc == 0xFF) || !(List.range 32).any (fun i => v.m.inside r (32 * k + i) && v.m.live v.pred r (32 * k + i)) then none
  else some sc

/-- The gathered cell of a position, where an entry of its block's scale is usable (R164). -/
def gather (v : ElemEnv) (r c : Nat) : Option Cut :=
  if v.m.inside r c then
    (v.book.find? (fun e => e.scale == v.blockScale r (c / 32))).bind (fun e => e.cells[(v.a.rows.getD r []).getD c 0]?)
  else none

/-- A row of CONVERT, CLAMP or FUNC: gathered where the codebook holds the block's scale, else by the direct path. -/
def rowSingle (v : ElemEnv) (r : Nat) : List (Option Cut) :=
  (v.direct (v.els v.a r)).mapIdx (fun c o => o.map (fun d => (v.gather r c).getD d))

/-- A row of GATE (R157, R416). -/
def rowGate (v : ElemEnv) (r : Nat) : List (Option Cut) :=
  match v.f1 with
  | some f => (v.pairs r).map (fun p => p.map (fun p => Path.gate v.x f p.1 p.2))
  | none => []

/-- A row of AFFINE (R418, R419). -/
def rowAffine (v : ElemEnv) (r : Nat) : List (Option Cut) :=
  let f := Path.Form.ofCode v.m.bytes.form
  List.zipWith (fun p c => p.map (fun p => Path.affine v.x f p.1 p.2 c)) (v.pairs r)
    (if v.m.bytes.isFma then v.els v.c r else (v.els v.a r).map (fun _ => none))

-- The strict forms ---------------------------------------------------------------------------------------------------

/-- The scale and bias of a strict CONVERT or FUNC: one fused multiply-add, with its exact result and flags (R175). -/
def strictEpi (v : ElemEnv) (x : Fv) (col : Nat) : Option (Fv × Nat) :=
  match v.e.scale, v.e.bias with
  | none, none => none
  | s, b =>
    let sc := s.getD 0x3F800000
    let bc := match b with | some w => w.getD col 0 | none => 0x80000000
    let q := Strict.affine v.x.o.fmt .fma x (Fv.of32 sc) (Fv.of32 bc)
    some (q.1, q.2 ||| Strict.snan .fp32 sc ||| Strict.snan .fp32 bc)

/-- One strict element: its exact result and its IEEE flags (R175 to R177). -/
def strictOne (v : ElemEnv) (col : Nat) (a : El) (b c : Option El) : Fv × Nat :=
  let f := v.x.o.fmt
  let d := v.m.bytes
  match d.op with
  | some .affine => Strict.affine f (Path.Form.ofCode d.form) a.x ((b.map (fun (e : El) => e.x)).getD Fv.zero) ((c.map (fun (e : El) => e.x)).getD Fv.zero)
  | some .func =>
    let q := if d.f1 = 5 then Strict.recip f a.x else Strict.sqrt f a.x
    match v.strictEpi (Strict.round f q.1).1 col with
    | some w => (w.1, w.2 ||| q.2)
    | none => q
  | _ => (v.strictEpi a.x col).getD (Strict.conv f a.x)

/-- The invalid flag of signalling NaN codes among the operands of a position, a padded position's value included (R51, R474). -/
def snans (v : ElemEnv) (r c : Nat) : Nat :=
  let one := fun (t : Tile) =>
    if v.m.inside r c then Strict.snan t.fmt ((t.rows.getD r []).getD c 0) else Strict.snan .fp32 v.m.padVal
  one v.a ||| (if v.m.bytes.is .affine then one v.b ||| (if v.m.bytes.isFma then one v.c else 0) else 0)

/-- A strict row: values with their counts, and flags (R177). The clip compares the exact result (R88) and raises no flag; what it
leaves is rounded once, and the counts are those of that rounding (log 80). -/
def rowStrict (v : ElemEnv) (r : Nat) : List (Option (Cut × Nat)) :=
  let as := v.els v.a r
  let bs := if v.m.bytes.is .affine then v.els v.b r else as.map (fun _ => none)
  let cs := if v.m.bytes.isFma then v.els v.c r else as.map (fun _ => none)
  ((as.zip bs).zip cs).mapIdx (fun c p =>
    p.1.1.map (fun a =>
      let q := v.strictOne c a p.1.2 p.2
      let cns := a.cns ||| (p.1.2.map (fun (e : El) => e.cns)).getD 0 ||| (p.2.map (fun (e : El) => e.cns)).getD 0
      let w := Strict.round v.x.o.fmt (Path.clipV v.x.clip q.1)
      (⟨.lin w.1, cns ||| Flags.strictMask w.1 w.2⟩, q.2 ||| v.snans r c)))

/-- A row of the descriptor's operation. -/
def row (v : ElemEnv) (r : Nat) : List (Option Cut) :=
  if v.m.bytes.strict then (v.rowStrict r).map (fun p => p.map (·.1))
  else match v.m.bytes.op with
    | some .gate => v.rowGate r
    | some .affine => v.rowAffine r
    | _ => v.rowSingle r

/-- The IEEE flags of the descriptor. -/
def ieee (v : ElemEnv) : Nat :=
  if v.m.bytes.strict then
    Flags.orAll ((List.range v.m.tileRows).flatMap (fun r => (v.rowStrict r).filterMap (fun p => p.map (·.2))))
  else 0

end ElemEnv

namespace State

def elemEnv (s : State) (g : Group) (m : Member) (inp : Inputs) : ElemEnv :=
  ⟨m, s.ctxOf m, s.epiOf m inp, m.bytes.f1Fn.map (fun f => s.fnUse m f m.fgen), tileA g m inp, tileAt inp 88, tileAt inp 104,
   predTile g m, s.clusters.flatMap (fun k => k.cache.filter (fun e => e.seq == m.seq))⟩

/-- An elementwise descriptor computes its tile; with a zero shape it counts nothing (R470). Its codebook ends with it (R169). -/
def runElem (s : State) (g : Group) (m : Member) (inp : Inputs) : State :=
  let v := s.elemEnv g m inp
  let q := buildTile v.x.o m v.pred v.row
  let z := m.zeroShape
  ((s.finishOp m.seq ⟨some q.1, [], [], none, []⟩ (if z then [] else q.2) (if z then 0 else v.ieee)).dropContexts m.seq).startExch g m inp 0

end State

/-- CONVERT (R412). -/
def execConvert (seq : Nat) (mem : Image) (s : State) : Res := .next (s.withInputs seq .convert mem State.runElem)

/-- AFFINE (R417 to R421). -/
def execAffine (seq : Nat) (mem : Image) (s : State) : Res := .next (s.withInputs seq .affine mem State.runElem)

/-- FUNC (R411, R415). -/
def execFunc (seq : Nat) (mem : Image) (s : State) : Res := .next (s.withInputs seq .func mem State.runElem)

/-- GATE (R416, R157 to R160). -/
def execGate (seq : Nat) (mem : Image) (s : State) : Res := .next (s.withInputs seq .gate mem State.runElem)

/-- CLAMP (R413). -/
def execClamp (seq : Nat) (mem : Image) (s : State) : Res := .next (s.withInputs seq .clamp mem State.runElem)

end Sys2Proof.Machine
end

