-- ==== Sys2Proof/Machine/Rows.lean ====
section
/-!
DEFINITION. The row operations (R294 to R326, R421 to R430): RMSN, SMAX, LSMAX, ROWRED, ROWSTAT, SCAN, alone or along a span.
-/
namespace Sys2Proof.Machine
open Sys2Proof Sys2Proof.Machine.Num

namespace Member

/-- The first segment of a row and the number of its segments (R255, R424). -/
def firstSeg (m : Member) : Nat := m.bytes.colOff / 16
def segCount (m : Member) : Nat := ceilDiv (m.bytes.colOff * 256 + m.tileCols) 4096 - m.firstSeg

end Member

namespace State

/-- Do row contexts hold a SCAN (R502)? A row whose segment totals have begun to arrive has its segments on different clusters, and
the output of each segment waits for the totals of all those before it. -/
def scanHeld (s : State) (m : Member) : Bool :=
  s.rowCtx.any (fun c => c.seq == m.seq && decide (c.next + 1 < m.firstSeg + m.segCount))

/-- A row descriptor's result from its rows; with a zero shape it counts nothing and has no per-row output (R470). -/
def putRows (s : State) (e : RowEnv) (done : Nat → RowRes) : State :=
  let m := e.m
  if m.zeroShape && (e.m.bytes.perRowOut || !m.bytes.padEn) then
    (s.finishOp m.seq (if m.bytes.perRowOut then ⟨none, [], [], none, []⟩ else noResult e.rc.x.o) [] 0).dropContexts m.seq
  else
    let q := s.rowResult e done
    (s.finishOp m.seq q.1 (if m.zeroShape then [] else q.2) 0).dropContexts m.seq

/-- The rows of a descriptor whose exchange is done: each row's total has arrived (R532, R537). -/
def finishRows (s : State) (g : Group) (m : Member) (inp : Inputs) (e : Exch) : State :=
  let v := s.rowEnv g m inp
  s.putRows v (fun r =>
    let t := ((e.totals[r]?).join).getD Item.empty
    v.finish r t (e.tries.getD r 0) false t.v)

/-- A row operation on its own, or at the start of its exchange. -/
def runRows (s : State) (g : Group) (m : Member) (inp : Inputs) : State :=
  let v := s.rowEnv g m inp
  let own := fun (r : Nat) => let t := v.total (v.chunks r); v.finish r t.1 t.2 true .empty
  if s.wide m.bytes then
    let s1 := s.startExch g m inp (if m.bytes.perRowOut then m.rows else m.tileRows)
    if m.zeroShape then s1.putRows v own
    else match s1.exchOf? m.seq with
      | some e => if e.done then s1.finishRows g m inp e else s1
      | none => s1
  else s.putRows v own

end State

/-- RMSN (R298 to R307, R426 to R430). -/
def execRmsn (seq : Nat) (mem : Image) (s : State) : Res := .next (s.withInputs seq .rmsn mem State.runRows)

/-- SMAX (R308 to R316). -/
def execSmax (seq : Nat) (mem : Image) (s : State) : Res := .next (s.withInputs seq .smax mem State.runRows)

/-- LSMAX (R308 to R316). -/
def execLsmax (seq : Nat) (mem : Image) (s : State) : Res := .next (s.withInputs seq .lsmax mem State.runRows)

/-- ROWRED (R317, R318). -/
def execRowred (seq : Nat) (mem : Image) (s : State) : Res := .next (s.withInputs seq .rowred mem State.runRows)

/-- ROWSTAT (R319 to R324). -/
def execRowstat (seq : Nat) (mem : Image) (s : State) : Res := .next (s.withInputs seq .rowstat mem State.runRows)

/-- SCAN (R325, R326, R502). -/
def execScan (seq : Nat) (mem : Image) (s : State) : Res :=
  if (s.member? seq).any s.scanHeld then .next s else .next (s.withInputs seq .scan mem State.runRows)

end Sys2Proof.Machine
end

