-- ==== Sys2Proof/Machine/Combine.lean ====
section
/-!
DEFINITION. MCOMBINE and the accumulator-stream ports (R266 to R283, R289 to R291, R431 to R436, R602, R754 to R759, R815), the
bands of the clusters (R270), row contexts (R259) and codebook fills (R165 to R172).
-/
namespace Sys2Proof.Machine
open Sys2Proof Sys2Proof.Machine.Num

-- Beats --------------------------------------------------------------------------------------------------------------

/-- The exclusive or of the bits of a number below 2^n. -/
def parity : Nat → Nat → Bool
  | 0, _ => false
  | n + 1, x => (bit x 0) != parity n (x / 2)

namespace Beat'

/-- The fields of TUSER (R754). -/
def tag (b : Beat) : Nat := bits b.user 7 0
def split (b : Beat) : Nat := bits b.user 13 8
def row (b : Beat) : Nat := bits b.user 22 14
def chunk (b : Beat) : Nat := bits b.user 33 23

/-- DPAR of the data (R754). -/
def dpar (data : List Byte) : Nat :=
  (List.range 8).foldl (fun a i => a + (b2n (parity 128 (field data (16 * i) 16)) <<< i)) 0

/-- The check of R755. -/
def ok (b : Beat) : Bool :=
  bits b.user 41 34 == dpar b.data && bit b.user 42 == parity 34 (bits b.user 33 0) && b.keep == 2 ^ 128 - 1 && bits b.user 47 43 == 0

/-- Word j of the pattern beat k on a port (R758). -/
def patternWord (port k j : Nat) : Nat :=
  let w := fun k => 0x5A000000 + (port <<< 16) + (k <<< 8) + j
  if k % 2 = 0 then w k else 2 ^ 32 - 1 - w (k - 1)

/-- Is a beat the pattern's beat of its CHUNK on a port (R758, R759)? -/
def isPattern (port : Nat) (b : Beat) : Bool :=
  ok b && tag b == 0xFF && split b == 63 && row b == 511 && decide (chunk b < 16) &&
    (List.range 32).all (fun j => field b.data (4 * j) 4 == patternWord port (chunk b) j)

end Beat'

namespace State

-- Bands --------------------------------------------------------------------------------------------------------------

/-- The open accumulator tiles, in the order of their groups (R271). -/
def openTiles (s : State) : List Member :=
  s.groups.flatMap (fun g => if g.issued && !g.dead then g.members.filter tileOpen else [])

/-- The open tile of a TILE_TAG: at most one (R434, R436). -/
def tagged (s : State) (tag : Nat) : Option Member :=
  s.openTiles.find? (fun m => !m.bytes.srcMem && m.bytes.tileTag == tag)

/-- A cluster opens a band for the earliest open tile, in an empty slot, while no slot of it fills (R270). -/
def openBand (s : State) (c : Nat) : State :=
  let k := s.cluster c
  let filling := fun (b : Band) => match b with | .filling _ => true | _ => false
  match s.openTiles with
  | m :: _ =>
    if !s.takesWork c || filling k.slotA || filling k.slotB then s
    else if k.slotA == .empty then s.modCluster c (fun k => { k with slotA := .filling m.seq })
    else if k.slotB == .empty then s.modCluster c (fun k => { k with slotB := .filling m.seq })
    else s
  | [] => s

def openBands (s : State) : State := (List.range 17).foldl openBand s

/-- The bands of a tile that has closed drain (R270, R289). -/
def drainBands (s : State) (seq : Nat) : State :=
  let go := fun (b : Band) => if b == .filling seq then Band.draining seq else b
  { s with clusters := s.clusters.map (fun k => { k with slotA := go k.slotA, slotB := go k.slotB }) }

-- The value of a tile ------------------------------------------------------------------------------------------------

/-- One partial added to a position's running value, with the counts of what has gone into it (R266, R269, R275). -/
def addPart (c5 : Bool) (a : Option (Fv × Nat)) (p : Nat) : Option (Fv × Nat) :=
  let v := Fv.of32 p
  let x := if c5 then Lane.c5In (-126) v else v
  let n := if v.isNan then cNAN else 0
  match a with
  | none => some (x, n)
  | some (y, m) =>
    if c5 then let r := Lane.c5Op (Fv.add y x); some (r.1, m ||| n ||| r.2) else some (Fv.add32 y x, m ||| n)

/-- The accumulated value of a position (R269, R275): the preload, if any, then the partials in split order. -/
def accumulate (c5 : Bool) (pre : Option El) (ps : List Nat) : Option (Fv × Nat) :=
  ps.foldl (addPart c5) (pre.map (fun e => (e.x, e.cns)))

/-- What a tile has of a row's preload (R266 to R268): none where it has not been read yet. -/
def preload (c5 : Bool) (cv : Conv) (g : Group) (m : Member) (r : Nat) : Option (Nat → Option El) :=
  match m.bytes.preload with
  | 1 => m.inputs.map (fun inp c =>
      let v := Fv.of32 (inp.gamma.getD c 0)
      let y := if c5 then Lane.c5In (-126) v else v
      some ⟨y, none, y, 0x7F, if v.isNan then cNAN else 0⟩)
  | 2 => m.inputs.map (fun inp => let es := rowEls c5 cv m (predTile g m) (tileA g m inp) r; fun c => (es[c]?).join)
  | _ => some (fun _ => none)

/-- Beats inside the run-time bounds (R815). -/
def boundBeats (m : Member) (bs : List TBeat) : List TBeat :=
  bs.filter (fun b => decide (b.row < m.rows) && decide (b.chunk < m.cols / 32))

end State

namespace AccChunk

/-- A chunk before its first partial (R269). -/
def start (r k : Nat) (pre : Nat → Option El) : AccChunk :=
  ⟨r, k, 0, (List.range 32).map (fun i => (pre (32 * k + i)).map (fun e => (e.x, e.cns)))⟩

/-- The beats of a chunk are added as far as they are next (R277). -/
def advance (c5 : Bool) (bs : List TBeat) : Nat → AccChunk → AccChunk
  | 0, a => a
  | n + 1, a =>
    match bs.find? (fun b => b.split == a.next && b.row == a.row && b.chunk == a.chunk) with
    | some b => advance c5 bs n { a with next := a.next + 1, vals := a.vals.mapIdx (fun i v => State.addPart c5 v (field b.data (4 * i) 4)) }
    | none => a

end AccChunk

namespace State

/-- The chunk of a tile at a row, as far as the beats that have arrived take it (R277, R278). While its preload has not been read, every
beat of it is parked. -/
def runChunk (c5 : Bool) (cv : Conv) (g : Group) (r k : Nat) (m : Member) : Member :=
  let same := fun (a : AccChunk) => a.row == r && a.chunk == k
  let now' := match m.run.find? same with
    | some a => some a
    | none => (preload c5 cv g m r).map (AccChunk.start r k)
  match now' with
  | some a => { m with run := m.run.filter (fun a => !same a) ++ [AccChunk.advance c5 m.beats m.bytes.nSplit a] }
  | none => m

/-- Every chunk of which a beat has arrived goes on (R277). -/
def runChunks (c5 : Bool) (cv : Conv) (g : Group) (m : Member) : Member :=
  ((m.beats.map (fun b => (b.row, b.chunk))).eraseDups).foldl (fun m p => runChunk c5 cv g p.1 p.2 m) m

/-- The values of a row of an accumulator tile at this moment (R269, R275 to R278): of partials from memory, which are all there once
they have been read, or of the beats that have been added. -/
def accRow (c5 : Bool) (cv : Conv) (g : Group) (m : Member) (r : Nat) : List (Option (Fv × Nat)) :=
  if m.bytes.srcMem then
    match m.inputs, preload c5 cv g m r with
    | some inp, some pre => (List.range m.cols).map (fun c =>
        accumulate c5 (pre c) ((List.range m.bytes.nSplit).map (fun j =>
          (((inp.parts[j]?).map (fun (t : Tile) => t.rows.getD r [])).getD []).getD c 0)))
    | _, _ => []
  else (List.range m.bytes.planCols).map (fun c =>
    (m.run.find? (fun a => a.row == r && a.chunk == c / 32)).bind (fun a => (a.vals[c % 32]?).join))

/-- A row of the closed tile through the epilogue (R268, R269, R275, R289, R291). -/
def combineRow (x : Ctx) (e : Epi) (m : Member) (g : Group) (r : Nat) : List (Option Cut) :=
  let vals := accRow x.c5 x.conv g m r
  (m.liveRow (predTile g m) r).mapIdx (fun c lv =>
    if lv then ((vals[c]?).join).map (fun a => let q := Path.epilogue x e a.1 none c; ⟨q.v, q.cns ||| a.2⟩) else none)

/-- Every split of every chunk inside the bounds has arrived (R815). -/
def allBeats (m : Member) : Bool :=
  m.bytes.srcMem ||
    (List.range m.rows).all (fun r => (List.range (m.cols / 32)).all (fun c => (List.range m.bytes.nSplit).all (fun j =>
      m.beats.any (fun b => b.split == j && b.row == r && b.chunk == c))))

/-- The stream digest (R602). -/
def streamDigest (bs : List TBeat) : Nat :=
  bs.foldl (fun a b => a ^^^ Hash.crc64 (toBytes 1 b.split ++ zeroBytes 1 ++ toBytes 2 b.row ++ toBytes 4 b.chunk ++ b.data)) 0

/-- STREAM_DIGEST of a tile that has all its beats, once (R602, R619, R635, R636). -/
def writeStream (s : State) (m : Member) : State :=
  let bs := boundBeats m m.beats
  let dig : Digest := ⟨Ty.streamDigest, 0, 0, streamDigest bs, bs.length⟩
  if m.digests.any (fun d => d.ty == Ty.streamDigest) then s else
  let s1 := s.checkDigests m.seq [dig]
  let key := fun (b : TBeat) => (b.split * 2 ^ 16 + b.row) * 2 ^ 16 + b.chunk
  let data := (bs.mergeSort (fun a b => key a ≤ key b)).flatMap TBeat.data
  let s2 := if m.found dig then s1
    else (s1.wbWriteFor m.seq Ty.streamDigest [streamDigestPart m.seq dig.digest dig.count] .none).captureFlow m data
  s2.modMember m.seq (fun m => { m with digests := m.digests ++ [dig] })

/-- Once its last beat has arrived, the stream of a tile is digested (R619); the tile closes with that once its inputs are here too
(R271, R815). -/
def tryClose (s : State) (seq : Nat) : State :=
  match s.group? seq, s.member? seq with
  | some g, some m =>
    if !m.bytes.is .mcombine || g.dead || m.result.isSome || m.shape.isNone || !allBeats m then s
    else
      let s1 := if m.bytes.srcMem then s else s.writeStream m
      match m.inputs with
      | some inp =>
        let x := s.ctxOf m
        let s2 :=
          if m.zeroShape then s1.finishOp seq (noResult x.o) [] 0
          else
            let q := buildTile x.o m (predTile g m) (combineRow x (s.epiOf m inp) m g)
            s1.finishOp seq ⟨some q.1, [], [], none, []⟩ q.2 0
        (s2.drainBands seq).openBands
      | none => s1
  | _, _ => s

/-- A beat that an open tile keeps (R277, R278): it is added once it is next, with every parked one behind it. -/
def keepBeat (s : State) (g : Group) (m : Member) (t : TBeat) : State :=
  s.modMember m.seq (fun q => runChunk (m.compat == 5) (s.convOf m) g t.row t.chunk { q with beats := q.beats ++ [t] })

/-- A beat for an open tile (R277 to R282, R436, R815). -/
def takeBeat (s : State) (port : Nat) (m : Member) (b : Beat) : State :=
  let d := m.bytes
  let t : TBeat := ⟨Beat'.split b, Beat'.row b, Beat'.chunk b, b.data⟩
  if d.nSplit ≤ t.split ∨ d.planRows ≤ t.row ∨ d.planCols / 32 ≤ t.chunk then s.faultMember m.seq St.splitRange
  else if m.shape.isSome && (boundBeats m [t]).isEmpty then s
  else match m.beats.find? (fun o => o.split == t.split && o.row == t.row && o.chunk == t.chunk) with
    | some o =>
      if o.data = t.data then s.incident (finding Src.asDup port m.seq m.seq) 0
      else (s.faultMember m.seq St.partialConflict).incident (finding Src.asConflict port m.seq m.seq) 7
    | none => match s.group? m.seq with
      | some g => (s.keepBeat g m t).tryClose m.seq
      | none => s

/-- Beats held on their ports are accepted once their tag names an open tile (R756). -/
def takeHeld (s : State) : State :=
  (List.range 16).foldl (fun s p =>
    match (s.asHeld[p]?).join with
    | some b =>
      match s.tagged (Beat'.tag b) with
      | some m => { s with asHeld := s.asHeld.set p none }.takeBeat p m b
      | none => s
    | none => s) s

/-- A beat fails the check of R755; `count`: it is no pattern beat. -/
def failBeat (s : State) (port : Nat) (b : Beat) (count : Bool) : State :=
  let s1 := if count then { s with asCheckFail := satInc s.asCheckFail } else s
  match s1.tagged (Beat'.tag b) with
  | some m => (s1.faultMember m.seq St.partialConflict).incident (finding Src.asCheck port m.seq m.seq) 7
  | none => s1.incident (finding Src.asCheck port 0 0) 7

end State

/-- MCOMBINE (R266 to R276, R289 to R291): the preload, the vectors and, under SRC 1, the partials have been read; the tile closes
once the last partial is there. -/
def execMcombine (seq : Nat) (mem : Image) (s : State) : Res :=
  .next (s.withInputs seq .mcombine mem (fun s g m inp =>
    (s.modMember m.seq (fun q => State.runChunks (m.compat == 5) (s.convOf m) g { q with inputs := some inp })).tryClose m.seq))

/-- AS_BEAT (R277 to R282, R755, R756): a beat is offered at the head of its port. Behind a held beat nothing is offered. -/
def execAsBeat (port : Nat) (beat : Beat) (s : State) : Res :=
  if s.inReset || s.inc.fenced || s.start.parked || ((s.asHeld[port]?).join).isSome then .next s
  else if !Beat'.ok beat then .next (s.failBeat port beat true)
  else match s.tagged (Beat'.tag beat) with
    | some m => .next (s.takeBeat port m beat)
    | none => .next { s with asHeld := s.asHeld.set port (some beat) }

/-- STRAY_WAIT_EXPIRE (R756): a held beat whose tag still names no open tile is discarded. -/
def execStrayWaitExpire (port : Nat) (s : State) : Res :=
  match (s.asHeld[port]?).join with
  | some _ => .next { s with asHeld := s.asHeld.set port none, asStray := satInc s.asStray }
  | none => .next s

/-- ARRIVE_LIMIT_EXPIRE (R283): the tile has stayed open for longer than ARRIVE_LIMIT; its parking is freed. -/
def execArriveLimitExpire (seq : Nat) (s : State) : Res :=
  if bits s.regs.asCtl.toNat 15 0 != 0 && !s.inc.fenced && s.openTiles.any (fun m => m.seq == seq && !m.bytes.srcMem) then
    .next ((s.modMember seq (fun m => { m with beats := [], run := [] })).faultMember seq St.partialMissing)
  else .next s

/-- AS_CHECK_PATTERN (R758, R759): a beat while S9 runs. -/
def execAsCheckPattern (port : Nat) (beat : Beat) (s : State) : Res :=
  if s.inReset || !(s.start.running.any (fun p => p.1 == 9)) then .next s
  else if Beat'.isPattern port beat then
    .next { s with asSeen := s.asSeen.modify port (fun ks => if ks.contains (Beat'.chunk beat) then ks else ks ++ [Beat'.chunk beat]) }
  else
    let s1 := { s with asBad := true }
    .next (if Beat'.ok beat then s1 else s1.failBeat port beat (Beat'.tag beat != 0xFF))

/-- BAND_DRAIN_DONE (R270): a drained band frees its slot, and the cluster can open another. -/
def execBandDrainDone (cluster : Nat) (s : State) : Res :=
  let k := s.cluster cluster
  let draining := fun (b : Band) => match b with | .draining _ => true | _ => false
  if draining k.slotA then .next ((s.modCluster cluster (fun k => { k with slotA := .empty })).openBand cluster)
  else if draining k.slotB then .next ((s.modCluster cluster (fun k => { k with slotB := .empty })).openBand cluster)
  else .next s

-- Row contexts -------------------------------------------------------------------------------------------------------

/-- A segment total as it arrives, where it is of the kind that the operation combines. -/
def SegVal.acc (op : AccOp) : SegVal → Option Acc
  | .empty => some .empty
  | .num v => match op with | .soft | .var => none | _ => some (.num (Fv.of32 v))
  | .st s m => match op with | .soft => some (.st (Fv.of32 s) (Fv.of32 m)) | _ => none
  | .vst n mu m2 => match op with | .var => some (.vst n (Fv.of32 mu) (Fv.of32 m2)) | _ => none

namespace RowCx

/-- The next segment's total is added. -/
def add (op : AccOp) (c : Red.SoftCtx) (x : RowCx) (a : Acc) : RowCx :=
  { x with value := Acc.comb op c x.value a, next := x.next + 1, tots := x.tots ++ [a] }

/-- Parked totals are added as far as they have become next. -/
def drain (op : AccOp) (c : Red.SoftCtx) : Nat → RowCx → RowCx
  | 0, x => x
  | n + 1, x =>
    match x.parked.find? (fun p => p.1 == x.next) with
    | some p => drain op c n { x.add op c p.2 with parked := x.parked.filter (fun q => q.1 != p.1) }
    | none => x

end RowCx

/-- SEGMENT_TOTAL_ARRIVE (R259): a segment total reaches its row context: added in segment order, or parked, up to 4,096 in
all. There are 16,384 row contexts (R26, R41). -/
def execSegmentTotalArrive (seq row seg : Nat) (v : SegVal) (s : State) : Res :=
  match s.group? seq, s.member? seq with
  | some g, some m =>
    match SegVal.acc m.bytes.accOp v with
    | some a =>
      if !g.issued || g.dead || !m.bytes.row || m.result.isSome || m.inputs.isSome || m.tileRows ≤ row || seg < m.firstSeg || m.firstSeg + m.segCount ≤ seg then .next s
      else
        let x := (s.rowCtx.find? (fun c => c.seq == seq && c.row == row)).getD ⟨seq, row, m.firstSeg, .empty, [], []⟩
        let others := s.rowCtx.filter (fun c => !(c.seq == seq && c.row == row))
        let held : Nat := (s.rowCtx.map (fun (c : RowCx) => c.parked.length)).sum
        if seg < x.next || x.parked.any (fun p => p.1 == seg) || 16384 ≤ others.length then .next s
        else if seg = x.next then
          let y := x.add m.bytes.accOp (s.softOf m) a
          .next { s with rowCtx := others ++ [RowCx.drain m.bytes.accOp (s.softOf m) y.parked.length y] }
        else if held < 4096 then .next { s with rowCtx := others ++ [{ x with parked := x.parked ++ [(seg, a)] }] }
        else .next s
    | none => .next s
  | _, _ => .next s

-- The codebook -------------------------------------------------------------------------------------------------------

namespace Cluster

/-- A cluster passes over a block of a descriptor by its scale: a hit gathers from the entry, which is then the most recently
gathered; a miss is evaluated directly and queues a fill for the scale (R166, R168). -/
def passBlock (seq : Nat) (k : Cluster) (sc : Nat) : Cluster :=
  let mine := fun (e : CbEntry) => e.seq == seq && e.scale == sc
  match k.cache.find? mine with
  | some e => { k with cache := k.cache.filter (fun x => !mine x) ++ [e] }
  | none => if k.fills.contains (seq, sc) then k else { k with fills := k.fills ++ [(seq, sc)] }

/-- A queued fill completes (R167, R168): of 64 entries the least recently gathered gives way. Every gather of the blocks passed so
far is over, so none is pending. -/
def takeFill (k : Cluster) (e : CbEntry) : Cluster :=
  if k.fills.contains (e.seq, e.scale) then
    { k with fills := k.fills.filter (· != (e.seq, e.scale)), cache := (if 64 ≤ k.cache.length then k.cache.drop 1 else k.cache) ++ [e] }
  else k

end Cluster

/-- CODEBOOK_FILL_DONE (R165 to R172): a cluster has passed over blocks of a descriptor that runs, and a fill is complete. What the
input holds is read as its operation reads it. -/
def execCodebookFillDone (cluster seq : Nat) (fill : CbFill) (s : State) : Res :=
  match (s.member? seq).bind (fun m => m.bytes.op.bind (s.opReady seq)) with
  | some (g, m) =>
    if m.compat == 5 || !m.bytes.codebook (s.progBytes m.progGen) || !s.takesWork cluster || (s.badInput m).isSome then .next s
    else
      let v := s.elemEnv g m (s.inputsNow fill.mem m)
      let scs := fill.passed.filterMap (fun p => v.lookupScale p.1 p.2)
      let sc := if v.a.fmt.scaled then fill.scale else 0
      .next (s.modCluster cluster (fun k => (scs.foldl (Cluster.passBlock seq) k).takeFill (v.entry sc)))
  | none => .next s

end Sys2Proof.Machine
end

