-- ==== Sys2Proof/Machine/Cwayops.lean ====
section
/-!
DEFINITION. CHAIN, HALO and UPD (R437 to R445, R529 to R541, R556 to R573, R582 to R585), and what a member does when something
of its exchange has arrived.
-/
namespace Sys2Proof.Machine
open Sys2Proof Sys2Proof.Machine.Num

/-- The bytes of a stream from a peer, once all of them have arrived. -/
def rxBytes (e : Exch) (kind src n : Nat) : Option (List Byte) :=
  ((List.range (ceilDiv n 44)).mapM (fun i =>
    (e.rx.find? (fun (x : RxItem) => x.kind == kind && x.src == src && x.offset == 44 * i)).map (fun (x : RxItem) => x.payload))).map
    (fun (ps : List (List Byte)) => ps.flatten.take n)

namespace State

-- CHAIN --------------------------------------------------------------------------------------------------------------

/-- The values that a CHAIN writes and their counts (R127, R439, R531): `done` gives each value's item. -/
def putChain (s : State) (m : Member) (inp : Inputs) (done : Nat → Item) : State :=
  if m.zeroShape then s.finishOp m.seq ⟨none, [], [], none, []⟩ [] 0
  else
    let w := max 1 m.cols
    let one := fun (i : Nat) =>
      let t := done i
      let v : Fv := match t.v with | .num v => v | _ => Fv.zero
      let x := Fv.of32 ((inp.vals.getD (i / w) []).getD (i % w) 0)
      (Fv.to32 v, (if v.isNan || x.isNan then cNAN else 0) ||| t.cns)
    let xs := (List.range (m.rows * m.cols)).map one
    s.finishOp m.seq ⟨none, (cut w (xs.map (·.1))).map (fun (r : List Nat) => r.flatMap (toBytes 4)), [], none, []⟩ (xs.map (·.2)) 0

/-- A CHAIN whose exchange is done. -/
def finishChain (s : State) (m : Member) (inp : Inputs) (e : Exch) : State :=
  s.putChain m inp (fun i => ((e.totals[i]?).join).getD Item.empty)

/-- A CHAIN on its own (R32: one position holds its whole span), or at the start of its exchange. -/
def runChain (s : State) (g : Group) (m : Member) (inp : Inputs) : State :=
  if s.wide m.bytes then
    let s1 := s.startExch g m inp (m.rows * m.cols)
    if m.zeroShape then s1.putChain m inp (fun _ => Item.empty)
    else match s1.exchOf? m.seq with
      | some e => if e.done then s1.finishChain m inp e else s1
      | none => s1
  else
    let v := { s.spanEnv g m inp with count := m.rows * m.cols }
    s.putChain m inp (fun i => Item.fold m.bytes.accOp v.soft Item.empty (v.contrib i 0))

-- HALO ---------------------------------------------------------------------------------------------------------------

/-- The code at column j of A's first or last HALO_W columns (R443); the manual gives no columns where the bounds hold fewer. -/
def haloCode (s : State) (m : Member) (t : Tile) (toNext : Bool) (r j : Nat) : Nat :=
  let w := m.bytes.haloW
  let c := if toNext then m.cols + j - w else j
  if (toNext && m.cols + j < w) || m.cols ≤ c then
    (Config.freeWord (s.freeCtr * 2 ^ 32 + r * 2 ^ 16 + b2n toNext * 2 ^ 15 + j)).toNat % 2 ^ t.fmt.width
  else (t.rows.getD r []).getD c 0

/-- The scale code of the 32 columns from column j on, likewise. -/
def haloScale (s : State) (m : Member) (t : Tile) (toNext : Bool) (r j : Nat) : Nat :=
  let w := m.bytes.haloW
  let c := if toNext then m.cols + j - w else j
  if (toNext && m.cols + j < w) || m.cols ≤ c then
    (Config.freeWord (s.freeCtr * 2 ^ 32 + r * 2 ^ 16 + b2n toNext * 2 ^ 15 + 2 ^ 14 + j)).toNat % 256
  else (t.scales.getD r []).getD (c / 32) 0

/-- What goes to a neighbour: row by row, packed codes and then scale bytes (R540). -/
def haloOut (s : State) (m : Member) (t : Tile) (toNext : Bool) : List Byte :=
  let w := m.bytes.haloW
  (List.range m.rows).flatMap (fun r =>
    Elem.pack t.fmt ((List.range w).map (s.haloCode m t toNext r)) ++
      (if t.fmt.scaled then (List.range (w / 32)).map (fun b => BitVec.ofNat 8 (s.haloScale m t toNext r (32 * b))) else []))

end State

/-- Bytes of a row of a halo region. -/
def haloRow (m : Member) : Nat :=
  let f := (m.bytes.tref 56).fmt
  f.rowBytes m.bytes.haloW + (if f.scaled then m.bytes.haloW / 32 else 0)

/-- The indices of the neighbours that a HALO position hears from (R443, R445): the previous and the next one. -/
def haloPeers (m : Member) (p : Place) : Option Nat × Option Nat :=
  (if m.bytes.haloPrev && 0 < p.i then some (p.i - 1) else none, if m.bytes.haloNext && p.i + 1 < p.n then some (p.i + 1) else none)

namespace State

/-- The receive tile from what has arrived (R443, R445, R541): none while something is missing. A region without a neighbour takes
the fill. -/
def haloTile (s : State) (m : Member) (e : Option Exch) : Option Tile :=
  let p := s.place m.bytes.chainId
  let o := s.orefOf m (m.bytes.tref 72) (m.tab 72)
  let w := m.bytes.haloW
  let n := haloRow m
  let get := fun (i : Option Nat) => match i, e with
    | some i, some e => (rxBytes e Kind.halo (p.pos i) (m.rows * n)).map some
    | _, _ => some none
  let codes := fun (b : Option (List Byte)) (r : Nat) => match b with
    | some bs => Elem.unpack o.fmt w ((bs.drop (r * n)).take (o.fmt.rowBytes w))
    | none => List.replicate w (o.fmt.fillCode (Rnd.bFill o.tab))
  let scales := fun (b : Option (List Byte)) (r : Nat) => match b with
    | some bs => ((bs.drop (r * n + o.fmt.rowBytes w)).take (w / 32)).map BitVec.toNat
    | none => List.replicate (w / 32) 0x7F
  match get (haloPeers m p).1, get (haloPeers m p).2 with
  | some a, some b =>
    let rs := List.range m.rows
    some ⟨o.fmt, o.t, o.tab, rs.map (fun r => codes a r ++ codes b r),
      if o.fmt.scaled then rs.map (fun r => scales a r ++ scales b r) else [], rs.map (fun _ => List.replicate (2 * w) true)⟩
  | _, _ => none

/-- The receive tile of a HALO stands; a HALO narrows nothing and counts nothing. -/
def putHalo (s : State) (m : Member) (t : Tile) : State := s.finishOp m.seq ⟨some t, [], [], none, []⟩ [] 0

/-- The halo columns leave for the neighbours of the span (R540). -/
def sendHalo (s : State) (m : Member) (t : Tile) : State :=
  let p := s.place m.bytes.chainId
  let go := fun (s : State) (i : Option Nat) (toNext : Bool) => match i with
    | some i => s.sendOnce m.seq Kind.halo (p.pos i) 0 (streamFlits (p.pos i) Kind.halo m.bytes.chainId 0 (s.haloOut m t toNext))
    | none => s
  (go (go s (haloPeers m p).2 true) (haloPeers m p).1 false).bump

-- UPD ----------------------------------------------------------------------------------------------------------------

/-- Where the records that a UPD reads lie (R560). -/
def recParts (m : Member) : List (Nat × Nat) :=
  (List.range m.rows).map (fun r => (m.bytes.setAddr m.bytes.inSet + r * m.bytes.setPitch, 16 * m.cols))

/-- A UPD's element: its new record, and the value of its copy with the counts of R568, masked or not. -/
structure UpdCell where
  rec' : List Byte
  cut : Cut
  live : Bool
deriving DecidableEq, Repr

/-- The copies of a row of a UPD (R566, R567): masked elements are written with the exponents of the unmasked ones. -/
def copyRow (s : State) (o : ORef) (r : Nat) (es : List UpdCell) : NRow :=
  narrowWith o r (fun c => Rnd.maskedCode o (o.mode r c) ((es[c]?.map (·.cut.v)).getD (.lin Fv.zero))
      (Config.freeWord (s.freeCtr * 2 ^ 32 + r * 2 ^ 16 + c)).toNat)
    (es.map (fun e => if e.live then some e.cut else none))

/-- The result of a UPD and its counts (R565 to R568): the written records, and the copy under COPY_EN. -/
def updResult (s : State) (g : Group) (m : Member) (inp : Inputs) : Result × List Nat :=
  let d := m.bytes
  let x := s.ctxOf m
  let p := UParam.ofBytes (m.param.getD [])
  let root := s.fnUse m .sqrt 0
  let one := fun (e : Option El × List Byte) => match e.1 with
    | some a => let q := Upd.elem x root p d.wdMode d.bcEn a (URec.ofBytes e.2); UpdCell.mk q.rec'.toBytes ⟨q.copy, q.cns⟩ true
    | none => let q := Upd.masked x e.2; UpdCell.mk q.1 ⟨q.2, 0⟩ false
  let row := fun (r : Nat) => ((rowEls x.c5 x.conv m none (tileA g m inp) r).zip (inp.recs.getD r [])).map one
  let rows := (List.range m.rows).map row
  let copies := rows.mapIdx (s.copyRow x.o)
  let made := rows.map (fun es => es.map (fun _ => true))
  let own := rows.flatMap (fun es => (es.filter (·.live)).map (·.cut.cns))
  (⟨if d.copyEn then some (mkTile x.o copies made) else none, [], rows.map (fun es => es.map (·.rec')), none, []⟩,
    if d.copyEn then copies.flatMap (·.cns) else own)

/-- A UPD's result stands. -/
def putUpd (s : State) (g : Group) (m : Member) (inp : Inputs) : State :=
  if m.zeroShape then
    (s.finishOp m.seq ⟨none, [], [], none, []⟩ [] 0).modMember m.seq (fun m => { m with mirrorDone := true })
  else let q := s.updResult g m inp; (s.finishOp m.seq q.1 q.2 0).bump

/-- The parity stream of the positions before this one, once it is here; none of it is needed at index 0 (R583). -/
def parityReady (s : State) (m : Member) (e : Exch) : Bool :=
  let p := s.place m.bytes.chainId
  p.i == 0 || (rxBytes e Kind.parity (p.pos (p.i - 1)) (14 * m.rows * m.cols)).isSome

/-- The joined stream goes on to the next position of the parity group (R583). -/
def sendParity (s : State) (m : Member) : State :=
  let p := s.place m.bytes.chainId
  match s.member? m.seq with
  | some m' =>
    if p.i + 1 < p.n && !m.zeroShape then
      s.sendOnce m.seq Kind.parity (p.pos (p.i + 1)) 0 (streamFlits (p.pos (p.i + 1)) Kind.parity m.bytes.chainId 0 (s.protStream m'))
    else s
  | none => s

-- What has arrived ---------------------------------------------------------------------------------------------------

/-- A HALO or a UPD under PARITY once all of its exchange has arrived: its digest is written, and its result stands. -/
def streamGo (s : State) (g : Group) (m : Member) (inp : Inputs) : State :=
  match s.exchOf? m.seq with
  | some e =>
    if e.done || !e.senders.all e.signed.contains then s
    else
      let close := fun (s : State) =>
        (s.writeCwDigest m.seq e.chain 0).modExch m.seq (fun e => { e with done := true })
      if m.zeroShape then close s
      else if m.bytes.is .halo then
        match s.haloTile m (some e) with
        | some t => (close s).putHalo m t
        | none => s
      else if s.parityReady m e then ((close s).putUpd g m inp).sendParity m
      else s
  | none => s

/-- Something of an exchange has arrived: the member goes on as far as it can. -/
def exchResume (s : State) (seq : Nat) : State :=
  match s.group? seq, s.member? seq with
  | some g, some m =>
    match m.inputs with
    | some inp =>
      if g.dead || s.inc.fenced then s
      else if m.bytes.is .halo || m.bytes.is .upd then s.streamGo g m inp
      else
        let s1 := exchGo (s.spanEnv g m inp) 4 s
        match s1.exchOf? seq with
        | some e =>
          if e.done && m.result.isNone then
            (if m.bytes.is .chain then s1.finishChain m inp e else s1.finishRows g m inp e)
          else s1
        | none => s1
    | none => s
  | _, _ => s

/-- A HALO on its own, or at the start of its exchange. -/
def runHalo (s : State) (g : Group) (m : Member) (inp : Inputs) : State :=
  if s.wide m.bytes then
    let s1 := (s.modMember m.seq (fun m => { m with inputs := some inp })).sendSigns m
    if m.zeroShape then (s1.finishOp m.seq (noResult (s.orefOf m (m.bytes.tref 72) [])) [] 0).exchResume m.seq
    else (s1.sendHalo m (tileA g m inp)).exchResume m.seq
  else if m.zeroShape then s.finishOp m.seq (noResult (s.orefOf m (m.bytes.tref 72) [])) [] 0
  else match s.haloTile m none with
    | some t => s.putHalo m t
    | none => s

/-- A UPD on its own, or at the start of its parity exchange. -/
def runUpd (s : State) (g : Group) (m : Member) (inp : Inputs) : State :=
  if s.wide m.bytes then
    let s1 := (s.modMember m.seq (fun m => { m with inputs := some inp })).sendSigns m
    if m.zeroShape then (s1.putUpd g m inp).exchResume m.seq else s1.exchResume m.seq
  else s.putUpd g m inp

end State

/-- CHAIN (R437 to R441, R529 to R539). -/
def execChain (seq : Nat) (mem : Image) (s : State) : Res := .next (s.withInputs seq .chain mem State.runChain)

/-- HALO (R442 to R445, R540, R541). -/
def execHalo (seq : Nat) (mem : Image) (s : State) : Res := .next (s.withInputs seq .halo mem State.runHalo)

/-- UPD (R556 to R573, R582 to R585): beside its input items it reads the records of the set that IN_SET names. -/
def execUpd (seq : Nat) (mem : Image) (s : State) : Res :=
  .next (s.withInputs seq .upd mem (fun s g m inp =>
    let parts := if m.zeroShape then [] else State.recParts m
    match s.badPart parts with
    | some a => s.stageFault seq a
    | none => s.runUpd g m { inp with recs := parts.map (fun p => cut 16 (s.rd mem p.1 p.2)) }))

end Sys2Proof.Machine
end

