-- ==== Sys2Proof/Machine/Issue.lean ====
section
/-!
DEFINITION. Issue (R434, R485 to R489, R518, R216 to R218, R542), what is read at issue (R63 to R67, R465 to R469, R562), and memory
errors of a group (R647, R648).
-/
namespace Sys2Proof.Machine
open Sys2Proof

namespace State

-- Waiting at issue ---------------------------------------------------------------------------------------------------

/-- A group that has reached its issue: its GROUP_LAST member taken, alive, a data operation in every member, no FENCE before it
(R451, R486). -/
def atIssue (s : State) (g : Group) : Bool :=
  g.ended && g.allTaken && !g.dead && !g.issued && !g.published && g.members.all (fun (m : Member) => m.bytes.data) && !s.fenceBlocks g

/-- Does an open exchange, or an open tile, hold a group at its issue (R434, R518)? -/
def heldAtIssue (s : State) (g : Group) : Bool :=
  g.members.any (fun (m : Member) =>
    (s.wide m.bytes && (s.exch? m.bytes.chainId).isSome) ||
    (m.bytes.is .mcombine && !m.bytes.srcMem && (s.tagged m.bytes.tileTag).isSome))

/-- Granules that a group takes (R486). -/
def need (s : State) (g : Group) : Nat := (g.members.map (fun (m : Member) => s.allocOf m.bytes)).sum

/-- The member whose item holds the first granule that does not fit the working region (R487). -/
def overflows (s : State) (g : Group) : Option Nat :=
  (g.members.foldl (fun (a : Nat × Option Nat) (m : Member) =>
    let n := a.1 + s.allocOf m.bytes
    (n, if a.2.isNone && decide (s.working < n) then some m.seq else a.2)) (0, none)).2

/-- Does an earlier group wait for staging (R488)? One that has met too few free granules waits until it takes its own, whatever is
free meanwhile. -/
def stagingQueue (s : State) (g : Group) : Bool :=
  s.groups.any (fun (e : Group) =>
    decide (e.firstSeq < g.firstSeq) && s.atIssue e && !s.heldAtIssue e && (s.overflows e).isNone &&
      (e.waited || decide (s.freeGran.length < s.need e)))

/-- Must a group's capture space be reserved in order (R454)? -/
def outOfOrder (s : State) (g : Group) : Bool := g.members.any (fun (m : Member) => m.bytes.capture) && !s.ringInOrder g

-- Replica positions --------------------------------------------------------------------------------------------------

/-- Slots that a group reads and that need a replica position of their own (R215, R217). -/
def needSlots (g : Group) : List Nat :=
  ((g.members.flatMap (fun (m : Member) => m.reads.map (·.1))).filter (fun i => decide (3 ≤ i ∧ i < 64))).eraseDups

/-- Has a slot a pin (R205)? -/
def slotPinned (s : State) (i : Nat) : Bool := s.pinned i (s.slot i).b0.gen || s.pinned i (s.slot i).b1.gen

/-- The positions 3 to 15 that a group could have, unassigned ones first, then those of slots without a pin (R216). -/
def freePositions (s : State) (want : List Nat) : List Nat :=
  let owner := fun (p : Nat) => (List.range 64).find? (fun i => (s.slot i).replica == some p)
  let ps := (List.range 13).map (· + 3)
  ps.filter (fun p => (owner p).isNone) ++
    ps.filter (fun p => match owner p with | some i => !s.slotPinned i && !want.contains i | none => false)

/-- Positions for every slot that a group reads, where there are enough (R216, R218). -/
def assignReplicas (s : State) (g : Group) : Option State :=
  let want := needSlots g
  let missing := want.filter (fun i => (s.slot i).replica.isNone)
  let ps := s.freePositions want
  if missing.length ≤ ps.length then
    some ((missing.zip ps).foldl (fun (s : State) (p : Nat × Nat) =>
      let s1 := { s with slots := s.slots.map (fun (t : Slot) => if t.replica == some p.2 then { t with replica := none } else t) }
      s1.modSlot p.1 (fun t => { t with replica := some p.2 })) s)
  else none

-- Issue --------------------------------------------------------------------------------------------------------------

/-- A member whose bounds stand in its header knows them at issue (R465). -/
def boundAtIssue (m : Member) : Member :=
  if m.bytes.data && m.bytes.shapeAddr = 0 then { m with shape := some ⟨m.bytes.rows, m.bytes.cols, none, none, []⟩ } else m

/-- The contents that granules had are no longer known. -/
def forgetGran (s : State) (gs : List Nat) : State :=
  { s with staging := gs.foldl (fun (m : Memory) g => m.forget (g * 65536) 65536) s.staging }

/-- A group's work is offered to every active cluster (R660, R708). -/
def offerWork (s : State) (first : Nat) : State :=
  s.activeClusters.foldl (fun s c =>
    s.modCluster c (fun k => { k with gated := false, suspectFrom := if k.suspectFrom = 0 then first else k.suspectFrom })) s

/-- A group issues: its granules, its exchanges, GROUP_OPEN, bands for its tiles. -/
def issueGroup (s : State) (g : Group) : State :=
  let n := s.need g
  let gs := s.freeGran.take n
  let s1 := (s.forgetGran gs).modGroup g.firstSeq (fun g => { g with issued := true, waited := false, gran := gs, members := g.members.map boundAtIssue })
  let s2 := g.members.foldl openExch (s1.writeOpen g n)
  (((s2.offerWork g.firstSeq).reserveCaps g.ring).openBands).takeHeld

end State

/-- GROUP_ISSUE (R434, R454, R485 to R489, R518, R519, R542): a group that can issue does, and one whose allocation overflows
faults; the routes of its exchanges come from the memory shown. -/
def execGroupIssue (seq : Nat) (mem : Image) (s₀ : State) : Res :=
  let s := s₀.learnRoutes mem
  match s.group? seq with
  | some g =>
    if !s.atIssue g || s.heldAtIssue g || s.outOfOrder g || s.inc.fenced || s.start.parked || s.inReset then .next s
    else match s.overflows g with
      | some bad => .next (s.faultMember bad St.allocOverflow)
      | none =>
        let wides := g.members.filter (fun (m : Member) => s.wide m.bytes || (m.bytes.is .upd && s.needsDone m.bytes))
        let ask := fun (s : State) => wides.foldl (fun (s : State) (m : Member) => s.needPeers mem m.bytes) s
        let linked := fun (s : State) => wides.all (fun (m : Member) => (s.peersOf m.bytes).all (fun p => (s.link? p).isSome))
        let s0 := ask s
        let s1 := if linked s0 then s0 else ask s0.freeLinks
        if !linked s1 then .next s1
        else if decide (s1.freeGran.length < s1.need g) || (decide (0 < s1.need g) && s1.stagingQueue g) then
          .next (s1.modGroup seq (fun g => { g with waited := true }))
        else match s1.assignReplicas g with
          | some s2 => .next (s2.issueGroup g)
          | none => .next s1
  | none => .next s

namespace State

/-- A member that reads at issue: its group under way, nothing of its ring ahead of its reads (R467, R500). -/
def reading? (s : State) (seq : Nat) : Option (Group × Member) :=
  match s.group? seq, s.member? seq with
  | some g, some m => if g.issued && !g.dead && m.bytes.data && m.result.isNone && !s.inc.fenced then some (g, m) else none
  | _, _ => none

/-- What the checks of R468 and R469 find in a shape word: a status, or 0. -/
def shapeFault (d : Desc) (w : List Byte) : Nat :=
  let rm := field w 8 8
  let cm := field w 16 8
  if field w 24 8 != 0 || rm % 8 != 0 || cm % 8 != 0 || field w 4 4 % 32 != 0 || (d.is .chain && (rm != 0 || cm != 0)) then St.shapeInvalid
  else if d.planRows < field w 0 4 || d.planCols < field w 4 4 then St.shapeExceedsPlan
  else 0

/-- One item of a descriptor has been read in full: its digest is held against what a walk found (R636) and goes to the journal
(R619). -/
def itemRead (s : State) (seq : Nat) (k : Nat × Nat) (bs : List Byte) : State :=
  match s.member? seq with
  | some m => (s.checkDigests seq [m.itemDigest k bs]).noteItem seq k bs
  | none => s

end State

/-- SHAPE_WORD_READ (R466 to R469, R520, R815): the shape word and its masks have been read, once. -/
def execShapeWordRead (seq : Nat) (mem : Image) (s : State) : Res :=
  match s.reading? seq with
  | some (g, m) =>
    if m.bytes.shapeAddr = 0 || m.shape.isSome then .next s
    else match s.badPart [(m.bytes.shapeAddr, 32)] with
      | some a => .next (s.stageFault seq a)
      | none =>
        let w := s.rd mem m.bytes.shapeAddr 32
        let st := State.shapeFault m.bytes w
        if st != 0 then .next (s.faultMember seq st).bump
        else
          let rows := field w 0 4
          let cols := field w 4 4
          let mask := fun (a n : Nat) => if a = 0 then none else some (a, ceilDiv n 8)
          let rm := mask (field w 8 8) rows
          let cm := mask (field w 16 8) cols
          match s.badPart (rm.toList ++ cm.toList) with
          | some a => .next (s.stageFault seq a)
          | none =>
            let get := fun (p : Option (Nat × Nat)) => p.map (fun p => s.rd mem p.1 p.2)
            let q : Shape := ⟨rows, cols, get rm, get cm, w⟩
            let s1 := s.modMember seq (fun m =>
              let m := { m with shape := some q }
              { m with beats := State.boundBeats m m.beats,
                       run := m.run.filter (fun a => decide (a.row < rows) && decide (a.chunk < cols / 32)) })
            let s2 := (s1.bump.itemRead seq (4, 0) (w ++ q.rmask.getD [] ++ q.cmask.getD [])).reserveCaps g.ring
            .next ((s2.checkSigns seq).tryClose seq)
  | none => .next s

/-- VALUE_TABLE_READ (R63 to R67): the table of reference `which` (0 A, 1 O, 2 B, 3 C) has been read, once. -/
def execValueTableRead (seq which : Nat) (mem : Image) (s : State) : Res :=
  let off := 56 + 16 * which
  match s.reading? seq with
  | some (_, m) =>
    if !m.bytes.items.contains (2, off) || (m.kept (2, off)).isSome || s.readsWait m then .next s
    else
      let src := (m.source (2, off)).parts
      match s.badPart src with
      | some a => .next (s.stageFault seq a)
      | none =>
        let bs := src.flatMap (fun p => s.rd mem p.1 p.2)
        let ws := State.words bs
        let s1 := s.bump.itemRead seq (2, off) bs
        if ws.any (fun w => bits w 30 23 == 0xFF) then .next (s1.faultMember seq St.codeTableInvalid)
        else .next (s1.modMember seq (fun m => { m with tabs := m.tabs ++ [(off, ws)] }))
  | none => .next s

/-- PARAM_RECORD_READ (R562): a UPD's parameter record has been read, once. -/
def execParamRecordRead (seq : Nat) (mem : Image) (s : State) : Res :=
  match s.reading? seq with
  | some (_, m) =>
    if !m.bytes.is .upd || m.param.isSome || s.readsWait m then .next s
    else match s.badPart [(m.bytes.paramAddr, 64)] with
      | some a => .next (s.stageFault seq a)
      | none =>
        let bs := s.rd mem m.bytes.paramAddr 64
        .next ((s.modMember seq (fun m => { m with param := some bs })).bump.itemRead seq (6, 0) bs)
  | none => .next s

/-- MEM_READ_ERROR (R642, R647, R648): a read of a group has found an error response or poisoned data. -/
def execMemReadError (seq port addr : Nat) (poisoned : Bool) (s : State) : Res :=
  match s.group? seq with
  | some g =>
    if !g.issued || g.dead || g.published || s.inc.fenced then .next s
    else
      let src := if poisoned then Src.memPoison else Src.memRead
      .next ((s.faultMember seq (if poisoned then St.dataError else St.busError)).incident (finding src port seq addr) 7)
  | none => .next s

/-- MEM_WRITE_ERROR (R642, R648, R691): an output write has got an error response; without a descriptor, the copy of the start
record has. -/
def execMemWriteError (seq port addr : Nat) (s : State) : Res :=
  match s.group? seq with
  | some g =>
    if !g.wrote || g.outDone || g.dead then .next s
    else .next ((s.faultMember seq St.busError).incident (finding Src.memWrite port seq addr) 7)
  | none =>
    if addr != 0 && addr = s.regs.startAddr.toNat && !s.start.active then .next { s with start := { s.start with copyFailed := true } }
    else .next s

end Sys2Proof.Machine
end

