-- ==== Sys2Proof/Machine/Window.lean ====
section
/-!
DEFINITION. Reads of staging: the store window outside the toll and bell apertures (R271 to R274, R484, R644, R654, R749, R750,
R752), and PEEK (R458).
-/
namespace Sys2Proof.Machine
open Sys2Proof

namespace WinReq'

/-- Does a burst lie in the staging store (R749)? -/
def inStage (r : WinReq) : Bool := decide (r.off + r.len ≤ Memory.size)

/-- The granules that a burst touches. -/
def granules (r : WinReq) : List Nat := (List.range (r.len / 65536 + 2)).map (· + r.off / 65536)
  |>.filter (fun g => decide (r.off < (g + 1) * 65536 ∧ g * 65536 < r.off + r.len))

end WinReq'

namespace State

/-- Does a burst touch one of some granules? -/
def touches (req : WinReq) (gs : List Nat) : Bool := (WinReq'.granules req).any gs.contains

/-- The accumulator tile that holds a granule, with the granule's place in it. -/
def accAt (s : State) (n : Nat) : Option (Group × Member × Nat) :=
  s.groups.findSome? (fun g => if g.issued then g.members.findSome? (fun m =>
    if m.bytes.is .mcombine then ((s.accGran g m).findIdx? (· == n)).map (fun i => (g, m, i)) else none) else none)

/-- A byte of a working granule that a group or a retained exchange holds. An accumulator tile shows its FP32 values row by row, its
running ones while it is open (R271, R273, log 90); every other content is left to timing (R484). -/
def heldByte (s : State) (a : Nat) : Byte :=
  let free := Config.freeByte (s.freeCtr * 2 ^ 27 + a)
  match s.accAt (a / 65536) with
  | some (g, m, i) =>
    let o := i * 65536 + a % 65536
    let row := o / (4 * m.bytes.planCols)
    match ((accRow (m.compat == 5) (s.convOf m) g m row)[o % (4 * m.bytes.planCols) / 4]?).join with
    | some v => (toBytes 4 (Fv.to32 v.1)).getD (o % 4) 0
    | none => free
  | none => free

/-- Bytes of staging as a read from outside the descriptors' operations finds them at this moment (R458, R484). -/
def stageBytes (s : State) (a n : Nat) : List Byte :=
  let held := s.heldGran
  (List.range n).map (fun i => if held.contains ((a + i) / 65536) then s.heldByte (a + i) else s.staging.read s.freeCtr (a + i))

end State

/-- WINDOW_WRITE (R274, R484, R654, R749, R750, R752): a write to the store window, the toll and bell apertures apart. -/
def execWindowWrite (req : WinReq) (data : List Byte) (strb : List Bool) (s : State) : Res :=
  if s.inReset || WinReq'.inToll req || WinReq'.inBell req then .next s
  else if s.shut || !req.incr || req.atomic then .next (s.emit (.winWrite req .slverr))
  else if !WinReq'.inStage req then .next (s.emit (.winWrite req .decerr))
  else if State.touches req s.heldGran then .next (s.emit (.winWrite req .slverr))
  else
    let bs := (data.zip strb).map (fun p => if p.2 then some p.1 else none)
    .next ((s.stageWrite req.off (bs.take req.len)).emit (.winWrite req .okay))

/-- WINDOW_READ (R272, R273, R484, R644, R654, R749, R750): a read of the store window, the toll aperture apart. -/
def execWindowRead (req : WinReq) (s : State) : Res :=
  let zero := zeroBytes req.len
  if s.inReset || WinReq'.inToll req then .next s
  else if s.shut || !req.incr || req.atomic then .next (s.emit (.winRead req zero .slverr))
  else if WinReq'.inBell req then .next (s.emit (.winRead req zero .okay))
  else if !WinReq'.inStage req then .next (s.emit (.winRead req zero .decerr))
  else if State.touches req s.openGran && !s.regs.debugCtl.getLsbD 0 then .next (s.emit (.winRead req zero .slverr))
  else match s.ueIn req.off req.len with
    | some a => .next ((s.emit (.winRead req zero .slverr)).incident (finding Src.stageUe (a / 65536) 0 (a % 65536)) 7)
    | none => .next (s.emit (.winRead req (s.stageBytes req.off req.len) .okay)).bump

/-- PEEK (R458, R620, R644): the granules are copied, whatever they hold; they go to memory once GROUP_CLOSE has been reported. -/
def execPeek (seq : Nat) (s : State) : Res :=
  match s.due seq .peek true with
  | some (g, m) =>
    if m.result.isSome then .next s
    else match s.ueIn (65536 * m.bytes.peekGran) (65536 * m.bytes.peekCount) with
      | some a => .next (s.stageFault seq a)
      | none =>
        let data := (List.range m.bytes.peekCount).map (fun i => s.stageBytes (65536 * (m.bytes.peekGran + i)) 65536)
        let s1 := (s.writeOpen g 0).modGroup seq (fun g => { g with issued := true })
        .next (s1.modMember seq (fun m => { m with result := some { emptyResult with perRow := data } })).bump
  | none => .next s

end Sys2Proof.Machine
end

