-- ==== Sys2Proof/Machine/Receive.lean ====
section
/-!
DEFINITION. What arrives on the causeway (R519 to R528, R538, R543 to R549, R554, R577 to R584, R623 to R626): flits in LSEQ order,
the messages of exchanges, protection and journal mirrors, and the time limits of all of them.
-/
namespace Sys2Proof.Machine
open Sys2Proof

/-- A grant of an exchange that has not opened here yet. -/
def Cw.early' (chain peer : Nat) (c : Cw) : Cw :=
  { c with early := if c.early.contains (chain, peer) then c.early else c.early ++ [(chain, peer)] }

namespace State

-- Incidents of a link ------------------------------------------------------------------------------------------------

/-- A flit that no open exchange takes, or that has come before (R524, R526). -/
def stray (s : State) (f : Flit) : State := s.incident (finding Src.cwStray f.src 0 f.chainId) 0

-- Exchanges ----------------------------------------------------------------------------------------------------------

/-- The peers of an open exchange. -/
def exchPeers (s : State) (e : Exch) : List Nat :=
  match s.member? e.seq with | some m => s.peersOf m.bytes | none => []

/-- The peers that this position sends to in an open exchange. -/
def exchReceivers (s : State) (e : Exch) : List Nat :=
  match s.member? e.seq with | some m => m.bytes.receivers (s.place m.bytes.chainId) | none => []

/-- Can a grant of a peer be for an exchange here: one that is open and sends to that peer, or one kept for it after a restart of
the link (R519, R554), which the peer has neither granted nor published? -/
def takesGrant (s : State) (f : Flit) (e : Exch) : Bool :=
  e.chain == f.chainId && !e.granted.contains f.src && !e.pubs.contains f.src &&
    (if e.isOpen then (s.exchReceivers e).contains f.src else e.kept.any (fun (k : TxFlit) => k.peer == f.src))

/-- Can the sender of a grant be a peer (R526): of the open exchange with its CHAIN_ID, or, where none is open, in the span? -/
def grantPeer (s : State) (f : Flit) : Bool :=
  match s.exch? f.chainId with
  | some e => (s.exchPeers e).contains f.src
  | none => let p := s.place f.chainId; decide (p.first ≤ f.src ∧ f.src < p.first + p.n) && f.src != s.position

/-- A grant (R519, R526, R546): credits for the link; the exchange that it names may send, the earliest that the grant can be for,
or once it opens here. -/
def recvGrant (s : State) (f : Flit) : State :=
  let s1 := s.modLink f.src (fun l => { l with credits := l.credits + field f.payload 0 2 })
  match s1.cw.exchs.find? (s1.takesGrant f) with
  | some e =>
    (s1.modCw (fun c => { c with
      exchs := c.exchs.map (fun (x : Exch) => if x.seq == e.seq then { x with granted := x.granted ++ [f.src] } else x) })).pump
  | none => if s.grantPeer f then (s1.modCw (Cw.early' f.chainId f.src)).pump else s.stray f

/-- A flit of an open exchange (R520, R524 to R526, R603): taken once, then the exchange goes on. -/
def recvData (s : State) (kind : Nat) (f : Flit) : State :=
  match s.exch? f.chainId with
  | some e =>
    if !e.senders.contains f.src then s.stray f
    else match rxOf e kind f.src f.attempt f.offset with
      | some x =>
        if x.payload = f.payload then s.stray f
        else (s.abortExch e St.dataError []).incident (finding Src.cwConflict f.src e.seq f.chainId) 7
      | none =>
        let old := (e.digest.find? (fun x => x.1 == f.attempt)).getD (f.attempt, 0, 0)
        let new := (f.attempt, old.2.1 ^^^ flitDigest kind f, old.2.2 + 1)
        let s1 := s.modExch e.seq (fun e => { e with
          rx := e.rx ++ [⟨kind, f.src, f.attempt, f.offset, f.last, f.payload⟩],
          digest := if Kind.digested kind then e.digest.filter (fun x => x.1 != f.attempt) ++ [new] else e.digest })
        (if kind = Kind.sign then s1.checkSigns e.seq else s1).exchResume e.seq
  | none => s.stray f

/-- Can a PUB of a peer be for an exchange here: one that keeps something for the peer; an open one only where the peer has granted
it and nothing of it waits to leave (a repeat after a restart is for an earlier one). -/
def takesPub (s : State) (f : Flit) (e : Exch) : Bool :=
  e.chain == f.chainId && !e.pubs.contains f.src && e.kept.any (fun (k : TxFlit) => k.peer == f.src) &&
    (!e.isOpen || (e.granted.contains f.src &&
      (match s.link? f.src with | some l => l.queue.all (fun (k : TxFlit) => k.own != e.seq) | none => true)))

/-- A peer has published (R528): what was kept for it is let go, of the earliest exchange that the PUB can be for. -/
def recvPub (s : State) (f : Flit) : State :=
  match s.cw.exchs.findIdx? (s.takesPub f) with
  | some i =>
    let free := fun (e : Exch) => { e with pubs := e.pubs ++ [f.src], kept := e.kept.filter (fun (k : TxFlit) => k.peer != f.src) }
    s.modCw (fun c => { c with exchs := (c.exchs.modify i free).filter s.keepExch })
  | none => s.stray f

/-- ABORT (R521). -/
def recvAbort (s : State) (f : Flit) : State :=
  match s.exch? f.chainId with
  | some e => if (s.exchPeers e).contains f.src then s.abortExch e (field f.payload 0 2) [f.src] else s.stray f
  | none => s.stray f

-- Messages of records ------------------------------------------------------------------------------------------------

/-- OFFSET of an opening flit and of a done flit (R576). -/
abbrev openingOff : Nat := 0xFFFFFFFF
abbrev doneOff : Nat := 0xFFFFFFFE

/-- Bytes of the stream of a message: 14 for a state record, 64 for a journal record (R576, R623). -/
def msgLen (m : RxMsg) : Nat := (if m.kind = Kind.waybook then 64 else 14) * m.count

/-- The stream of a message, once all of it is here. -/
def msgStream (m : RxMsg) : Option (List Byte) :=
  ((List.range (ceilDiv (msgLen m) 44)).mapM (fun i => (m.bytes.find? (fun b => b.1 == 44 * i)).map (·.2))).map
    (fun ps => ps.flatten.take (msgLen m))

/-- The number that a done carries: SEQ, or the number of the last record of a WAYBOOK message. -/
def msgNumber (m : RxMsg) : Nat := if m.kind = Kind.waybook then m.seq + m.count - 1 else m.seq

/-- A done goes to the sender (R576, R623). -/
def sendDone (s : State) (m : RxMsg) (status : Nat) : State :=
  (s.queueFlit (mkFlit m.src m.kind 0 0 doneOff true (toBytes 8 (msgNumber m) ++ toBytes 2 status))).pump

/-- A message has its done; an equal one that still waits keeps its place (R580). -/
def dropMsg (s : State) (m : RxMsg) : State := s.modCw (fun c => { c with rx := c.rx.erase m })

/-- Does this block take a message (R578, R581, R624, R625)? -/
def takes (s : State) (m : RxMsg) : Bool :=
  if m.kind = Kind.waybook then
    let c := s.regs.wbmCtl.toNat
    bit c 5 && bits c 21 6 == m.src && bits c 4 0 == m.logSize
  else s.regs.mirrorSize != 0 && decide (64 * m.moff + 16 * m.count ≤ s.regs.mirrorSize.toNat * 65536)

/-- The writes of a message (R577, R624). -/
def msgWrites (s : State) (m : RxMsg) (bs : List Byte) : List (Nat × List Byte) :=
  if m.kind = Kind.waybook then
    (cut 64 bs).mapIdx (fun i r => (s.regs.wbmBase.toNat + 64 * ((m.seq + i) % 2 ^ bits s.regs.wbmCtl.toNat 4 0), r))
  else if m.count = 0 then []
  else [(s.regs.mirrorBase.toNat + 64 * m.moff, (cut 14 bs).flatMap (fun r => r ++ zeroBytes 2))]

/-- The sender of the mirrored journal offers records (R624): the earliest that it has offered is where the journal begins here. -/
def offered (s : State) (m : RxMsg) : State :=
  if m.kind = Kind.waybook && m.src = bits s.regs.wbmCtl.toNat 21 6 then
    s.modWb (fun w => { w with wbmFirst := some (match w.wbmFirst with | some n => min n m.seq | none => m.seq) })
  else s

/-- A message that is complete is written, or refused with an incident (R577, R578, R624, R625). -/
def tryMsg (s : State) (m : RxMsg) : State :=
  match msgStream m with
  | some bs =>
    let s := s.offered m
    if s.takes m then
      (s.msgWrites m bs).foldl (fun s w => s.wr w.1 w.2)
        (s.modCw (fun c => { c with rx := c.rx.erase m ++ [{ m with awaiting := true }] }))
    else ((s.dropMsg m).sendDone m 1).incident (finding Src.mirror m.src 0 (msgNumber m)) 7
  | none => s

/-- A flit of a MIRROR, PARITY or WAYBOOK message from a sender. -/
def recvMsg (s : State) (kind : Nat) (f : Flit) : State :=
  let under := fun (m : RxMsg) => m.src == f.src && m.kind == kind && !m.awaiting
  if f.offset = openingOff then
    let m : RxMsg := if kind = Kind.waybook then ⟨f.src, kind, field f.payload 0 8, 0, field f.payload 8 4, field f.payload 16 1, [], false⟩
      else ⟨f.src, kind, field f.payload 0 8, field f.payload 8 4, field f.payload 12 4, 0, [], false⟩
    (s.modCw (fun c => { c with rx := c.rx.filter (fun x => !under x) ++ [m] })).tryMsg m
  else match s.cw.rx.find? under with
    | some m =>
      if m.bytes.any (fun b => b.1 == f.offset) then s
      else
        let m' := { m with bytes := m.bytes ++ [(f.offset, f.payload)] }
        (s.modCw (fun c => { c with rx := c.rx.map (fun x => if x = m then m' else x) })).tryMsg m'
    | none => s

/-- A done for a written set (R579): PARTNER has written it. One that comes before the set has been sent is of an earlier message. -/
def recvSetDone (s : State) (f : Flit) : State :=
  let seq := field f.payload 0 8
  if f.src = s.partner && field f.payload 8 2 = 0 && (match s.group? seq with | some g => g.wrote | none => false) then
    (s.modMember seq (fun m => { m with mirrorDone := true })).tryFinish seq
  else s

/-- A done for journal records (R606, R623, R626): the earliest message that ends with HIGH_RNUM has its answer; with status 0 its
records are acknowledged. -/
def recvWaybookDone (s : State) (f : Flit) : State :=
  match s.wb.sent.find? (fun (x : Nat × Nat) => x.2 == field f.payload 0 8) with
  | some x =>
    if f.src = s.partner then
      let has := fun (n : Nat) => decide (x.1 ≤ n ∧ n ≤ x.2) && field f.payload 8 2 == 0
      (s.modWb (fun w =>
        let left := w.mirror.filter (fun r => !has r.1)
        { w with
          sent := w.sent.erase x, mirror := left, mirrorLost := w.mirrorLost && !left.isEmpty,
          recs := w.recs.map (fun (r : Rec) => if has r.rnum then { r with acked := true } else r) })).report
    else s
  | none => s

-- Links --------------------------------------------------------------------------------------------------------------

/-- An acknowledgement to a peer (R544, R547): the highest LSEQ received in order. -/
def sendAck (s : State) (peer : Nat) (nak : Bool) : State :=
  match s.link? peer with
  | some l =>
    let had := l.queue.any (fun (f : TxFlit) => f.kind == Kind.ack && (f.payload.getD 4 0) != 0)
    let a := mkFlit peer Kind.ack 0 0 0 true (toBytes 4 ((l.rxSeq + 2 ^ 32 - 1) % 2 ^ 32) ++ toBytes 1 (b2n (nak || had)))
    (s.modLink peer (fun l => { l with queue := a :: l.queue.filter (fun (f : TxFlit) => f.kind != Kind.ack) })).pump
  | none => s

/-- RETRY_MAX; 0 is read as 1 (R516). -/
def retryMax (s : State) : Nat := max 1 (bits s.regs.cwCtl.toNat 23 16)

/-- A resend (R548), of a SYNC that waits for its answer too, or the failure of the link after RETRY_MAX of them (R549). -/
def resendOrFail (s : State) (peer : Nat) : State :=
  match s.link? peer with
  | some l =>
    let first := (l.unacked.head?.map TxFlit.lseq).getD 0  -- the DETAIL of the incident: the flit that the peer lacks
    if l.failed || s.inc.fenced || (l.unacked.isEmpty && l.sync != 0) || ((s.route? peer).isNone && l.sync = 0) then s
    else if s.retryMax ≤ l.resent || l.unacked.any (fun (f : TxFlit) => decide (s.retryMax ≤ f.resends)) then
      (s.modLink peer (fun l => { l with failed := true })).incident (finding Src.cwLinkFail peer 0 first) 0
    else if l.sync = 0 then ((s.modLink peer (fun l => { l with resent := l.resent + 1 })).queueFlit (syncFlit peer l.epoch)).pump
    else s.resend peer
  | none => s

/-- ACK (R546, R548): an LSEQ that has not been sent acknowledges nothing (it is of an earlier epoch); what the peer has is released, its credits return; a NAK asks for the rest again. -/
def recvAck (s : State) (f : Flit) : State :=
  match s.link? f.src with
  | some l =>
    let high := field f.payload 0 4
    let has := fun (x : TxFlit) => decide ((high + 2 ^ 32 - x.lseq) % 2 ^ 32 < 2 ^ 31)
    let gone := l.unacked.filter has
    if 2 ^ 31 ≤ (l.txSeq + 2 ^ 32 - 1 - high) % 2 ^ 32 then s else
    let s1 := s.modLink f.src (fun l => { l with
      unacked := l.unacked.filter (fun x => !has x), again := l.again.filter (fun x => !has x),
      credits := l.credits + gone.countP exchFlit })
    (if bit (field f.payload 4 1) 0 then s1.resendOrFail f.src else s1).pump
  | none => s

/-- SYNC (R554): a newer epoch restarts the link here too; the epoch of this end is the answer to its own SYNC, or a repeat that is
answered, up to RETRY_MAX times; an older epoch is answered with this end's. -/
def recvSync (s : State) (f : Flit) : State :=
  match s.link? f.src with
  | some l =>
    let e := field f.payload 0 4
    if e = l.epoch then
      if l.sync = 0 then (s.modLink f.src (fun l => { l with sync := 1, resent := 0 })).pump
      else if l.sync ≤ s.retryMax then
        ((s.modLink f.src (fun l => { l with sync := l.sync + 1 })).queueFlit (syncFlit f.src l.epoch)).pump
      else s
    else if (e + 2 ^ 32 - l.epoch) % 2 ^ 32 < 2 ^ 31 then s.restartLinkTo f.src e 1
    else (s.queueFlit (syncFlit f.src l.epoch)).pump
  | none => s

/-- A flit in its turn goes to what it is for (R544, R547). A PARITY flit with CHAIN_ID 0 is link-only where it is an opening or a
done, where a link-only message of its sender is under way, and where no UPD has an exchange with that sender under CHAIN_ID 0
(R583, R584). -/
def deliver (s : State) (kind : Nat) (f : Flit) : State :=
  let under := s.cw.rx.any (fun (m : RxMsg) => m.src == f.src && m.kind == kind && !m.awaiting)
  let inExch := !under && f.offset < 0xFFFFFFFE && (match s.exch? f.chainId with
    | some e => e.senders.contains f.src && (match s.member? e.seq with | some m => m.bytes.is .upd | none => false)
    | none => false)
  if kind = Kind.grant then s.recvGrant f
  else if kind = Kind.pub then s.recvPub f
  else if kind = Kind.abort then s.recvAbort f
  else if kind = Kind.waybook then (if f.offset = doneOff then s.recvWaybookDone f else s.recvMsg kind f)
  else if kind = Kind.mirror || (kind = Kind.parity && !inExch && f.chainId = 0) then
    (if f.offset = doneOff then s.recvSetDone f else s.recvMsg kind f)
  else s.recvData kind f

/-- Flits leave the landing buffer in LSEQ order (R546, R547). -/
def deliverGo : Nat → Nat → State → State
  | 0, _, s => s
  | n + 1, peer, s =>
    match s.link? peer with
    | some l =>
      match l.landing.find? (fun (x : Nat × Flit) => x.2.lseq == l.rxSeq) with
      | some x =>
        let s1 := s.modLink peer (fun l => { l with
          rxSeq := (l.rxSeq + 1) % 2 ^ 32, landing := l.landing.filter (fun (y : Nat × Flit) => y.2.lseq != x.2.lseq) })
        deliverGo n peer (s1.deliver x.1 x.2)
      | none => s
    | none => s

/-- Is a causeway port able to receive? -/
def portUp (s : State) (cd : Bool) : Bool := !s.inReset && !s.inc.fenced && !s.start.parked && s.isReady (if cd then 7 else 6)

/-- Does a flit on a lane come to what it is for: the port is up, the transport holds a credit, the lane is in use (R767, R769)? -/
def laneUp (s : State) (cd : Bool) (lane : Nat) : Bool := s.portUp cd && s.rxCredit cd lane && s.laneUsed cd lane

/-- The context and the route of the link to a peer (R513, R542). -/
def meet (s : State) (peer : Nat) (mem : Image) : State :=
  let s1 := s.needLink peer
  let s2 := if (s1.link? peer).isSome then s1 else s1.freeLinks.needLink peer
  if (s2.link? peer).isSome then s2.needRoute mem peer else s2

/-- What a flit on its link does (R542, R546, R547): an ACK or a SYNC stands outside the order of LSEQ; any other flit is kept until
its turn, once, and acknowledged. -/
def heed (s : State) (kind : Nat) (f : Flit) (l : Link) : State :=
  if kind = Kind.ack then (if l.sync = 0 then s else s.recvAck f)
  else if kind = Kind.sync then s.recvSync f
  else if l.sync = 0 then s
  else
    let d := (f.lseq + 2 ^ 32 - l.rxSeq) % 2 ^ 32
    if 2 ^ 31 ≤ d then s.sendAck f.src false
    else if 64 ≤ d || l.landing.any (fun (x : Nat × Flit) => x.2.lseq == f.lseq) then s
    else ((s.modLink f.src (fun l => { l with landing := l.landing ++ [(kind, f)] })).deliverGo 64 f.src).sendAck f.src false

/-- A flit is delivered on a lane: it is removed from the lane's buffer (R767), and its link heeds it where its port is up. -/
def land (s : State) (kind : Nat) (f : Flit) (mem : Image) : State :=
  if s.inReset || !s.rxCredit f.cd f.lane then s
  else
    let s1 := s.takeRx f.cd f.lane
    if !s.laneUp f.cd f.lane then s1
    else
      let s2 := s1.meet f.src mem
      match s2.link? f.src with
      | none => s2
      | some l => s2.heed kind f l

end State

-- The messages (R544) ------------------------------------------------------------------------------------------------

/-- GRANT (R519, R546). -/
def execCwGrant (f : Flit) (mem : Image) (s : State) : Res := .next (s.land Kind.grant f mem)

/-- ACK (R548). -/
def execAck (f : Flit) (mem : Image) (s : State) : Res := .next (s.land Kind.ack f mem)

/-- RUN (R530). -/
def execRun (f : Flit) (mem : Image) (s : State) : Res := .next (s.land Kind.run f mem)

/-- OFFSET (R530, R532). -/
def execOffset (f : Flit) (mem : Image) (s : State) : Res := .next (s.land Kind.offset f mem)

/-- SEGTOT (R530, R534, R538). -/
def execSegtot (f : Flit) (mem : Image) (s : State) : Res := .next (s.land Kind.segtot f mem)

/-- TOTAL (R536, R537). -/
def execTotal (f : Flit) (mem : Image) (s : State) : Res := .next (s.land Kind.total f mem)

/-- HALO (R540, R541). -/
def execHaloMessage (f : Flit) (mem : Image) (s : State) : Res := .next (s.land Kind.halo f mem)

/-- SIGN (R520). -/
def execSign (f : Flit) (mem : Image) (s : State) : Res := .next (s.land Kind.sign f mem)

/-- PUB (R528). -/
def execPub (f : Flit) (mem : Image) (s : State) : Res := .next (s.land Kind.pub f mem)

/-- ABORT (R521). -/
def execAbort (f : Flit) (mem : Image) (s : State) : Res := .next (s.land Kind.abort f mem)

/-- MIRROR (R576 to R578). -/
def execMirror (f : Flit) (mem : Image) (s : State) : Res := .next (s.land Kind.mirror f mem)

/-- PARITY (R583, R584). -/
def execParity (f : Flit) (mem : Image) (s : State) : Res := .next (s.land Kind.parity f mem)

/-- The done of a MIRROR or PARITY message (R579). -/
def execMirrorDone (f : Flit) (mem : Image) (s : State) : Res := .next (s.land Kind.mirror { f with offset := State.doneOff } mem)

/-- WAYBOOK (R623 to R625). -/
def execWaybook (f : Flit) (mem : Image) (s : State) : Res := .next (s.land Kind.waybook f mem)

/-- The done of a WAYBOOK message (R623, R626). -/
def execWaybookDone (f : Flit) (mem : Image) (s : State) : Res := .next (s.land Kind.waybook { f with offset := State.doneOff } mem)

/-- SYNC (R554). -/
def execSync (f : Flit) (mem : Image) (s : State) : Res := .next (s.land Kind.sync f mem)

-- Failures, limits and responses -------------------------------------------------------------------------------------

/-- FLIT_CRC_FAILURE (R547): the flit is discarded and its sender asked for the first missing LSEQ. -/
def execFlitCrcFailure (lane : RxLane) (peer : Nat) (mem : Image) (s : State) : Res :=
  if s.inReset || !s.rxCredit lane.cd lane.lane then .next s
  else
    let s1 := s.takeRx lane.cd lane.lane
    .next (if s.laneUp lane.cd lane.lane then (s1.meet peer mem).sendAck peer true else s1)

/-- ACK_TIMEOUT (R548, R549). -/
def execAckTimeout (peer : Nat) (s : State) : Res := if s.inReset then .next s else .next (s.resendOrFail peer)

/-- TX_CREDIT (R766): a lane may send one flit more. -/
def execTxCredit (cd : Bool) (lane : Nat) (s : State) : Res :=
  if s.inReset then .next s
  else .next (s.modCw (fun c =>
    if cd then { c with credCd := c.credCd.modify lane (· + 1) } else { c with credCu := c.credCu.modify lane (· + 1) })).pump

namespace State

/-- The wait limit of exchanges, in microseconds; 0 for none (R516). -/
def exchLimit (s : State) : Nat := bits s.regs.cwCtl.toNat 15 0

/-- The first peer of an exchange, by position, from which nothing has come. -/
def silentPeer (s : State) (e : Exch) : Nat :=
  let ps := (s.exchPeers e).mergeSort (· ≤ ·)
  match ps.find? (fun p => !e.granted.contains p && !e.rx.any (fun (x : RxItem) => x.src == p)) with
  | some p => p
  | none => ps.headD 0

end State

/-- EXCH_TIMEOUT (R523, R648): an exchange has stayed open for longer than EXCH_LIMIT. -/
def execExchTimeout (chainId : Nat) (s : State) : Res :=
  match s.exch? chainId with
  | some e =>
    match s.group? e.seq with
    | some g =>
      if s.inReset || s.exchLimit = 0 || g.dead || g.published || s.inc.fenced then .next s
      else .next ((s.abortExch e St.busError []).incident (finding Src.exchTimeout (s.silentPeer e) e.seq chainId) 7)
    | none => .next s
  | none => .next s

/-- MIRROR_TIMEOUT (R580, R648): no done for a written set within EXCH_LIMIT. -/
def execMirrorTimeout (seq : Nat) (s : State) : Res :=
  match s.group? seq, s.member? seq with
  | some g, some m =>
    if s.inReset || s.exchLimit = 0 || !g.wrote || g.dead || g.published || m.mirrorDone || s.inc.fenced then .next s
    else .next ((s.faultMember seq St.busError).incident (finding Src.mirror s.partner seq seq) 7)
  | _, _ => .next s

/-- The records without an acknowledgement go to PARTNER again (R626). -/
def State.sendMirror (s : State) : State :=
  ((s.modWb (fun w => { w with sent := w.sent ++ s.mirrorRuns })).queueAll s.mirrorMsgs).pump

/-- MIRROR_LOST (R626): no done for journal records within EXCH_LIMIT. The first time it sets MIRROR_LOST; the records without an
acknowledgement go again. -/
def execMirrorLost (s : State) : Res :=
  match s.wb.recs.find? (fun (r : Rec) => !r.acked), s.wb.mirror with
  | none, [] => .next s
  | r, left =>
    if s.inReset || s.inc.fenced || !s.mirrorEn || s.exchLimit = 0 then .next s
    else if s.wb.mirrorLost then .next s.sendMirror
    else
      let n := match left with | x :: _ => x.1 | [] => (r.map (fun (r : Rec) => r.rnum)).getD 0
      let s1 := (s.modWb (fun w => { w with mirrorLost := true })).incident (finding Src.mirror s.partner 0 n) 0
      .next s1.sendMirror.report

/-- MIRROR_WRITE_RESPONSE (R577): every write response of a received MIRROR or PARITY message has returned. -/
def execMirrorWriteResponse (src seq : Nat) (s : State) : Res :=
  match s.cw.rx.find? (fun (m : RxMsg) => m.awaiting && m.kind != Kind.waybook && m.src == src && m.seq == seq) with
  | some m => .next ((s.dropMsg m).sendDone m 0)
  | none => .next s

/-- The end of the records from `n` on that the runs give without a gap. -/
def contiguous (runs : List (Nat × Nat)) : Nat → Nat → Nat
  | 0, n => n
  | k + 1, n =>
    match runs.find? (fun (x : Nat × Nat) => decide (x.1 ≤ n ∧ n < x.2)) with
    | some x => contiguous runs k x.2
    | none => n

/-- Records up to an end have been written to the mirror window: DX_WBM_HIGH is the number below which every record that the sender
has offered has been (R604, R624). -/
def Wb.mirrored (w : Wb) (first count : Nat) : Wb :=
  let runs := w.wbmRuns ++ [(first, first + count)]
  let base := max w.wbmHigh (w.wbmFirst.getD first)
  let high := contiguous runs runs.length base
  { w with
    wbmHigh := if base < high then high else w.wbmHigh,
    wbmRuns := runs.filter (fun (x : Nat × Nat) => decide (high < x.2)) }

/-- WAYBOOK_WINDOW_WRITE_RESPONSE (R624): the write responses of the earliest received WAYBOOK message of a sender have returned;
DX_WBM_HIGH and DX_WBM_CKPT follow. -/
def execWaybookWindowWriteResponse (src : Nat) (s : State) : Res :=
  match s.cw.rx.find? (fun (m : RxMsg) => m.awaiting && m.kind == Kind.waybook && m.src == src) with
  | some m =>
    let rs := cut 64 ((State.msgStream m).getD [])
    let cks := (rs.zipIdx.filter (fun p => field p.1 8 1 == Ty.checkpoint)).map (fun p => m.seq + p.2)
    .next (((s.dropMsg m).sendDone m 0).modWb (fun w =>
      { w.mirrored m.seq m.count with wbmCkpt := match cks.getLast? with | some n => n | none => w.wbmCkpt }))
  | none => .next s

end Sys2Proof.Machine
end

