-- ==== Sys2Proof/Machine/Detect.lean ====
section
/-!
DEFINITION. Errors that a detector reports, the end of a recovery, and the scrub of staging (R642 to R646, R651, R667 to R673).
-/
namespace Sys2Proof.Machine
open Sys2Proof

namespace State

/-- What a detection does beside its incident (R642, R644): a resident word stays in error until it is written, and the descriptor
that read it completes with DATA_ERROR; a codebook entry is dropped. -/
def noteError (s : State) (f : Finding) : State :=
  if f.source = Src.stageUe && decide (f.unit < s.resident) then
    let w := (f.unit * 65536 + f.addr) / 32
    let s1 := { s with ue := if s.ue.contains w then s.ue else s.ue ++ [w] }
    if (s1.member? f.seq).isSome then s1.faultMember f.seq St.dataError else s1
  else if f.source = Src.codebookPe then
    s.modCluster f.unit (fun k => { k with cache := k.cache.filter (fun (e : CbEntry) => e.scale != f.addr) })
  else s

/-- Is the current recovery over (R651)? -/
def recoveryOver (s : State) (e : IncEntry) : Bool :=
  if e.sevFinal = 2 then true
  else if e.sevFinal = 3 then !s.inc.scanDue && !s.wb.recs.any (fun (r : Rec) => r.act == .epoch)
  else false

end State

/-- INCIDENT_DETECT (R642 to R646, R663 to R673). -/
def execIncidentDetect (f : Finding) (s : State) : Res :=
  if s.inReset then .next s else .next ((s.noteError f).incident f 0)

/-- RECOVERY_END (R651, R668): the current recovery ends, if it is over; an S3 whose scan is still due is given the journal. -/
def execRecoveryEnd (mem : Image) (s : State) : Res :=
  if s.inReset then .next s
  else match s.inc.cur with
    | some p =>
      match s.entry? p with
      | some e =>
        if s.inc.scanDue && e.sevFinal = 3 then .next (if mem.isEmpty then s else s.scanNow mem)
        else if s.recoveryOver e then .next ((s.endRecovery mem).settleS2 mem 33)
        else .next s
      | none => .next s
    | none => .next s

/-- SCRUB (R642): the scrub has read a word of staging; one or two bits in error are corrected in place, three record nothing. -/
def execScrub (word bits : Nat) (s : State) : Res :=
  if s.inReset || bits = 0 || 2 < bits || s.ue.contains word || Memory.size ≤ 32 * word then .next s
  else .next (s.incident (finding Src.stageCe (word / 2048) 0 (32 * (word % 2048))) 0)

end Sys2Proof.Machine
end

