-- ==== Sys2Proof/Machine/Governor.lean ====
section
/-!
DEFINITION. The load-step governor, the PG exchange, droop and calibration (R707 to R737, R771). Time is not modelled: that an
interval has passed is the command.
-/
namespace Sys2Proof.Machine
open Sys2Proof

/-- A PG word (R716). -/
def pgWord (ty level lead token : Nat) : Nat := ty + (level <<< 4) + (lead <<< 8) + (token <<< 24)

namespace State

def modGov (s : State) (f : Gov → Gov) : State := { s with gov := f s.gov }

-- Settings (R727, R738) ----------------------------------------------------------------------------------------------

def pgBypass (s : State) : Bool := s.regs.govCtl.getLsbD 0
def localCap (s : State) : Nat := bits s.regs.govCtl.toNat 4 1
def slewLimit (s : State) : Nat := max 1 (bits s.regs.govSlew.toNat 7 0)
def iStep (s : State) : Nat := max 1 (bits s.regs.govSlew.toNat 15 8)
/-- STEP_INT (R715). -/
def stepInt (s : State) : Nat := ceilDiv (s.iStep * 175) (10 * s.slewLimit)
def lead (s : State) : Nat := max 0xAF (bits s.regs.govLead.toNat 15 0)
def guardTaps (s : State) : Nat := bits s.regs.govGuard.toNat 7 0
def provGuard (s : State) : Nat := bits s.regs.govGuard.toNat 15 8

/-- The budget and the cap in force (R717, R725, R727). -/
def budget (s : State) : Nat :=
  if s.pgBypass then s.localCap else if s.gov.pgLost then min s.gov.budget.toNat 3 else s.gov.budget.toNat
def capNow (s : State) : Nat := if s.pgBypass then 15 else s.gov.cap.toNat
def limit (s : State) : Nat := min s.budget s.capNow

-- Words --------------------------------------------------------------------------------------------------------------

/-- A word leaves on PG, unless PG_BYPASS is set (R727). -/
def sendPg (s : State) (w : Nat) : State := if s.pgBypass then s else s.emit (.pg w)

/-- LEVEL, after a step or a change of stretch state (R724). -/
def sendLevel (s : State) : State := s.sendPg (pgWord 3 s.gov.level.toNat (b2n s.gov.stretch) 0)

/-- The filler runs while the demand is below the level (R721). -/
def settleGov (s : State) : State := s.modGov (fun g => { g with filler := decide (g.demand.toNat < g.level.toNat) })

/-- The next token; 0 names no forecast (R716). -/
def nextToken (s : State) : BitVec 8 := if s.gov.token = 0xFF then 1 else s.gov.token + 1

/-- A forecast toward a level (R718, R720). Under PG_BYPASS the governor moves without one (R727). -/
def forecastTo (s : State) (l : Nat) : State :=
  if s.pgBypass then s.modGov (fun g => { g with ramp := some (min l s.limit), unforecast := false })
  else
    let t := s.nextToken
    (s.modGov (fun g => { g with token := t, forecast := some ⟨l, s.lead, t.toNat⟩ })).sendPg (pgWord 1 l s.lead t.toNat)

/-- CANCEL of the outstanding forecast (R719). -/
def cancelForecast (s : State) : State :=
  match s.gov.forecast with
  | some f => (s.modGov (fun g => { g with forecast := none })).sendPg (pgWord 2 0 0 f.token)
  | none => s

/-- A rise is forecast where the demand asks for one and it is or could be granted (R718). -/
def seekRise (s : State) : State :=
  if s.gov.forecast.isNone && s.gov.ramp.isNone && decide (s.gov.level.toNat < s.gov.demand.toNat) &&
      (decide (s.gov.level.toNat < s.limit) || (!s.pgBypass && decide (s.gov.level.toNat < s.capNow)))
  then s.forecastTo s.gov.demand.toNat else s

/-- Does the full-load point of S4 run, or wait to run (R733)? -/
def calibrating (s : State) : Bool := s.start.running.any (fun p => p.1 == 4) && !s.start.altUse.getLsbD 4

/-- The demand of this moment (R713, R733): 15 while S4 calibrates at full load, 0 where nothing is issued or the block is fenced
or parked; how it depends on the issued groups the manual leaves open. -/
def demandNow (s : State) : BitVec 4 :=
  if s.inc.fenced || s.start.parked then 0
  else if s.calibrating then 15
  else if s.groups.any (fun g => g.issued && !g.dead && !g.closeWritten) then Config.freeDemand s.freeCtr
  else 0

/-- A descent without a forecast, to the limit in force (R722, R723). -/
def descend (s : State) : State :=
  if s.limit < s.gov.level.toNat then s.modGov (fun g => { g with ramp := some s.limit, unforecast := true })
  else s.modGov (fun g => { g with ramp := g.ramp.map (min s.limit) })

/-- A reserved or truncated word is counted (R716, R771). -/
def countPgBad (s : State) : State := s.modGov (fun g => { g with pgBad := if g.pgBad = 0xFFF then g.pgBad else g.pgBad + 1 })

/-- The calibration points, in percent of the issue duty (R732, R733). -/
def calPoints : List Nat := [10, 50, 100]

/-- The calibration entry in force (R732): that of the lowest point whose load is at or above the level's duty (L + 1) ÷ 16. -/
def calInForce (s : State) : Cal :=
  s.gov.cals.getD ((calPoints.findIdx? (fun p => decide ((s.gov.level.toNat + 1) * 100 ≤ 16 * p))).getD 2) ⟨0, 0, false, false⟩

/-- The trigger in force, in taps (R728, R732). -/
def trigger (s : State) : Nat := s.calInForce.trig.toNat

/-- A trigger (R731): eight bits hold it. What the field shows where the sum does not fit the manual leaves open. -/
def trigOf (s : State) (n : Nat) : BitVec 8 := if n < 256 then BitVec.ofNat 8 n else (Config.freeWord s.freeCtr).truncate 8

end State

/-- DEMAND_UPDATE (R713, R718, and the demand that falls before a rise begins). -/
def execDemandUpdate (s : State) : Res :=
  if s.inReset then .next s
  else
    let d := s.demandNow
    let s1 := (s.modGov (fun g => { g with demand := d })).bump
    let s2 := match s1.gov.forecast with
      | some f => if s1.gov.level.toNat < f.level && decide (d.toNat < f.level) then s1.cancelForecast else s1
      | none => s1
    .next s2.seekRise.settleGov

/-- FORECAST_START (R719, R720): the announced cycle of the outstanding forecast. -/
def execForecastStart (s : State) : Res :=
  match s.gov.forecast with
  | some f =>
    if s.inReset then .next s
    else if f.level ≤ s.gov.level.toNat || f.level ≤ s.budget then
      .next (s.modGov (fun g => { g with forecast := none, ramp := some f.level, unforecast := false })).settleGov
    else .next (s.cancelForecast.forecastTo s.gov.demand.toNat).settleGov
  | none => .next s

/-- LEVEL_STEP (R714, R717, R724, R729, R736): one step toward the level that is being moved to. -/
def execLevelStep (s : State) : Res :=
  match s.gov.ramp with
  | some t =>
    if s.inReset then .next s
    else
      let l := s.gov.level.toNat
      let stepTo := fun (n : Nat) =>
        let s1 := s.modGov (fun g => { g with
          level := BitVec.ofNat 4 n, ramp := if n = t then none else g.ramp, unforecast := g.unforecast && n != t,
          recal := g.recal && n == 15 })
        s1.sendLevel.settleGov
      if l < t then
        if s.gov.stretch then .next s
        else if s.limit ≤ l then .next (s.modGov (fun g => { g with ramp := none, unforecast := false }))
        else .next (stepTo (l + 1))
      else if t < l then .next (stepTo (l - 1))
      else .next (s.modGov (fun g => { g with ramp := none, unforecast := false }))
  | none => .next s

/-- HOLD_EXPIRE (R720): the demand has stayed below the level for HOLD cycles. -/
def execHoldExpire (s : State) : Res :=
  if !s.inReset && decide (s.gov.demand.toNat < s.gov.level.toNat) && s.gov.forecast.isNone && s.gov.ramp.isNone then
    .next (s.forecastTo s.gov.demand.toNat).settleGov
  else .next s

/-- PG_GRANT (R717, R719, R723, R725). -/
def execPgGrant (level _token : Nat) (s : State) : Res :=
  if s.inReset || s.pgBypass then .next s
  else .next (s.modGov (fun g => { g with budget := BitVec.ofNat 4 level, pgLost := false })).descend

/-- THROTTLE (R722, R725). -/
def execThrottle (level : Nat) (s : State) : Res :=
  if s.inReset || s.pgBypass then .next s
  else .next (s.modGov (fun g => { g with
    cap := BitVec.ofNat 4 level, budget := BitVec.ofNat 4 (min g.budget.toNat (level % 16)), pgLost := false })).descend

/-- RAIL_GOOD (R710, R716): bit 0 of its LEVEL is VDD_CORE, bit 1 VDD_SRAM. -/
def execRailGood (level : Nat) (s : State) : Res :=
  .next (s.modGov (fun g => { g with coreGood := bit level 0, sramGood := bit level 1, pgLost := false }))

/-- PG_RESERVED_WORD (R716, R727). -/
def execPgReservedWord (word : Nat) (s : State) : Res :=
  if s.inReset || s.pgBypass || [1, 2, 3, 8, 9, 10].contains (bits word 3 0) then .next s else .next s.countPgBad

/-- PG_WORD_TRUNCATED (R771, R727). -/
def execPgWordTruncated (s : State) : Res := if s.inReset || s.pgBypass then .next s else .next s.countPgBad

/-- PG_LOST (R725): no manager word for 1 ms; the governor steps down to its new budget with a forecast. -/
def execPgLost (s : State) : Res :=
  if s.inReset || s.pgBypass || s.gov.pgLost then .next s
  else
    let s1 := s.modGov (fun g => { g with pgLost := true })
    if s1.budget < s1.gov.level.toNat then
      .next ((s1.cancelForecast.modGov (fun g => { g with ramp := none })).forecastTo (min s1.budget s1.gov.demand.toNat)).settleGov
    else .next s1

/-- DROOP_STRETCH (R728, R730, R724, R732): a monitor's slack falls below the trigger in force; no slack is below a trigger of 0
taps (log 93: DEDUCED). -/
def execDroopStretch (s : State) : Res :=
  if s.inReset || s.gov.stretch || decide (s.trigger = 0) then .next s
  else .next (s.modGov (fun g => { g with stretch := true, stretchCnt := satInc g.stretchCnt })).sendLevel

/-- STRETCH_END (R728, R729, R724): every monitor has stayed at or above the trigger for 64 ROOT_CLK cycles. -/
def execStretchEnd (s : State) : Res :=
  if s.gov.stretch && !s.inReset then .next (s.modGov (fun g => { g with stretch := false })).sendLevel
  else .next s

/-- RECAL_WINDOW (R735): the level has been 15 for SUSTAIN µs while the calibration is provisional. -/
def execRecalWindow (s : State) : Res :=
  if s.gov.calProv && s.gov.level = 15 && !s.gov.recal && !s.inReset then .next (s.modGov (fun g => { g with recal := true })) else .next s

namespace State

/-- A byte of the start record changes, and its CRC with it. -/
def patchRecord (s : State) (f : List Byte → List Byte) : State :=
  let b := (f (toBytes 64 s.start.rec'.toNat)).take 56
  { s with start := { s.start with rec' := BitVec.ofNat 512 (ofBytes (b ++ toBytes 8 (Hash.crc64 b))) } }

end State

/-- RECAL_COMPLETE (R735, R736): the measurement over the workload ends. One that the level has left has been discarded. -/
def execRecalComplete (drop : Nat) (s : State) : Res :=
  if s.gov.recal && !s.inReset then
    let t50 := ((s.gov.cals[1]?).map (fun c => c.trig.toNat)).getD 0
    let c : Cal := ⟨BitVec.ofNat 8 drop, s.trigOf (max (s.guardTaps + drop) t50), true, false⟩
    let s1 := s.modGov (fun g => { g with recal := false, calProv := false, cals := g.cals.set 2 c })
    let s2 := { s1 with start := { s1.start with calProv := false } }
    .next (s2.patchRecord (fun b => b.set 41 0)).bump
  else .next s

/-- CLUSTER_CLOCK_GATED (R707): a cluster that holds no work has held none for 64 cycles. -/
def execClusterClockGated (domain : Nat) (s : State) : Res :=
  let c := s.cluster domain
  let idle := c.slotA == .empty && c.slotB == .empty && c.fills.isEmpty && s.assay.running != some domain &&
    !(s.takesWork domain && s.groups.any (fun g => g.issued && !g.dead && g.members.any (fun m => m.result.isNone)))
  if domain < 17 && idle then .next (s.modCluster domain (fun c => { c with gated := true })) else .next s

end Sys2Proof.Machine
end

