-- ==== Sys2Proof/Machine/Start.lean ====
section
/-!
DEFINITION. Resets and the start (R675 to R696, R742, R743): RESET_ASSERT, COLD_RESET_RELEASE, WARM_RESET_RELEASE,
START_STEP_DONE, START_STEP_TIMEOUT, and the start steps with what each leaves.
-/
namespace Sys2Proof.Machine
open Sys2Proof

/-- Has a step an alternative (R681)? -/
def stepHasAlt (n : Nat) : Bool := [1, 4, 7, 8].contains n
/-- Is a step mandatory (R681)? -/
def stepMandatory (n : Nat) : Bool := decide (n ≤ 6)

def StepCode.bits : StepCode → Nat
  | .pass => 0 | .passAlt => 1 | .skipped => 2 | .failed => 3

/-- The function that a step S6 to S9 makes ready, beside those of S0 to S5 (R692). -/
def stepFunction (n : Nat) : Nat :=
  match n with | 6 => 9 | 7 => 6 | 8 => 7 | _ => 8

namespace State

def modStart (s : State) (f : StartSt → StartSt) : State := { s with start := f s.start }

def startCtl (s : State) (b : Nat) : Bool := s.regs.startCtl.getLsbD b
def stepLimit (s : State) : Nat := bits s.regs.startCtl.toNat 31 16

def stepCode (s : State) (n : Nat) : Option StepCode := (s.start.codes[n]?).join
/-- Has a step passed (R692)? -/
def stepPassed (s : State) (n : Nat) : Bool := s.stepCode n == some .pass || s.stepCode n == some .passAlt
def stepRunning (s : State) (n : Nat) : Bool := s.start.running.any (fun p => p.1 == n)
/-- Has a step begun in this start? -/
def stepBegun (s : State) (n : Nat) : Bool := s.stepRunning n || (s.stepCode n).isSome

-- Resets -------------------------------------------------------------------------------------------------------------

/-- A cold reset (R675, R677): everything at its reset value. What the model keeps is no state of the block: the commands that
wait, the part's grade, what has left, the counter of free values, and what the manager has said of the rails (R710). -/
def coldReset (s : State) : State :=
  { State.reset with
    pending := s.pending, grade := s.grade, out := s.out, freeCtr := s.freeCtr,
    gov := { State.resetGov with coreGood := s.gov.coreGood, sramGood := s.gov.sramGood } }

/-- An entry of the incident log across a warm reset (R663): its recovery has ended, and its record is written again. -/
def entryAfterReset (e : IncEntry) : IncEntry :=
  { e with state := if e.state < 2 then 2 else e.state, written := false, reported := false }

/-- Is a record a toll entry? What it records stays in force across a warm reset, so it is written again where it has not landed
(R381, R382). -/
def tollRec (r : Rec) : Bool := match r.act with | .toll | .tollSet _ => true | _ => false

/-- What a warm reset drops and keeps (R677, R679, R655). -/
def warmDrop (s : State) : State :=
  let ring := fun (g : Ring) => { State.resetRing with ctl := g.ctl, base := g.base, head := g.head, cpl := g.cpl }
  let clus := fun (c : Cluster) => { State.resetCluster with spare := c.spare, retired := c.retired, passed := c.passed }
  let load := fun (l : Load) => if l.phase = .done then l else { l with phase := .accepted }
  { s with
    rings := s.rings.map ring, groups := [], clusters := s.clusters.map clus, rowCtx := [], loads := s.loads.map load,
    setup := { s.setup with apb := State.resetPath, dbg := State.resetPath },
    pad := { s.pad with pendingSet := none },
    staging := s.staging.forget (s.resident * 65536) (Memory.size - s.resident * 65536),
    ue := s.ue.filter (fun w => decide (32 * w < s.resident * 65536)),
    asHeld := List.replicate 16 none, asSeen := List.replicate 16 [], asBad := false,
    tolls := { s.tolls with waits := [], asks := [], sets := [] },
    wb := { s.wb with recs := s.wb.recs.filter tollRec, stopped := false, mirrorLost := false, since := 0, mirror := [], sent := [] },
    cw := State.resetCw,
    assay := ⟨0, none, none⟩,
    inc := { s.inc with log := s.inc.log.map (fun e => e.map entryAfterReset), cur := none, fenced := false, fenceEntry := none,
                        scanDue := false, s1since := State.resetInc.s1since },
    gov := { s.gov with level := 0, demand := 0, stretch := false, recal := false, forecast := none, ramp := none, unforecast := false,
                        filler := false },
    start := { State.resetStart with
      active := false, running := [], warm := true, rec' := s.start.rec', warmCount := s.start.warmCount, calProv := s.start.calProv,
      stuck := s.start.stuck } }

-- Readiness ----------------------------------------------------------------------------------------------------------

/-- A function becomes ready once every step named for it has passed (R692). -/
def makeReady (s : State) (n : Nat) : State :=
  if !s.isReady n && (stepsOf n).all s.stepPassed && !s.inc.fenced && !s.start.parked then
    let b := 1#16 <<< n
    { s with start := { s.start with ready := s.start.ready ||| b }, setup := { s.setup with irqReady := s.setup.irqReady ||| b } }
  else s

def makeAllReady (s : State) : State := [2, 3, 4, 5, 6, 7, 8, 9].foldl makeReady s

-- The start record ---------------------------------------------------------------------------------------------------

/-- STEP_CODES (R689): a step never reached reads 0b10. -/
def stepCodes (s : State) : Nat :=
  (List.range 10).foldl (fun a n => a + (((s.stepCode n).getD .skipped).bits <<< (2 * n))) 0

/-- The start record (R690). -/
def startRecord (s : State) : List Byte :=
  let t := s.start
  let b := toBytes 4 0x54525453 ++ toBytes 1 1 ++ toBytes 1 (b2n t.warm) ++ toBytes 2 t.ready.toNat ++ toBytes 4 s.stepCodes ++
    toBytes 2 t.failLast.toNat ++ toBytes 2 t.altUse.toNat ++ toBytes 4 t.warmCount.toNat ++ zeroBytes 4 ++ toBytes 8 s.fpSettings ++
    toBytes 8 s.now ++ toBytes 1 t.parkStep.toNat ++ toBytes 1 (b2n s.gov.calProv) ++ toBytes 1 (b2n t.halfCu + 2 * b2n t.halfCd) ++
    toBytes 1 s.activeClusters.length ++
    toBytes 2 ((s.clusters.map (fun c => c.spare.countP (fun e => e.getLsbD 8))).sum) ++ toBytes 1 (b2n t.repairAlt) ++
    toBytes 1 (b2n t.hintUsed + 2 * b2n t.hintBad + 4 * b2n t.parked) ++ zeroBytes 8
  b ++ toBytes 8 (Hash.crc64 b)

/-- Is a record a start record (R688)? -/
def recordOk (b : List Byte) : Bool :=
  field b 0 4 == 0x54525453 && field b 4 1 == 1 && field b 56 8 == Hash.crc64 (b.take 56)

/-- The start ends (R691). -/
def endStart (s : State) : State :=
  let b := s.startRecord
  let s1 := (s.modStart (fun t => { t with active := false, rec' := BitVec.ofNat 512 (ofBytes b) })).bump
  let s2 := if s.regs.startAddr.toNat != 0 && s.stepPassed 1 && !s.start.parked then s1.wr s.regs.startAddr.toNat b else s1
  if s2.wbOpen then s2.wbWrite Ty.start [startPart s.start.warm s.start.ready.toNat s.stepCodes s.fpSettings] .none else s2

/-- The block parks (R680, R686): every step that runs is abandoned, setup and debug alone stay ready. -/
def park (s : State) (step : Nat) : State :=
  let codes := if step < 10 then s.start.codes.set step (some .failed) else s.start.codes
  let s1 := s.modStart (fun t => { t with
    parked := true, running := [], codes := codes, ready := 3, parkStep := BitVec.ofNat 8 step, waitingGo := false, rerun := [] })
  (s1.modWb (fun w => { w with stopped := true })).refuseWaiting.endStart

-- Steps --------------------------------------------------------------------------------------------------------------

/-- Does the previous start record ask for a step's alternative first (R684)? -/
def altFirst (s : State) (n : Nat) (prev : Option (List Byte)) : Bool :=
  stepHasAlt n && !s.startCtl 2 && (match prev with | some b => bit (field b 12 2) n || bit (field b 14 2) n | none => false)

/-- An attempt at a step begins. S3 and S4 put the clusters to work; S4 forecasts the full load (R733); S9 watches the pattern. -/
def tryStep (s : State) (n attempt : Nat) (alt : Bool) : State :=
  let s1 := s.modStart (fun t => { t with
    running := t.running.filter (fun p => p.1 != n) ++ [(n, attempt)], altUse := if alt then t.altUse ||| (1#16 <<< n) else t.altUse })
  if n = 3 then { s1 with clusters := s1.clusters.map (fun c => { c with gated := false }) }
  else if n = 4 then (if alt then s1 else ((s1.modGov (fun g => { g with demand := 15 })).seekRise).settleGov)
  else if n = 9 then { s1 with asSeen := List.replicate 16 [], asBad := false }
  else s1

/-- A step begins in a start: S9 is skipped where the previous record shows that it failed (R685). -/
def beginStep (s : State) (n : Nat) : State :=
  let failed9 := match s.start.prev with | some b => n == 9 && bit (field b 12 2) 9 | none => false
  if failed9 then s.modStart (fun t => { t with codes := t.codes.set 9 (some .skipped) })
  else s.tryStep n 1 (s.altFirst n s.start.prev)

/-- A start begins at S0 (R675, R676). -/
def beginStart (s : State) (warm : Bool) : State :=
  let prev := if warm && recordOk (toBytes 64 s.start.rec'.toNat) then some (toBytes 64 s.start.rec'.toNat) else none
  s.modStart (fun t => { t with
    active := true, warm := warm, prev := prev, running := [(0, 1)], warmCount := if warm then t.warmCount + 1 else t.warmCount })

/-- S0 has passed and nothing waits for GO any more: S1 begins. -/
def leaveWait (s : State) : State := (s.modStart (fun t => { t with waitingGo := false })).beginStep 1

/-- Calibration (R731, R733, R734, R737): the points measured, and the 100 % entry where it is provisional. -/
def calibrate (s : State) (drops : List Nat) (alt : Bool) : State :=
  let d := fun i => drops.getD i 0
  let point := fun i => (⟨BitVec.ofNat 8 (d i), s.trigOf (s.guardTaps + d i), true, false⟩ : Cal)
  let t50 := (point 1).trig.toNat
  let full : Cal := if alt then ⟨0, s.trigOf (max t50 s.guardTaps + s.provGuard), true, true⟩ else point 2
  let s1 := s.modGov (fun g => { g with cals := [point 0, point 1, full], calProv := alt, demand := 0 })
  (s1.cancelForecast.modStart (fun t => { t with calProv := alt })).bump

/-- The banks that S2 finds bad become empty (R681, R642). -/
def dropBanks (s : State) (bad : List (Nat × Nat)) : State :=
  bad.foldl (fun s p =>
    let b := (s.slot p.1).bank (p.2 == 1)
    if b.img.isSome then
      (s.modSlot p.1 (fun t => t.setBank (p.2 == 1) emptyBank)).incident (finding Src.bankCrc (2 * p.1 + p.2) 0 b.gen) 7
    else s) s

-- S6 -----------------------------------------------------------------------------------------------------------------

/-- TAKEOVER (R604, R639). -/
def takeover (s : State) : Bool := s.regs.wbCtl.getLsbD 7

/-- The SEAL entries of changes made while the waybook was not ready (R703). -/
def writeSeals (s : State) : State :=
  let s1 := s.seals.unjournalled.foldl (fun s c =>
    s.wbWrite Ty.sealed (sealParts c.field c.change (s.wb.nextSeq - 1) c.old c.new) .none) s
  { s1 with seals := { s1.seals with unjournalled := [] } }

/-- Pending changes after a warm reset (R702): applied where the scan finds the SEAL entry, dropped otherwise. -/
def settleSeals (s : State) (es : List JEntry) : State :=
  let found := fun (p : SealPend) => p.written && es.any (fun e =>
    e.ty == Ty.sealed && e.fld 0 16 1 == p.field.code && e.fld 0 17 1 == s.seals.count p.field + 1)
  let x := s.seals.pending.foldl (fun x p => if found p then x.apply p.field p.value else x) s.seals
  { s with seals := { x with pending := [] } }

/-- Replayed members whose banks are gone complete with TABLE_GEN (R646). -/
def faultMissing (s : State) : State :=
  let gone := fun (m : Member) => m.accepted && !m.pubSeen && m.bytes.data &&
    (m.reads.any (fun p => ((s.slot p.1).anyBank p.2).isNone) || (m.progGen != 0 && ((s.slot 64).anyBank m.progGen).isNone))
  s.groups.foldl (fun s g =>
    if g.members.any gone then s.faultGroup g.firstSeq (fun m => if gone m then St.tableGen else St.groupFault) else s) s

/-- A fresh journal (R618). -/
def freshJournal (s : State) : State :=
  let s1 := (s.modWb (fun w => { w with tail := 0, ckpt := 0, epoch := 1, trim := 0, nextSeq := 1, recs := [], since := 0, stopped := false })).modRings
    (fun g => { g with lastSeq := 0, seqKnown := true })
  ((s1.wbWrite Ty.epoch [epochPart 1 3 0 0] .epoch).writeCheckpoint 0)

/-- The journal is ready: what has waited for it goes on (R663, R693, R703). -/
def journalReady (s : State) : State :=
  let s1 := ((s.writeSeals.makeReady 9).flushInc).retryTolls
  (List.range 64).foldl (fun s r =>
    let g := s.ring r
    if g.enabled && g.reading.isNone && g.status == .disabled then s.askHead r .enable
    else if !g.enabled && g.reading.isNone && !g.known && g.status == .running then s.askHead r .recovery
    else s) s1

/-- S6 (R618, R627 to R631, R639 to R641): the new state, or none where the scan's start is not intact or the fingerprints
differ. -/
def scanStart (s : State) (img : Image) : Option State :=
  let cold := !s.start.warm
  let from' := if cold || s.takeover then s.regs.wbResume.toNat else s.wb.ckpt
  if cold && from' = 0 then some s.freshJournal
  else
    match s.scanFrom img from' with
    | none => none
    | some c =>
      if s.takeover && c.fp != s.fpSettings then none
      else
        let cause := if s.takeover then 2 else if cold then 3 else 0
        let s1 := (s.settleSeals c.entries).rebuild c cause img (if s.takeover || !cold then c.walk else from')
        some { s1 with regs := { s1.regs with wbCtl := s1.regs.wbCtl &&& ~~~(0x80#32) } }

-- The outcome of a step ----------------------------------------------------------------------------------------------

/-- What follows a step that has been resolved (R682). -/
def afterStep (s : State) (n : Nat) : State :=
  let s1 :=
    if n = 0 then (if !s.start.warm || s.startCtl 3 then s.modStart (fun t => { t with waitingGo := true }) else s.leaveWait)
    else if n = 1 then [2, 7, 8, 9].foldl beginStep s
    else if n ≤ 5 then s.beginStep (n + 1)
    else s
  if s1.start.active && !s1.start.parked && s1.start.codes.all Option.isSome then s1.endStart else s1

/-- The record of a step that ran again (R694). -/
def patchRerun (s : State) : State :=
  let t := s.start
  s.patchRecord (fun b => b.take 8 ++ toBytes 4 s.stepCodes ++ toBytes 2 t.failLast.toNat ++ toBytes 2 t.altUse.toNat ++
    (b.drop 16).take 26 ++ toBytes 1 (b2n t.halfCu + 2 * b2n t.halfCd) ++ b.drop 43)

/-- A step is resolved with a code (R687, R689, R692, R694). -/
def resolveStep (s : State) (n : Nat) (code : StepCode) : State :=
  let again := s.start.rerun.contains n
  let s1 := s.modStart (fun t => { t with
    running := t.running.filter (fun p => p.1 != n), codes := t.codes.set n (some code), rerun := t.rerun.filter (· != n) })
  let s2 := if n = 6 then s1.journalReady else s1.makeAllReady
  let s3 := if n = 7 || n = 8 then s2.pump else s2
  if again then s3.patchRerun else s3.afterStep n

/-- An attempt fails (R683, R686, R687). -/
def failStep (s : State) (n attempt : Nat) : State :=
  let s1 := s.modStart (fun t => { t with failLast := t.failLast ||| (1#16 <<< n), running := t.running.filter (fun p => p.1 != n) })
  if attempt = 1 then s1.tryStep n 2 (stepHasAlt n)
  else if stepMandatory n then s1.park n
  else s1.resolveStep n .skipped

/-- Has every port delivered the pattern (R759)? -/
def patternSeen (s : State) : Bool := !s.asBad && s.asSeen.all (fun ks => (List.range 16).all ks.contains)

/-- The check of a step, beyond what its detector says (R681): the rails in S0, an active cluster in S3, the budget in S4, the
journal in S6, the pattern in S9. The state that the step leaves where it passes, with whether it does. -/
def runStep (s : State) (n : Nat) (alt : Bool) (info : StepInfo) : State × Bool :=
  match n with
  | 0 => (s, s.gov.coreGood && s.gov.sramGood)
  | 1 => (s.modStart (fun t => { t with repairAlt := alt }), true)
  | 2 => (if s.start.warm then s.dropBanks info.badBanks else s, true)
  | 3 =>
    let all := (List.range 17).map (fun c => (info.assays.find? (fun r => r.cluster == c)).getD ⟨c, [], false⟩)
    let s1 := all.foldl assayed s
    (s1, !s1.activeClusters.isEmpty)
  | 4 => if alt then (s.calibrate info.drops true, true) else (s.calibrate info.drops false, s.budget == 15)
  | 6 =>
    match (if s.inc.fenced then none else s.scanStart info.mem) with
    | some s1 => (s1, true)
    | none =>
      let from' := if s.start.warm && !s.takeover then s.wb.ckpt else s.regs.wbResume.toNat
      let s1 := s.modRings (fun g => { g with halted := true })
      (if s.inc.fenced then s1 else s1.incident (finding Src.waybookScan 0 0 from') 6, false)
  | 7 => (s.modStart (fun t => { t with halfCu := alt }), true)
  | 8 => (s.modStart (fun t => { t with halfCd := alt }), true)
  | 9 => (s, s.patternSeen)
  | _ => (s, true)

end State

/-- START_STEP_DONE (R681 to R694): a step ends. -/
def execStartStepDone (step : Nat) (pass : Bool) (info : StepInfo) (s : State) : Res :=
  match s.start.running.find? (fun p => p.1 == step) with
  | some p =>
    if s.start.parked || s.inReset then .next s
    else if !pass then .next (s.failStep step p.2)
    else
      let alt := s.start.altUse.getLsbD step && stepHasAlt step
      let r := s.runStep step alt info
      if r.2 then
        let s1 := r.1.resolveStep step (if alt then .passAlt else .pass)
        .next (if step = 6 then s1.faultMissing.startReplay.pump else s1)
      else .next ((if step = 6 || step = 3 then r.1 else s).failStep step p.2)
  | none => .next s

/-- START_STEP_TIMEOUT (R31, R681, R683): a step exceeds its time bound. With STEP_LIMIT 0 the steps S7 to S9 have none. -/
def execStartStepTimeout (step : Nat) (s : State) : Res :=
  match s.start.running.find? (fun p => p.1 == step) with
  | some p =>
    if s.start.parked || s.inReset || (7 ≤ step && s.stepLimit == 0) then .next s else .next (s.failStep step p.2)
  | none => .next s

/-- RESET_ASSERT (R742, R743, R677). A warm reset during a cold one has no effect. -/
def execResetAssert (cold : Bool) (s : State) : Res :=
  if cold then
    let s1 := s.coldReset
    .next { s1 with rst := ⟨true, s.rst.warm⟩, start := { s1.start with active := false, running := [] } }
  else if s.rst.cold then .next { s with rst := ⟨true, true⟩ }
  else .next { s.warmDrop with rst := ⟨false, true⟩ }

/-- COLD_RESET_RELEASE (R675, R677, R743). -/
def execColdResetRelease (s : State) : Res := if s.rst.cold then .next s.coldReset.giveRxCredits else .next s

/-- WARM_RESET_RELEASE (R676, R679, R680): a start begins at S0; a retention record that fails its check parks the block. -/
def execWarmResetRelease (badRecord : Option Nat) (s : State) : Res :=
  if s.rst.warm && !s.rst.cold then
    let s1 := { s.warmDrop with rst := ⟨false, false⟩ }.giveRxCredits
    match badRecord with
    | some n =>
      let s2 := (s1.beginStart true).incident (finding Src.retention n 0 0) 6
      .next ((s2.modStart (fun t => { t with stuck := true })).park 0xFF)
    | none => if s.start.stuck then .next ((s1.beginStart true).park 0xFF) else .next (s1.beginStart true)
  else .next s

end Sys2Proof.Machine
end

