-- ==== Sys2Proof/Machine/Setup.lean ====
section
/-!
DEFINITION. The setup window as it is read (R776 to R796 and the register tables of the other chapters): where each register
stands, its width, and its value.
-/
namespace Sys2Proof.Machine
open Sys2Proof

/-- A block of equal registers: first offset, spacing, number, width in words. -/
structure RegRow where
  base : Nat
  pitch : Nat
  count : Nat
  words : Nat
deriving DecidableEq, Repr

/-- The registers (R776). -/
def regRows : List RegRow :=
  [⟨0x0000, 8, 2, 2⟩, ⟨0x0010, 4, 4, 1⟩, ⟨0x0020, 8, 1, 2⟩, ⟨0x0028, 4, 3, 1⟩, ⟨0x0038, 8, 1, 2⟩,
   ⟨0x0100, 4, 3, 1⟩, ⟨0x0110, 8, 2, 2⟩, ⟨0x0120, 4, 8, 1⟩, ⟨0x0140, 4, 32, 1⟩,
   ⟨0x0200, 4, 2, 1⟩, ⟨0x0208, 8, 1, 2⟩, ⟨0x0240, 8, 16, 2⟩] ++
  [⟨0x0300, 8, 1, 2⟩, ⟨0x0308, 4, 1, 1⟩, ⟨0x0310, 8, 5, 2⟩, ⟨0x0340, 8, 1, 2⟩, ⟨0x0348, 4, 1, 1⟩, ⟨0x0350, 8, 2, 2⟩,
   ⟨0x0400, 4, 1, 1⟩, ⟨0x0408, 8, 1, 2⟩, ⟨0x0410, 4, 1, 1⟩, ⟨0x0418, 4, 1, 1⟩, ⟨0x0420, 8, 1, 2⟩, ⟨0x0428, 4, 2, 1⟩,
   ⟨0x0430, 8, 1, 2⟩, ⟨0x0438, 4, 1, 1⟩, ⟨0x0440, 4, 8, 1⟩] ++
  [⟨0x0500, 4, 9, 1⟩, ⟨0x0528, 8, 1, 2⟩, ⟨0x0600, 4, 1, 1⟩, ⟨0x0608, 8, 1, 2⟩, ⟨0x0610, 4, 1, 1⟩, ⟨0x0618, 8, 1, 2⟩,
   ⟨0x0620, 4, 1, 1⟩, ⟨0x0700, 16, 17, 4⟩, ⟨0x0880, 4, 32, 1⟩, ⟨0x0C00, 32, 32, 8⟩, ⟨0x1000, 32, 2, 8⟩,
   ⟨0x2000, 32, 64, 1⟩, ⟨0x2008, 32, 64, 2⟩, ⟨0x2010, 32, 64, 2⟩, ⟨0x2018, 32, 64, 2⟩, ⟨0x3000, 16, 65, 4⟩, ⟨0x4000, 8, 64, 2⟩]

/-- The register that holds the word at an offset: its first offset, its width in words. -/
def regAt (off : Nat) : Option (Nat × Nat) :=
  regRows.findSome? (fun r =>
    if r.base ≤ off then
      let n := (off - r.base) / r.pitch
      let b := r.base + n * r.pitch
      if n < r.count ∧ off < b + 4 * r.words then some (b, r.words) else none
    else none)

namespace State

-- Values of registers ------------------------------------------------------------------------------------------------

def irqDoneLine (s : State) : Bool := s.setup.irqDone != 0
def irqIncidentLine (s : State) : Bool := s.setup.irqIncident != 0
def irqReadyLine (s : State) : Bool := s.setup.irqReady != 0

/-- DX_SETUP_STATUS (R785). -/
def setupStatus (s : State) : Nat :=
  s.setup.lastError.toNat + (b2n s.setup.err <<< 8) + (s.setup.lastOffset.toNat <<< 16) + (s.setup.errCount.toNat <<< 32)

def pendOf (s : State) (f : SealField) : Nat := b2n (s.seals.pending.any (fun p => p.field == f))

/-- DX_SEAL_CTL (R697). -/
def sealCtl (s : State) : Nat :=
  s.seals.compatGen.toNat + (s.seals.reproClass.toNat <<< 8) + (s.seals.count .compat <<< 16) + (s.seals.count .repro <<< 18) +
    (s.pendOf .compat <<< 20) + (s.pendOf .repro <<< 21) + (s.pendOf .drawKey <<< 22) + (s.pendOf .geometry <<< 23)

/-- DX_START_STAT (R696). -/
def startStat (s : State) : Nat :=
  let low := (List.range 10).find? (fun n => (s.stepCode n).isNone)
  (match low with | some n => if s.start.active then n else 0xF | none => 0xF) + (b2n s.start.waitingGo <<< 4) +
    (b2n s.start.parked <<< 5) + (b2n s.start.copyFailed <<< 6)

/-- DX_WB_STAT (R604). FREE has its reset value until there is a journal, which has EPOCH 1 or above (R618). -/
def wbStat (s : State) : Nat :=
  s.wb.epoch % 2 ^ 32 + (b2n s.wb.mirrorLost <<< 32) + ((if s.wb.epoch = 0 then 0 else min s.wbFree (2 ^ 31 - 1)) <<< 33)

/-- The clock domains that are gated (R707, R709, R738). -/
def clkGated (s : State) : Nat :=
  let cl := fun (c : Nat) => (s.cluster c).gated || (s.cluster c).retired || (c < 16 && decide (s.grade ≤ c))
  let g := fun (n : Nat) =>
    if n < 17 then cl n
    else match n with
      | 17 | 22 => !s.stepBegun 1
      | 18 => !s.isReady 8 && !s.stepRunning 9
      | 19 => !s.isReady 6 && !s.stepRunning 7
      | 20 => !s.isReady 7 && !s.stepRunning 8
      | 21 => !s.stepBegun 2
      | _ => false
  (List.range 23).foldl (fun a n => a + (b2n (g n && !s.regs.clkCtl.getLsbD n) <<< n)) 0

/-- DX_GOV_STAT (R738). -/
def govStat (s : State) : Nat :=
  let g := s.gov
  g.level.toNat + (g.demand.toNat <<< 4) + (g.budget.toNat <<< 8) + (g.cap.toNat <<< 12) + (b2n g.stretch <<< 16) +
    (b2n g.calProv <<< 17) + (b2n g.recal <<< 18) + (b2n g.pgLost <<< 19) + (g.pgBad.toNat <<< 20) + (g.stretchCnt.toNat <<< 32)

def calReg (s : State) (i : Nat) : Nat :=
  match s.gov.cals[i]? with
  | some c => c.drop.toNat + (c.trig.toNat <<< 8) + (b2n c.valid <<< 16) + (b2n c.provisional <<< 17)
  | none => 0

/-- DX_INC_STAT (R665). An S4 of LOG_OVERFLOW has no position. -/
def incStat (s : State) : Nat :=
  let cur := match s.inc.cur with | some p => s.entry? p | none => s.inc.fenceEntry
  s.inc.nextId.toNat + (s.inc.log.countP Option.isSome <<< 16) + (((cur.map (·.sevFinal)).getD 0) <<< 22) + (b2n s.inc.fenced <<< 25) +
    (b2n s.inc.overflow <<< 26) + ((s.inc.cur.getD 0) <<< 27) + (s.inc.lost.toNat <<< 32)

/-- DX_SLOT_STATn and DX_PROG_STAT (R794). -/
def slotStat (s : State) (i : Nat) : Nat :=
  let t := s.slot i
  let gen := fun (b : Bank) => if b.img.isSome then b.gen else 0
  let pin := fun (b : Bank) => b.img.isSome && s.members.any (fun m =>
    m.accepted && !m.respReturned && (if i = 64 then m.progGen == b.gen && b.gen != 0 else m.reads.contains (i, b.gen)))
  let rep := if i = 64 then 0 else ((t.replica.getD 0x1F) <<< 72) +
    ((match t.activeBank.img with | some b => (Tab.hdr b).flush | none => 0) <<< 96)
  gen t.b0 + (gen t.b1 <<< 32) + (b2n t.b0.img.isSome <<< 64) + (b2n t.b1.img.isSome <<< 65) + (b2n t.active <<< 66) +
    (b2n t.closing <<< 67) + (b2n (pin t.b0) <<< 68) + (b2n (pin t.b1) <<< 69) + (b2n (s.loading i) <<< 70) + rep

/-- The n-th 64-bit piece of a record. -/
def piece64 (x n : Nat) : Nat := (x >>> (64 * n)) % 2 ^ 64
def piece32 (x n : Nat) : Nat := (x >>> (32 * n)) % 2 ^ 32

/-- The value of a register below 0x0200. -/
def regLow (s : State) (b : Nat) : Nat :=
  let i := (b - 0x140) / 4
  match b with
  | 0x00 => 0xD506 + (0x10 <<< 16) + (s.grade <<< 24) + (8 <<< 32) + (3 <<< 40)
  | 0x08 => s.setupStatus
  | 0x10 => b2n s.pad.pendingSet.isSome
  | 0x14 => s.regs.debugCtl.toNat
  | 0x18 => s.regs.dbgAddr.toNat + (b2n s.setup.dbgErr <<< 31)
  | 0x20 => s.setup.irqDone.toNat
  | 0x28 => s.setup.irqIncident.toNat
  | 0x2C => s.setup.irqReady.toNat
  | 0x30 => s.start.ready.toNat
  | 0x38 => s.setup.bellIgnored.toNat + (s.setup.bellReceived.toNat <<< 32)
  | 0x100 => s.sealCtl
  | 0x104 => s.seals.count .drawKey <<< 1
  | 0x108 => s.seals.count .geometry <<< 1
  | 0x110 => s.fpSettings
  | 0x118 => s.fpA
  | _ =>
    if b < 0x130 then piece32 s.regs.drawStage.toNat ((b - 0x120) / 4)
    else if b < 0x140 then piece32 s.seals.drawKey.toNat ((b - 0x130) / 4)
    else if i < 16 then piece32 s.regs.geomStage.toNat i
    else piece32 s.seals.geometry.toNat (i - 16)

/-- The value of a register from 0x0200 to 0x04FF. -/
def regMid (s : State) (b : Nat) : Nat :=
  match b with
  | 0x200 => s.regs.startCtl.toNat
  | 0x204 => s.startStat
  | 0x208 => s.regs.startAddr.toNat
  | 0x300 => s.regs.wbBase.toNat
  | 0x308 => s.regs.wbCtl.toNat
  | 0x310 => s.regs.wbResume.toNat
  | 0x318 => s.regs.wbKeep.toNat
  | 0x320 => s.wb.tail % 2 ^ 64
  | 0x328 => s.wb.ckpt % 2 ^ 64
  | 0x330 => s.wbStat
  | 0x340 => s.regs.wbmBase.toNat
  | 0x348 => s.regs.wbmCtl.toNat
  | 0x350 => s.wb.wbmHigh % 2 ^ 64
  | 0x358 => s.wb.wbmCkpt % 2 ^ 64
  | 0x400 => s.regs.stageCtl.toNat
  | 0x408 => s.regs.stageAper.toNat
  | 0x410 => s.regs.mpCtl.toNat
  | 0x418 => s.regs.asCtl.toNat
  | 0x420 => s.asStray.toNat + (s.asCheckFail.toNat <<< 32)
  | 0x428 => s.regs.cwCtl.toNat
  | 0x42C => 0
  | 0x430 => s.regs.mirrorBase.toNat
  | 0x438 => s.regs.mirrorSize.toNat
  | _ =>
    if b < 0x280 then piece64 s.regs.startHint.toNat ((b - 0x240) / 8)
    else if b < 0x300 then piece64 s.start.rec'.toNat ((b - 0x280) / 8)
    else (s.pad.active.getD ((b - 0x440) / 4) 0).toNat

/-- The value of a register from 0x0500 on. -/
def regHigh (s : State) (b : Nat) : Nat :=
  match b with
  | 0x500 => s.regs.clkCtl.toNat
  | 0x504 => s.clkGated
  | 0x508 => s.regs.govCtl.toNat
  | 0x50C => s.regs.govSlew.toNat + (s.stepInt <<< 16)
  | 0x510 => s.regs.govLead.toNat
  | 0x514 => s.regs.govGuard.toNat
  | 0x518 => s.calReg 0
  | 0x51C => s.calReg 1
  | 0x520 => s.calReg 2
  | 0x528 => s.govStat
  | 0x600 => s.regs.incCtl.toNat
  | 0x608 => s.incStat
  | 0x610 => s.regs.assayCtl.toNat
  | 0x618 => (List.range 17).foldl (fun a c => a + (b2n (s.cluster c).passed <<< c)) 0 + (Config.touchId.toNat <<< 32)
  | 0x620 => (List.range 17).foldl (fun a c => a + (b2n (s.cluster c).retired <<< c)) 0 + (s.standin.toNat <<< 17)
  | 0x1000 => s.regs.key1.toNat
  | 0x1020 => s.regs.key2.toNat
  | _ =>
    if b < 0x880 then (s.cluster ((b - 0x700) / 16)).spare.zipIdx.foldl (fun a p => a + (p.1.toNat <<< (16 * p.2))) 0
    else if b < 0xC00 then (s.inc.s1cnt.getD ((b - 0x880) / 4) 0).toNat
    else if b < 0x1000 then (match s.entry? ((b - 0xC00) / 32) with | some e => ofBytes (incBytes e) | none => 0)
    else if b < 0x3000 then
      let g := s.ring ((b - 0x2000) / 32)
      match b % 32 with
      | 0 => g.ctl.toNat | 8 => g.base.toNat | 16 => g.head.toNat | _ => g.cpl.toNat
    else if b < 0x4000 then s.slotStat ((b - 0x3000) / 16)
    else
      let c := (b - 0x4000) / 8
      (s.tolls.count.getD c 0).toNat + ((s.tolls.limit.getD c 0).toNat <<< 32)

/-- The value of a register, DX_DBG_DATA apart. -/
def regVal (s : State) (b : Nat) : Nat :=
  if b < 0x200 then s.regLow b else if b < 0x500 then s.regMid b else s.regHigh b

-- Transfers ----------------------------------------------------------------------------------------------------------

def path (s : State) (p : PathId) : Path' := match p with | .apb => s.setup.apb | .dbg => s.setup.dbg

def modPath (s : State) (p : PathId) (f : Path' → Path') : State :=
  match p with
  | .apb => { s with setup := { s.setup with apb := f s.setup.apb } }
  | .dbg => { s with setup := { s.setup with dbg := f s.setup.dbg } }

/-- A transfer ends: its read data and PSLVERR. -/
def respond (s : State) (p : PathId) (rdata : Nat) (err : Bool) : State :=
  s.modPath p (fun q => { q with rdata := BitVec.ofNat 32 rdata, slverr := err })

/-- A transfer is refused (R784). -/
def refuse (s : State) (p : PathId) (off code : Nat) : State :=
  let x := s.setup
  ({ s with setup := { x with
      lastError := BitVec.ofNat 8 code, err := true, lastOffset := BitVec.ofNat 16 off,
      errCount := if x.errCount = 0xFFFF then x.errCount else x.errCount + 1 } }).respond p 0 true

/-- An entry of a list of pairs replaced. -/
def putPair (ps : List (Nat × Nat)) (k v : Nat) : List (Nat × Nat) := (k, v) :: ps.filter (fun q => q.1 != k)

/-- DX_DBG_DATA (R787, R788): the staging word at WORD; WORD advances. -/
def dbgData (s : State) (p : PathId) : State :=
  let w := s.regs.dbgAddr.toNat
  let g := w / 65536
  let bad := s.ueIn w 4
  let shutOut := (s.openGran.contains g && !s.regs.debugCtl.getLsbD 0) || (!s.stepBegun 1 && !s.regs.clkCtl.getLsbD 17) || bad.isSome
  let v := if shutOut then 0
    else ofBytes (s.stageBytes w 4)
  let s1 := { s with regs := { s.regs with dbgAddr := BitVec.ofNat 32 ((w + 4) % 2 ^ 26) }, setup := { s.setup with dbgErr := s.setup.dbgErr || shutOut } }
  let s2 := match bad with | some a => s1.incident (finding Src.stageUe g 0 (a % 65536)) 7 | none => s1
  (s2.bump).respond p v false

/-- The STATUS instrument (R772): its 128-bit snapshot. A scan of it changes nothing and is possible at any time, in a reset, fenced
and parked too (R774), so it is a function of the state and no command. -/
def status (s : State) : Nat :=
  s.start.ready.toNat + (s.startStat <<< 16) + (s.incStat % 2 ^ 16 <<< 48) + (s.govStat % 2 ^ 16 <<< 64) +
    ((b2n (!s.rst.cold) + 2 * b2n (!s.rst.warm) + 4 * b2n s.irqDoneLine + 8 * b2n s.irqIncidentLine + 16 * b2n s.irqReadyLine) <<< 80)

/-- A read transfer (R678, R761, R762, R765, R817). -/
def setupRead (s : State) (p : PathId) (off : Nat) : State :=
  if s.inReset then s.respond p 0 true
  else if off % 4 != 0 then s.refuse p off 4
  else match regAt off with
    | none => s.refuse p off 4
    | some (b, n) =>
      if b = 0x1C then s.dbgData p
      else if n = 1 then s.respond p (s.regVal b % 2 ^ 32) false
      else if off = b then
        let v := s.regVal b
        (s.modPath p (fun q => { q with snaps := putPair q.snaps b v })).respond p (v % 2 ^ 32) false
      else
        let v := (((s.path p).snaps.find? (fun q => q.1 == b)).map (·.2)).getD (s.regVal b)
        s.respond p (piece32 v ((off - b) / 4)) false

end State

/-- SNAPSHOT_READ (R765): a read on the setup port; at the lowest word of a wide register it takes a snapshot. -/
def execSnapshotRead (off : Nat) (s : State) : Res := .next (s.setupRead .apb off)

/-- DBG_DATA_READ (R787). -/
def execDbgDataRead (s : State) : Res := .next (s.setupRead .apb 0x1C)

end Sys2Proof.Machine
end

