-- ==== Sys2Proof/Machine/SetupWrite.lean ====
section
/-!
DEFINITION. The setup window as it is written (R14 to R25, R761 to R764, R777, R778, R784): what each register takes, which
writes are refused, and the commands whose effect is a register write; PENDING_SET_APPLY and SEAL_CHANGE_APPLY.
-/
namespace Sys2Proof.Machine
open Sys2Proof

/-- A register write: the new state, or the code of its refusal (R784). -/
abbrev WrRes := Except Nat State

namespace Wr

abbrev busy : Nat := 1
abbrev sealLimit : Nat := 2
abbrev fieldInvalid : Nat := 3
abbrev accessInvalid : Nat := 4

/-- A register's I fields (R20, R777): `mask` names their bits, `bad` says that a changed field is outside its range. -/
def iFields (isBusy : Bool) (bad : Bool) (mask cur d : Nat) : Option Nat :=
  if cur &&& mask = d &&& mask then none
  else if isBusy then some busy
  else if bad then some fieldInvalid
  else none

/-- A write that is refused with a code or else acts. -/
def act (code : Option Nat) (s : State) : WrRes := match code with | some c => .error c | none => .ok s

end Wr

/-- Does a geometry record keep the conditions of R506? -/
def geomOk (g : Nat) : Bool :=
  let f := fun (o n : Nat) => bits g (8 * (o + n) - 1) (8 * o)
  let len := f 2 2
  let pos := f 4 2
  let partner := f 8 2
  f 0 2 == 1 && f 10 6 == 0 && f 56 8 == 0 && decide (1 ≤ len ∧ len ≤ 20480) && decide (1 ≤ f 6 2 ∧ f 6 2 ≤ 256) &&
    (pos == 0xFFFF || decide (pos < len)) && (partner == 0xFFFF || (decide (partner < len) && partner != pos)) &&
    (List.range 16).all (fun k => let n := f (16 + 2 * k) 2; n == 0 || len % n == 0) && f 48 8 % 64 == 0

namespace State

def modRegs (s : State) (f : Regs → Regs) : State := { s with regs := f s.regs }

-- Busy functions (R20, R329, R481, R581, R604, R695, R738, R748, R793) -----------------------------------------------

def anyEnabled (s : State) : Bool := s.rings.any (·.enabled)

/-- Does a scan or a replay run (R604)? -/
def replaying (s : State) : Bool :=
  s.stepRunning 6 || s.inc.scanDue || s.rings.any (fun g => g.status == .replay) || s.groups.any (fun g => g.replay && !g.published)

def wbBusy (s : State) : Bool :=
  s.anyEnabled || s.replaying || !s.wb.mirror.isEmpty || (s.mirrorEn && !s.wb.mirrorLost && s.wb.recs.any (fun r => !r.acked))

def stageBusy (s : State) : Bool :=
  s.inc.scanDue || !s.heldGran.isEmpty ||
    s.members.any (fun m => m.accepted && !m.respReturned && !(s.residentOf m.bytes.allRanges).isEmpty)

def mirrorBusy (s : State) : Bool := s.inc.scanDue || !s.quiet 5 || s.cw.rx.any (fun m => m.kind == Kind.mirror || m.kind == Kind.parity)

def mpBusy (s : State) : Bool := s.anyEnabled || s.stepRunning 6

def govBusy (s : State) : Bool := s.gov.level != 0 || s.gov.forecast.isSome || s.gov.ramp.isSome || s.stepRunning 4

/-- A LOAD_INGOT is accepted without a published milepost (R793); until an S3 recovery has scanned the journal, one may be. -/
def keyBusy (s : State) : Bool := s.inc.scanDue || s.members.any (fun m => m.accepted && !m.respReturned && m.bytes.is .loadIngot)

/-- Is the function of a step S7, S8 or S9 busy (R695)? -/
def rerunBusy (s : State) (n : Nat) : Bool :=
  if n = 9 then s.inc.scanDue || s.members.any (fun m => m.accepted && m.bytes.is .mcombine && !m.bytes.srcMem)
  else
    let fn := stepFunction n
    let cu := n == 7
    -- the port that reaches a peer: by the routing entry, or the last one used where no entry is cached
    let onPort := fun (peer : Nat) => match s.route? peer, s.link? peer with
      | some r, _ => r.cu == cu
      | none, some l => l.cd != cu
      | none, none => false
    s.inc.scanDue || s.members.any (fun m => m.accepted && (s.needs m.bytes).contains fn) ||
      s.cw.links.any (fun l => onPort l.peer && (!l.unacked.isEmpty || s.cw.exchs.any (fun e => e.kept.any (fun f => f.peer == l.peer && !e.pubs.contains l.peer)))) ||
      (onPort s.partner && (s.groups.any (fun g => g.wrote && !g.dead && g.members.any (fun m => !m.mirrorDone)) || !s.wb.sent.isEmpty)) ||
      s.cw.rx.any (fun m => onPort m.src)

-- Sealed fields (R22, R23, R699, R700, R703) -------------------------------------------------------------------------

/-- Why a sealed field cannot take a different value. -/
def sealCode (s : State) (f : SealField) : Option Nat :=
  if s.seals.pending.any (fun p => p.field == f) then some Wr.busy
  else if 3 ≤ s.seals.count f then some Wr.sealLimit
  else none

/-- A sealed field is written with a value that it may take. -/
def sealSet (s : State) (f : SealField) (v : Nat) : State :=
  if s.isReady 9 then { s with seals := { s.seals with pending := s.seals.pending ++ [⟨f, v, false⟩] } }
  else
    let x := s.seals.apply f v
    { s with seals := { x with unjournalled := x.unjournalled ++ [⟨f, x.count f, s.seals.value f, v⟩] } }

/-- APPLY of a staged record (R505). -/
def applyStaged (s : State) (f : SealField) (v : Nat) (valid : Bool) : WrRes :=
  if !valid then .error Wr.fieldInvalid
  else if v = s.seals.value f then .ok s
  else Wr.act (s.sealCode f) (s.sealSet f v)

/-- DX_SEAL_CTL (R595, R697, R698). -/
def writeSealCtl (s : State) (d : Nat) : WrRes :=
  let c := bits d 7 0
  let r := bits d 15 8
  let newC := c != s.seals.compatGen.toNat
  let newR := r != s.seals.reproClass.toNat
  if (newC && c != 5 && c != 6) || (newR && decide (1 < r)) then .error Wr.fieldInvalid
  else
    match (if newC then s.sealCode .compat else none), (if newR then s.sealCode .repro else none) with
    | some e, _ => .error e
    | none, some e => .error e
    | none, none =>
      let s1 := if newC then s.sealSet .compat c else s
      .ok (if newR then s1.sealSet .repro r else s1)

-- The start ----------------------------------------------------------------------------------------------------------

/-- GO ends the wait (R675, R688). -/
def goAct (s : State) : State :=
  if !s.start.waitingGo then s
  else if s.start.warm || !s.startCtl 1 then s.leaveWait
  else
    let h := toBytes 64 s.regs.startHint.toNat
    (if recordOk h then s.modStart (fun t => { t with prev := some h, hintUsed := true })
      else s.modStart (fun t => { t with hintBad := true })).leaveWait

/-- RERUN of S7, S8 or S9 (R694): the retained record says which method comes first. -/
def rerunAct (s : State) (n : Nat) : State :=
  let alt := s.altFirst n (some (toBytes 64 s.start.rec'.toNat))
  let m := ~~~(1#16 <<< n)
  (s.modStart (fun t => { t with
    ready := t.ready &&& ~~~(1#16 <<< stepFunction n), failLast := t.failLast &&& m, altUse := t.altUse &&& m,
    rerun := t.rerun.filter (· != n) ++ [n] })).tryStep n 1 alt

/-- DX_START_CTL (R694 to R696). -/
def writeStartCtl (s : State) (d : Nat) : WrRes :=
  let n := bits d 7 4
  let s1 := s.modRegs (fun r => { r with startCtl := BitVec.ofNat 32 (d &&& 0xFFFF00FE) })
  if bit d 8 then
    if n < 7 || 9 < n || s.start.parked || s.start.active || s.stepRunning n || s.rerunBusy n then .error Wr.busy
    else .ok (s1.rerunAct n)
  else .ok (if bit d 0 then s1.goAct else s1)

-- Other acting registers ---------------------------------------------------------------------------------------------

/-- DX_CW_ROUTE_INV (R514). -/
def routeInvAct (s : State) (d : Nat) : State :=
  let hit := fun (p : Nat) => bit d 15 || p == bits d 14 0
  let s1 := s.modCw (fun c => { c with routes := c.routes.filter (fun r => !hit r.pos) })
  ((s.cw.links.map (·.peer)).filter hit).foldl restartLink s1

/-- DX_INC_CTL (R665). -/
def writeIncCtl (s : State) (d : Nat) : State :=
  let s1 := s.modRegs (fun r => { r with incCtl := BitVec.ofNat 32 (d &&& 2) })
  if bit d 0 then s1.incident (finding Src.fenceReq 0 0 0) 6 else s1

/-- DX_ASSAY_CTL (R661, R665). -/
def writeAssayCtl (s : State) (d : Nat) : State :=
  let s1 := s.modRegs (fun r => { r with assayCtl := BitVec.ofNat 32 (d &&& 0x1FFFFF) })
  if bit d 21 && decide (bits d 20 16 < 17) then { s1 with assay := { s1.assay with forced := some (bits d 20 16) } } else s1

/-- DX_RING_CTL of a ring (R328 to R330, R337, R338, R791). -/
def writeRingCtl (s : State) (r d : Nat) : WrRes :=
  let g := s.ring r
  match Wr.iFields g.enabled (decide (0xC < bits d 11 8)) 0xF00 g.ctl.toNat d with
  | some c => .error c
  | none =>
    if bit d 0 && !g.enabled && (g.base == 0 || g.head == 0 || g.cpl == 0) then .error Wr.fieldInvalid
    else
      let s1 := s.modRing r (fun g => { g with ctl := BitVec.ofNat 32 (d &&& 0xFFFF0F03) })
      .ok (if bit d 0 && !g.enabled then s1.enableRing r else if !bit d 0 && g.enabled then s1.disableRing r else s1)

/-- A ring's address register (R329, R790). -/
def writeRingAddr (s : State) (r : Nat) (cur d : Nat) (f : Ring → Ring) : WrRes :=
  Wr.act (Wr.iFields (s.ring r).enabled false (2 ^ 64 - 1) cur d) (s.modRing r f)

-- The map ------------------------------------------------------------------------------------------------------------

/-- Registers below 0x0200. -/
def writeLow (s : State) (b d : Nat) : WrRes :=
  let x := s.setup
  match b with
  | 0x08 => .ok { s with setup := { x with err := x.err && !bit d 8 } }
  | 0x10 => .ok (if bit d 0 then { s with pad := { s.pad with pendingSet := some s.pad.shadow } } else s)
  | 0x14 => .ok (s.modRegs (fun r => { r with debugCtl := BitVec.ofNat 32 (d &&& 1) }))
  | 0x18 =>
    let s1 := s.modRegs (fun r => { r with dbgAddr := BitVec.ofNat 32 (d &&& 0x3FFFFFC) })
    .ok { s1 with setup := { x with dbgErr := x.dbgErr && !bit d 31 } }
  | 0x20 => .ok { s with setup := { x with irqDone := x.irqDone &&& ~~~(BitVec.ofNat 64 d) } }
  | 0x28 => .ok { s with setup := { x with irqIncident := x.irqIncident &&& ~~~(BitVec.ofNat 5 d) } }
  | 0x2C => .ok { s with setup := { x with irqReady := x.irqReady &&& ~~~(BitVec.ofNat 16 d) } }
  | 0x100 => s.writeSealCtl d
  | 0x104 => if bit d 0 then s.applyStaged .drawKey s.regs.drawStage.toNat true else .ok s
  | 0x108 => if bit d 0 then s.applyStaged .geometry s.regs.geomStage.toNat (geomOk s.regs.geomStage.toNat) else .ok s
  | _ =>
    if 0x120 ≤ b ∧ b < 0x130 then
      .ok (s.modRegs (fun r => { r with drawStage := BitVec.ofNat 128 (setBits r.drawStage.toNat (8 * (b - 0x120)) 32 d) }))
    else if 0x140 ≤ b ∧ b < 0x180 then
      .ok (s.modRegs (fun r => { r with geomStage := BitVec.ofNat 512 (setBits r.geomStage.toNat (8 * (b - 0x140)) 32 d) }))
    else .ok s

/-- Registers from 0x0200 to 0x03FF: the start and the waybook. -/
def writeStart (s : State) (b d : Nat) : WrRes :=
  let w := s.wbBusy
  let line := d - d % 64
  match b with
  | 0x200 => s.writeStartCtl d
  | 0x208 => .ok (s.modRegs (fun r => { r with startAddr := BitVec.ofNat 64 line }))
  | 0x300 => Wr.act (Wr.iFields w false (2 ^ 64 - 1) s.regs.wbBase.toNat line) (s.modRegs (fun r => { r with wbBase := BitVec.ofNat 64 line }))
  | 0x308 =>
    let cur := s.regs.wbCtl.toNat
    let size := bits d 4 0
    Wr.act (Wr.iFields w (size != bits cur 4 0 && !(decide (12 ≤ size ∧ size ≤ 26))) 0xBF cur d)
      ((s.modRegs (fun r => { r with wbCtl := BitVec.ofNat 32 (d &&& 0xFFFF00FF) })).retryTolls)
  | 0x310 => Wr.act (Wr.iFields w false (2 ^ 64 - 1) s.regs.wbResume.toNat d) (s.modRegs (fun r => { r with wbResume := BitVec.ofNat 64 d }))
  | 0x318 => .ok ((s.modRegs (fun r => { r with wbKeep := BitVec.ofNat 64 d })).retryTolls)
  | 0x340 => Wr.act (Wr.iFields w false (2 ^ 64 - 1) s.regs.wbmBase.toNat line) (s.modRegs (fun r => { r with wbmBase := BitVec.ofNat 64 line }))
  | 0x348 => Wr.act (Wr.iFields w false 0x3FFFFF s.regs.wbmCtl.toNat d) (s.modRegs (fun r => { r with wbmCtl := BitVec.ofNat 32 (d &&& 0x3FFFFF) }))
  | _ =>
    if 0x240 ≤ b ∧ b < 0x280 then
      .ok (s.modRegs (fun r => { r with startHint := BitVec.ofNat 512 (setBits r.startHint.toNat (8 * (b - 0x240)) 64 d) }))
    else .ok s

/-- Registers from 0x0400 to 0x04FF: staging, ports, causeway, pads. -/
def writePorts (s : State) (b d : Nat) : WrRes :=
  match b with
  | 0x400 =>
    Wr.act (Wr.iFields s.stageBusy (decide (1024 < bits d 10 0)) 0x7FF s.regs.stageCtl.toNat d)
      (s.modRegs (fun r => { r with stageCtl := BitVec.ofNat 32 (d &&& 0x7FF) }))
  | 0x408 =>
    let a := d - d % 2 ^ 26
    Wr.act (Wr.iFields s.stageBusy false (2 ^ 64 - 1) s.regs.stageAper.toNat a) (s.modRegs (fun r => { r with stageAper := BitVec.ofNat 64 a }))
  | 0x410 => Wr.act (Wr.iFields s.mpBusy false 0xFF7FF s.regs.mpCtl.toNat d) (s.modRegs (fun r => { r with mpCtl := BitVec.ofNat 32 (d &&& 0xFF7FF) }))
  | 0x418 => .ok (s.modRegs (fun r => { r with asCtl := BitVec.ofNat 32 d }))
  | 0x428 => .ok (s.modRegs (fun r => { r with cwCtl := BitVec.ofNat 32 d }))
  | 0x42C => .ok (s.routeInvAct d)
  | 0x430 =>
    let a := d - d % 64
    Wr.act (Wr.iFields s.mirrorBusy false (2 ^ 64 - 1) s.regs.mirrorBase.toNat a) (s.modRegs (fun r => { r with mirrorBase := BitVec.ofNat 64 a }))
  | 0x438 => Wr.act (Wr.iFields s.mirrorBusy false 0xFFFFFFFF s.regs.mirrorSize.toNat d) (s.modRegs (fun r => { r with mirrorSize := BitVec.ofNat 32 d }))
  | _ => if 0x440 ≤ b then .ok { s with pad := { s.pad with shadow := s.pad.shadow.set ((b - 0x440) / 4) (BitVec.ofNat 32 d) } } else .ok s

/-- Registers from 0x0500 to 0x1FFF: clocks, governor, incidents, keys. -/
def writeUnits (s : State) (b d : Nat) : WrRes :=
  let g := s.govBusy
  match b with
  | 0x500 => .ok (s.modRegs (fun r => { r with clkCtl := BitVec.ofNat 32 (d &&& 0x1FFFFFF) }))
  | 0x508 => Wr.act (Wr.iFields g false 0x1F s.regs.govCtl.toNat d) (s.modRegs (fun r => { r with govCtl := BitVec.ofNat 32 (d &&& 0xFFFF001F) }))
  | 0x50C => Wr.act (Wr.iFields g false 0xFFFF s.regs.govSlew.toNat d) (s.modRegs (fun r => { r with govSlew := BitVec.ofNat 16 d }))
  | 0x510 => Wr.act (Wr.iFields g false 0xFFFF s.regs.govLead.toNat d) (s.modRegs (fun r => { r with govLead := BitVec.ofNat 32 (d &&& 0xFFFF) }))
  | 0x514 => Wr.act (Wr.iFields g false 0xFFFF s.regs.govGuard.toNat d) (s.modRegs (fun r => { r with govGuard := BitVec.ofNat 32 d }))
  | 0x600 => .ok (s.writeIncCtl d)
  | 0x610 => .ok (s.writeAssayCtl d)
  | 0x1000 => Wr.act (Wr.iFields s.keyBusy false (2 ^ 256 - 1) s.regs.key1.toNat d) (s.modRegs (fun r => { r with key1 := BitVec.ofNat 256 d }))
  | 0x1020 => Wr.act (Wr.iFields s.keyBusy false (2 ^ 256 - 1) s.regs.key2.toNat d) (s.modRegs (fun r => { r with key2 := BitVec.ofNat 256 d }))
  | _ => .ok s

/-- Registers from 0x2000 to 0x27FF: the rings. -/
def writeRings (s : State) (b d : Nat) : WrRes :=
  let r := (b - 0x2000) / 32
  let g := s.ring r
  let line := d - d % 64
  match b % 32 with
  | 0 => s.writeRingCtl r d
  | 8 => s.writeRingAddr r g.base.toNat (d - d % 128) (fun g => { g with base := BitVec.ofNat 64 (d - d % 128) })
  | 16 => s.writeRingAddr r g.head.toNat line (fun g => { g with head := BitVec.ofNat 64 line })
  | _ => s.writeRingAddr r g.cpl.toNat line (fun g => { g with cpl := BitVec.ofNat 64 line })

/-- A whole register is written (R14 to R25, R777, R778); data for RO registers is ignored (R24). -/
def writeReg (s : State) (b d : Nat) : WrRes :=
  if b < 0x200 then s.writeLow b d
  else if b < 0x400 then s.writeStart b d
  else if b < 0x500 then s.writePorts b d
  else if b < 0x2000 then s.writeUnits b d
  else if b < 0x3000 then s.writeRings b d
  else .ok s

/-- The data of a register's write at its highest word (R764). -/
def heldData (s : State) (p : PathId) (b n data : Nat) : Nat :=
  (List.range (n - 1)).foldl (fun a i =>
    a + (((((s.path p).holds.find? (fun q => q.1 == b + 4 * i)).map (·.2)).getD 0) <<< (32 * i))) (data <<< (32 * (n - 1)))

/-- A write transfer (R678, R761, R762, R764). -/
def setupWrite (s : State) (p : PathId) (off data strb : Nat) : State :=
  if s.inReset then s.respond p 0 true
  else if off % 4 != 0 || strb != 0xF then s.refuse p off Wr.accessInvalid
  else match regAt off with
    | none => s.refuse p off Wr.accessInvalid
    | some (b, n) =>
      if off = b + 4 * (n - 1) then
        match s.writeReg b (s.heldData p b n data) with
        | .ok s1 => s1.respond p 0 false
        | .error c => s.refuse p off c
      else (s.modPath p (fun q => { q with holds := putPair q.holds off data })).respond p 0 false

end State

-- The commands -------------------------------------------------------------------------------------------------------

/-- SETUP_WRITE (R760 to R764, R777, R778, R784). -/
def execSetupWrite (off data strb : Nat) (s : State) : Res := .next (s.setupWrite .apb off data strb)

/-- SETUP_ACCESS (R773, R783): a transfer of the debug segment, treated as one on the setup port. -/
def execSetupAccess (write : Bool) (off data : Nat) (s : State) : Res :=
  .next (if write then s.setupWrite .dbg off data 0xF else s.setupRead .dbg off)

/-- COMMIT_PAD (R16, R19, R785): DX_COMMIT.PAD is written with 1. -/
def execCommitPad (s : State) : Res := .next (s.setupWrite .apb 0x10 1 0xF)

/-- PENDING_SET_APPLY (R17, R786): the first quiet point of ELEMENTWISE and ROW together. -/
def execPendingSetApply (s : State) : Res :=
  match s.pad.pendingSet with
  | some v => if !s.inReset && s.quiet 2 && s.quiet 3 then .next { s with pad := { s.pad with active := v, pendingSet := none } } else .next s
  | none => .next s

/-- SEAL_CTL_WRITE (R22, R23, R595, R698 to R703). -/
def execSealCtlWrite (data : Nat) (s : State) : Res := .next (s.setupWrite .apb 0x100 data 0xF)

/-- DRAW_APPLY (R697, R505). -/
def execDrawApply (s : State) : Res := .next (s.setupWrite .apb 0x104 1 0xF)

/-- GEOM_APPLY (R504 to R506). -/
def execGeomApply (s : State) : Res := .next (s.setupWrite .apb 0x108 1 0xF)

/-- SEAL_CHANGE_APPLY (R507, R702): the first quiet point of a pending change's governed set; its SEAL entry is written. -/
def execSealChangeApply (field : Nat) (s : State) : Res :=
  let f := SealField.ofCode field
  match s.seals.pending.find? (fun p => p.field == f && !p.written) with
  | some p =>
    if s.wbOpen && !s.inReset && (State.governed f).all s.quiet then
      let mark := fun (q : SealPend) => if q.field == f then { q with written := true } else q
      let s1 := { s with seals := { s.seals with pending := s.seals.pending.map mark } }
      .next (s1.wbWrite Ty.sealed (sealParts f (s.seals.count f + 1) (s.wb.nextSeq - 1) (s.seals.value f) p.value) (.seal f))
    else .next s
  | none => .next s

/-- RING_ENABLE (R337, R791): a write to DX_RING_CTL that sets ENABLE. -/
def execRingEnable (ring data : Nat) (s : State) : Res := .next (s.setupWrite .apb (0x2000 + 32 * ring) data 0xF)

/-- RING_DISABLE (R338): a write to DX_RING_CTL that clears ENABLE. -/
def execRingDisable (ring data : Nat) (s : State) : Res := .next (s.setupWrite .apb (0x2000 + 32 * ring) data 0xF)

/-- ROUTE_INV (R514, R516). -/
def execRouteInv (data : Nat) (s : State) : Res := .next (s.setupWrite .apb 0x42C data 0xF)

/-- FENCE_REQ (R642, R665). -/
def execFenceReq (data : Nat) (s : State) : Res := .next (s.setupWrite .apb 0x600 data 0xF)

/-- ASSAY_FORCE (R661). -/
def execAssayForce (data : Nat) (s : State) : Res := .next (s.setupWrite .apb 0x610 data 0xF)

/-- GO (R675, R688). -/
def execGo (data : Nat) (s : State) : Res := .next (s.setupWrite .apb 0x200 data 0xF)

/-- RERUN (R694, R695). -/
def execRerun (data : Nat) (s : State) : Res := .next (s.setupWrite .apb 0x200 data 0xF)

end Sys2Proof.Machine
end

