-- ==== Sys2Proof/Machine/Dispatch.lean ====
section
/-!
DEFINITION. The meaning of every command: one arm for each constructor of `Instr`, one direct call each.
-/
namespace Sys2Proof.Machine
open Sys2Proof

def exec (i : Instr) (s : State) : Host.Outcome State Fault Refusal :=
  match i with
  | .setupWrite off data strb => Sys2Proof.Machine.execSetupWrite off data strb s
  | .snapshotRead off => Sys2Proof.Machine.execSnapshotRead off s
  | .setupAccess write off data => Sys2Proof.Machine.execSetupAccess write off data s
  | .commitPad => Sys2Proof.Machine.execCommitPad s
  | .pendingSetApply => Sys2Proof.Machine.execPendingSetApply s
  | .sealCtlWrite data => Sys2Proof.Machine.execSealCtlWrite data s
  | .drawApply => Sys2Proof.Machine.execDrawApply s
  | .geomApply => Sys2Proof.Machine.execGeomApply s
  | .sealChangeApply field => Sys2Proof.Machine.execSealChangeApply field s
  | .ringEnable ring data => Sys2Proof.Machine.execRingEnable ring data s
  | .ringDisable ring data => Sys2Proof.Machine.execRingDisable ring data s
  | .routeInv data => Sys2Proof.Machine.execRouteInv data s
  | .fenceReq data => Sys2Proof.Machine.execFenceReq data s
  | .assayForce data => Sys2Proof.Machine.execAssayForce data s
  | .go data => Sys2Proof.Machine.execGo data s
  | .rerun data => Sys2Proof.Machine.execRerun data s
  | .dbgDataRead => Sys2Proof.Machine.execDbgDataRead s
  | .bell req word strb => Sys2Proof.Machine.execBell req word strb s
  | .headRecordData ring resp data => Sys2Proof.Machine.execHeadRecordData ring resp data s
  | .descriptorData ring resp data => Sys2Proof.Machine.execDescriptorData ring resp data s
  | .waymarkWrite ring => Sys2Proof.Machine.execWaymarkWrite ring s
  | .readyRecheck ring => Sys2Proof.Machine.execReadyRecheck ring s
  | .notReadyTimeout ring => Sys2Proof.Machine.execNotReadyTimeout ring s
  | .waybookWriteResponse rnum resp mem => Sys2Proof.Machine.execWaybookWriteResponse rnum resp mem s
  | .milepostWriteResponse seq resp mem => Sys2Proof.Machine.execMilepostWriteResponse seq resp mem s
  | .groupIssue seq mem => Sys2Proof.Machine.execGroupIssue seq mem s
  | .shapeWordRead seq mem => Sys2Proof.Machine.execShapeWordRead seq mem s
  | .valueTableRead seq which mem => Sys2Proof.Machine.execValueTableRead seq which mem s
  | .paramRecordRead seq mem => Sys2Proof.Machine.execParamRecordRead seq mem s
  | .drainPoint seq => Sys2Proof.Machine.execDrainPoint seq s
  | .outputWritesComplete seq => Sys2Proof.Machine.execOutputWritesComplete seq s
  | .memReadError seq port addr poisoned => Sys2Proof.Machine.execMemReadError seq port addr poisoned s
  | .memWriteError seq port addr => Sys2Proof.Machine.execMemWriteError seq port addr s
  | .fence seq => Sys2Proof.Machine.execFence seq s
  | .mark seq => Sys2Proof.Machine.execMark seq s
  | .capture seq => Sys2Proof.Machine.execCapture seq s
  | .convert seq mem => Sys2Proof.Machine.execConvert seq mem s
  | .affine seq mem => Sys2Proof.Machine.execAffine seq mem s
  | .func seq mem => Sys2Proof.Machine.execFunc seq mem s
  | .gate seq mem => Sys2Proof.Machine.execGate seq mem s
  | .clamp seq mem => Sys2Proof.Machine.execClamp seq mem s
  | .rmsn seq mem => Sys2Proof.Machine.execRmsn seq mem s
  | .smax seq mem => Sys2Proof.Machine.execSmax seq mem s
  | .lsmax seq mem => Sys2Proof.Machine.execLsmax seq mem s
  | .rowred seq mem => Sys2Proof.Machine.execRowred seq mem s
  | .rowstat seq mem => Sys2Proof.Machine.execRowstat seq mem s
  | .scan seq mem => Sys2Proof.Machine.execScan seq mem s
  | .mcombine seq mem => Sys2Proof.Machine.execMcombine seq mem s
  | .chain seq mem => Sys2Proof.Machine.execChain seq mem s
  | .halo seq mem => Sys2Proof.Machine.execHalo seq mem s
  | .upd seq mem => Sys2Proof.Machine.execUpd seq mem s
  | .loadIngot seq => Sys2Proof.Machine.execLoadIngot seq s
  | .ingotPinsReleased seq resp hdr => Sys2Proof.Machine.execIngotPinsReleased seq resp hdr s
  | .ingotLoadDone seq resp payload => Sys2Proof.Machine.execIngotLoadDone seq resp payload s
  | .switch seq => Sys2Proof.Machine.execSwitch seq s
  | .peek seq => Sys2Proof.Machine.execPeek seq s
  | .codebookFillDone cluster seq fill => Sys2Proof.Machine.execCodebookFillDone cluster seq fill s
  | .segmentTotalArrive seq row seg v => Sys2Proof.Machine.execSegmentTotalArrive seq row seg v s
  | .bandDrainDone cluster => Sys2Proof.Machine.execBandDrainDone cluster s
  | .asBeat port beat => Sys2Proof.Machine.execAsBeat port beat s
  | .strayWaitExpire port => Sys2Proof.Machine.execStrayWaitExpire port s
  | .arriveLimitExpire seq => Sys2Proof.Machine.execArriveLimitExpire seq s
  | .tollRequest req => Sys2Proof.Machine.execTollRequest req s
  | .tollGrantReported => Sys2Proof.Machine.execTollGrantReported s
  | .tollSet req data strb => Sys2Proof.Machine.execTollSet req data strb s
  | .windowWrite req data strb => Sys2Proof.Machine.execWindowWrite req data strb s
  | .windowRead req => Sys2Proof.Machine.execWindowRead req s
  | .cwGrant f mem => Sys2Proof.Machine.execCwGrant f mem s
  | .ack f mem => Sys2Proof.Machine.execAck f mem s
  | .run f mem => Sys2Proof.Machine.execRun f mem s
  | .offset f mem => Sys2Proof.Machine.execOffset f mem s
  | .segtot f mem => Sys2Proof.Machine.execSegtot f mem s
  | .total f mem => Sys2Proof.Machine.execTotal f mem s
  | .haloMessage f mem => Sys2Proof.Machine.execHaloMessage f mem s
  | .sign f mem => Sys2Proof.Machine.execSign f mem s
  | .pub f mem => Sys2Proof.Machine.execPub f mem s
  | .abort f mem => Sys2Proof.Machine.execAbort f mem s
  | .mirror f mem => Sys2Proof.Machine.execMirror f mem s
  | .parity f mem => Sys2Proof.Machine.execParity f mem s
  | .mirrorDone f mem => Sys2Proof.Machine.execMirrorDone f mem s
  | .waybook f mem => Sys2Proof.Machine.execWaybook f mem s
  | .waybookDone f mem => Sys2Proof.Machine.execWaybookDone f mem s
  | .sync f mem => Sys2Proof.Machine.execSync f mem s
  | .ackTimeout peer => Sys2Proof.Machine.execAckTimeout peer s
  | .exchTimeout chainId => Sys2Proof.Machine.execExchTimeout chainId s
  | .mirrorTimeout seq => Sys2Proof.Machine.execMirrorTimeout seq s
  | .mirrorLost => Sys2Proof.Machine.execMirrorLost s
  | .txCredit cd lane => Sys2Proof.Machine.execTxCredit cd lane s
  | .checkpoint => Sys2Proof.Machine.execCheckpoint s
  | .incidentDetect f => Sys2Proof.Machine.execIncidentDetect f s
  | .recoveryEnd mem => Sys2Proof.Machine.execRecoveryEnd mem s
  | .scrub word bits => Sys2Proof.Machine.execScrub word bits s
  | .assayStart => Sys2Proof.Machine.execAssayStart s
  | .assayComplete r drawOk => Sys2Proof.Machine.execAssayComplete r drawOk s
  | .resetAssert cold => Sys2Proof.Machine.execResetAssert cold s
  | .coldResetRelease => Sys2Proof.Machine.execColdResetRelease s
  | .warmResetRelease badRecord => Sys2Proof.Machine.execWarmResetRelease badRecord s
  | .startStepDone step pass info => Sys2Proof.Machine.execStartStepDone step pass info s
  | .startStepTimeout step => Sys2Proof.Machine.execStartStepTimeout step s
  | .asCheckPattern port beat => Sys2Proof.Machine.execAsCheckPattern port beat s
  | .demandUpdate => Sys2Proof.Machine.execDemandUpdate s
  | .forecastStart => Sys2Proof.Machine.execForecastStart s
  | .levelStep => Sys2Proof.Machine.execLevelStep s
  | .holdExpire => Sys2Proof.Machine.execHoldExpire s
  | .pgGrant level token => Sys2Proof.Machine.execPgGrant level token s
  | .throttle level => Sys2Proof.Machine.execThrottle level s
  | .railGood level => Sys2Proof.Machine.execRailGood level s
  | .pgReservedWord word => Sys2Proof.Machine.execPgReservedWord word s
  | .pgWordTruncated => Sys2Proof.Machine.execPgWordTruncated s
  | .pgLost => Sys2Proof.Machine.execPgLost s
  | .droopStretch => Sys2Proof.Machine.execDroopStretch s
  | .stretchEnd => Sys2Proof.Machine.execStretchEnd s
  | .recalWindow => Sys2Proof.Machine.execRecalWindow s
  | .recalComplete drop => Sys2Proof.Machine.execRecalComplete drop s
  | .clusterClockGated domain => Sys2Proof.Machine.execClusterClockGated domain s
  | .flitCrcFailure lane peer mem => Sys2Proof.Machine.execFlitCrcFailure lane peer mem s
  | .mirrorWriteResponse src seq => Sys2Proof.Machine.execMirrorWriteResponse src seq s
  | .waybookWindowWriteResponse src => Sys2Proof.Machine.execWaybookWindowWriteResponse src s

end Sys2Proof.Machine
end

