-- ==== Sys2Proof/Safety.lean ====
section
/-!
DEFINITION. What a safe run is, in the terms that claims use: the staging store in its canonical form, every array of the block at
its size, the journal's unreported records in RNUM order, and what a fenced block no longer sends.
-/
namespace Sys2Proof.Machine
open Sys2Proof

/-- What staging holds at an address: none where nothing is known. The one reading of a byte that frames are stated with. -/
def State.stageByte (s : State) (a : Nat) : Option Byte := Memory.get a s.staging

/-- The staging store is in its canonical form. -/
def State.stagingOk (s : State) : Prop := Memory.wf s.staging = true

/-- Records that wait for their report stand in the order of RNUM, below the tail (R605, R606, R613). -/
def Wb.ordered (w : Wb) : Prop := w.recs.Pairwise (fun a b => a.rnum < b.rnum) ∧ ∀ r ∈ w.recs, r.rnum < w.tail

/-- The journal's unreported records are in order. -/
def State.journalOk (s : State) : Prop := s.wb.ordered

/-- The pad channels: eight in force, eight shadow copies, eight in a pending set (R481). -/
def Pad.sized (p : Pad) : Prop :=
  p.active.length = 8 ∧ p.shadow.length = 8 ∧ ∀ v, p.pendingSet = some v → v.length = 8

/-- 64 toll counters, each with its limit (R369). -/
def Tolls.sized (t : Tolls) : Prop := t.count.length = 64 ∧ t.limit.length = 64

/-- Eight lanes on each side of the causeway, with credits each way (R766, R767). -/
def Cw.sized (c : Cw) : Prop :=
  c.credCu.length = 8 ∧ c.credCd.length = 8 ∧ c.rxCredCu.length = 8 ∧ c.rxCredCd.length = 8

/-- 32 incident-log entries, 32 S1 counters (R662, R665). -/
def Inc.sized (i : Inc) : Prop := i.log.length = 32 ∧ i.s1cnt.length = 32 ∧ i.s1since.length = 32

/-- The sizes of the arrays of a block, taken from the arrays themselves: 64 rings, 65 slots with the program store, 17 clusters, 16
accumulator-stream ports, ten start steps, three calibration entries, four sealed fields. An update that touches none of them leaves
every argument as it was. -/
structure Arrays (rings : List Ring) (slots : List Slot) (clusters : List Cluster) (held : List (Option Beat)) (seen : List (List Nat))
    (codes : List (Option StepCode)) (cals : List Cal) (changes : List (BitVec 2)) (pad : Pad) (tolls : Tolls) (cw : Cw) (inc : Inc) : Prop where
  rings : rings.length = 64
  slots : slots.length = 65
  clusters : clusters.length = 17
  held : held.length = 16
  seen : seen.length = 16
  codes : codes.length = 10
  cals : cals.length = 3
  changes : changes.length = 4
  pad : pad.sized
  tolls : tolls.sized
  cw : cw.sized
  inc : inc.sized

/-- Every array of the block has its size. -/
def State.Sized (s : State) : Prop :=
  Arrays s.rings s.slots s.clusters s.asHeld s.asSeen s.start.codes s.gov.cals s.seals.changes s.pad s.tolls s.cw s.inc

/-- Does an output leave on the causeway? -/
def Out.isFlit : Out → Bool
  | .flit _ => true
  | _ => false

/-- A command that resets the block (R742). -/
def Instr'.isReset : Instr → Bool
  | .resetAssert _ | .coldResetRelease | .warmResetRelease _ => true
  | _ => false

/-- What a run may never break: the store's form, the sizes, the journal's order. -/
structure State.Safe (s : State) : Prop where
  staging : s.stagingOk
  sized : s.Sized
  journal : s.journalOk

-- What frames say beyond the fields that stand -------------------------------------------------------------------------

/-- Does a byte of staging serve one of the `n` bytes of memory from `a` on (R482)? -/
def State.reaches (s : State) (a n x : Nat) : Prop := ∃ i, i < n ∧ s.stageAddr (a + i) = some x

/-- From `s` to `t` no byte of staging has changed but those that serve the stretches `ws`, each an address of memory and a length, and
no mark of a word in error has come, or has gone but where such a byte lies (R644). -/
structure State.StageKept (s t : State) (ws : List (Nat × Nat)) : Prop where
  bytes : ∀ x, (∀ w ∈ ws, ¬ s.reaches w.1 w.2 x) → t.stageByte x = s.stageByte x
  marks : ∀ w ∈ t.ue, w ∈ s.ue
  others : ∀ w ∈ s.ue, (∀ x, x / 32 = w → ∀ v ∈ ws, ¬ s.reaches v.1 v.2 x) → w ∈ t.ue

/-- A journal entry: its type, the payloads of its records, and what the report of its last record lets happen. -/
structure Entry where
  ty : Nat
  parts : List (List Byte)
  act : Act
deriving DecidableEq, Repr

/-- The records of entries that follow each other from RNUM `n` on, as they are written: neither answered nor acknowledged (R605). -/
def entryRecs (epoch : Nat) : Nat → List Entry → List Rec
  | _, [] => []
  | n, e :: es =>
    e.parts.mapIdx (fun i p => ⟨n + i, recBytes (n + i) e.ty i e.parts.length epoch p, false, false,
      if i + 1 = e.parts.length then e.act else .none⟩) ++ entryRecs epoch (n + e.parts.length) es

/-- The records that entries take at the tail of a state's journal. -/
def State.newRecs (s : State) (es : List Entry) : List Rec := entryRecs s.wb.epoch s.wb.tail es

/-- From `s` to `t` these entries, and no others, have been written to the journal: at its tail, each record to its place in memory
unless staging serves it, and to PARTNER where the journal is mirrored (R605, R606, R623). -/
structure State.Journals (s t : State) (es : List Entry) : Prop where
  wb : t.wb = { s.wb with
    tail := s.wb.tail + (s.newRecs es).length, recs := s.wb.recs ++ s.newRecs es, since := s.wb.since + (s.newRecs es).length,
    mirror := s.wb.mirror ++ (if s.mirrorEn && !s.noPartner then (s.newRecs es).map (fun r => (r.rnum, r.bytes)) else []), sent := t.wb.sent }
  sent : s.mirrorEn = false → t.wb.sent = s.wb.sent
  out : ∃ l, t.out = s.out ++ l ∧
    ∀ r ∈ s.newRecs es, (∀ i < 64, s.stageAddr (s.recAddr r.rnum + i) = none) → Out.mpWrite (s.recAddr r.rnum) r.bytes ∈ l

/-- Where the records between two states' tails lie. -/
def State.newSpans (s t : State) : List (Nat × Nat) := (List.range (t.wb.tail - s.wb.tail)).map (fun i => (s.recAddr (s.wb.tail + i), 64))

/-- From `s` to `t` these entries have been written to the journal, and no byte of staging has changed but where the journal or one of
the stretches `ws` lies in the resident region. -/
structure State.Wrote (s t : State) (es : List Entry) (ws : List (Nat × Nat) := []) : Prop where
  journal : s.Journals t es
  stage : s.StageKept t (s.newSpans t ++ ws)

/-- The read that asks for an item: none where staging serves it (R40, R745). -/
def State.asks (s : State) (a : Nat) : List Out := if (s.stageAddr (a - a % 128)).isSome then [] else [.mpRead (a - a % 128) 128]

/-- From `s` to `t` nothing of the groups has changed but in members with the number of `m`, which has become `m'`. -/
def State.Became (s t : State) (m m' : Member) : Prop := ∃ f : Member → Member, t.groups = (s.modMember m.seq f).groups ∧ f m = m'

/-- From `s` to `t` no group has changed but those that share a number with `g`, which has become `g'`. -/
def State.GroupBecame (s t : State) (g g' : Group) : Prop :=
  ∃ f : Group → Group, t.groups = s.groups.map f ∧ f g = g' ∧ ∀ x, (∀ m ∈ g.members, x.members.any (·.seq == m.seq) = false) → f x = x

/-- The digests of items just read that a member has not recorded yet (R601). -/
def Member.newDigests (m : Member) (ds : List Digest) : List Digest :=
  ds.filter (fun d => !m.digests.any (fun e => e.ty == d.ty && e.item == d.item))

/-- What a member owes to the journal once it has read items: what no walk has found (R619, R635). -/
def Member.owing (m : Member) (ds : List Digest) : List Digest := m.owed ++ (m.newDigests ds).filter (fun d => !m.found d)

/-- The INPUT_DIGEST entries of digests, two in a record (R608). -/
def Member.digestEntries (m : Member) (ds : List Digest) : List Entry :=
  (cut 2 ds).map (fun g => ⟨Ty.inputDigest, inputDigestParts m.seq g, .none⟩)

/-- From `s` to `t` a member `m`, now `m'`, has read items with the digests `ds`: what it owes stands in the journal, but an odd last
one where more can follow (`all` false). -/
structure State.TookItems (s t : State) (m m' : Member) (ds : List Digest) (all : Bool) (ws : List (Nat × Nat) := []) : Prop where
  wrote : s.Wrote t (m.digestEntries ((m.owing ds).take (if all then (m.owing ds).length else (m.owing ds).length / 2 * 2))) ws
  digests : m'.digests = m.digests ++ m.newDigests ds
  owed : m'.owed = (m.owing ds).drop (if all then (m.owing ds).length else (m.owing ds).length / 2 * 2)
  resv : m'.resv = m.resv - (m.digestEntries ((m.owing ds).take (if all then (m.owing ds).length else (m.owing ds).length / 2 * 2))).length

/-- The items of a member that it captures, each with the address of its entry (R454). -/
def State.captured (s : State) (mem : Image) (m : Member) : List (Nat × ItemSrc × List Byte) :=
  (m.caps.zip ((s.readList mem m).map (·.2))).filterMap (fun p => p.1.map (fun a => (a, p.2)))

/-- Bytes written at an address have left, unless there are none or staging serves some of them (R482). -/
def State.Left (s t : State) (a : Nat) (bs : List Byte) : Prop :=
  bs ≠ [] → (∀ i < bs.length, s.stageAddr (a + i) = none) → Out.mpWrite a bs ∈ t.out

/-- From `s` to `t` a member `m`, now `m'`, has read its inputs: their digests stand in the journal, the data of its capture entries is
written, and the headers wait (R455, R601, R619). -/
structure State.TookInputs (s t : State) (mem : Image) (m m' : Member) : Prop where
  items : s.TookItems t m m' ((s.readList mem m).map (fun x => m.itemDigest x.1 x.2.2)) true
    ((s.captured mem m).map (fun p => (p.1 + 64, (capData p.2.2).length)))
  caps : m'.caps = m.caps.map (fun _ => none)
  heads : m'.capHeads = m.capHeads ++ (s.captured mem m).map (fun p =>
    (p.1, capEntry m.seq (((p.2.1.parts.head?).map (·.1)).getD 0) p.2.2.length p.2.1.kind))
  data : ∀ p ∈ s.captured mem m, s.Left t (p.1 + 64) (capData p.2.2)

-- Situations that statements are about ---------------------------------------------------------------------------------

/-- Every link has its route: a command that shows memory has no routing entry to read (R513). -/
abbrev State.routed (s : State) : Prop := ∀ l ∈ s.cw.links, (s.route? l.peer).isSome = true

/-- No reset is asserted and no recovery is under way or waits. -/
abbrev State.calm (s : State) : Prop :=
  s.inReset = false ∧ s.inc.fenced = false ∧ s.inc.cur = none ∧ ∀ e ∈ s.inc.log, e.map (·.state) ≠ some 0

/-- The block holds one group, of one descriptor. -/
abbrev State.only (s : State) (g : Group) (m : Member) : Prop := s.groups = [g] ∧ g.members = [m]

/-- No capture space is to be reserved: no ring has a capture area, and every member that captures has been dealt with. -/
abbrev State.noCapture (s : State) : Prop := (∀ r ∈ s.rings, r.cap = none) ∧ ∀ m ∈ s.members, m.bytes.capture = true → m.capSet = true

/-- A descriptor that stands alone in its block has its waymark reported and nothing of its end written, and needs no done. -/
abbrev Group.fresh (g : Group) (m : Member) : Prop :=
  g.ended = true ∧ g.published = false ∧ g.posted = false ∧ m.taken = true ∧ m.milepost = none ∧ m.pubSeen = false ∧ m.mirrorDone = true

/-- A flit is the next that its link expects (R547): its port is up and its lane in use with a credit to receive it (R767, R769), the
link's route is known, the link is not waiting for a SYNC, and nothing is in the landing buffer. -/
abbrev State.inTurn (s : State) (f : Flit) (l : Link) : Prop :=
  s.laneUp f.cd f.lane = true ∧ (s.route? f.src).isSome = true ∧ s.link? f.src = some l ∧ l.sync ≠ 0 ∧ l.landing = [] ∧ f.lseq = l.rxSeq ∧
    f.lseq < 2 ^ 32

/-- From `s` to `t` a flit has been taken in LSEQ order: its credit is pulsed first (R767), and its link expects the next one (R547). -/
structure State.TookFlit (s t : State) (f : Flit) : Prop where
  credit : ∃ l, t.out = s.out ++ .rxCredit f.cd f.lane 1 :: l
  turn : ∃ l, t.link? f.src = some l ∧ l.rxSeq = (f.lseq + 1) % 2 ^ 32 ∧ l.landing = []

/-- An S1 of the causeway for a flit that nothing takes is counted (R524, R526). -/
def State.countedStray (s t : State) : Prop :=
  t.inc.s1cnt = s.inc.s1cnt.modify 0x14 (fun c => if c = 0xFFFFFFFF then c else c + 1) ∧ t.cw.exchs = s.cw.exchs ∧ t.groups = s.groups

/-- One link is open and idle, and what is queued on it leaves at once, on `lane` (R546, R766). -/
abbrev State.clearTo (s : State) (l : Link) (r : Route) (lane : Nat) : Prop :=
  s.cw.links = [l] ∧ l.queue = [] ∧ l.again = [] ∧ l.failed = false ∧ l.sync ≠ 0 ∧ l.unacked.length < 64 ∧ s.route? l.peer = some r ∧
    s.freeLane (!r.cu) = some lane ∧ s.isReady (if r.cu then 6 else 7) = true ∧ s.inc.fenced = false ∧ s.start.parked = false

/-- The incident log holds, at a position, an S2 that has ended: its source, unit, sequence number and address (R662). -/
def State.logged (s : State) (pos source unit seq addr : Nat) : Prop :=
  ∃ e, s.inc.log[pos]? = some (some e) ∧ e.source = source ∧ e.unit = unit ∧ e.seq = seq ∧ e.addr = addr ∧ e.sev = 2 ∧ e.sevFinal = 2 ∧
    e.state = 2

/-- A group of the block has faulted: the descriptor `seq` of it carries `code`, every other one GROUP_FAULT (R496, R648). -/
def State.faulted (s : State) (seq code : Nat) : Prop :=
  ∃ g, s.group? seq = some g ∧ g.dead = true ∧ ∀ m ∈ g.members, m.fault = if m.seq = seq then code else 0x020A

/-- A group that can fault: alive, unpublished, no milepost of it written. -/
abbrev Group.live (g : Group) : Prop := g.dead = false ∧ g.published = false ∧ ∀ m ∈ g.members, m.milepost = none

end Sys2Proof.Machine
end

