-- ==== Sys2Proof/Certificates/Slice0/Obligations.lean ====
section
/-!
DEFINITION. Statements for the provers. Where a statement gives a frame, it reads `t = { s with … }`: the fields named may differ,
as the other clauses say, and every other field of the block stands; for staging, `stageByte` is the reading of one byte.
-/
open Sys2Proof Sys2Proof.Machine

-- The machine ---------------------------------------------------------------------------------------------------------

/-- One step takes the command at the front of the queue and runs its meaning with the queue's rest. -/
def Obligations.StepRunsFrontCommand : Prop :=
  ∀ (c : Instr) (rest : List Instr) (s : State), s.pending = c :: rest → step s = exec c { s with pending := rest }

/-- With nothing to do the block idles: the model's choice (log 2). -/
def Obligations.EmptyQueueIdles : Prop := ∀ s : State, s.pending = [] → step s = .next s

/-- No command stops the block: what the spec calls a fault of a descriptor is a status, and an error is an incident. -/
def Obligations.EveryCommandAnswersNext : Prop := ∀ (c : Instr) (s : State), ∃ t, exec c s = .next t

/-- A command changes neither the queue nor the part's grade, and takes back nothing that has left at a port. -/
def Obligations.ExecKeepsQueueGradeAndOutputs : Prop :=
  ∀ (c : Instr) (s t : State), exec c s = .next t → t.pending = s.pending ∧ t.grade = s.grade ∧ ∃ l, t.out = s.out ++ l

/-- Every step keeps the staging store in its canonical form. -/
def Obligations.StepKeepsStagingCanonical : Prop := ∀ s t : State, s.stagingOk → step s = .next t → t.stagingOk

/-- Every step keeps every array of the block at its size. -/
def Obligations.StepKeepsArraySizes : Prop := ∀ s t : State, s.Sized → step s = .next t → t.Sized

/-- Every step keeps the journal's unreported records in the order of RNUM, below the tail. -/
def Obligations.StepKeepsJournalOrder : Prop := ∀ s t : State, s.journalOk → step s = .next t → t.journalOk

/-- Part of R654: a fenced block stays fenced until a reset, and sends no flit. -/
def Obligations.FencedBlockSendsNoFlit : Prop :=
  ∀ (c : Instr) (s t : State), Instr'.isReset c = false → s.inc.fenced = true → exec c s = .next t →
    t.inc.fenced = true ∧ ∃ l, t.out = s.out ++ l ∧ ∀ o ∈ l, o.isFlit = false

/-- The state after reset keeps every invariant, its queue is empty, and it holds what the spec gives for reset. -/
def Obligations.ResetStateHoldsTheSpecsValues : Prop :=
  let s := State.reset
  s.Safe ∧ s.pending = [] ∧
  s.regs.startCtl = 0x00640000 ∧ s.regs.wbCtl = 0x0010000C ∧ s.regs.wbmCtl = 0x0000000C ∧ s.regs.mpCtl = 0x00080033 ∧
  s.regs.asCtl = 0x00642710 ∧ s.regs.cwCtl = 0x05102710 ∧ s.regs.incCtl = 2 ∧ s.regs.assayCtl = 0x3E8 ∧
  s.seals.compatGen = 6 ∧ s.seals.reproClass = 0 ∧ s.seals.drawKey = 0 ∧ s.start.ready = 3 ∧ s.wb.nextSeq = 1 ∧
  (∀ r < 64, (s.ring r).ctl = 0x03E80000 ∧ (s.ring r).status = .disabled) ∧
  (∀ i, 3 ≤ i → i < 64 → (s.slot i).replica = none) ∧ (∀ i < 3, (s.slot i).replica = some i)

-- The setup port ------------------------------------------------------------------------------------------------------

/-- A whole word written to a register of plain fields takes effect at once: exactly that register changes. -/
def Obligations.PlainRegistersTakeTheirData : Prop :=
  ∀ (s : State) (d : Nat), s.inReset = false →
    exec (.setupWrite 0x418 d 0xF) s = .next (State.respond { s with regs := { s.regs with asCtl := BitVec.ofNat 32 d } } .apb 0 false) ∧
    exec (.setupWrite 0x428 d 0xF) s = .next (State.respond { s with regs := { s.regs with cwCtl := BitVec.ofNat 32 d } } .apb 0 false) ∧
    exec (.setupWrite 0x014 d 0xF) s = .next (State.respond { s with regs := { s.regs with debugCtl := BitVec.ofNat 32 (d &&& 1) } } .apb 0 false) ∧
    exec (.setupWrite 0x500 d 0xF) s = .next (State.respond { s with regs := { s.regs with clkCtl := BitVec.ofNat 32 (d &&& 0x1FFFFFF) } } .apb 0 false)

/-- While a reset is asserted every transfer on the setup port ends with PSLVERR and has no other effect. Else a transfer that is not aligned
or that names no register, and a write with a strobe missing, is refused with PSLVERR and zero read data; the error record shows it, and
nothing else changes. -/
def Obligations.InvalidAccessesAreRefused : Prop :=
  ∀ (s : State) (off d strb : Nat),
    let ended := { s.setup.apb with rdata := 0, slverr := true }
    let refused := { s with setup := { s.setup with
      lastError := 4, err := true, lastOffset := BitVec.ofNat 16 off,
      errCount := if s.setup.errCount = 0xFFFF then s.setup.errCount else s.setup.errCount + 1, apb := ended } }
    (s.inReset = true →
      exec (.setupWrite off d strb) s = .next { s with setup := { s.setup with apb := ended } } ∧
      exec (.snapshotRead off) s = .next { s with setup := { s.setup with apb := ended } }) ∧
    (s.inReset = false → (off % 4 ≠ 0 ∨ strb ≠ 0xF ∨ regAt off = none) → exec (.setupWrite off d strb) s = .next refused) ∧
    (s.inReset = false → (off % 4 ≠ 0 ∨ regAt off = none) → exec (.snapshotRead off) s = .next refused)

/-- An I field written while its function is busy stays, with SLVERR and SETUP_BUSY; else it takes its value. For DX_WB_BASE, two
words wide with its low six bits zero, and the waybook. -/
def Obligations.BusyFieldsKeepTheirValue : Prop :=
  ∀ (s : State) (lo hi : Nat), s.inReset = false → lo < 2 ^ 32 → hi < 2 ^ 32 →
    (s.setup.apb.holds.find? (fun q => q.1 == 0x300)).map (·.2) = some lo →
    let line := (lo + hi * 2 ^ 32) - (lo + hi * 2 ^ 32) % 64
    (s.wbBusy = false ∨ s.regs.wbBase.toNat = line →
      ∃ t, exec (.setupWrite 0x304 hi 0xF) s = .next t ∧ t = { s with regs := { s.regs with wbBase := BitVec.ofNat 64 line }, setup := t.setup } ∧
        t.setup.apb.slverr = false) ∧
    (s.wbBusy = true ∧ s.regs.wbBase.toNat ≠ line →
      ∃ t, exec (.setupWrite 0x304 hi 0xF) s = .next t ∧ t = { s with setup := t.setup } ∧ t.setup.lastError = 1 ∧ t.setup.apb.slverr = true)

/-- A read of a wide register's lowest word gives it and keeps the whole value; a read of a higher word gives that snapshot's
word, whatever the register has become. -/
def Obligations.WideReadsAreSnapshots : Prop :=
  ∀ (s : State) (b n i : Nat), s.inReset = false → b % 4 = 0 → regAt b = some (b, n) → 1 < n → 0 < i → i < n → regAt (b + 4 * i) = some (b, n) →
    ∃ t, exec (.snapshotRead b) s = .next t ∧ t.setup.apb.rdata.toNat = s.regVal b % 2 ^ 32 ∧ t.setup.apb.slverr = false ∧
      t = { s with setup := t.setup } ∧
      ∀ u : State, u.inReset = false → u.setup.apb.snaps = t.setup.apb.snaps →
        ∃ v, exec (.snapshotRead (b + 4 * i)) u = .next v ∧ v.setup.apb.rdata.toNat = (s.regVal b >>> (32 * i)) % 2 ^ 32 ∧
          v.setup.apb.slverr = false ∧ v = { u with setup := v.setup }

/-- An access of the debug segment does what the same access on the setup port does; only its own holding copies, snapshots and
response tell them apart. -/
def Obligations.DebugSegmentActsAsSetupPort : Prop :=
  ∀ (s : State) (off d : Nat), s.setup.dbg = s.setup.apb →
    (∃ t u, exec (.setupAccess true off d) s = .next t ∧ exec (.setupWrite off d 0xF) s = .next u ∧
      t.setup.dbg.rdata = u.setup.apb.rdata ∧ t.setup.dbg.slverr = u.setup.apb.slverr ∧
      { t with setup := { t.setup with apb := s.setup.apb, dbg := s.setup.dbg } } =
        { u with setup := { u.setup with apb := s.setup.apb, dbg := s.setup.dbg } }) ∧
    (∃ t u, exec (.setupAccess false off d) s = .next t ∧ exec (.snapshotRead off) s = .next u ∧
      t.setup.dbg.rdata = u.setup.apb.rdata ∧ t.setup.dbg.slverr = u.setup.apb.slverr ∧
      { t with setup := { t.setup with apb := s.setup.apb, dbg := s.setup.dbg } } =
        { u with setup := { u.setup with apb := s.setup.apb, dbg := s.setup.dbg } })

/-- COMMIT_PAD makes the shadow copies the pending set; at the quiet point of the elementwise and the row function the pending set
comes into force and DX_COMMIT is clear. Nothing else changes. -/
def Obligations.PadSetAppliesAtQuietPoint : Prop :=
  (∀ s : State, s.inReset = false →
    exec .commitPad s = .next (State.respond { s with pad := { s.pad with pendingSet := some s.pad.shadow } } .apb 0 false)) ∧
  (∀ (s : State) (v : List (BitVec 32)), s.inReset = false → s.pad.pendingSet = some v → s.quiet 2 = true → s.quiet 3 = true →
    exec .pendingSetApply s = .next { s with pad := { s.pad with active := v, pendingSet := none } })

/-- A sealed field that is given a new value waits for its quiet point while the waybook is ready, and takes it at once,
counted and kept for its SEAL entry, while it is not: DX_SEAL_CTL, DX_DRAW_APPLY and DX_GEOM_APPLY. -/
def Obligations.SealedFieldsChange : Prop :=
  ∀ (s : State) (f : SealField) (c : Instr) (v : Nat), s.inReset = false → s.seals.changes.length = 4 →
    ((f = .compat ∧ (v = 5 ∨ v = 6) ∧ c = .sealCtlWrite (v + s.seals.reproClass.toNat * 256)) ∨
     (f = .repro ∧ v < 2 ∧ c = .sealCtlWrite (s.seals.compatGen.toNat + v * 256)) ∨
     (f = .drawKey ∧ v = s.regs.drawStage.toNat ∧ c = .drawApply) ∨
     (f = .geometry ∧ v = s.regs.geomStage.toNat ∧ geomOk v = true ∧ c = .geomApply)) →
    v ≠ s.seals.value f → s.seals.pending.any (fun p => p.field == f) = false → s.seals.count f < 3 →
    (s.isReady 9 = true →
      exec c s = .next (State.respond { s with seals := { s.seals with pending := s.seals.pending ++ [⟨f, v, false⟩] } } .apb 0 false)) ∧
    (s.isReady 9 = false →
      exec c s = .next (State.respond { s with seals := { s.seals.apply f v with
        unjournalled := s.seals.unjournalled ++ [⟨f, s.seals.count f + 1, s.seals.value f, v⟩] } } .apb 0 false))

/-- At the quiet point of its governed set a pending change writes its SEAL entry, with the value in force, the new one and the
frontier; the value in force does not change before that is reported. -/
def Obligations.SealChangeIsJournalledFirst : Prop :=
  ∀ (s : State) (k : Nat) (p : SealPend), s.inReset = false → s.wbOpen = true →
    let f := SealField.ofCode k
    s.seals.pending.find? (fun p => p.field == f && !p.written) = some p →
    (State.governed f).all s.quiet = true →
    ∃ t, exec (.sealChangeApply k) s = .next t ∧
      t = { s with
        seals := { s.seals with pending := s.seals.pending.map (fun q => if q.field = f then { q with written := true } else q) },
        wb := t.wb, cw := t.cw, out := t.out, staging := t.staging, ue := t.ue } ∧
      s.Wrote t [⟨Ty.sealed, sealParts f (s.seals.count f + 1) (s.wb.nextSeq - 1) (s.seals.value f) p.value, .seal f⟩]

/-- ENABLE set: the ring reads its head record at once where the waybook is ready, else once it is, and shows DISABLED until then; a ring
that owes a replay is in REPLAY and reads nothing yet. ENABLE cleared: the ring takes nothing more, and shows DISABLED at once where it
has no descriptor without a milepost and its indices are known. -/
def Obligations.RingsStartAndStop : Prop :=
  ∀ (s : State) (ring data : Nat), s.inReset = false → ring < 64 → s.rings.length = 64 →
    let ctl := BitVec.ofNat 32 (data &&& 0xFFFF0F03)
    ((s.ring ring).enabled = false → bit data 0 = true → bits data 11 8 ≤ 12 →
      (s.ring ring).base ≠ 0 → (s.ring ring).head ≠ 0 → (s.ring ring).cpl ≠ 0 →
      (s.groups.any (fun g => g.ring == ring && g.replay && g.ended && !g.published) = false →
        (s.isReady 9 = true → s.inc.fenced = false →
          exec (.ringEnable ring data) s = .next (State.respond { s with
            rings := s.rings.modify ring (fun g => { g with
              ctl := ctl, halted := false, resume := .running, known := false, arrived := [], atHead := none, pending := false,
              reading := some .enable }),
            out := s.out ++ s.asks (s.ring ring).head.toNat } .apb 0 false)) ∧
        (s.isReady 9 = false ∨ s.inc.fenced = true →
          exec (.ringEnable ring data) s = .next (State.respond { s with
            rings := s.rings.modify ring (fun g => { g with
              ctl := ctl, halted := false, resume := .running, known := false, arrived := [], atHead := none, pending := true,
              reading := none, rebuilt := false, status := .disabled }) } .apb 0 false))) ∧
      (s.groups.any (fun g => g.ring == ring && g.replay && g.ended && !g.published) = true →
        exec (.ringEnable ring data) s = .next (State.respond { s with
          rings := s.rings.modify ring (fun g => { g with
            ctl := ctl, halted := false, resume := .running, status := .replay, arrived := [], atHead := none }) } .apb 0 false))) ∧
    ((s.ring ring).enabled = true → bit data 0 = false → (s.ring ring).ctl.toNat &&& 0xF00 = data &&& 0xF00 → s.openGroup ring = none →
      let off := fun (g : Ring) => { g with
        ctl := ctl, arrived := [], atHead := none, reading := if g.reading = some .recovery then g.reading else none, resume := .running,
        status := if g.status = .disabled ∧ s.isReady 9 = false then .running else g.status }
      (s.groups.any (fun g => g.ring == ring) = true ∨ (s.ring ring).known = false →
        exec (.ringDisable ring data) s = .next (State.respond { s with rings := s.rings.modify ring off } .apb 0 false)) ∧
      (s.groups.any (fun g => g.ring == ring) = false → (s.ring ring).known = true → (s.ring ring).status ≠ .disabled →
        (s.ring ring).status ≠ .replay → s.inc.fenced = false →
        let u := { s with rings := s.rings.modify ring (fun g => { off g with status := .disabled }) }
        exec (.ringDisable ring data) s = .next ((u.wr ((s.ring ring).head.toNat + 32) (u.headHalf ring)).respond .apb 0 false) ∧
          field (u.headHalf ring) 8 2 = 1))

/-- DX_CW_ROUTE_INV drops the named routing entry, or all of them; nothing outside the causeway changes. -/
def Obligations.RouteInvForgetsRoutes : Prop :=
  ∀ (s : State) (data : Nat), s.inReset = false →
    ∃ t, exec (.routeInv data) s = .next t ∧ t = { s with cw := t.cw, out := t.out, setup := t.setup } ∧
      t.cw.routes = s.cw.routes.filter (fun r => !(bit data 15 || r.pos == bits data 14 0))

/-- DX_INC_CTL.FENCE raises FENCE_REQ, an S4: its entry is active, the block is fenced, only setup and debug stay ready, and no access
to the store window waits any more. -/
def Obligations.FenceRequestFencesTheBlock : Prop :=
  ∀ (s : State) (data p : Nat), s.calm → s.freePos = some p → (∀ e ∈ s.cw.exchs, e.isOpen = false) → bit data 0 = true →
    ∃ t, exec (.fenceReq data) s = .next t ∧
      t = { s with regs := { s.regs with incCtl := BitVec.ofNat 32 (data &&& 2) }, inc := t.inc, start := t.start, wb := t.wb, setup := t.setup, tolls := t.tolls,
                   out := t.out, freeCtr := t.freeCtr } ∧
      t.inc.fenced = true ∧ t.inc.cur = some p ∧ t.inc.nextId = s.inc.nextId + 1 ∧
      (∃ e, t.inc.log[p]? = some (some e) ∧ e.source = 0x1F ∧ e.sev = 4 ∧ e.sevFinal = 4 ∧ e.state = 1 ∧ e.action = 6) ∧
      t.start = { s.start with ready := s.start.ready &&& 3 } ∧ t.wb = { s.wb with stopped := true } ∧
      t.setup.irqIncident = s.setup.irqIncident ||| 4 ∧
      t.tolls = { s.tolls with asks := [], waits := [], sets := [] }

/-- DX_ASSAY_CTL.FORCE names the next cluster to assay. GO ends the wait: S1 begins, in a cold start with the hint where it is a start
record. RERUN of S7, S8 or S9 clears the step's function and runs the step again. -/
def Obligations.StartAndAssayControls : Prop :=
  ∀ (s : State) (data : Nat), s.inReset = false →
    (bit data 21 = true → bits data 20 16 < 17 →
      exec (.assayForce data) s = .next (State.respond { s with
        regs := { s.regs with assayCtl := BitVec.ofNat 32 (data &&& 0x1FFFFF) },
        assay := { s.assay with forced := some (bits data 20 16) } } .apb 0 false)) ∧
    (bit data 8 = false → bit data 0 = true → s.start.waitingGo = true →
      ∃ t, exec (.go data) s = .next t ∧ t = { s with regs := { s.regs with startCtl := BitVec.ofNat 32 (data &&& 0xFFFF00FE) }, start := t.start, setup := t.setup } ∧
        t.start.waitingGo = false ∧ t.start.running = s.start.running.filter (fun p => p.1 != 1) ++ [(1, 1)] ∧
        t.start.codes = s.start.codes ∧ t.start.ready = s.start.ready ∧
        (s.start.warm = true ∨ bit data 1 = false → t.start.prev = s.start.prev ∧ t.start.hintUsed = s.start.hintUsed ∧ t.start.hintBad = s.start.hintBad) ∧
        (s.start.warm = false → bit data 1 = true → State.recordOk (toBytes 64 s.regs.startHint.toNat) = true →
          t.start.prev = some (toBytes 64 s.regs.startHint.toNat) ∧ t.start.hintUsed = true) ∧
        (s.start.warm = false → bit data 1 = true → State.recordOk (toBytes 64 s.regs.startHint.toNat) = false →
          t.start.prev = s.start.prev ∧ t.start.hintBad = true)) ∧
    (bit data 8 = true → 7 ≤ bits data 7 4 → bits data 7 4 ≤ 9 → s.start.parked = false → s.start.active = false →
      s.stepRunning (bits data 7 4) = false → s.rerunBusy (bits data 7 4) = false →
      ∃ t, exec (.rerun data) s = .next t ∧
        t = { s with regs := { s.regs with startCtl := BitVec.ofNat 32 (data &&& 0xFFFF00FE) }, start := t.start, setup := t.setup, asSeen := t.asSeen, asBad := t.asBad } ∧
        t.start.ready = s.start.ready &&& ~~~(1#16 <<< stepFunction (bits data 7 4)) ∧
        t.start.running = s.start.running.filter (fun p => p.1 != bits data 7 4) ++ [(bits data 7 4, 1)] ∧
        t.start.rerun.contains (bits data 7 4) = true ∧ t.start.codes = s.start.codes)

/-- A read of DX_DBG_DATA returns the staging word at WORD and advances WORD by 4, wrapping; a word of an open accumulator tile without
OPEN_READ, or any word while D17 is gated, reads as zero and sets ERR, without PSLVERR. -/
def Obligations.DebugDataReadReturnsStaging : Prop :=
  ∀ s : State, s.inReset = false → s.ueIn s.regs.dbgAddr.toNat 4 = none →
    let w := s.regs.dbgAddr.toNat
    let next := { s with regs := { s.regs with dbgAddr := BitVec.ofNat 32 ((w + 4) % 2 ^ 26) }, freeCtr := s.freeCtr + 1 }
    let gated := s.stepBegun 1 = false ∧ s.regs.clkCtl.getLsbD 17 = false
    let open' := s.openGran.contains (w / 65536) = true ∧ s.regs.debugCtl.getLsbD 0 = false
    (¬ gated → ¬ open' → s.heldGran.contains (w / 65536) = false →
      exec .dbgDataRead s = .next (next.respond .apb (ofBytes (s.staging.readN s.freeCtr w 4)) false)) ∧
    (gated ∨ open' →
      exec .dbgDataRead s = .next (State.respond { next with setup := { s.setup with dbgErr := true } } .apb 0 false))

-- Taking --------------------------------------------------------------------------------------------------------------

/-- A write to the bell aperture: SLVERR while the block is fenced or parked or where the burst is not served; else OKAY, counted as
IGNORED where it is no bell of an enabled ring, and as RECEIVED otherwise: the ring's flag is set, and where no head-record read is
outstanding the flag is served by one. -/
def Obligations.BellsSetFlagsAndAreCounted : Prop :=
  ∀ (s : State) (req : WinReq) (word strb : Nat), s.inReset = false → WinReq'.inBell req = true → s.rings.length = 64 →
    let r := bits word 5 0
    let valid := bits word 31 6 = 0 ∧ bits strb 3 0 = 0xF ∧ (s.ring r).enabled = true
    let answered := s.out ++ [Out.winWrite req .okay]
    let received := { s.setup with bellReceived := satInc s.setup.bellReceived }
    (s.shut = true ∨ req.incr = false ∨ req.atomic = true →
      exec (.bell req word strb) s = .next { s with out := s.out ++ [.winWrite req .slverr] }) ∧
    (s.shut = false → req.incr = true → req.atomic = false → ¬ valid →
      exec (.bell req word strb) s = .next { s with setup := { s.setup with bellIgnored := satInc s.setup.bellIgnored }, out := answered }) ∧
    (s.shut = false → req.incr = true → req.atomic = false → valid → ((s.ring r).reading ≠ none ∨ s.isReady 9 = false) →
      exec (.bell req word strb) s = .next { s with
        setup := received, out := answered, rings := s.rings.modify r (fun g => { g with pending := true }) }) ∧
    (s.shut = false → req.incr = true → req.atomic = false → valid → (s.ring r).reading = none → s.isReady 9 = true →
      exec (.bell req word strb) s = .next { s with
        setup := received, out := answered ++ s.asks (s.ring r).head.toNat,
        rings := s.rings.modify r (fun g => { g with pending := false, reading := some .bell }) })

/-- A head record arrives. After a bell: a PROD_IDX beyond what has been fetched is taken and every new descriptor asked for; one beyond
the ring's size takes nothing, sets OVERRUN and halts the ring. After an enable: ACCEPT_IDX and DONE_IDX are taken, LAST_SEQ where none is
known, the ring is RUNNING, shows it, and is then served as after a bell. -/
def Obligations.HeadRecordIsTaken : Prop :=
  ∀ (s : State) (ring : Nat) (data : List Byte), ring < 64 → s.rings.length = 64 → s.inc.fenced = false →
    (s.ring ring).pending = false → (s.ring ring).enabled = true →
    let g := s.ring ring
    let bs := s.rd [⟨g.head.toNat, data⟩] g.head.toNat 64
    let prod := BitVec.ofNat 32 (field bs 0 4)
    let base := s.acceptIdx ring
    let had := (g.prod - base).toNat
    let want := (prod - base).toNat
    (g.reading = some .bell → g.taking = true → want ≤ g.slots →
      exec (.headRecordData ring .okay data) s = .next { s with
        rings := s.rings.modify ring (fun g => { g with reading := none, prod := if had < want then prod else g.prod }),
        out := s.out ++ (List.range (want - had)).flatMap (fun k => s.asks (g.descAddr (g.prod + BitVec.ofNat 32 k))) }) ∧
    (g.reading = some .bell → g.taking = true → g.slots < want → s.openGroup ring = none →
      let u := { s with rings := s.rings.modify ring (fun g => { g with
        reading := none, halted := true, status := .overrun, resume := .overrun, arrived := [], atHead := none }) }
      exec (.headRecordData ring .okay data) s =
          .next (if g.known then u.wr (g.head.toNat + 32) (u.headHalf ring) else u) ∧
        field (u.headHalf ring) 8 2 = 2) ∧
    (g.reading = some .enable → s.untaken ring = [] →
      let acc := BitVec.ofNat 32 (field bs 32 4)
      (prod - acc).toNat ≤ g.slots →
      let taken := fun (p : BitVec 32) (g : Ring) => { g with
        reading := none, next := acc, prod := p, done := BitVec.ofNat 32 (field bs 36 4), known := true,
        lastSeq := if g.seqKnown then g.lastSeq else field bs 48 8, seqKnown := true, rebuilt := false, status := .running, halted := false }
      let u := { s with rings := s.rings.modify ring (taken acc) }
      let v := u.wr (g.head.toNat + 32) (u.headHalf ring)
      exec (.headRecordData ring .okay data) s = .next { v with
          rings := s.rings.modify ring (taken prod),
          out := v.out ++ (List.range (prod - acc).toNat).flatMap (fun k => s.asks (g.descAddr (acc + BitVec.ofNat 32 k))) } ∧
        field (u.headHalf ring) 8 2 = 0 ∧ field (u.headHalf ring) 0 4 = acc.toNat)

/-- A fetched descriptor arrives: at the head of a ring that has none there it is checked at once and waits where it needs a function
that is not ready; behind another it stays fetched. What of it lies in the resident range is read from staging. -/
def Obligations.DescriptorsComeToTheHead : Prop :=
  ∀ (s : State) (ring : Nat) (data : List Byte), ring < 64 → s.rings.length = 64 → s.inc.fenced = false →
    (s.ring ring).taking = true → 0 < (s.ring ring).fetching →
    let g := s.ring ring
    let a := g.descAddr (g.next + BitVec.ofNat 32 (g.arrived.length + b2n g.atHead.isSome))
    let d := s.rd [⟨a, data⟩] a 128
    (g.atHead = none → g.arrived = [] →
      exec (.descriptorData ring .okay data) s = .next { s with rings := s.rings.modify ring (fun g => { g with
        arrived := [], atHead := some ⟨d, s.check ring d, s.check ring d == 0 && !s.needsReady d, false⟩ }) }) ∧
    (g.atHead ≠ none →
      exec (.descriptorData ring .okay data) s = .next { s with rings := s.rings.modify ring (fun g => { g with arrived := g.arrived ++ [d] }) })

/-- The acceptance stage serves the head of a ring: the next sequence number and the next index are spent, the waymark stands at the
journal's tail with the status of the checks and the descriptor, and the descriptor begins a group or joins its ring's open one, which a
rejected member ends for all of them. -/
def Obligations.WaymarkIsWritten : Prop :=
  ∀ (s : State) (ring : Nat) (h : Head), ring < 64 → s.rings.length = 64 → (s.ring ring).atHead = some h → h.waiting = false →
    (s.ring ring).taking = true → s.wb.stopped = false → s.unsettled = false → s.isReady 9 = true → s.inc.fenced = false →
    s.sealHolds h.bytes = false → s.member? s.wb.nextSeq = none →
    let st := if h.settled then h.status else s.check ring h.bytes
    (st = 0 → s.needsReady h.bytes = true) →
    let q := if st == 0 then (s.resolve h.bytes).getD ⟨[], 0, 0, 0⟩ else ⟨[], 0, 0, 0⟩
    let nz := q.reads.filter (fun p => p.2 != 0)
    let joins := h.bytes.fuse && (s.openGroup ring).isSome
    let resv := State.reserve h.bytes (st == 0) (!joins) nz.length
    s.wbRoom resv = true →
    let pads := st == 0 && h.bytes.padEn
    let padVal := if pads then (s.pad.active.getD h.bytes.padCh 0).toNat else 0
    let parts := waymarkParts s.wb.nextSeq (s.ring ring).next.toNat ring s.seals.compatGen.toNat st nz (if pads then h.bytes.padCh else 0xFF)
      padVal q.progGen h.bytes
    let m := { newMember s.wb.nextSeq ring (s.ring ring).next h.bytes st s.seals.compatGen.toNat q padVal s.wb.tail (resv - parts.length) with
      mirrorDone := !(s.needsDone h.bytes) }
    let killed := fun (g : Group) => { g with
      dead := true, members := g.members.map (fun m => { m with fault := if m.accepted then 0x020A else 0 }) }
    ∃ t, exec (.waymarkWrite ring) s = .next t ∧ t.wb.nextSeq = s.wb.nextSeq + 1 ∧ (t.ring ring).next = (s.ring ring).next + 1 ∧
      (joins = true ∨ s.openGroup ring = none →
        t = { s with rings := t.rings, groups := t.groups, wb := t.wb, cw := t.cw, out := t.out, staging := t.staging, ue := t.ue } ∧
        State.Wrote { s with wb := { s.wb with nextSeq := s.wb.nextSeq + 1 } } t [⟨Ty.waymark, parts, .waymark s.wb.nextSeq⟩] ∧
        (∀ r, r ≠ ring → t.ring r = s.ring r) ∧
        ((s.ring ring).arrived = [] → t.rings = s.rings.modify ring (fun g => { g with next := g.next + 1, atHead := none }))) ∧
      (joins = false → s.openGroup ring = none →
        let g := { newGroup ring m with ended := h.bytes.last }
        t.groups = s.groups ++ [if st = 0 then g else killed g]) ∧
      (∀ pre g post, joins = true → s.groups = pre ++ g :: post → g.ring = ring → g.ended = false → g.members ≠ [] →
        (∀ x ∈ pre ++ post, (x.ring ≠ ring ∨ x.ended = true) ∧ x.members.any (·.seq == g.firstSeq) = false) →
        let y := { g with members := g.members ++ [m], ended := h.bytes.last }
        t.groups = pre ++ (if st = 0 ∧ g.dead = false then y else killed y) :: post)

/-- A descriptor that waits at the head for a function is checked again once every function that it needs is ready; where its ring has
a WAIT_LIMIT and the limit has passed it is rejected with NOT_READY, which the acceptance stage then writes. -/
def Obligations.WaitingDescriptorsAreSettled : Prop :=
  ∀ (s : State) (ring : Nat) (h : Head), (s.ring ring).atHead = some h → h.waiting = true →
    (s.needsReady h.bytes = true →
      exec (.readyRecheck ring) s = .next { s with rings := s.rings.modify ring (fun g => { g with
        atHead := some { h with status := s.check ring h.bytes, waiting := false } }) }) ∧
    ((s.ring ring).waitLimit ≠ 0 → s.isReady 9 = true →
      exec (.notReadyTimeout ring) s = .next { s with rings := s.rings.modify ring (fun g => { g with
        atHead := some { h with status := 0x0118, waiting := false, settled := true } }) })

/-- Records are reported in RNUM order: the response of a record behind one without a response is kept and nothing follows from it. The
report of a waymark takes its descriptor, and the head record shows it; that of a SEAL entry puts the new value in force and counts the
change; that of GROUP_CLOSE lets the group's output writes leave; that of its last PUBLISHED entry lets its milepost leave; that of a
CHECKPOINT moves DX_WB_CKPT and the trim point, that of a TOLL_SET answers the control write, that of an incident frees its place in the
log. -/
def Obligations.ReportsFollowRnumOrder : Prop :=
  ∀ (s : State) (rnum : Nat) (mem : Image), s.routed → s.inc.fenced = false →
    (∀ (a : Rec) (rest : List Rec), s.wb.recs = a :: rest → a.ok = false → a.rnum ≠ rnum → rest.any (fun r => r.rnum == rnum && !r.ok) = true →
      exec (.waybookWriteResponse rnum .okay mem) s = .next { s with wb := { s.wb with
        recs := s.wb.recs.map (fun r => if r.rnum = rnum then { r with ok := true } else r) } }) ∧
    (∀ (r : Rec), s.wb.recs = [r] → r.rnum = rnum → r.ok = false → (r.acked = true ∨ s.mirrorEn = false ∨ s.wb.mirrorLost = true) →
      let reported := { s.wb with recs := [] }
      (r.act ∈ [.none, .toll] → exec (.waybookWriteResponse rnum .okay mem) s = .next { s with wb := reported }) ∧
      (∀ (f : SealField) (p : SealPend), r.act = .seal f → s.seals.pending.find? (fun p => p.field == f && p.written) = some p → s.tolls.asks = [] →
        exec (.waybookWriteResponse rnum .okay mem) s = .next { s with
          wb := reported,
          seals := { s.seals.apply f p.value with pending := s.seals.pending.filter (fun q => q.field != f) } }) ∧
      (∀ (g : Group) (m : Member), r.act = .waymark m.seq → s.only g m → g.ended = false → g.published = false → m.milepost = none →
        let u := { s with
          wb := reported,
          groups := [{ g with members := [{ m with taken := true }] }],
          rings := s.rings.modify m.ring (fun g => { g with lastSeq := m.seq, seqKnown := true }) }
        exec (.waybookWriteResponse rnum .okay mem) s =
          .next (if (s.ring m.ring).known then u.wr ((s.ring m.ring).head.toNat + 32) (u.headHalf m.ring) else u)) ∧
      (∀ (g : Group) (m : Member), r.act = .groupClose m.seq → s.only g m → g.wrote = false → g.dead = false →
        ∃ t, exec (.waybookWriteResponse rnum .okay mem) s = .next t ∧
          t = { s with wb := reported, groups := [{ g with closeReported := true, wrote := true }], cw := t.cw, out := t.out,
                       staging := t.staging, ue := t.ue } ∧
          s.StageKept t ((s.outWrites g m).map (fun w => (w.1, w.2.length)) ++ (State.outBits m).map (fun w => (w.1, 1))) ∧
          (∀ w ∈ s.outWrites g m, s.Left t w.1 w.2) ∧
          (∀ w ∈ State.outBits m, s.stageAddr w.1 = none → Out.mpWriteBits w.1 w.2.1 w.2.2 ∈ t.out)) ∧
      (∀ (g : Group) (m : Member) (b : List Byte), r.act = .published m.seq → s.only g m → g.posted = false → g.ring = m.ring →
        m.milepost = some b → (g.closeReported = true → g.wrote = true) → s.cw.exchs = [] → (s.ring m.ring).status ≠ .replay → s.tolls.asks = [] →
        ∃ t, exec (.waybookWriteResponse rnum .okay mem) s = .next t ∧
          t = { s with wb := reported, groups := [{ g with published := true, posted := true, members := [{ m with resv := 0 }] }],
                       clusters := s.clusters.map (fun c => if g.issued = true ∧ c.suspectFrom ≠ 0 ∧ c.suspectFrom ≤ m.seq then
                         { c with workedPub := max c.workedPub m.seq } else c),
                       cw := t.cw, out := t.out, staging := t.staging, ue := t.ue } ∧
          s.StageKept t [((s.ring m.ring).cplAddr m.idx, b.length)] ∧ s.Left t ((s.ring m.ring).cplAddr m.idx) b) ∧
      (∀ walk, r.act = .checkpoint walk 0 → s.tolls.asks = [] →
        exec (.waybookWriteResponse rnum .okay mem) s = .next { s with wb := { reported with ckpt := rnum, trim := walk } }) ∧
      (∀ (c : Nat) (w : WinReq × Nat), r.act = .tollSet c → s.tolls.sets.find? (fun w => w.2 == rnum) = some w →
        exec (.waybookWriteResponse rnum .okay mem) s = .next { s with
          wb := reported, tolls := { s.tolls with sets := s.tolls.sets.filter (fun w => w.2 != rnum) }, out := s.out ++ [.winWrite w.1 .okay] }) ∧
      (∀ (pos : Nat) (e : IncEntry), r.act = .incident pos → s.entry? pos = some e → e.sevFinal ≠ 4 →
        exec (.waybookWriteResponse rnum .okay mem) s = .next { s with
          wb := reported, inc := { s.inc with log := s.inc.log.set pos none } }))

/-- The response of a milepost's write: DONE_IDX passes it, in the head record where the ring's indices are known, the ring's bit of
DX_IRQ_DONE is set where the descriptor and the ring ask for it, and a group all of whose mileposts are done leaves the block with its
granules. -/
def Obligations.MilepostResponseMovesDone : Prop :=
  ∀ (s : State) (g : Group) (m : Member) (mem : Image), s.only g m → g.ring = m.ring → g.posted = true → m.respReturned = false →
    m.ring < 64 → s.rings.length = 64 → m.idx = (s.ring m.ring).done → (s.ring m.ring).enabled = true → s.inc.fenced = false →
    let u := { s with
      groups := [{ g with members := [{ m with respReturned := true }] }],
      rings := s.rings.modify m.ring (fun g => { g with done := g.done + 1 }),
      setup := { s.setup with irqDone := if m.bytes.irq && (s.ring m.ring).irqEn then s.setup.irqDone ||| (1#64 <<< m.ring) else s.setup.irqDone } }
    exec (.milepostWriteResponse m.seq .okay mem) s =
      .next { (if (s.ring m.ring).known then u.wr ((s.ring m.ring).head.toNat + 32) (u.headHalf m.ring) else u) with groups := [] } ∧
    field (u.headHalf m.ring) 4 4 = ((s.ring m.ring).done + 1).toNat

-- Groups --------------------------------------------------------------------------------------------------------------

/-- A group issues where nothing holds it: it takes the lowest free working granules that it needs, all at once, and what they held is
no longer known; GROUP_OPEN is written with their number; every other byte of staging stands. Bounds that stand in a header are known from
then on. -/
def Obligations.GroupIssueTakesItsAllocation : Prop :=
  ∀ (s u : State) (seq : Nat) (mem : Image) (g : Group), s.routed → s.group? seq = some g → s.atIssue g = true → s.heldAtIssue g = false →
    s.outOfOrder g = false → s.inc.fenced = false → s.start.parked = false → s.inReset = false → s.overflows g = none →
    (∀ m ∈ g.members, s.wide m.bytes = false ∧ s.needsDone m.bytes = false) → s.need g ≤ s.freeGran.length →
    (0 < s.need g → s.stagingQueue g = false) → s.assignReplicas g = some u → s.noCapture → (∀ b ∈ s.asHeld, b = none) → g.openSeen = false →
    let gs := s.freeGran.take (s.need g)
    ∃ (v t : State) (g' : Group), exec (.groupIssue seq mem) s = .next t ∧ v = { s with staging := v.staging } ∧
      (∀ a, v.stageByte a = if gs.contains (a / 65536) then none else s.stageByte a) ∧
      t = { s with groups := t.groups, wb := t.wb, cw := t.cw, out := t.out, slots := u.slots, staging := t.staging, ue := t.ue, clusters := t.clusters } ∧
      v.Wrote t [⟨Ty.groupOpen, [groupOpenPart g.firstSeq g.members.length g.ring (s.need g)], .none⟩] ∧
      s.GroupBecame t g g' ∧ g' = { g with issued := true, waited := false, gran := gs, members := g'.members } ∧
      g'.members.map (fun m => (m.seq, m.shape)) = g.members.map (fun m => (m.seq, (State.boundAtIssue m).shape))

/-- What is read at issue is kept with its member, and its digest goes to the journal: the shape word with its masks, a value table, the
parameter record. A shape word that does not hold, and a value table with a NaN or an infinity, fault their member. -/
def Obligations.ReadsAtIssueAreKept : Prop :=
  ∀ (s : State) (seq : Nat) (mem : Image) (g : Group) (m : Member), s.reading? seq = some (g, m) → m.seen = [] →
    let frame := fun (t : State) => t = { s with
      groups := t.groups, wb := t.wb, cw := t.cw, out := t.out, staging := t.staging, ue := t.ue, freeCtr := s.freeCtr + 1 }
    (m.bytes.shapeAddr ≠ 0 → m.shape = none → s.badPart [(m.bytes.shapeAddr, 32)] = none →
      let w := s.rd mem m.bytes.shapeAddr 32
      let rows := field w 0 4
      let cols := field w 4 4
      let masks := (if field w 8 8 = 0 then [] else [(field w 8 8, ceilDiv rows 8)]) ++
        (if field w 16 8 = 0 then [] else [(field w 16 8, ceilDiv cols 8)])
      let q : Shape := ⟨rows, cols, if field w 8 8 = 0 then none else some (s.rd mem (field w 8 8) (ceilDiv rows 8)),
        if field w 16 8 = 0 then none else some (s.rd mem (field w 16 8) (ceilDiv cols 8)), w⟩
      let k := { m with
        shape := some q, beats := State.boundBeats { m with shape := some q } m.beats,
        run := m.run.filter (fun a => decide (a.row < rows) && decide (a.chunk < cols / 32)) }
      (State.shapeFault m.bytes w ≠ 0 → g.live → s.group? seq = some g →
        ∃ t, exec (.shapeWordRead seq mem) s = .next t ∧ t.faulted seq (State.shapeFault m.bytes w)) ∧
      (State.shapeFault m.bytes w = 0 → s.badPart masks = none → s.noCapture → s.exchOf? seq = none →
        (m.bytes.is .mcombine = true → State.allBeats k = false) →
        ∃ t m', exec (.shapeWordRead seq mem) s = .next t ∧ frame t ∧ s.Became t m m' ∧
          m' = { k with digests := m'.digests, owed := m'.owed, resv := m'.resv } ∧
          s.TookItems t m m' [m.itemDigest (4, 0) (w ++ q.rmask.getD [] ++ q.cmask.getD [])] false)) ∧
    (∀ which : Nat, let off := 56 + 16 * which
      m.bytes.items.contains (2, off) = true → m.kept (2, off) = none → s.readsWait m = false →
      let parts := (m.source (2, off)).parts
      let bs := parts.flatMap (fun p => s.rd mem p.1 p.2)
      let bad := (State.words bs).any (fun w => bits w 30 23 == 0xFF)
      s.badPart parts = none →
      (bad = false →
        ∃ t m', exec (.valueTableRead seq which mem) s = .next t ∧ frame t ∧ s.Became t m m' ∧
          m' = { m with tabs := m.tabs ++ [(off, State.words bs)], digests := m'.digests, owed := m'.owed, resv := m'.resv } ∧
          s.TookItems t m m' [m.itemDigest (2, off) bs] false) ∧
      (bad = true → g.live → s.group? seq = some g →
        ∃ t, exec (.valueTableRead seq which mem) s = .next t ∧ t.faulted seq 0x0203)) ∧
    (m.bytes.is .upd = true → m.param = none → s.readsWait m = false → s.badPart [(m.bytes.paramAddr, 64)] = none →
      let bs := s.rd mem m.bytes.paramAddr 64
      ∃ t m', exec (.paramRecordRead seq mem) s = .next t ∧ frame t ∧ s.Became t m m' ∧
        m' = { m with param := some bs, digests := m'.digests, owed := m'.owed, resv := m'.resv } ∧
        s.TookItems t m m' [m.itemDigest (6, 0) bs] false)

/-- At the drain point GROUP_CLOSE is written, before any output; once every output write of a group has its response, the headers of its
capture entries and the PUBLISHED entry with the descriptor's milepost are written. -/
def Obligations.GroupsCloseAndPublish : Prop :=
  (∀ (s : State) (seq : Nat) (g : Group), s.group? seq = some g → s.drained g = true → g.closeSeen = false →
    ∃ t g', exec (.drainPoint seq) s = .next t ∧
      t = { s with groups := t.groups, wb := t.wb, cw := t.cw, out := t.out, staging := t.staging, ue := t.ue } ∧
      s.Wrote t [⟨Ty.groupClose, [groupClosePart g.firstSeq g.members.length g.ring], .groupClose g.firstSeq⟩] ∧ s.GroupBecame t g g' ∧
      g' = { g with closeWritten := true, members := g.members.map (fun m => if m.seq = g.firstSeq then { m with resv := m.resv - 1 } else m) }) ∧
  (∀ (s : State) (g : Group) (m : Member), s.only g m → g.fresh m → s.inc.fenced = false → g.dead = false → g.wrote = true → g.outDone = false →
    let b := s.milepostBytes g m
    ∃ t, exec (.outputWritesComplete m.seq) s = .next t ∧
      t = { s with groups := [{ g with outDone := true, members := [{ m with capHeads := [], milepost := some b, resv := m.resv - 2 }] }],
                   wb := t.wb, cw := t.cw, out := t.out, staging := t.staging, ue := t.ue, freeCtr := s.freeCtr + 1 } ∧
      s.Wrote t [⟨Ty.published, publishedParts b m.idx.toNat, .published m.seq⟩] (m.capHeads.map (fun h => (h.1, h.2.length))) ∧
      ∀ h ∈ m.capHeads, s.Left t h.1 h.2)

/-- An error response or poisoned data faults the group, every member of it, and is an S2 incident that ends at once; an error on the
copy of the start record only sets COPY_FAILED. -/
def Obligations.MemoryErrorsFaultTheGroup : Prop :=
  (∀ (s : State) (seq port addr p : Nat) (g : Group), s.calm → s.freePos = some p → s.group? seq = some g → g.live →
    (∀ poisoned : Bool, g.issued = true →
      ∃ t, exec (.memReadError seq port addr poisoned) s = .next t ∧ t.faulted seq (if poisoned then 0x020B else 0x020C) ∧
        t.logged p (if poisoned then 0x0D else 0x0C) port seq addr ∧ t.inc.cur = none) ∧
    (g.wrote = true → g.outDone = false →
      ∃ t, exec (.memWriteError seq port addr) s = .next t ∧ t.faulted seq 0x020C ∧ t.logged p 0x0E port seq addr ∧ t.inc.cur = none)) ∧
  (∀ (s : State) (seq port addr : Nat), s.group? seq = none → addr ≠ 0 → addr = s.regs.startAddr.toNat → s.start.active = false →
    exec (.memWriteError seq port addr) s = .next { s with start := { s.start with copyFailed := true } })

-- Operations ----------------------------------------------------------------------------------------------------------

/-- FENCE, MARK and CAPTURE, when they are due: the milepost's PUBLISHED entry is written; a MARK with CKPT first writes a CHECKPOINT
and waits for its report; CAPTURE opens its ring's capture area with a head whose NEXT is 64, or closes it where CAP_LEN is 0. -/
def Obligations.ControlOperationsPublish : Prop :=
  ∀ (s : State) (g : Group) (m : Member), s.only g m → g.fresh m → m.accepted = true → g.dead = false → g.outDone = false → s.inc.fenced = false →
    let ends := fun (t : State) (rings : List Ring) (ws : List (Nat × Nat)) =>
      let b := s.milepostBytes g m
      t = { s with groups := [{ g with outDone := true, members := [{ m with milepost := some b, resv := m.resv - 2 }] }],
                   rings := rings, wb := t.wb, cw := t.cw, out := t.out, staging := t.staging, ue := t.ue, freeCtr := s.freeCtr + 1 } ∧
      s.Wrote t [⟨Ty.published, publishedParts b m.idx.toNat, .published m.seq⟩] ws
    (m.bytes.is .fence = true → ∃ t, exec (.fence m.seq) s = .next t ∧ ends t s.rings []) ∧
    (m.bytes.is .mark = true → m.bytes.ckpt = false → ∃ t, exec (.mark m.seq) s = .next t ∧ ends t s.rings []) ∧
    (m.bytes.is .mark = true → m.bytes.ckpt = true → m.seen = [] → m.result = none → s.wb.stopped = false → 0 < m.seq →
      ∃ t, exec (.mark m.seq) s = .next { t with wb := { t.wb with since := 0 } } ∧
        t = { s with groups := [{ g with members := [{ m with result := some ⟨none, [], [], none, []⟩, resv := m.resv - 1 }] }],
                     wb := t.wb, cw := t.cw, out := t.out, staging := t.staging, ue := t.ue } ∧
        s.Wrote t [⟨Ty.checkpoint, [checkpointPart m.rnum m.seq s.wb.nextSeq s.fpSettings 1 m.seq], .checkpoint m.rnum m.seq⟩]) ∧
    (m.bytes.is .capture = true → m.bytes.capLen = 0 →
      ∃ t, exec (.capture m.seq) s = .next t ∧ ends t (s.rings.modify m.ring (fun r => { r with cap := none })) []) ∧
    (m.bytes.is .capture = true → m.bytes.capLen ≠ 0 →
      ∃ t, exec (.capture m.seq) s = .next t ∧
        ends t (s.rings.modify m.ring (fun r => { r with cap := some ⟨m.bytes.capAddr, m.bytes.capLen, 64, 0⟩ })) [(m.bytes.capAddr, 64)] ∧
        s.Left t m.bytes.capAddr (toBytes 8 64 ++ zeroBytes 56))

/-- CONVERT, AFFINE, FUNC, GATE and CLAMP: a member that is ready reads its inputs and has its tile, row by row from the elements at its
unmasked positions, with the census and the IEEE flags of them; a zero shape counts nothing. Its row contexts and its codebook end. -/
def Obligations.ElementwiseOperationsProduceTheirTile : Prop :=
  ∀ (s : State) (seq : Nat) (mem : Image) (c : Instr) (op : Op) (g : Group) (m : Member),
    (c, op) ∈ [(Instr.convert seq mem, Op.convert), (.affine seq mem, .affine), (.func seq mem, .func), (.gate seq mem, .gate), (.clamp seq mem, .clamp)] →
    s.opReady seq op = some (g, m) → s.badInput m = none → m.seen = [] → s.routed → s.wide m.bytes = false →
    let v := s.elemEnv g m (s.inputsNow mem m)
    let tile := buildTile v.x.o m v.pred v.row
    ∃ t m', exec c s = .next t ∧
      t = { s with groups := t.groups, wb := t.wb, cw := t.cw, out := t.out, freeCtr := s.freeCtr + 1, staging := t.staging, ue := t.ue,
                   rowCtx := s.rowCtx.filter (fun c => c.seq != seq), clusters := s.clusters.map (fun c => c.dropBook (· == seq)) } ∧
      s.Became t m m' ∧ s.TookInputs t mem m m' ∧
      m' = { m with
        digests := m'.digests, owed := m'.owed, resv := m'.resv, caps := m'.caps, capHeads := m'.capHeads,
        result := some ⟨some tile.1, [], [], none, []⟩,
        census := Census.addAll Census.zero (if m.zeroShape then [] else tile.2), ieee := if m.zeroShape then 0 else v.ieee }

/-- RMSN, SMAX, LSMAX, ROWRED, ROWSTAT and SCAN along one position: each row's total is formed with at most two retries, and its outputs
from it; the row contexts and codebook entries of the descriptor end. A SCAN whose row contexts still wait for segment totals waits. -/
def Obligations.RowOperationsProduceTheirRows : Prop :=
  ∀ (s : State) (seq : Nat) (mem : Image) (c : Instr) (op : Op) (g : Group) (m : Member),
    (c, op) ∈ [(Instr.rmsn seq mem, Op.rmsn), (.smax seq mem, .smax), (.lsmax seq mem, .lsmax), (.rowred seq mem, .rowred),
      (.rowstat seq mem, .rowstat), (.scan seq mem, .scan)] →
    s.opReady seq op = some (g, m) → s.badInput m = none → m.seen = [] → s.routed → s.wide m.bytes = false →
    (op = .scan → s.scanHeld m = true → exec c s = .next s) ∧
    (op ≠ .scan ∨ s.scanHeld m = false →
      let v := s.rowEnv g m (s.inputsNow mem m)
      let rows := s.rowResult v (fun r => let x := v.total (v.chunks r); v.finish r x.1 x.2 true .empty)
      ∃ t m', exec c s = .next t ∧
        t = { s with groups := t.groups, wb := t.wb, cw := t.cw, out := t.out, freeCtr := s.freeCtr + 1, staging := t.staging, ue := t.ue,
                     rowCtx := s.rowCtx.filter (fun c => c.seq != seq), clusters := s.clusters.map (fun c => c.dropBook (· == seq)) } ∧
        s.Became t m m' ∧ s.TookInputs t mem m m' ∧
        m' = { m with
          digests := m'.digests, owed := m'.owed, resv := m'.resv, caps := m'.caps, capHeads := m'.capHeads,
          result := m'.result, census := m'.census, ieee := 0 } ∧
        (m.zeroShape = false → m'.result = some rows.1 ∧ m'.census = Census.addAll Census.zero rows.2) ∧
        (m.zeroShape = true → m'.result.isSome = true ∧ m'.census = Census.addAll Census.zero []))

/-- MCOMBINE: its inputs stand, and every chunk of which beats have come goes on. A tile with all its partials, from memory or from the
streams, closes at once with the values of its accumulator through the epilogue, and its bands drain; one that waits for beats stays
open. -/
def Obligations.CombineClosesItsTile : Prop :=
  ∀ (s : State) (seq : Nat) (mem : Image) (g : Group) (m : Member),
    s.opReady seq .mcombine = some (g, m) → s.badInput m = none → m.seen = [] → s.routed →
    let q := s.readInputs mem m
    let u := q.1.modMember seq (fun x => State.runChunks (m.compat == 5) (s.convOf m) g { x with inputs := some q.2 })
    let bare := fun (k : Cluster) => { k with slotA := .empty, slotB := .empty }
    ∀ (g1 : Group) (m1 : Member), u.group? seq = some g1 → u.member? seq = some m1 →
    ∃ t m', exec (.mcombine seq mem) s = .next t ∧
      t = { s with groups := t.groups, wb := t.wb, cw := t.cw, out := t.out, freeCtr := s.freeCtr + 1, staging := t.staging, ue := t.ue, clusters := t.clusters } ∧
      t.clusters.map bare = s.clusters.map bare ∧ s.TookInputs t mem m m' ∧ m'.inputs = some q.2 ∧ s.Became t m m' ∧
      (m.bytes.srcMem = true ∨ (State.allBeats m = true ∧ m.digests.any (fun d => d.ty == Ty.streamDigest) = true) →
        let tile := buildTile (u.ctxOf m1).o m1 (State.predTile g1 m1) (State.combineRow (u.ctxOf m1) (u.epiOf m1 q.2) m1 g1)
        m' = { m1 with
          result := if m.zeroShape then some (noResult (u.ctxOf m1).o) else some ⟨some tile.1, [], [], none, []⟩,
          census := Census.addAll Census.zero (if m.zeroShape then [] else tile.2), ieee := 0 } ∧
        ∀ k ∈ t.clusters, k.slotA ≠ .filling seq ∧ k.slotB ≠ .filling seq) ∧
      (m.bytes.srcMem = false → State.allBeats m = false → m' = m1 ∧ t.clusters = s.clusters)

/-- CHAIN, HALO and UPD on one position: a CHAIN's values are combined with nothing from elsewhere, a HALO's regions without a neighbour
take the fill, a UPD's records are updated element by element. With a zero shape nothing comes of them, and nothing is counted. -/
def Obligations.SpanOperationsOnOnePosition : Prop :=
  ∀ (s : State) (seq : Nat) (mem : Image) (g : Group) (m : Member), m.seen = [] → s.routed → s.badInput m = none → s.wide m.bytes = false →
    let q := s.readInputs mem m
    let ends := fun (c : Instr) (free : Nat) (protected' : Bool) (r : Result) (cns : List Nat) => ∃ t m', exec c s = .next t ∧
      t = { s with groups := t.groups, wb := t.wb, cw := t.cw, out := t.out, freeCtr := s.freeCtr + free, staging := t.staging, ue := t.ue } ∧
      s.Became t m m' ∧ s.TookInputs t mem m m' ∧
      m' = { m with
        digests := m'.digests, owed := m'.owed, resv := m'.resv, caps := m'.caps, capHeads := m'.capHeads,
        result := some r, census := Census.addAll Census.zero cns, ieee := 0, mirrorDone := protected' || m.mirrorDone }
    (s.opReady seq .chain = some (g, m) →
      let v := { s.spanEnv g m q.2 with count := m.rows * m.cols }
      let item := fun (i : Nat) => Item.fold m.bytes.accOp v.soft Item.empty (v.contrib i 0)
      let num := fun (i : Nat) => match (item i).v with | .num x => x | _ => Fv.zero
      let own := fun (i : Nat) => Fv.of32 ((q.2.vals.getD (i / max 1 m.cols) []).getD (i % max 1 m.cols) 0)
      let all := List.range (m.rows * m.cols)
      (m.zeroShape = false → ends (.chain seq mem) 1 false
        ⟨none, (cut (max 1 m.cols) (all.map (fun i => Fv.to32 (num i)))).map (fun r => r.flatMap (toBytes 4)), [], none, []⟩
        (all.map (fun i => (if (num i).isNan || (own i).isNan then cNAN else 0) ||| (item i).cns))) ∧
      (m.zeroShape = true → ends (.chain seq mem) 1 false ⟨none, [], [], none, []⟩ [])) ∧
    (s.opReady seq .halo = some (g, m) →
      (m.zeroShape = false → ∃ tl, s.haloTile m none = some tl ∧ ends (.halo seq mem) 1 false ⟨some tl, [], [], none, []⟩ []) ∧
      (m.zeroShape = true → ends (.halo seq mem) 1 false (noResult (s.orefOf m (m.bytes.tref 72) [])) [])) ∧
    (s.opReady seq .upd = some (g, m) →
      (m.zeroShape = false → q.1.badPart (State.recParts m) = none →
        let r := q.1.updResult g m { q.2 with recs := (State.recParts m).map (fun p => cut 16 (q.1.rd mem p.1 p.2)) }
        ends (.upd seq mem) 2 false r.1 r.2) ∧
      (m.zeroShape = true → ends (.upd seq mem) 1 true ⟨none, [], [], none, []⟩ []))

/-- LOAD_INGOT closes the bank that is not active; once no pin remains and its header is good, or for a load from ROM, the bank is empty
and the payload is read; a good payload makes it resident with its generation, and the load does not change the active bank. SWITCH makes
the bank of the named generation active. A load and a switch each write a table-switch record before the PUBLISHED entry. -/
def Obligations.LoadsAndSwitchesActOnBanks : Prop :=
  (∀ (s : State) (seq : Nat) (g : Group) (m : Member), s.due seq .loadIngot false = some (g, m) → s.load? seq = none →
    let t := s.slot m.bytes.slotOf
    exec (.loadIngot seq) s = .next { s with
      slots := s.slots.modify m.bytes.slotOf (fun t => { t with closing := true }),
      loads := s.loads.filter (fun l => (s.member? l.seq).isSome) ++
        [⟨seq, m.bytes.slotOf, !t.active, (t.bank (!t.active)).gen, (t.bank (!t.active)).img.isNone, .accepted, []⟩] }) ∧
  (∀ (s : State) (seq : Nat) (hdr : List Byte) (resp : Resp) (g : Group) (m : Member) (l : Load), s.due seq .loadIngot true = some (g, m) →
    s.load? seq = some l → l.phase = .accepted → (l.oldEmpty = true ∨ s.pinned l.slot l.oldGen = false) →
    (m.bytes.romFlag = true ∨ (resp = .okay ∧ ingotHeaderOk m.bytes hdr = true ∧ s.ingotSigned hdr = true)) →
    exec (.ingotPinsReleased seq resp hdr) s = .next { s with
      slots := s.slots.modify l.slot (fun t => t.setBank l.bank ⟨0, 0, none⟩),
      loads := s.loads.map (fun l => if l.seq == seq then { l with phase := .reading, hdr := hdr } else l) }) ∧
  (∀ (s u : State) (c : Instr) (g : Group) (m : Member) (record : List Byte), s.only g m → g.fresh m → m.seen = [] →
    ((∃ payload resp l b, c = .ingotLoadDone m.seq resp payload ∧ s.due m.seq .loadIngot true = some (g, m) ∧ s.load? m.seq = some l ∧
        l.phase = .reading ∧ l.slot < s.slots.length ∧
        ((m.bytes.romFlag = true ∧ b = ⟨0, 0, some (.rom l.slot)⟩) ∨
          (m.bytes.romFlag = false ∧ resp = .okay ∧ s.ingotPayloadOk m.bytes l.hdr payload = true ∧
            b = ⟨m.bytes.generation, ingotId l.hdr payload, some (.img payload)⟩)) ∧
        record = tableSwitchPart l.slot (b2n l.bank) l.oldEmpty false l.oldGen b.gen b.ingot m.seq ∧
        u = { s with slots := s.slots.modify l.slot (fun t => { t.setBank l.bank b with closing := false }),
                     loads := s.loads.map (fun l => if l.seq == m.seq then { l with phase := .done } else l) }) ∨
      (∃ b, c = .switch m.seq ∧ s.due m.seq .switch false = some (g, m) ∧ s.load? m.seq = none ∧
        (s.slot m.bytes.slotOf).holds m.bytes.generation = some b ∧
        let old := (s.slot m.bytes.slotOf).activeBank
        u = { s with slots := s.slots.modify m.bytes.slotOf (fun t => { t with active := b }),
                     loads := s.loads.filter (fun l => (s.member? l.seq).isSome) ++ [⟨m.seq, m.bytes.slotOf, b, old.gen, old.img.isNone, .done, []⟩] } ∧
        record = tableSwitchPart m.bytes.slotOf (b2n b) old.img.isNone true old.gen m.bytes.generation
          (u.ingotOf m.bytes.slotOf m.bytes.generation) m.seq)) →
    let ms := u.milepostBytes g m
    ∃ t, exec c s = .next t ∧
      t = { u with groups := [{ g with outDone := true, members := [{ m with milepost := some ms, resv := m.resv - 3 }] }],
                   wb := t.wb, cw := t.cw, out := t.out, staging := t.staging, ue := t.ue, freeCtr := s.freeCtr + 1 } ∧
      s.Wrote t [⟨Ty.tableSwitch, [record], .tableSwitch m.seq⟩, ⟨Ty.published, publishedParts ms m.idx.toNat, .published m.seq⟩])

/-- PEEK copies its granules as a read finds them at this moment, and writes GROUP_OPEN with no granule; the bytes wait for GROUP_CLOSE. -/
def Obligations.PeekCopiesGranules : Prop :=
  ∀ (s : State) (seq : Nat) (g : Group) (m : Member), s.due seq .peek true = some (g, m) → m.result = none → g.openSeen = false →
    s.ueIn (65536 * m.bytes.peekGran) (65536 * m.bytes.peekCount) = none →
    let data := (List.range m.bytes.peekCount).map (fun i => s.stageBytes (65536 * (m.bytes.peekGran + i)) 65536)
    ∃ t, exec (.peek seq) s = .next t ∧
      t = { s with groups := t.groups, wb := t.wb, cw := t.cw, out := t.out, staging := t.staging, ue := t.ue, freeCtr := s.freeCtr + 1 } ∧
      s.Wrote t [⟨Ty.groupOpen, [groupOpenPart g.firstSeq g.members.length g.ring 0], .none⟩] ∧
      s.GroupBecame t g { g with
        issued := true,
        members := g.members.map (fun x =>
          let y := if x.seq = g.firstSeq then { x with resv := x.resv - 1 } else x
          if x.seq = seq then { y with result := some ⟨none, data, [], none, []⟩ } else y) }

-- Streams, bands, contexts --------------------------------------------------------------------------------------------

/-- A good beat for an open tile is taken once, and added once it is next in its chunk; with the last one the stream's digest is written.
One without an open tile is held on its port until a tile opens or STRAY_WAIT discards it, counted. A beat that fails its check is
discarded and counted, with an AS_CHECK incident. A tile that stays open past ARRIVE_LIMIT faults with PARTIAL_MISSING. A drained band
frees its slot, and the cluster opens another for the earliest open tile. -/
def Obligations.BeatsReachTheirTiles : Prop :=
  (∀ (s : State) (port : Nat) (b : Beat), s.inReset = false → s.inc.fenced = false → s.start.parked = false → (s.asHeld[port]?).join = none →
    (Beat'.ok b = true → s.tagged (Beat'.tag b) = none →
      exec (.asBeat port b) s = .next { s with asHeld := s.asHeld.set port (some b) }) ∧
    (∀ (g : Group) (m : Member), Beat'.ok b = true → s.tagged (Beat'.tag b) = some m → s.group? m.seq = some g → s.member? m.seq = some m →
      Beat'.split b < m.bytes.nSplit → Beat'.row b < m.bytes.planRows → Beat'.chunk b < m.bytes.planCols / 32 →
      (m.shape = none ∨ (Beat'.row b < m.rows ∧ Beat'.chunk b < m.cols / 32)) →
      m.beats.any (fun o => o.split == Beat'.split b && o.row == Beat'.row b && o.chunk == Beat'.chunk b) = false →
      let keep := fun (x : Member) => State.runChunk (m.compat == 5) (s.convOf m) g (Beat'.row b) (Beat'.chunk b)
        { x with beats := x.beats ++ [⟨Beat'.split b, Beat'.row b, Beat'.chunk b, b.data⟩] }
      (m.shape = none ∨ State.allBeats (keep m) = false → exec (.asBeat port b) s = .next (s.modMember m.seq keep)) ∧
      (m.shape ≠ none → State.allBeats (keep m) = true → m.inputs = none → m.result = none → m.seen = [] → g.dead = false →
        m.digests.any (fun d => d.ty == Ty.streamDigest) = false → (s.ring m.ring).cap = none →
        let bs := State.boundBeats (keep m) (keep m).beats
        ∃ t m', exec (.asBeat port b) s = .next t ∧
          t = { s with groups := t.groups, wb := t.wb, cw := t.cw, out := t.out, staging := t.staging, ue := t.ue } ∧ s.Became t m m' ∧
          m' = { keep m with resv := m.resv - 1, digests := m.digests ++ [⟨Ty.streamDigest, 0, 0, State.streamDigest bs, bs.length⟩] } ∧
          s.Wrote t [⟨Ty.streamDigest, [streamDigestPart m.seq (State.streamDigest bs) bs.length], .none⟩])) ∧
    (∀ p : Nat, Beat'.ok b = false → s.tagged (Beat'.tag b) = none → s.calm → s.freePos = some p →
      ∃ t, exec (.asBeat port b) s = .next t ∧ t.asCheckFail = satInc s.asCheckFail ∧ t.asHeld = s.asHeld ∧ t.groups = s.groups ∧
        t.logged p 0x13 port 0 0)) ∧
  (∀ (s : State) (port : Nat) (b : Beat), (s.asHeld[port]?).join = some b →
    exec (.strayWaitExpire port) s = .next { s with asHeld := s.asHeld.set port none, asStray := satInc s.asStray }) ∧
  (∀ (s : State) (seq : Nat) (g : Group), bits s.regs.asCtl.toNat 15 0 ≠ 0 → s.inc.fenced = false →
    s.openTiles.any (fun m => m.seq == seq && !m.bytes.srcMem) = true → s.group? seq = some g → g.live →
    ∃ t, exec (.arriveLimitExpire seq) s = .next t ∧ t.faulted seq 0x0206) ∧
  (∀ (s : State) (c : Nat), c < s.clusters.length →
    ((∃ q, (s.cluster c).slotA = .draining q) → s.openTiles = [] →
      exec (.bandDrainDone c) s = .next { s with clusters := s.clusters.modify c (fun k => { k with slotA := .empty }) }) ∧
    ((∀ q, (s.cluster c).slotA ≠ .draining q) → (∃ q, (s.cluster c).slotB = .draining q) → s.openTiles = [] →
      exec (.bandDrainDone c) s = .next { s with clusters := s.clusters.modify c (fun k => { k with slotB := .empty }) }) ∧
    (∀ (m : Member) (r : List Member), (∃ q, (s.cluster c).slotA = .draining q) → (∀ q, (s.cluster c).slotB ≠ .filling q) → s.openTiles = m :: r →
      s.takesWork c = true →
      exec (.bandDrainDone c) s = .next { s with clusters := s.clusters.modify c (fun k => { k with slotA := .filling m.seq }) }))

/-- A segment total is added when it is the next of its row, and parked when it comes early. A cluster that passes over a block whose
scale has an entry makes that the most recently gathered; over one without, it queues a fill; a queued fill that completes holds every
code of the format under its scale, the least recently gathered of 64 entries giving way, and without a queued fill nothing is taken. -/
def Obligations.ContextsTakeTotalsAndFills : Prop :=
  (∀ (s : State) (seq row seg : Nat) (v : SegVal) (g : Group) (m : Member) (a : Acc), s.group? seq = some g → s.member? seq = some m →
    SegVal.acc m.bytes.accOp v = some a → g.issued = true → g.dead = false → m.bytes.row = true → m.result = none → m.inputs = none →
    row < m.tileRows → m.firstSeg ≤ seg → seg < m.firstSeg + m.segCount →
    let x := (s.rowCtx.find? (fun c => c.seq == seq && c.row == row)).getD ⟨seq, row, m.firstSeg, .empty, [], []⟩
    let others := s.rowCtx.filter (fun c => !(c.seq == seq && c.row == row))
    x.parked.any (fun p => p.1 == seg) = false → others.length < 16384 →
    (seg = x.next → x.parked.any (fun p => p.1 == seg + 1) = false →
      exec (.segmentTotalArrive seq row seg v) s = .next { s with rowCtx := others ++
        [{ x with value := Acc.comb m.bytes.accOp (s.softOf m) x.value a, next := x.next + 1, tots := x.tots ++ [a] }] }) ∧
    (x.next < seg → (s.rowCtx.map (fun (c : RowCx) => c.parked.length)).sum < 4096 →
      exec (.segmentTotalArrive seq row seg v) s = .next { s with rowCtx := others ++ [{ x with parked := x.parked ++ [(seg, a)] }] })) ∧
  (∀ (s : State) (cluster seq scale : Nat) (mem : Image) (op : Op) (g : Group) (m : Member), s.opReady seq op = some (g, m) → m.bytes.op = some op →
    m.compat ≠ 5 → m.bytes.codebook (s.progBytes m.progGen) = true → s.takesWork cluster = true → s.badInput m = none →
    let v := s.elemEnv g m (s.inputsNow mem m)
    let sc := if v.a.fmt.scaled then scale else 0
    let on := fun (f : Cluster → Cluster) => { s with clusters := s.clusters.modify cluster f }
    let k := s.cluster cluster
    cluster < s.clusters.length →
    (k.fills.contains (seq, sc) = true →
      exec (.codebookFillDone cluster seq ⟨scale, [], mem⟩) s = .next (on (fun k => { k with
        fills := k.fills.filter (· != (seq, sc)), cache := (if 64 ≤ k.cache.length then k.cache.drop 1 else k.cache) ++ [v.entry sc] })) ∧
        (v.entry sc).seq = seq ∧ (v.entry sc).scale = sc ∧ (v.entry sc).cells.length = 2 ^ v.a.fmt.width) ∧
    (k.fills.contains (seq, sc) = false → exec (.codebookFillDone cluster seq ⟨scale, [], mem⟩) s = .next s) ∧
    (∀ (row block z : Nat), v.lookupScale row block = some z → k.fills.contains (seq, sc) = false →
      let mine := fun (e : CbEntry) => e.seq == seq && e.scale == z
      (∀ e, k.cache.find? mine = some e →
        exec (.codebookFillDone cluster seq ⟨scale, [(row, block)], mem⟩) s = .next (on (fun k => { k with cache := k.cache.filter (fun x => !mine x) ++ [e] }))) ∧
      (k.cache.find? mine = none → k.fills.contains (seq, z) = false → z ≠ sc →
        exec (.codebookFillDone cluster seq ⟨scale, [(row, block)], mem⟩) s = .next (on (fun k => { k with fills := k.fills ++ [(seq, z)] })))))

-- The store window ----------------------------------------------------------------------------------------------------

/-- A toll request: a new one takes COUNT as its ticket where COUNT is below LIMIT, else LIMIT without VALID, is remembered and
journalled, and waits for its report; one that the issuer's memo holds gets the stored answer with MEMO, at once or once the record of
that answer is reported; under STRICT the aperture answers SLVERR. The earliest answer whose record has been reported goes out. -/
def Obligations.TollRequestsAreAnswered : Prop :=
  (∀ (s : State) (req : WinReq), s.inReset = false → WinReq'.inToll req = true → s.shut = false → WinReq'.isRequest req = true →
    let c := WinReq'.counter req
    let count := (s.tolls.count.getD c 0).toNat
    let limit := (s.tolls.limit.getD c 0).toNat
    let m : Memo := ⟨WinReq'.issuer req, c, WinReq'.tollSeq req, if count < limit then count else limit, decide (count < limit)⟩
    (s.strictRepro = true → exec (.tollRequest req) s = .next { s with out := s.out ++ [.winRead req (zeroBytes 8) .slverr] }) ∧
    (s.strictRepro = false → s.tollQueued req = false → s.memo? (WinReq'.issuer req) c (WinReq'.tollSeq req) = none → s.reproPending = false →
      s.tollRoom = true →
      ∃ t, exec (.tollRequest req) s = .next t ∧
        t = { s with
          tolls := { s.tolls with
            count := if count < limit then s.tolls.count.set c (BitVec.ofNat 32 (count + 1)) else s.tolls.count,
            memos := State.keepMemo s.tolls.memos m, waits := s.tolls.waits ++ [⟨req, m, false, s.wb.tail⟩] },
          wb := t.wb, cw := t.cw, out := t.out, staging := t.staging, ue := t.ue } ∧
        s.Wrote t [⟨Ty.toll, [tollPart m], .toll⟩]) ∧
    (∀ m : Memo, s.strictRepro = false → s.tollQueued req = false → s.memo? (WinReq'.issuer req) c (WinReq'.tollSeq req) = some m →
      (s.owedToll m = none →
        exec (.tollRequest req) s = .next { s with out := s.out ++ [.winRead req (toBytes 8 (m.ticket + (b2n m.valid <<< 32) + 2 ^ 33)) .okay] }) ∧
      (∀ n, s.owedToll m = some n →
        exec (.tollRequest req) s = .next { s with tolls := { s.tolls with waits := s.tolls.waits ++ [⟨req, m, true, n⟩] } }))) ∧
  (∀ (s : State) (i : Nat) (w : TollWait), s.tolls.waits.findIdx? (fun w => !s.wb.recs.any (fun r => r.rnum == w.rnum)) = some i →
    s.tolls.waits[i]? = some w →
    exec .tollGrantReported s = .next { s with
      tolls := { s.tolls with waits := s.tolls.waits.eraseIdx i }, out := s.out ++ [.winRead w.req (tollAnswer w.memo w.isMemo) .okay] })

/-- A control write sets its counter's COUNT and LIMIT, drops every memo answer for it, and waits for its TOLL_SET record; every other
counter stands. A write to the aperture that is none is answered SLVERR. -/
def Obligations.TollControlWritesSetCounters : Prop :=
  ∀ (s : State) (req : WinReq) (data strb : Nat), s.inReset = false → WinReq'.inToll req = true →
    (s.shut = true ∨ WinReq'.isControl req = false ∨ strb % 256 ≠ 255 →
      exec (.tollSet req data strb) s = .next { s with out := s.out ++ [.winWrite req .slverr] }) ∧
    (s.shut = false → WinReq'.isControl req = true → strb % 256 = 255 → s.tollQueued req = false → s.tollRoom = true →
      let c := WinReq'.counter req
      ∃ t, exec (.tollSet req data strb) s = .next t ∧
        t = { s with
          tolls := { s.tolls with
            count := s.tolls.count.set c (BitVec.ofNat 32 (bits data 31 0)),
            limit := s.tolls.limit.set c (BitVec.ofNat 32 (bits data 63 32)),
            memos := s.tolls.memos.filter (fun m => m.counter != c), sets := s.tolls.sets ++ [(req, s.wb.tail)] },
          wb := t.wb, cw := t.cw, out := t.out, staging := t.staging, ue := t.ue } ∧
        s.Wrote t [⟨Ty.tollSet, [tollSetPart c (bits data 31 0) (bits data 63 32) (s.tolls.count.getD c 0).toNat], .tollSet c⟩])

/-- A write to staging stores the bytes whose strobes are set, and no other; one that touches a working granule that a group holds, and
one beyond the decoded regions, store nothing. A read returns the known bytes; of an accumulator tile that a group holds it returns the
FP32 values at this moment, of other held granules free bytes; a tile that is open is read under OPEN_READ alone. -/
def Obligations.WindowReadsAndWritesStaging : Prop :=
  ∀ (s : State) (req : WinReq), s.inReset = false → WinReq'.inToll req = false → WinReq'.inBell req = false → s.shut = false → req.incr = true → req.atomic = false →
    (∀ (data : List Byte) (strb : List Bool), data.length = req.len → strb.length = req.len →
      (WinReq'.inStage req = true → State.touches req s.heldGran = false →
        ∃ t, exec (.windowWrite req data strb) s = .next t ∧
          t = { s with staging := t.staging, ue := t.ue, out := s.out ++ [.winWrite req .okay] } ∧
          (∀ i b, data[i]? = some b → strb[i]? = some true → t.stageByte (req.off + i) = some b) ∧
          (∀ a, (a < req.off ∨ req.off + req.len ≤ a ∨ strb[a - req.off]? = some false) → t.stageByte a = s.stageByte a) ∧
          (∀ w, w ∈ t.ue ↔ w ∈ s.ue ∧ ∀ i, strb[i]? = some true → (req.off + i) / 32 ≠ w)) ∧
      (WinReq'.inStage req = true → State.touches req s.heldGran = true →
        exec (.windowWrite req data strb) s = .next { s with out := s.out ++ [.winWrite req .slverr] }) ∧
      (WinReq'.inStage req = false →
        exec (.windowWrite req data strb) s = .next { s with out := s.out ++ [.winWrite req .decerr] })) ∧
    (WinReq'.inStage req = true → (State.touches req s.openGran = false ∨ s.regs.debugCtl.getLsbD 0 = true) → s.ueIn req.off req.len = none →
      ∃ bs, exec (.windowRead req) s = .next { s with out := s.out ++ [.winRead req bs .okay], freeCtr := s.freeCtr + 1 } ∧ bs.length = req.len ∧
        (∀ i b, i < req.len → s.heldGran.contains ((req.off + i) / 65536) = false → s.stageByte (req.off + i) = some b → bs[i]? = some b) ∧
        ∀ (i k : Nat) (g : Group) (m : Member) (v : Fv) (n : Nat), i < req.len → s.heldGran.contains ((req.off + i) / 65536) = true →
          s.accAt ((req.off + i) / 65536) = some (g, m, k) →
          let o := k * 65536 + (req.off + i) % 65536
          ((State.accRow (m.compat == 5) (s.convOf m) g m (o / (4 * m.bytes.planCols)))[o % (4 * m.bytes.planCols) / 4]?).join = some (v, n) →
          bs[i]? = (toBytes 4 (Fv.to32 v))[o % 4]?) ∧
    (WinReq'.inStage req = true → State.touches req s.openGran = true → s.regs.debugCtl.getLsbD 0 = false →
      exec (.windowRead req) s = .next { s with out := s.out ++ [.winRead req (zeroBytes req.len) .slverr] }) ∧
    (WinReq'.inStage req = false →
      exec (.windowRead req) s = .next { s with out := s.out ++ [.winRead req (zeroBytes req.len) .decerr] })

-- The causeway --------------------------------------------------------------------------------------------------------

/-- A flit of an exchange is taken once, when its turn in LSEQ comes: it is kept with its kind, sender, attempt and offset and joins the
attempt's digest. The same flit again, and one that no open exchange takes, is a stray and counted; one with other bytes at a place that
has been taken ends the descriptor with DATA_ERROR. -/
def Obligations.ExchangeFlitsAreTakenOnce : Prop :=
  ∀ (s : State) (f : Flit) (mem : Image) (l : Link) (c : Instr) (kind : Nat),
    (c, kind) ∈ [(Instr.run f mem, 3), (.offset f mem, 4), (.segtot f mem, 5), (.total f mem, 6), (.haloMessage f mem, 7), (.sign f mem, 8),
      (.parity f mem, 12)] → s.inTurn f l →
    (∀ (e : Exch), s.exch? f.chainId = some e → e.senders.contains f.src = true →
      (kind = 12 → f.chainId = 0 → f.offset < 0xFFFFFFFE ∧ (∃ m, s.member? e.seq = some m ∧ m.bytes.is .upd = true) ∧
        s.cw.rx.any (fun m => m.src == f.src && m.kind == 12 && !m.awaiting) = false) →
      (State.rxOf e kind f.src f.attempt f.offset = none → (∀ m, s.member? e.seq = some m → m.inputs = none ∧ m.shape = none) →
        ∃ t e', exec c s = .next t ∧ t = { s with cw := t.cw, out := t.out } ∧ s.TookFlit t f ∧
          t.exch? f.chainId = some e' ∧ e'.rx = e.rx ++ [⟨kind, f.src, f.attempt, f.offset, f.last, f.payload⟩] ∧
          (let old := (e.digest.find? (fun x => x.1 == f.attempt)).getD (f.attempt, 0, 0)
           e'.digest = if Kind.digested kind then e.digest.filter (fun x => x.1 != f.attempt) ++ [(f.attempt, old.2.1 ^^^ State.flitDigest kind f, old.2.2 + 1)]
             else e.digest) ∧
          e'.kept = e.kept ∧ e'.totals = e.totals) ∧
      (∀ x, State.rxOf e kind f.src f.attempt f.offset = some x →
        (x.payload = f.payload → ∃ t, exec c s = .next t ∧ s.TookFlit t f ∧ s.countedStray t) ∧
        (∀ p g, x.payload ≠ f.payload → s.calm → s.freePos = some p → s.group? e.seq = some g → g.live →
          ∃ t, exec c s = .next t ∧ t.faulted e.seq 0x020B ∧ t.logged p 0x15 f.src e.seq f.chainId))) ∧
    (s.exch? f.chainId = none → (kind = 12 → f.chainId ≠ 0) → ∃ t, exec c s = .next t ∧ s.TookFlit t f ∧ s.countedStray t)

/-- A GRANT brings its credits, and lets the exchange that it names send, now or once it opens; one that can be of no exchange is a stray.
A PUB lets go what was kept for its sender; an ABORT completes the exchange's descriptor with the status that it carries. -/
def Obligations.GrantsPublicationsAborts : Prop :=
  ∀ (s : State) (f : Flit) (mem : Image) (l : Link), s.inTurn f l →
    (s.grantPeer f = true ∨ (s.cw.exchs.find? (s.takesGrant f)).isSome = true →
      ∃ t l', exec (.cwGrant f mem) s = .next t ∧ t = { s with cw := t.cw, out := t.out } ∧ s.TookFlit t f ∧
        t.link? f.src = some l' ∧ (l.queue = [] → l'.credits = l.credits + field f.payload 0 2) ∧
        (∀ e, s.cw.exchs.find? (s.takesGrant f) = some e →
          t.cw.exchs = s.cw.exchs.map (fun x => if x.seq == e.seq then { x with granted := x.granted ++ [f.src] } else x) ∧ t.cw.early = s.cw.early) ∧
        (s.cw.exchs.find? (s.takesGrant f) = none → t.cw.exchs = s.cw.exchs ∧ (f.chainId, f.src) ∈ t.cw.early)) ∧
    (s.grantPeer f = false → s.cw.exchs.find? (s.takesGrant f) = none →
      ∃ t, exec (.cwGrant f mem) s = .next t ∧ s.TookFlit t f ∧ s.countedStray t ∧ t.cw.early = s.cw.early) ∧
    (∀ i, s.cw.exchs.findIdx? (s.takesPub f) = some i →
      ∃ t, exec (.pub f mem) s = .next t ∧ t = { s with cw := t.cw, out := t.out } ∧ s.TookFlit t f ∧
        t.cw.exchs = (s.cw.exchs.modify i (fun e => { e with
          pubs := e.pubs ++ [f.src], kept := e.kept.filter (fun k => k.peer != f.src) })).filter s.keepExch) ∧
    (∀ e g, s.exch? f.chainId = some e → (s.exchPeers e).contains f.src = true → s.group? e.seq = some g → g.live →
      ∃ t, exec (.abort f mem) s = .next t ∧ t.faulted e.seq (field f.payload 0 2))

/-- The opening flit of a MIRROR, PARITY or WAYBOOK message starts it; a flit of its stream is kept by its offset; once all of the stream
is here its records are written, where this block takes them, or refused with a done and an incident. -/
def Obligations.ProtectionMessagesAreWritten : Prop :=
  ∀ (s : State) (f : Flit) (mem : Image) (l : Link) (c : Instr) (kind : Nat),
    (c, kind) ∈ [(Instr.mirror f mem, 11), (.parity f mem, 12), (.waybook f mem, 13)] → s.inTurn f l → (kind = 12 → f.chainId = 0) →
    let under := fun (m : RxMsg) => m.src == f.src && m.kind == kind && !m.awaiting
    let opening : RxMsg := if kind = 13 then ⟨f.src, kind, field f.payload 0 8, 0, field f.payload 8 4, field f.payload 16 1, [], false⟩
      else ⟨f.src, kind, field f.payload 0 8, field f.payload 8 4, field f.payload 12 4, 0, [], false⟩
    ∀ (m' : RxMsg) (held : List RxMsg),
      ((f.offset = 0xFFFFFFFF ∧ m' = opening ∧ held = s.cw.rx.filter (fun x => !under x) ++ [m']) ∨
        (f.offset < 0xFFFFFFFE ∧ ∃ m, s.cw.rx.find? under = some m ∧ m.bytes.any (fun b => b.1 == f.offset) = false ∧
          m' = { m with bytes := m.bytes ++ [(f.offset, f.payload)] } ∧ held = s.cw.rx.map (fun x => if x = m then m' else x))) →
      (State.msgStream m' = none →
        ∃ t, exec c s = .next t ∧ t = { s with cw := t.cw, out := t.out } ∧ s.TookFlit t f ∧ t.cw.rx = held) ∧
      (∀ bs, State.msgStream m' = some bs → s.takes m' = true →
        ∃ t, exec c s = .next t ∧ t = { s with wb := (s.offered m').wb, cw := t.cw, out := t.out, staging := t.staging, ue := t.ue } ∧
          s.TookFlit t f ∧ t.cw.rx = held.erase m' ++ [{ m' with awaiting := true }] ∧
          s.StageKept t ((s.msgWrites m' bs).map (fun w => (w.1, w.2.length))) ∧ ∀ w ∈ s.msgWrites m' bs, s.Left t w.1 w.2) ∧
      (∀ bs p, State.msgStream m' = some bs → s.takes m' = false → s.calm → s.freePos = some p →
        ∃ t, exec c s = .next t ∧ t.cw.rx = held.erase m' ∧ t.logged p 0x18 f.src 0 (State.msgNumber m'))

/-- Once a received message has its write responses, the done leaves with status 0, and the message alone ends; a journal message also
moves DX_WBM_HIGH past its last record where nothing is missing below it, and DX_WBM_CKPT to the last checkpoint in it. -/
def Obligations.WrittenMessagesAreAnswered : Prop :=
  ∀ (s : State) (l : Link) (r : Route) (lane : Nat) (m : RxMsg), s.clearTo l r lane → m.src = l.peer →
    let answer := Out.flit { mkFlit m.src m.kind 0 0 0xFFFFFFFE true (toBytes 8 (State.msgNumber m) ++ toBytes 2 0) with
      cd := !r.cu, dest := r.dest, lseq := l.txSeq }
    (s.cw.rx.find? (fun x => x.awaiting && x.kind != 13 && x.src == m.src && x.seq == m.seq) = some m → (m.kind = 11 ∨ m.kind = 12) →
      ∃ t, exec (.mirrorWriteResponse m.src m.seq) s = .next t ∧ t = { s with cw := t.cw, out := s.out ++ [answer] } ∧
        t.cw.rx = s.cw.rx.erase m) ∧
    (s.cw.rx.find? (fun x => x.awaiting && x.kind == 13 && x.src == m.src) = some m →
      let begins := max s.wb.wbmHigh (s.wb.wbmFirst.getD m.seq)
      let records := (cut 64 ((State.msgStream m).getD [])).zipIdx
      ∃ t, exec (.waybookWindowWriteResponse m.src) s = .next t ∧
        t = { s with cw := t.cw, out := s.out ++ [answer],
                     wb := { s.wb with wbmHigh := t.wb.wbmHigh, wbmRuns := t.wb.wbmRuns, wbmCkpt := t.wb.wbmCkpt } } ∧
        t.cw.rx = s.cw.rx.erase m ∧
        t.wb.wbmCkpt = ((records.filter (fun p => field p.1 8 1 == 0x0D)).map (fun p => m.seq + p.2)).getLast?.getD s.wb.wbmCkpt ∧
        (s.wb.wbmRuns = [] → begins = m.seq → 0 < m.count → t.wb.wbmHigh = m.seq + m.count ∧ t.wb.wbmRuns = []) ∧
        (s.wb.wbmRuns = [] → begins < m.seq → t.wb.wbmHigh = s.wb.wbmHigh ∧ t.wb.wbmRuns = [(m.seq, m.seq + m.count)]))

/-- PARTNER's done for a written set lets the group publish, once its own writes have completed; its done for a message of journal records
acknowledges the records of that message, and ends MIRROR_LOST where none is left. -/
def Obligations.DonesReleaseWhatTheyAnswer : Prop :=
  ∀ (s : State) (f : Flit) (mem : Image) (l : Link), s.inTurn f l → f.src = s.partner → field f.payload 8 2 = 0 →
    (∀ (g : Group) (m : Member), s.only g m → m.seq = field f.payload 0 8 → g.dead = false → g.published = false → g.wrote = true →
      let k := { m with mirrorDone := true }
      (g.outDone = false →
        ∃ t, exec (.mirrorDone f mem) s = .next t ∧ t = { s with groups := [{ g with members := [k] }], cw := t.cw, out := t.out } ∧
          s.TookFlit t f) ∧
      (g.outDone = true → g.fresh k →
        let b := s.milepostBytes { g with members := [k] } k
        ∃ t, exec (.mirrorDone f mem) s = .next t ∧ s.TookFlit t f ∧
          t = { s with groups := [{ g with members := [{ k with milepost := some b, resv := m.resv - 2 }] }],
                       wb := t.wb, cw := t.cw, out := t.out, staging := t.staging, ue := t.ue, freeCtr := s.freeCtr + 1 } ∧
          s.Wrote t [⟨Ty.published, publishedParts b m.idx.toNat, .published m.seq⟩])) ∧
    (∀ x, s.wb.sent.find? (fun x => x.2 == field f.payload 0 8) = some x → (∀ r ∈ s.wb.recs, r.ok = false) →
      let has := fun (n : Nat) => decide (x.1 ≤ n ∧ n ≤ x.2)
      let left := s.wb.mirror.filter (fun r => !has r.1)
      ∃ t, exec (.waybookDone f mem) s = .next t ∧ s.TookFlit t f ∧
        t = { s with cw := t.cw, out := t.out, wb := { s.wb with
          sent := s.wb.sent.erase x, mirror := left, mirrorLost := s.wb.mirrorLost && !left.isEmpty,
          recs := s.wb.recs.map (fun r => if has r.rnum then { r with acked := true } else r) } })

/-- An ACK releases what the peer has and returns its credits; a SYNC of a newer epoch restarts the link, the answer to an own one ends the
wait; a flit that fails its check is asked for again; a transport credit is counted on its lane. -/
def Obligations.LinksAnswerTheirPeers : Prop :=
  (∀ (s : State) (f : Flit) (mem : Image) (l : Link), s.laneUp f.cd f.lane = true → (s.route? f.src).isSome = true → s.link? f.src = some l →
    let pulsed := s.out ++ [Out.rxCredit f.cd f.lane 1]
    (s.cw.links = [l] → l.queue = [] → l.again = [] → l.sync ≠ 0 → bit (field f.payload 4 1) 0 = false →
      let high := field f.payload 0 4
      (l.txSeq + 2 ^ 32 - 1 - high) % 2 ^ 32 < 2 ^ 31 →
      let has := fun (x : TxFlit) => decide ((high + 2 ^ 32 - x.lseq) % 2 ^ 32 < 2 ^ 31)
      exec (.ack f mem) s = .next { s with out := pulsed, cw := { s.cw with links := [{ l with
        unacked := l.unacked.filter (fun x => !has x), credits := l.credits + (l.unacked.filter has).countP State.exchFlit }] } }) ∧
    (s.cw.links = [l] → l.queue = [] → l.again = [] → l.sync = 0 → field f.payload 0 4 = l.epoch →
      exec (.sync f mem) s = .next { s with out := pulsed, cw := { s.cw with links := [{ l with sync := 1, resent := 0 }] } }) ∧
    (let e := field f.payload 0 4
     e ≠ l.epoch → (e + 2 ^ 32 - l.epoch) % 2 ^ 32 < 2 ^ 31 →
      ∃ t l', exec (.sync f mem) s = .next t ∧
        t = { s with cw := t.cw, out := t.out, wb := { s.wb with sent := if f.src = s.partner then s.mirrorRuns else s.wb.sent } } ∧
        t.link? f.src = some l' ∧ l'.rxSeq = 0 ∧ l'.epoch = e ∧ l'.sync = 1 ∧ l'.failed = false ∧ l'.resent = 0 ∧ l'.landing = [] ∧ l'.again = [] ∧
        t.cw.exchs = s.cw.exchs.map (fun x => { x with granted := x.granted.filter (· != f.src) }) ∧
        t.cw.early = s.cw.early.filter (fun p => p.2 != f.src))) ∧
  (∀ (s : State) (cd : Bool) (on : Nat) (mem : Image) (l : Link) (r : Route) (lane : Nat), s.clearTo l r lane → s.laneUp cd on = true →
    exec (.flitCrcFailure ⟨cd, on⟩ l.peer mem) s = .next { s with
      cw := { s.cw with
        links := [{ l with cd := !r.cu }],
        credCd := if r.cu then s.cw.credCd else s.cw.credCd.modify lane (· - 1),
        credCu := if r.cu then s.cw.credCu.modify lane (· - 1) else s.cw.credCu },
      out := s.out ++ [.rxCredit cd on 1,
        .flit { mkFlit l.peer 2 0 0 0 true (toBytes 4 ((l.rxSeq + 2 ^ 32 - 1) % 2 ^ 32) ++ [1]) with cd := !r.cu, dest := r.dest }] }) ∧
  (∀ (s : State) (lane : Nat), s.inReset = false → (∀ l ∈ s.cw.links, l.queue = [] ∧ l.again = []) →
    exec (.txCredit true lane) s = .next { s with cw := { s.cw with credCd := s.cw.credCd.modify lane (· + 1) } } ∧
    exec (.txCredit false lane) s = .next { s with cw := { s.cw with credCu := s.cw.credCu.modify lane (· + 1) } })

/-- After ACK_LIMIT without an acknowledgement every flit that waits for one goes again, in LSEQ order: as many at once as the lanes hold
credits, each counted, the others as credits come. A SYNC without its answer goes again too. After RETRY_MAX resends of a flit the link
fails with an incident. -/
def Obligations.UnacknowledgedFlitsGoAgain : Prop :=
  ∀ (s : State) (peer : Nat) (l : Link), s.calm → s.link? peer = some l → (s.route? peer).isSome = true → l.failed = false →
    (l.resent < s.retryMax → (∀ x ∈ l.unacked, x.resends < s.retryMax) →
      (s.cw.links = [l] → l.sync ≠ 0 → l.unacked ≠ [] → l.queue = [] → l.again = [] → (∀ x ∈ l.unacked, x.cd = l.cd) → (l.unacked.map TxFlit.lseq).Nodup →
        s.portSends l.cd = true →
        let credits := ((if l.cd then s.cw.credCd else s.cw.credCu).take (if (if l.cd then s.start.halfCd else s.start.halfCu) then 4 else 8)).sum
        ∃ t, exec (.ackTimeout peer) s = .next t ∧
          t = { s with cw := t.cw, out := s.out ++ (l.unacked.take credits).map (fun x => Out.flit { x with resends := 0 }) } ∧
          t.link? peer = some { l with
            unacked := (l.unacked.take credits).map (fun x => { x with resends := x.resends + 1 }) ++ l.unacked.drop credits,
            again := l.unacked.drop credits } ∧
          t.cw.exchs = s.cw.exchs ∧ t.cw.rx = s.cw.rx) ∧
      (l.sync = 0 → ∃ t l', exec (.ackTimeout peer) s = .next t ∧ t = { s with cw := t.cw, out := t.out } ∧ t.link? peer = some l' ∧
        l'.resent = l.resent + 1 ∧ l'.unacked = l.unacked ∧ l'.epoch = l.epoch ∧ l'.sync = 0)) ∧
    (∀ p, (l.sync ≠ 0 → l.unacked ≠ []) → (s.retryMax ≤ l.resent ∨ ∃ x ∈ l.unacked, s.retryMax ≤ x.resends) → s.freePos = some p →
      ∃ t l', exec (.ackTimeout peer) s = .next t ∧ t.link? peer = some l' ∧ l'.failed = true ∧ l'.unacked = l.unacked ∧
        t.logged p 0x16 peer 0 ((l.unacked.head?.map TxFlit.lseq).getD 0))

/-- An exchange that stays open past EXCH_LIMIT, and a written set whose done does not come, complete with BUS_ERROR and an S2; journal
records without a done set MIRROR_LOST with an S2 and hold up nothing any more. -/
def Obligations.LimitsOfExchangesAndMirrors : Prop :=
  ∀ (s : State) (p : Nat), s.calm → s.freePos = some p → s.exchLimit ≠ 0 →
    (∀ (chain : Nat) (e : Exch) (g : Group) (m : Member), s.exch? chain = some e → s.group? e.seq = some g → s.member? e.seq = some m → g.live →
      ∃ t, exec (.exchTimeout chain) s = .next t ∧ t.faulted e.seq 0x020C ∧ t.logged p 0x17 (s.silentPeer e) e.seq chain ∧ t.inc.cur = none) ∧
    (∀ (seq : Nat) (g : Group) (m : Member), s.group? seq = some g → s.member? seq = some m → g.live → g.wrote = true → m.mirrorDone = false →
      ∃ t, exec (.mirrorTimeout seq) s = .next t ∧ t.faulted seq 0x020C ∧ t.logged p 0x18 s.partner seq seq ∧ t.inc.cur = none) ∧
    (∀ r, s.mirrorEn = true → s.wb.mirrorLost = false → (∀ r ∈ s.wb.recs, r.ok = false) → s.wb.recs.find? (fun r => !r.acked) = some r →
      s.wb.mirror = [] →
      ∃ t, exec .mirrorLost s = .next t ∧ t.wb.mirrorLost = true ∧ t.logged p 0x18 s.partner 0 r.rnum ∧ t.inc.cur = none)

-- Journal, incidents, assay -------------------------------------------------------------------------------------------

/-- Where CKPT_INTERVAL is set and that many times 64 records have been written since the last CHECKPOINT, one is written, and the count
begins again after it. It names the oldest descriptor that is not published, with nothing unpublished the tail and the next sequence
number. -/
def Obligations.CheckpointIsWritten : Prop :=
  ∀ s : State, s.wbOpen = true → s.ckptInterval ≠ 0 → s.ckptInterval * 64 ≤ s.wb.since →
    let walk := (s.oldest.map (fun m => (m.rnum, m.seq))).getD (s.wb.tail, s.wb.nextSeq)
    ∃ t, exec .checkpoint s = .next { t with wb := { t.wb with since := 0 } } ∧
      t = { s with wb := t.wb, cw := t.cw, out := t.out, staging := t.staging, ue := t.ue } ∧
      s.Wrote t [⟨Ty.checkpoint, [checkpointPart walk.1 walk.2 s.wb.nextSeq s.fpSettings 0 0], .checkpoint walk.1 0⟩]

/-- An S1 is counted and takes no ID and no place in the log. An S2 that only sets statuses takes the lowest free place and the next ID, and
its recovery ends at once. An S2 during an S3 recovery of another resource waits. Where the log is full the block fences itself. A
recovery of an S2 that ends is DONE. The scrub corrects one or two bits in error, which is an S1 of its granule. -/
def Obligations.IncidentsAreRecorded : Prop :=
  ∀ s : State, s.inReset = false →
    let counted := fun (t : State) (source : Nat) =>
      t = { s with inc := t.inc, wb := t.wb, cw := t.cw, clusters := t.clusters, out := t.out, freeCtr := t.freeCtr, staging := t.staging, ue := t.ue } ∧
      t.inc.s1cnt = s.inc.s1cnt.modify source (fun c => if c = 0xFFFFFFFF then c else c + 1) ∧
      t.inc.log = s.inc.log ∧ t.inc.nextId = s.inc.nextId ∧ t.inc.cur = s.inc.cur
    (∀ f : Finding, f.source ∈ [0x01, 0x03, 0x06, 0x07, 0x0A, 0x11, 0x14, 0x19] →
      ∃ t, exec (.incidentDetect f) s = .next t ∧ counted t f.source ∧ (f.source ≠ 7 → t.clusters = s.clusters)) ∧
    (∀ word n, (n = 1 ∨ n = 2) → s.ue.contains word = false → 32 * word < Memory.size →
      ∃ t, exec (.scrub word n) s = .next t ∧ counted t 1 ∧ t.clusters = s.clusters) ∧
    (∀ (f : Finding) (p : Nat), f.source ∈ [0x0C, 0x0D, 0x0E, 0x12, 0x13, 0x15, 0x16, 0x17, 0x18, 0x1A] →
      (s.calm → s.freePos = some p →
        ∃ t, exec (.incidentDetect f) s = .next t ∧
          t = { s with inc := t.inc, setup := { s.setup with irqIncident := s.setup.irqIncident ||| 0x11 }, wb := t.wb, cw := t.cw, out := t.out,
                       freeCtr := t.freeCtr, staging := t.staging, ue := t.ue } ∧
          t.logged p f.source f.unit f.seq f.addr ∧ t.inc.nextId = s.inc.nextId + 1 ∧ t.inc.cur = none) ∧
      (∀ (c : Nat) (e : IncEntry), s.inc.fenced = false → s.inc.cur = some c → s.entry? c = some e → e.sevFinal = 3 → s.freePos = some p →
        resource f.source f.unit ≠ resource e.source e.unit →
        ∃ x, exec (.incidentDetect f) s = .next { s with
            inc := { s.inc with log := s.inc.log.set p (some x), nextId := s.inc.nextId + 1 },
            setup := { s.setup with irqIncident := s.setup.irqIncident ||| 1 }, freeCtr := s.freeCtr + 1 } ∧
          x.source = f.source ∧ x.unit = f.unit ∧ x.seq = f.seq ∧ x.addr = f.addr ∧ x.sev = 2 ∧ x.sevFinal = 2 ∧ x.state = 0 ∧
          x.id = s.inc.nextId.toNat) ∧
      (s.inc.fenced = false → s.inc.cur = none → s.freePos = none →
        ∃ t, exec (.incidentDetect f) s = .next t ∧ t.inc.fenced = true ∧ t.inc.overflow = true ∧
          t.inc.lost = (if s.inc.lost = 0xFFFF then s.inc.lost else s.inc.lost + 1) ∧ t.inc.log = s.inc.log)) ∧
    (∀ (p : Nat) (e : IncEntry) (mem : Image), s.inc.cur = some p → s.entry? p = some e → e.sevFinal = 2 →
      (∀ x ∈ s.inc.log, x.map (·.state) ≠ some 0) →
      ∃ t x, exec (.recoveryEnd mem) s = .next t ∧
        t = { s with inc := t.inc, setup := { s.setup with irqIncident := s.setup.irqIncident ||| 0x10 }, wb := t.wb, cw := t.cw, out := t.out,
                     staging := t.staging, ue := t.ue } ∧
        t.inc.cur = none ∧ t.entry? p = some x ∧ x.state = 2 ∧ x.source = e.source ∧ x.unit = e.unit ∧ x.sevFinal = 2)

/-- An assay begins with the forced cluster, else with the next of the round where one is due. A cluster that passes has nothing suspect any
more. A lane in error gets the lowest free spare, which serves its logical lane from then on; a cluster whose shared part fails is replaced
by cluster 16, while that stands in for none; a failed Draw fences the block. -/
def Obligations.AssayRepairsAndReplaces : Prop :=
  (∀ (s : State) (c : Nat), s.assay.running = none → s.start.active = false → s.shut = false →
    (s.assay.forced = some c →
      exec .assayStart s = .next { s with
        assay := { s.assay with forced := none, running := some c }, clusters := s.clusters.modify c (fun k => { k with gated := false }) }) ∧
    (s.assay.forced = none → bits s.regs.assayCtl.toNat 15 0 ≠ 0 → s.assay.next = c →
      exec .assayStart s = .next { s with
        assay := { s.assay with next := (c + 1) % 17, running := some c }, clusters := s.clusters.modify c (fun k => { k with gated := false }) })) ∧
  (∀ (s : State) (r : AssayRes) (drawOk : Bool), s.assay.running = some r.cluster →
    let c := r.cluster
    let rest := { s.assay with running := none }
    (r.lanes = [] → r.shared = false → (c = 0 → drawOk = true) →
      exec (.assayComplete r drawOk) s = .next { s with
        assay := rest, clusters := s.clusters.modify c (fun k => { k with passed := true, suspectFrom := 0, workedPub := 0 }) }) ∧
    (∀ (p lane l k : Nat), r.lanes = [lane] → r.shared = false → (c = 0 → drawOk = true) → s.logicalLane c lane = some l → s.freeSpare c = some k →
      (s.cluster c).suspectFrom = 0 → s.calm → s.freePos = some p →
      ∃ t x, exec (.assayComplete r drawOk) s = .next t ∧
        t = { s with assay := rest, inc := t.inc, setup := t.setup, freeCtr := s.freeCtr + 1,
                     clusters := s.clusters.modify c (fun x => { x with passed := false, spare := x.spare.set k (BitVec.ofNat 16 (l + 256)) }) } ∧
        t.inc.cur = some p ∧ t.entry? p = some x ∧ x.source = 8 ∧ x.unit = c * 512 + lane ∧ x.sevFinal = 2 ∧ x.action = 2 ∧
        (l < 256 → k < (s.cluster c).spare.length → c < s.clusters.length →
          (∀ j, k < j → j < (s.cluster c).spare.length → (s.cluster c).spare[j]?.map (fun e => e.getLsbD 8 && bits e.toNat 7 0 == l) = some false) →
          t.logicalLane c (256 + k) = some l)) ∧
    (∀ (p : Nat), r.shared = true → (c = 0 → drawOk = true) → c < 16 → s.inService c = true → (s.cluster 16).retired = false → s.standin = 0x1F →
      (s.cluster c).suspectFrom = 0 → s.calm → s.freePos = some p →
      ∃ t x, exec (.assayComplete r drawOk) s = .next t ∧
        t = { s with assay := rest, standin := BitVec.ofNat 5 c, inc := t.inc, setup := t.setup, freeCtr := s.freeCtr + 1,
                     clusters := s.clusters.modify c (fun x => { x with passed := false }) } ∧
        t.takesWork c = false ∧ t.takesWork 16 = true ∧
        t.inc.cur = some p ∧ t.entry? p = some x ∧ x.source = 9 ∧ x.unit = c ∧ x.sevFinal = 2 ∧ x.action = 3) ∧
    (r.lanes = [] → r.shared = false → c = 0 → drawOk = false → s.calm → s.freePos ≠ none →
      ∃ t, exec (.assayComplete r drawOk) s = .next t ∧ t.inc.fenced = true))

-- Resets and the start ------------------------------------------------------------------------------------------------

/-- A cold reset brings everything to its reset value; a warm reset keeps the settings, the sealed fields, the tables, the tolls, the journal's
place and the resident region, and drops the work in flight and the working region. After the release a start begins at S0; a retention
record that fails its check parks the block. -/
def Obligations.ResetsKeepAndDrop : Prop :=
  ∀ s : State,
    let cold : State := { State.reset with
      pending := s.pending, grade := s.grade, out := s.out, freeCtr := s.freeCtr,
      gov := { State.reset.gov with coreGood := s.gov.coreGood, sramGood := s.gov.sramGood } }
    let pulses := [false, true].flatMap (fun cd => (List.range 8).map (fun lane => Out.rxCredit cd lane 32))
    exec (.resetAssert true) s = .next { cold with rst := ⟨true, s.rst.warm⟩, start := { State.reset.start with active := false, running := [] } } ∧
    (s.rst.cold = true → exec .coldResetRelease s = .next { cold with out := s.out ++ pulses }) ∧
    (s.rst.cold = true → exec (.resetAssert false) s = .next { s with rst := ⟨true, true⟩ }) ∧
    (let dropped := fun (t : State) =>
      t.regs = s.regs ∧ t.pad.shadow = s.pad.shadow ∧ t.pad.active = s.pad.active ∧ t.pad.pendingSet = none ∧ t.slots = s.slots ∧ t.groups = [] ∧
      t.seals.compatGen = s.seals.compatGen ∧ t.seals.reproClass = s.seals.reproClass ∧ t.seals.geometry = s.seals.geometry ∧
      t.seals.drawKey = s.seals.drawKey ∧ t.seals.changes = s.seals.changes ∧ t.standin = s.standin ∧
      t.clusters.map (fun c => (c.spare, c.retired)) = s.clusters.map (fun c => (c.spare, c.retired)) ∧
      t.tolls.count = s.tolls.count ∧ t.tolls.limit = s.tolls.limit ∧ t.tolls.memos = s.tolls.memos ∧
      t.wb.tail = s.wb.tail ∧ t.wb.ckpt = s.wb.ckpt ∧ t.wb.nextSeq = s.wb.nextSeq ∧ t.wb.recs = s.wb.recs.filter State.tollRec ∧
      (∀ g ∈ t.rings, g.status = .disabled ∧ g.arrived = [] ∧ g.atHead = none) ∧ t.rings.map (·.ctl) = s.rings.map (·.ctl) ∧ t.start.ready = 3 ∧
      (∀ a < s.resident * 65536, t.stageByte a = s.stageByte a) ∧
      (∀ a, s.resident * 65536 ≤ a → a < Memory.size → t.stageByte a = none)
    (s.rst.cold = false → ∃ t, exec (.resetAssert false) s = .next t ∧ dropped t ∧ t.rst = ⟨false, true⟩ ∧ t.start.active = false) ∧
    (s.rst.cold = false → s.rst.warm = true →
      (s.start.stuck = false →
        ∃ t, exec (.warmResetRelease none) s = .next t ∧ dropped t ∧ t.rst = ⟨false, false⟩ ∧ t.start.active = true ∧ t.start.warm = true ∧
          t.start.running = [(0, 1)] ∧ t.start.warmCount = s.start.warmCount + 1 ∧ t.out = s.out ++ pulses) ∧
      (∀ n, ∃ t, exec (.warmResetRelease (some n)) s = .next t ∧ t.start.parked = true ∧ t.start.stuck = true ∧ t.start.parkStep = 0xFF ∧
          t.start.ready = 3 ∧ t.inc.fenced = true)))

/-- The start goes on: after S0 of a cold start the block waits for GO, after S1 the steps S2, S7, S8 and S9 run together, S7 makes the
upstream port ready and asks for the interrupt. A step that fails, or takes too long, runs once more with its alternative; a mandatory one
that fails again parks the block. While S9 runs each good pattern beat is noted for its port. -/
def Obligations.StartStepsFollowTheirOutcome : Prop :=
  (∀ (s : State) (info : StepInfo), s.inReset = false → s.inc.fenced = false → s.start.parked = false → s.start.rerun = [] →
    (s.start.running = [(0, 1)] → s.start.codes = List.replicate 10 none → s.start.warm = false → s.gov.coreGood = true → s.gov.sramGood = true →
      exec (.startStepDone 0 true info) s = .next { s with start := { s.start with
        waitingGo := true, running := [], codes := s.start.codes.set 0 (some .pass) } }) ∧
    (s.start.running = [(1, 1)] → s.start.codes = some StepCode.pass :: List.replicate 9 none → s.start.prev = none → s.start.altUse = 0 →
      exec (.startStepDone 1 true info) s = .next { s with
        start := { s.start with
          repairAlt := false, running := [(2, 1), (7, 1), (8, 1), (9, 1)], codes := s.start.codes.set 1 (some .pass) },
        asSeen := List.replicate 16 [], asBad := false }) ∧
    (∀ p, s.start.running.find? (fun p => p.1 == 7) = some p → s.stepPassed 0 = true → s.stepPassed 1 = true → s.start.codes.length = 10 →
      s.isReady 6 = false → s.start.altUse.getLsbD 7 = false →
      ∃ t, exec (.startStepDone 7 true info) s = .next t ∧ t.isReady 6 = true ∧ t.setup.irqReady.getLsbD 6 = true ∧ t.stepCode 7 = some .pass ∧
        t.start.halfCu = false ∧ t.stepRunning 7 = false)) ∧
  (∀ (s : State) (n : Nat) (info : StepInfo) (c : Instr), s.inReset = false → s.start.parked = false →
    (c = .startStepDone n false info ∨ (c = .startStepTimeout n ∧ (n < 7 ∨ s.stepLimit ≠ 0))) →
    (n ∈ [1, 2, 7, 8] → s.start.running.find? (fun p => p.1 == n) = some (n, 1) →
      exec c s = .next { s with start := { s.start with
        failLast := s.start.failLast ||| (1#16 <<< n), running := s.start.running.filter (fun p => p.1 != n) ++ [(n, 2)],
        altUse := if n = 2 then s.start.altUse else s.start.altUse ||| (1#16 <<< n) } }) ∧
    (n ≤ 6 → s.start.running.find? (fun p => p.1 == n) = some (n, 2) → s.start.codes.length = 10 →
      ∃ t, exec c s = .next t ∧ t.start.parked = true ∧ t.start.parkStep = BitVec.ofNat 8 n ∧ t.start.ready = 3 ∧ t.start.running = [] ∧
        t.stepCode n = some .failed ∧ t.start.active = false ∧ t.groups = s.groups)) ∧
  (∀ (s : State) (port : Nat) (b : Beat), s.inReset = false → s.stepRunning 9 = true →
    (Beat'.isPattern port b = true →
      exec (.asCheckPattern port b) s = .next { s with
        asSeen := s.asSeen.modify port (fun ks => if ks.contains (Beat'.chunk b) then ks else ks ++ [Beat'.chunk b]) }) ∧
    (Beat'.isPattern port b = false → Beat'.ok b = true →
      exec (.asCheckPattern port b) s = .next { s with asBad := true }))

-- The governor --------------------------------------------------------------------------------------------------------

/-- The load-step governor: with no work the demand is 0 and a rise not yet begun is cancelled; S4 asks for level 15, and a rise that may be
granted is forecast with LEAD and a new token; a forecast whose level the budget covers is carried out one level at a time, each step
reported, and one that it does not cover is cancelled and announced anew; after HOLD the descent to the demand is forecast. -/
def Obligations.GovernorMovesTheLevel : Prop :=
  ∀ s : State, s.inReset = false →
    let g := s.gov
    let lvl := g.level.toNat
    let tok := if g.token = 0xFF then 1 else g.token + 1
    (s.groups = [] → s.stepRunning 4 = false →
      (g.forecast = none →
        exec .demandUpdate s = .next { s with gov := { g with demand := 0, filler := decide (0 < lvl) }, freeCtr := s.freeCtr + 1 }) ∧
      (∀ f, g.forecast = some f → lvl < f.level → s.pgBypass = false →
        exec .demandUpdate s = .next { s with
          gov := { g with demand := 0, forecast := none, filler := decide (0 < lvl) },
          freeCtr := s.freeCtr + 1, out := s.out ++ [.pg (pgWord 2 0 0 f.token)] })) ∧
    (s.inc.fenced = false → s.start.parked = false → s.stepRunning 4 = true → s.start.altUse.getLsbD 4 = false → s.pgBypass = false → g.forecast = none →
      g.ramp = none → lvl < 15 → lvl < g.cap.toNat →
      exec .demandUpdate s = .next { s with
        gov := { g with demand := 15, token := tok, forecast := some ⟨15, s.lead, tok.toNat⟩, filler := false },
        freeCtr := s.freeCtr + 1, out := s.out ++ [.pg (pgWord 1 15 s.lead tok.toNat)] }) ∧
    (∀ f, g.forecast = some f →
      ((f.level ≤ lvl ∨ f.level ≤ s.budget) →
        exec .forecastStart s = .next { s with gov := { g with
          forecast := none, ramp := some f.level, unforecast := false, filler := decide (g.demand.toNat < lvl) } }) ∧
      (lvl < f.level → s.budget < f.level → s.pgBypass = false →
        exec .forecastStart s = .next { s with
          gov := { g with token := tok, forecast := some ⟨g.demand.toNat, s.lead, tok.toNat⟩, filler := decide (g.demand.toNat < lvl) },
          out := s.out ++ [.pg (pgWord 2 0 0 f.token), .pg (pgWord 1 g.demand.toNat s.lead tok.toNat)] })) ∧
    (∀ t, g.ramp = some t → s.pgBypass = false →
      (lvl < t → g.stretch = false → lvl < s.limit →
        exec .levelStep s = .next { s with
          gov := { g with
            level := BitVec.ofNat 4 (lvl + 1), ramp := if lvl + 1 = t then none else some t, unforecast := g.unforecast && lvl + 1 != t,
            recal := g.recal && lvl + 1 == 15, filler := decide (g.demand.toNat < lvl + 1) },
          out := s.out ++ [.pg (pgWord 3 (lvl + 1) 0 0)] }) ∧
      (t < lvl →
        exec .levelStep s = .next { s with
          gov := { g with
            level := BitVec.ofNat 4 (lvl - 1), ramp := if lvl - 1 = t then none else some t, unforecast := g.unforecast && lvl - 1 != t,
            recal := g.recal && lvl - 1 == 15, filler := decide (g.demand.toNat < lvl - 1) },
          out := s.out ++ [.pg (pgWord 3 (lvl - 1) (b2n g.stretch) 0)] })) ∧
    (g.demand.toNat < lvl → g.forecast = none → g.ramp = none → s.pgBypass = false →
      exec .holdExpire s = .next { s with
        gov := { g with token := tok, forecast := some ⟨g.demand.toNat, s.lead, tok.toNat⟩, filler := true },
        out := s.out ++ [.pg (pgWord 1 g.demand.toNat s.lead tok.toNat)] })

/-- Words of the power manager: a grant sets the budget, a throttle lowers cap and budget at once, and the governor steps down to them
without a forecast; reserved and truncated words are counted, and without a word for 1 ms the budget falls to at most 3. Rails, droop,
recalibration and clock gating each change their own state. -/
def Obligations.PowerWordsDroopAndClocks : Prop :=
  ∀ s : State,
    let g := s.gov
    let lvl := g.level.toNat
    let tok := if g.token = 0xFF then 1 else g.token + 1
    let word := fun (st : Bool) => if s.pgBypass then s.out else s.out ++ [Out.pg (pgWord 3 lvl (b2n st) 0)]
    (∀ n, exec (.railGood n) s = .next { s with gov := { g with coreGood := bit n 0, sramGood := bit n 1, pgLost := false } }) ∧
    (s.inReset = false → s.pgBypass = false →
      (∀ n token,
        let lim := min (n % 16) g.cap.toNat
        exec (.pgGrant n token) s = .next { s with gov := { g with
          budget := BitVec.ofNat 4 n, pgLost := false,
          ramp := if lim < lvl then some lim else g.ramp.map (min lim), unforecast := g.unforecast || decide (lim < lvl) } }) ∧
      (∀ n,
        let lim := min g.budget.toNat (n % 16)
        exec (.throttle n) s = .next { s with gov := { g with
          cap := BitVec.ofNat 4 n, budget := BitVec.ofNat 4 lim, pgLost := false,
          ramp := if lim < lvl then some lim else g.ramp.map (min lim), unforecast := g.unforecast || decide (lim < lvl) } }) ∧
      (∀ w, bits w 3 0 ∉ [1, 2, 3, 8, 9, 10] →
        exec (.pgReservedWord w) s = .next { s with gov := { g with pgBad := if g.pgBad = 0xFFF then g.pgBad else g.pgBad + 1 } }) ∧
      exec .pgWordTruncated s = .next { s with gov := { g with pgBad := if g.pgBad = 0xFFF then g.pgBad else g.pgBad + 1 } } ∧
      (g.pgLost = false →
        let low := min g.budget.toNat 3
        (lvl ≤ low → exec .pgLost s = .next { s with gov := { g with pgLost := true } }) ∧
        (low < lvl → g.forecast = none →
          let tgt := min low g.demand.toNat
          exec .pgLost s = .next { s with
            gov := { g with pgLost := true, ramp := none, token := tok, forecast := some ⟨tgt, s.lead, tok.toNat⟩, filler := decide (g.demand.toNat < lvl) },
            out := s.out ++ [.pg (pgWord 1 tgt s.lead tok.toNat)] }))) ∧
    (s.inReset = false →
      (let trigger := ((g.cals[if lvl = 0 then 0 else if lvl ≤ 7 then 1 else 2]?).map Cal.trig).getD 0
       (g.stretch = false → trigger ≠ 0 →
         exec .droopStretch s = .next { s with gov := { g with stretch := true, stretchCnt := satInc g.stretchCnt }, out := word true }) ∧
       (trigger = 0 → exec .droopStretch s = .next s)) ∧
      (g.stretch = true → exec .stretchEnd s = .next { s with gov := { g with stretch := false }, out := word false }) ∧
      (g.calProv = true → g.level = 15 → g.recal = false → exec .recalWindow s = .next { s with gov := { g with recal := true } }) ∧
      (∀ drop, g.recal = true → s.guardTaps + drop < 256 →
        ∃ t, exec (.recalComplete drop) s = .next t ∧
          t = { s with
            gov := { g with
              recal := false, calProv := false,
              cals := g.cals.set 2 ⟨BitVec.ofNat 8 drop, BitVec.ofNat 8 (max (s.guardTaps + drop) (((g.cals[1]?).map (fun c => c.trig.toNat)).getD 0)), true, false⟩ },
            start := { s.start with calProv := false, rec' := t.start.rec' }, freeCtr := s.freeCtr + 1 } ∧
          field (toBytes 64 t.start.rec'.toNat) 41 1 = 0)) ∧
    (∀ d, d < 17 → (s.cluster d).slotA = .empty → (s.cluster d).slotB = .empty → (s.cluster d).fills = [] → s.assay.running ≠ some d → (s.takesWork d = false ∨ s.groups = []) →
      exec (.clusterClockGated d) s = .next { s with clusters := s.clusters.modify d (fun c => { c with gated := true }) })
end

