-- ==== Sys2Proof/Laws/Memory.lean ====
section
/-!
SUPPORT. The staging store: every operation keeps the canonical form, and what a read finds after a write or a forgetting.
-/
namespace Sys2Proof.Machine.Memory
open Sys2Proof

-- The canonical form -------------------------------------------------------------------------------------------------

theorem wfFrom_mono {lo hi : Nat} (h : lo ≤ hi) : ∀ m : Memory, wfFrom hi m = true → wfFrom lo m = true
  | [], _ => rfl
  | c :: r, hm => by
    simp only [wfFrom, Bool.and_eq_true, decide_eq_true_eq] at hm ⊢
    exact ⟨⟨Nat.le_trans h hm.1.1, hm.1.2⟩, hm.2⟩

theorem put_wfFrom {a : Nat} {b : Byte} (ha : a < size) : ∀ {lo : Nat} (m : Memory), lo ≤ a → wfFrom lo m = true → wfFrom lo (put a b m) = true
  | lo, [], hl, _ => by simp [put, wfFrom, hl, ha]
  | lo, c :: r, hl, hm => by
    simp only [wfFrom, Bool.and_eq_true, decide_eq_true_eq] at hm
    simp only [put]
    split
    · simp [wfFrom, hl, ha, hm.1.2, hm.2]; omega
    · split
      · simp only [wfFrom, Bool.and_eq_true, decide_eq_true_eq]
        exact ⟨⟨hl, ha⟩, by have := hm.2; simp_all⟩
      · simp only [wfFrom, Bool.and_eq_true, decide_eq_true_eq]
        exact ⟨hm.1, put_wfFrom ha r (by omega) hm.2⟩

theorem store_wf {m : Memory} (a : Nat) (b : Byte) (h : wf m = true) : wf (m.store a b) = true := by
  unfold store
  split
  · exact put_wfFrom ‹_› m (Nat.zero_le a) h
  · exact h

theorem write_wf : ∀ {m : Memory} (a : Nat) (bs : List (Option Byte)), wf m = true → wf (m.write a bs) = true
  | _, _, [], h => h
  | _, a, some b :: r, h => write_wf (a + 1) r (store_wf a b h)
  | _, a, none :: r, h => write_wf (a + 1) r h

theorem filter_wfFrom (p : Host.Cell → Bool) : ∀ {lo : Nat} (m : Memory), wfFrom lo m = true → wfFrom lo (m.filter p) = true
  | _, [], _ => rfl
  | lo, c :: r, hm => by
    simp only [wfFrom, Bool.and_eq_true, decide_eq_true_eq] at hm
    have ih := filter_wfFrom p r hm.2
    cases hp : p c with
    | true => simp [hp, wfFrom, hm.1, ih]
    | false => simpa [hp] using wfFrom_mono (by omega) _ ih

theorem forget_wf {m : Memory} (lo n : Nat) (h : wf m = true) : wf (m.forget lo n) = true := filter_wfFrom _ m h

-- Reads after writes -------------------------------------------------------------------------------------------------

theorem get_below {a lo : Nat} (h : a < lo) : ∀ m : Memory, wfFrom lo m = true → get a m = none
  | [], _ => rfl
  | c :: r, hm => by
    simp only [wfFrom, Bool.and_eq_true, decide_eq_true_eq] at hm
    have : c.1 ≠ a := by omega
    simp only [get, this, if_false]
    exact get_below (by omega) r hm.2

theorem get_put_same {a : Nat} {b : Byte} : ∀ m : Memory, get a (put a b m) = some b
  | [] => by simp [put, get]
  | c :: r => by
    simp only [put]
    split
    · simp [get]
    · split
      · simp [get]
      · have : c.1 ≠ a := by omega
        simp [get, this, get_put_same r]

theorem get_put_other {a x : Nat} {b : Byte} (h : x ≠ a) : ∀ m : Memory, get x (put a b m) = get x m
  | [] => by simp [put, get, Ne.symm h, unlisted]
  | c :: r => by
    simp only [put]
    split
    · simp [get, Ne.symm h]
    · split
      · next h1 => simp [get, Ne.symm h, ← h1]
      · simp [get, get_put_other h r]

/-- A byte stored is what a read finds there. -/
theorem get_store_same {m : Memory} {a : Nat} {b : Byte} (h : a < size) : get a (m.store a b) = some b := by
  simp [store, h, get_put_same]

/-- A byte stored leaves every other address alone. -/
theorem get_store_other {m : Memory} {a x : Nat} {b : Byte} (h : x ≠ a) : get x (m.store a b) = get x m := by
  unfold store
  split
  · exact get_put_other h m
  · rfl

/-- A write leaves every address outside its range alone. -/
theorem get_write_outside : ∀ {m : Memory} {a x : Nat} (bs : List (Option Byte)), (x < a ∨ a + bs.length ≤ x) → get x (m.write a bs) = get x m
  | _, _, _, [], _ => rfl
  | m, a, x, some b :: r, h => by
    simp only [List.length_cons] at h
    rw [write, get_write_outside r (by omega), get_store_other (by omega)]
  | m, a, x, none :: r, h => by
    simp only [List.length_cons] at h
    rw [write, get_write_outside r (by omega)]

/-- A write stores its bytes; where a strobe is low, the old byte stays. -/
theorem get_write_inside : ∀ {m : Memory} {a i : Nat} (bs : List (Option Byte)) (h : i < bs.length), a + i < size →
    get (a + i) (m.write a bs) = match bs[i] with | some b => some b | none => get (a + i) m
  | m, a, 0, some b :: r, _, hs => by
    rw [write, get_write_outside r (by omega)]
    simpa using get_store_same (by omega)
  | m, a, 0, none :: r, _, _ => by rw [write, get_write_outside r (by omega)]; rfl
  | m, a, i + 1, some b :: r, h, hs => by
    have e : a + (i + 1) = a + 1 + i := by omega
    rw [write, e, get_write_inside r (by simpa using h) (by omega), get_store_other (by omega)]
    rfl
  | m, a, i + 1, none :: r, h, hs => by
    have e : a + (i + 1) = a + 1 + i := by omega
    rw [write, e, get_write_inside r (by simpa using h) (by omega)]
    rfl

theorem get_forget : ∀ (m : Memory) (lo n x : Nat), get x (m.forget lo n) = if lo ≤ x ∧ x < lo + n then none else get x m
  | [], _, _, _ => by simp [forget, get, unlisted]
  | c :: r, lo, n, x => by
    have ih := get_forget r lo n x
    unfold forget at ih ⊢
    by_cases hc : c.1 < lo ∨ lo + n ≤ c.1
    · rw [List.filter_cons_of_pos (by simpa using hc)]
      simp only [get]
      by_cases hx : c.1 = x
      · have : ¬(lo ≤ x ∧ x < lo + n) := by omega
        simp [hx, this]
      · simpa [hx] using ih
    · rw [List.filter_cons_of_neg (by simpa using hc), ih]
      by_cases hx : c.1 = x
      · have : lo ≤ x ∧ x < lo + n := by omega
        simp [this]
      · simp [get, hx]

end Sys2Proof.Machine.Memory
end

