-- ==== Sys2Proof/Laws/State.lean ====
section
/-!
SUPPORT. What each update of the state changes and what it leaves, field by field: true by rfl, so that no later proof unfolds a
record update. A lemma is a conjunction, of which simp takes every part.
-/
namespace Sys2Proof.Machine.State
open Sys2Proof

@[simp] theorem emit_fields (s : State) (o : Out) :
    (s.emit o).pending = s.pending ∧ (s.emit o).freeCtr = s.freeCtr ∧ (s.emit o).grade = s.grade ∧ (s.emit o).rst = s.rst ∧
    (s.emit o).regs = s.regs ∧ (s.emit o).setup = s.setup ∧ (s.emit o).pad = s.pad ∧ (s.emit o).seals = s.seals ∧
    (s.emit o).rings = s.rings ∧ (s.emit o).groups = s.groups ∧ (s.emit o).wb = s.wb ∧ (s.emit o).slots = s.slots ∧
    (s.emit o).loads = s.loads ∧ (s.emit o).staging = s.staging ∧ (s.emit o).ue = s.ue ∧ (s.emit o).clusters = s.clusters ∧
    (s.emit o).standin = s.standin ∧ (s.emit o).assay = s.assay ∧ (s.emit o).rowCtx = s.rowCtx ∧
    (s.emit o).asHeld = s.asHeld ∧ (s.emit o).asSeen = s.asSeen ∧ (s.emit o).asBad = s.asBad ∧
    (s.emit o).asStray = s.asStray ∧ (s.emit o).asCheckFail = s.asCheckFail ∧ (s.emit o).tolls = s.tolls ∧
    (s.emit o).cw = s.cw ∧ (s.emit o).inc = s.inc ∧ (s.emit o).start = s.start ∧ (s.emit o).gov = s.gov ∧
    (s.emit o).out = s.out ++ [o] :=
  ⟨rfl, rfl, rfl, rfl, rfl, rfl, rfl, rfl, rfl, rfl, rfl, rfl, rfl, rfl, rfl, rfl, rfl, rfl, rfl, rfl, rfl, rfl, rfl, rfl, rfl, rfl, rfl, rfl, rfl, rfl⟩

@[simp] theorem bump_fields (s : State) :
    (s.bump).pending = s.pending ∧ (s.bump).freeCtr = s.freeCtr + 1 ∧ (s.bump).grade = s.grade ∧ (s.bump).rst = s.rst ∧
    (s.bump).regs = s.regs ∧ (s.bump).setup = s.setup ∧ (s.bump).pad = s.pad ∧ (s.bump).seals = s.seals ∧
    (s.bump).rings = s.rings ∧ (s.bump).groups = s.groups ∧ (s.bump).wb = s.wb ∧ (s.bump).slots = s.slots ∧
    (s.bump).loads = s.loads ∧ (s.bump).staging = s.staging ∧ (s.bump).ue = s.ue ∧ (s.bump).clusters = s.clusters ∧
    (s.bump).standin = s.standin ∧ (s.bump).assay = s.assay ∧ (s.bump).rowCtx = s.rowCtx ∧ (s.bump).asHeld = s.asHeld ∧
    (s.bump).asSeen = s.asSeen ∧ (s.bump).asBad = s.asBad ∧ (s.bump).asStray = s.asStray ∧
    (s.bump).asCheckFail = s.asCheckFail ∧ (s.bump).tolls = s.tolls ∧ (s.bump).cw = s.cw ∧ (s.bump).inc = s.inc ∧
    (s.bump).start = s.start ∧ (s.bump).gov = s.gov ∧ (s.bump).out = s.out :=
  ⟨rfl, rfl, rfl, rfl, rfl, rfl, rfl, rfl, rfl, rfl, rfl, rfl, rfl, rfl, rfl, rfl, rfl, rfl, rfl, rfl, rfl, rfl, rfl, rfl, rfl, rfl, rfl, rfl, rfl, rfl⟩

@[simp] theorem modRing_fields (s : State) (r : Nat) (f : Ring → Ring) :
    (s.modRing r f).pending = s.pending ∧ (s.modRing r f).freeCtr = s.freeCtr ∧ (s.modRing r f).grade = s.grade ∧
    (s.modRing r f).rst = s.rst ∧ (s.modRing r f).regs = s.regs ∧ (s.modRing r f).setup = s.setup ∧
    (s.modRing r f).pad = s.pad ∧ (s.modRing r f).seals = s.seals ∧ (s.modRing r f).rings = s.rings.modify r f ∧
    (s.modRing r f).groups = s.groups ∧ (s.modRing r f).wb = s.wb ∧ (s.modRing r f).slots = s.slots ∧
    (s.modRing r f).loads = s.loads ∧ (s.modRing r f).staging = s.staging ∧ (s.modRing r f).ue = s.ue ∧
    (s.modRing r f).clusters = s.clusters ∧ (s.modRing r f).standin = s.standin ∧ (s.modRing r f).assay = s.assay ∧
    (s.modRing r f).rowCtx = s.rowCtx ∧ (s.modRing r f).asHeld = s.asHeld ∧ (s.modRing r f).asSeen = s.asSeen ∧
    (s.modRing r f).asBad = s.asBad ∧ (s.modRing r f).asStray = s.asStray ∧ (s.modRing r f).asCheckFail = s.asCheckFail ∧
    (s.modRing r f).tolls = s.tolls ∧ (s.modRing r f).cw = s.cw ∧ (s.modRing r f).inc = s.inc ∧
    (s.modRing r f).start = s.start ∧ (s.modRing r f).gov = s.gov ∧ (s.modRing r f).out = s.out :=
  ⟨rfl, rfl, rfl, rfl, rfl, rfl, rfl, rfl, rfl, rfl, rfl, rfl, rfl, rfl, rfl, rfl, rfl, rfl, rfl, rfl, rfl, rfl, rfl, rfl, rfl, rfl, rfl, rfl, rfl, rfl⟩

@[simp] theorem modRings_fields (s : State) (f : Ring → Ring) :
    (s.modRings f).pending = s.pending ∧ (s.modRings f).freeCtr = s.freeCtr ∧ (s.modRings f).grade = s.grade ∧
    (s.modRings f).rst = s.rst ∧ (s.modRings f).regs = s.regs ∧ (s.modRings f).setup = s.setup ∧ (s.modRings f).pad = s.pad ∧
    (s.modRings f).seals = s.seals ∧ (s.modRings f).rings = s.rings.map f ∧ (s.modRings f).groups = s.groups ∧
    (s.modRings f).wb = s.wb ∧ (s.modRings f).slots = s.slots ∧ (s.modRings f).loads = s.loads ∧
    (s.modRings f).staging = s.staging ∧ (s.modRings f).ue = s.ue ∧ (s.modRings f).clusters = s.clusters ∧
    (s.modRings f).standin = s.standin ∧ (s.modRings f).assay = s.assay ∧ (s.modRings f).rowCtx = s.rowCtx ∧
    (s.modRings f).asHeld = s.asHeld ∧ (s.modRings f).asSeen = s.asSeen ∧ (s.modRings f).asBad = s.asBad ∧
    (s.modRings f).asStray = s.asStray ∧ (s.modRings f).asCheckFail = s.asCheckFail ∧ (s.modRings f).tolls = s.tolls ∧
    (s.modRings f).cw = s.cw ∧ (s.modRings f).inc = s.inc ∧ (s.modRings f).start = s.start ∧ (s.modRings f).gov = s.gov ∧
    (s.modRings f).out = s.out :=
  ⟨rfl, rfl, rfl, rfl, rfl, rfl, rfl, rfl, rfl, rfl, rfl, rfl, rfl, rfl, rfl, rfl, rfl, rfl, rfl, rfl, rfl, rfl, rfl, rfl, rfl, rfl, rfl, rfl, rfl, rfl⟩

@[simp] theorem modGroup_fields (s : State) (q : Nat) (f : Group → Group) :
    (s.modGroup q f).pending = s.pending ∧ (s.modGroup q f).freeCtr = s.freeCtr ∧ (s.modGroup q f).grade = s.grade ∧
    (s.modGroup q f).rst = s.rst ∧ (s.modGroup q f).regs = s.regs ∧ (s.modGroup q f).setup = s.setup ∧
    (s.modGroup q f).pad = s.pad ∧ (s.modGroup q f).seals = s.seals ∧ (s.modGroup q f).rings = s.rings ∧
    (s.modGroup q f).wb = s.wb ∧ (s.modGroup q f).slots = s.slots ∧ (s.modGroup q f).loads = s.loads ∧
    (s.modGroup q f).staging = s.staging ∧ (s.modGroup q f).ue = s.ue ∧ (s.modGroup q f).clusters = s.clusters ∧
    (s.modGroup q f).standin = s.standin ∧ (s.modGroup q f).assay = s.assay ∧ (s.modGroup q f).rowCtx = s.rowCtx ∧
    (s.modGroup q f).asHeld = s.asHeld ∧ (s.modGroup q f).asSeen = s.asSeen ∧ (s.modGroup q f).asBad = s.asBad ∧
    (s.modGroup q f).asStray = s.asStray ∧ (s.modGroup q f).asCheckFail = s.asCheckFail ∧ (s.modGroup q f).tolls = s.tolls ∧
    (s.modGroup q f).cw = s.cw ∧ (s.modGroup q f).inc = s.inc ∧ (s.modGroup q f).start = s.start ∧
    (s.modGroup q f).gov = s.gov ∧ (s.modGroup q f).out = s.out :=
  ⟨rfl, rfl, rfl, rfl, rfl, rfl, rfl, rfl, rfl, rfl, rfl, rfl, rfl, rfl, rfl, rfl, rfl, rfl, rfl, rfl, rfl, rfl, rfl, rfl, rfl, rfl, rfl, rfl, rfl⟩

@[simp] theorem modMember_fields (s : State) (q : Nat) (f : Member → Member) :
    (s.modMember q f).pending = s.pending ∧ (s.modMember q f).freeCtr = s.freeCtr ∧ (s.modMember q f).grade = s.grade ∧
    (s.modMember q f).rst = s.rst ∧ (s.modMember q f).regs = s.regs ∧ (s.modMember q f).setup = s.setup ∧
    (s.modMember q f).pad = s.pad ∧ (s.modMember q f).seals = s.seals ∧ (s.modMember q f).rings = s.rings ∧
    (s.modMember q f).wb = s.wb ∧ (s.modMember q f).slots = s.slots ∧ (s.modMember q f).loads = s.loads ∧
    (s.modMember q f).staging = s.staging ∧ (s.modMember q f).ue = s.ue ∧ (s.modMember q f).clusters = s.clusters ∧
    (s.modMember q f).standin = s.standin ∧ (s.modMember q f).assay = s.assay ∧ (s.modMember q f).rowCtx = s.rowCtx ∧
    (s.modMember q f).asHeld = s.asHeld ∧ (s.modMember q f).asSeen = s.asSeen ∧ (s.modMember q f).asBad = s.asBad ∧
    (s.modMember q f).asStray = s.asStray ∧ (s.modMember q f).asCheckFail = s.asCheckFail ∧
    (s.modMember q f).tolls = s.tolls ∧ (s.modMember q f).cw = s.cw ∧ (s.modMember q f).inc = s.inc ∧
    (s.modMember q f).start = s.start ∧ (s.modMember q f).gov = s.gov ∧ (s.modMember q f).out = s.out :=
  ⟨rfl, rfl, rfl, rfl, rfl, rfl, rfl, rfl, rfl, rfl, rfl, rfl, rfl, rfl, rfl, rfl, rfl, rfl, rfl, rfl, rfl, rfl, rfl, rfl, rfl, rfl, rfl, rfl, rfl⟩

@[simp] theorem modSlot_fields (s : State) (i : Nat) (f : Slot → Slot) :
    (s.modSlot i f).pending = s.pending ∧ (s.modSlot i f).freeCtr = s.freeCtr ∧ (s.modSlot i f).grade = s.grade ∧
    (s.modSlot i f).rst = s.rst ∧ (s.modSlot i f).regs = s.regs ∧ (s.modSlot i f).setup = s.setup ∧
    (s.modSlot i f).pad = s.pad ∧ (s.modSlot i f).seals = s.seals ∧ (s.modSlot i f).rings = s.rings ∧
    (s.modSlot i f).groups = s.groups ∧ (s.modSlot i f).wb = s.wb ∧ (s.modSlot i f).slots = s.slots.modify i f ∧
    (s.modSlot i f).loads = s.loads ∧ (s.modSlot i f).staging = s.staging ∧ (s.modSlot i f).ue = s.ue ∧
    (s.modSlot i f).clusters = s.clusters ∧ (s.modSlot i f).standin = s.standin ∧ (s.modSlot i f).assay = s.assay ∧
    (s.modSlot i f).rowCtx = s.rowCtx ∧ (s.modSlot i f).asHeld = s.asHeld ∧ (s.modSlot i f).asSeen = s.asSeen ∧
    (s.modSlot i f).asBad = s.asBad ∧ (s.modSlot i f).asStray = s.asStray ∧ (s.modSlot i f).asCheckFail = s.asCheckFail ∧
    (s.modSlot i f).tolls = s.tolls ∧ (s.modSlot i f).cw = s.cw ∧ (s.modSlot i f).inc = s.inc ∧
    (s.modSlot i f).start = s.start ∧ (s.modSlot i f).gov = s.gov ∧ (s.modSlot i f).out = s.out :=
  ⟨rfl, rfl, rfl, rfl, rfl, rfl, rfl, rfl, rfl, rfl, rfl, rfl, rfl, rfl, rfl, rfl, rfl, rfl, rfl, rfl, rfl, rfl, rfl, rfl, rfl, rfl, rfl, rfl, rfl, rfl⟩

@[simp] theorem stageWrite_fields (s : State) (a : Nat) (bs : List (Option Byte)) :
    (s.stageWrite a bs).pending = s.pending ∧ (s.stageWrite a bs).freeCtr = s.freeCtr ∧ (s.stageWrite a bs).grade = s.grade ∧
    (s.stageWrite a bs).rst = s.rst ∧ (s.stageWrite a bs).regs = s.regs ∧ (s.stageWrite a bs).setup = s.setup ∧
    (s.stageWrite a bs).pad = s.pad ∧ (s.stageWrite a bs).seals = s.seals ∧ (s.stageWrite a bs).rings = s.rings ∧
    (s.stageWrite a bs).groups = s.groups ∧ (s.stageWrite a bs).wb = s.wb ∧ (s.stageWrite a bs).slots = s.slots ∧
    (s.stageWrite a bs).loads = s.loads ∧ (s.stageWrite a bs).staging = s.staging.write a bs ∧
    (s.stageWrite a bs).clusters = s.clusters ∧ (s.stageWrite a bs).standin = s.standin ∧
    (s.stageWrite a bs).assay = s.assay ∧ (s.stageWrite a bs).rowCtx = s.rowCtx ∧ (s.stageWrite a bs).asHeld = s.asHeld ∧
    (s.stageWrite a bs).asSeen = s.asSeen ∧ (s.stageWrite a bs).asBad = s.asBad ∧ (s.stageWrite a bs).asStray = s.asStray ∧
    (s.stageWrite a bs).asCheckFail = s.asCheckFail ∧ (s.stageWrite a bs).tolls = s.tolls ∧ (s.stageWrite a bs).cw = s.cw ∧
    (s.stageWrite a bs).inc = s.inc ∧ (s.stageWrite a bs).start = s.start ∧ (s.stageWrite a bs).gov = s.gov ∧
    (s.stageWrite a bs).out = s.out :=
  ⟨rfl, rfl, rfl, rfl, rfl, rfl, rfl, rfl, rfl, rfl, rfl, rfl, rfl, rfl, rfl, rfl, rfl, rfl, rfl, rfl, rfl, rfl, rfl, rfl, rfl, rfl, rfl, rfl, rfl⟩

@[simp] theorem modWb_fields (s : State) (f : Wb → Wb) :
    (s.modWb f).pending = s.pending ∧ (s.modWb f).freeCtr = s.freeCtr ∧ (s.modWb f).grade = s.grade ∧
    (s.modWb f).rst = s.rst ∧ (s.modWb f).regs = s.regs ∧ (s.modWb f).setup = s.setup ∧ (s.modWb f).pad = s.pad ∧
    (s.modWb f).seals = s.seals ∧ (s.modWb f).rings = s.rings ∧ (s.modWb f).groups = s.groups ∧ (s.modWb f).wb = f s.wb ∧
    (s.modWb f).slots = s.slots ∧ (s.modWb f).loads = s.loads ∧ (s.modWb f).staging = s.staging ∧ (s.modWb f).ue = s.ue ∧
    (s.modWb f).clusters = s.clusters ∧ (s.modWb f).standin = s.standin ∧ (s.modWb f).assay = s.assay ∧
    (s.modWb f).rowCtx = s.rowCtx ∧ (s.modWb f).asHeld = s.asHeld ∧ (s.modWb f).asSeen = s.asSeen ∧
    (s.modWb f).asBad = s.asBad ∧ (s.modWb f).asStray = s.asStray ∧ (s.modWb f).asCheckFail = s.asCheckFail ∧
    (s.modWb f).tolls = s.tolls ∧ (s.modWb f).cw = s.cw ∧ (s.modWb f).inc = s.inc ∧ (s.modWb f).start = s.start ∧
    (s.modWb f).gov = s.gov ∧ (s.modWb f).out = s.out :=
  ⟨rfl, rfl, rfl, rfl, rfl, rfl, rfl, rfl, rfl, rfl, rfl, rfl, rfl, rfl, rfl, rfl, rfl, rfl, rfl, rfl, rfl, rfl, rfl, rfl, rfl, rfl, rfl, rfl, rfl, rfl⟩

@[simp] theorem modCw_fields (s : State) (f : Cw → Cw) :
    (s.modCw f).pending = s.pending ∧ (s.modCw f).freeCtr = s.freeCtr ∧ (s.modCw f).grade = s.grade ∧
    (s.modCw f).rst = s.rst ∧ (s.modCw f).regs = s.regs ∧ (s.modCw f).setup = s.setup ∧ (s.modCw f).pad = s.pad ∧
    (s.modCw f).seals = s.seals ∧ (s.modCw f).rings = s.rings ∧ (s.modCw f).groups = s.groups ∧ (s.modCw f).wb = s.wb ∧
    (s.modCw f).slots = s.slots ∧ (s.modCw f).loads = s.loads ∧ (s.modCw f).staging = s.staging ∧ (s.modCw f).ue = s.ue ∧
    (s.modCw f).clusters = s.clusters ∧ (s.modCw f).standin = s.standin ∧ (s.modCw f).assay = s.assay ∧
    (s.modCw f).rowCtx = s.rowCtx ∧ (s.modCw f).asHeld = s.asHeld ∧ (s.modCw f).asSeen = s.asSeen ∧
    (s.modCw f).asBad = s.asBad ∧ (s.modCw f).asStray = s.asStray ∧ (s.modCw f).asCheckFail = s.asCheckFail ∧
    (s.modCw f).tolls = s.tolls ∧ (s.modCw f).cw = f s.cw ∧ (s.modCw f).inc = s.inc ∧ (s.modCw f).start = s.start ∧
    (s.modCw f).gov = s.gov ∧ (s.modCw f).out = s.out :=
  ⟨rfl, rfl, rfl, rfl, rfl, rfl, rfl, rfl, rfl, rfl, rfl, rfl, rfl, rfl, rfl, rfl, rfl, rfl, rfl, rfl, rfl, rfl, rfl, rfl, rfl, rfl, rfl, rfl, rfl, rfl⟩

@[simp] theorem modLink_fields (s : State) (p : Nat) (f : Link → Link) :
    (s.modLink p f).pending = s.pending ∧ (s.modLink p f).freeCtr = s.freeCtr ∧ (s.modLink p f).grade = s.grade ∧
    (s.modLink p f).rst = s.rst ∧ (s.modLink p f).regs = s.regs ∧ (s.modLink p f).setup = s.setup ∧
    (s.modLink p f).pad = s.pad ∧ (s.modLink p f).seals = s.seals ∧ (s.modLink p f).rings = s.rings ∧
    (s.modLink p f).groups = s.groups ∧ (s.modLink p f).wb = s.wb ∧ (s.modLink p f).slots = s.slots ∧
    (s.modLink p f).loads = s.loads ∧ (s.modLink p f).staging = s.staging ∧ (s.modLink p f).ue = s.ue ∧
    (s.modLink p f).clusters = s.clusters ∧ (s.modLink p f).standin = s.standin ∧ (s.modLink p f).assay = s.assay ∧
    (s.modLink p f).rowCtx = s.rowCtx ∧ (s.modLink p f).asHeld = s.asHeld ∧ (s.modLink p f).asSeen = s.asSeen ∧
    (s.modLink p f).asBad = s.asBad ∧ (s.modLink p f).asStray = s.asStray ∧ (s.modLink p f).asCheckFail = s.asCheckFail ∧
    (s.modLink p f).tolls = s.tolls ∧
    (s.modLink p f).cw = { s.cw with links := s.cw.links.map (fun l => if l.peer == p then f l else l) } ∧
    (s.modLink p f).inc = s.inc ∧ (s.modLink p f).start = s.start ∧ (s.modLink p f).gov = s.gov ∧
    (s.modLink p f).out = s.out :=
  ⟨rfl, rfl, rfl, rfl, rfl, rfl, rfl, rfl, rfl, rfl, rfl, rfl, rfl, rfl, rfl, rfl, rfl, rfl, rfl, rfl, rfl, rfl, rfl, rfl, rfl, rfl, rfl, rfl, rfl, rfl⟩

@[simp] theorem modExch_fields (s : State) (q : Nat) (f : Exch → Exch) :
    (s.modExch q f).pending = s.pending ∧ (s.modExch q f).freeCtr = s.freeCtr ∧ (s.modExch q f).grade = s.grade ∧
    (s.modExch q f).rst = s.rst ∧ (s.modExch q f).regs = s.regs ∧ (s.modExch q f).setup = s.setup ∧
    (s.modExch q f).pad = s.pad ∧ (s.modExch q f).seals = s.seals ∧ (s.modExch q f).rings = s.rings ∧
    (s.modExch q f).groups = s.groups ∧ (s.modExch q f).wb = s.wb ∧ (s.modExch q f).slots = s.slots ∧
    (s.modExch q f).loads = s.loads ∧ (s.modExch q f).staging = s.staging ∧ (s.modExch q f).ue = s.ue ∧
    (s.modExch q f).clusters = s.clusters ∧ (s.modExch q f).standin = s.standin ∧ (s.modExch q f).assay = s.assay ∧
    (s.modExch q f).rowCtx = s.rowCtx ∧ (s.modExch q f).asHeld = s.asHeld ∧ (s.modExch q f).asSeen = s.asSeen ∧
    (s.modExch q f).asBad = s.asBad ∧ (s.modExch q f).asStray = s.asStray ∧ (s.modExch q f).asCheckFail = s.asCheckFail ∧
    (s.modExch q f).tolls = s.tolls ∧
    (s.modExch q f).cw = { s.cw with exchs := s.cw.exchs.map (fun e => if e.isOpen && e.seq == q then f e else e) } ∧
    (s.modExch q f).inc = s.inc ∧ (s.modExch q f).start = s.start ∧ (s.modExch q f).gov = s.gov ∧
    (s.modExch q f).out = s.out :=
  ⟨rfl, rfl, rfl, rfl, rfl, rfl, rfl, rfl, rfl, rfl, rfl, rfl, rfl, rfl, rfl, rfl, rfl, rfl, rfl, rfl, rfl, rfl, rfl, rfl, rfl, rfl, rfl, rfl, rfl, rfl⟩

@[simp] theorem modInc_fields (s : State) (f : Inc → Inc) :
    (s.modInc f).pending = s.pending ∧ (s.modInc f).freeCtr = s.freeCtr ∧ (s.modInc f).grade = s.grade ∧
    (s.modInc f).rst = s.rst ∧ (s.modInc f).regs = s.regs ∧ (s.modInc f).setup = s.setup ∧ (s.modInc f).pad = s.pad ∧
    (s.modInc f).seals = s.seals ∧ (s.modInc f).rings = s.rings ∧ (s.modInc f).groups = s.groups ∧ (s.modInc f).wb = s.wb ∧
    (s.modInc f).slots = s.slots ∧ (s.modInc f).loads = s.loads ∧ (s.modInc f).staging = s.staging ∧ (s.modInc f).ue = s.ue ∧
    (s.modInc f).clusters = s.clusters ∧ (s.modInc f).standin = s.standin ∧ (s.modInc f).assay = s.assay ∧
    (s.modInc f).rowCtx = s.rowCtx ∧ (s.modInc f).asHeld = s.asHeld ∧ (s.modInc f).asSeen = s.asSeen ∧
    (s.modInc f).asBad = s.asBad ∧ (s.modInc f).asStray = s.asStray ∧ (s.modInc f).asCheckFail = s.asCheckFail ∧
    (s.modInc f).tolls = s.tolls ∧ (s.modInc f).cw = s.cw ∧ (s.modInc f).inc = f s.inc ∧ (s.modInc f).start = s.start ∧
    (s.modInc f).gov = s.gov ∧ (s.modInc f).out = s.out :=
  ⟨rfl, rfl, rfl, rfl, rfl, rfl, rfl, rfl, rfl, rfl, rfl, rfl, rfl, rfl, rfl, rfl, rfl, rfl, rfl, rfl, rfl, rfl, rfl, rfl, rfl, rfl, rfl, rfl, rfl, rfl⟩

@[simp] theorem irqInc_fields (s : State) (n : Nat) :
    (s.irqInc n).pending = s.pending ∧ (s.irqInc n).freeCtr = s.freeCtr ∧ (s.irqInc n).grade = s.grade ∧
    (s.irqInc n).rst = s.rst ∧ (s.irqInc n).regs = s.regs ∧ (s.irqInc n).pad = s.pad ∧ (s.irqInc n).seals = s.seals ∧
    (s.irqInc n).rings = s.rings ∧ (s.irqInc n).groups = s.groups ∧ (s.irqInc n).wb = s.wb ∧ (s.irqInc n).slots = s.slots ∧
    (s.irqInc n).loads = s.loads ∧ (s.irqInc n).staging = s.staging ∧ (s.irqInc n).ue = s.ue ∧
    (s.irqInc n).clusters = s.clusters ∧ (s.irqInc n).standin = s.standin ∧ (s.irqInc n).assay = s.assay ∧
    (s.irqInc n).rowCtx = s.rowCtx ∧ (s.irqInc n).asHeld = s.asHeld ∧ (s.irqInc n).asSeen = s.asSeen ∧
    (s.irqInc n).asBad = s.asBad ∧ (s.irqInc n).asStray = s.asStray ∧ (s.irqInc n).asCheckFail = s.asCheckFail ∧
    (s.irqInc n).tolls = s.tolls ∧ (s.irqInc n).cw = s.cw ∧ (s.irqInc n).inc = s.inc ∧ (s.irqInc n).start = s.start ∧
    (s.irqInc n).gov = s.gov ∧ (s.irqInc n).out = s.out :=
  ⟨rfl, rfl, rfl, rfl, rfl, rfl, rfl, rfl, rfl, rfl, rfl, rfl, rfl, rfl, rfl, rfl, rfl, rfl, rfl, rfl, rfl, rfl, rfl, rfl, rfl, rfl, rfl, rfl, rfl⟩

@[simp] theorem modTolls_fields (s : State) (f : Tolls → Tolls) :
    (s.modTolls f).pending = s.pending ∧ (s.modTolls f).freeCtr = s.freeCtr ∧ (s.modTolls f).grade = s.grade ∧
    (s.modTolls f).rst = s.rst ∧ (s.modTolls f).regs = s.regs ∧ (s.modTolls f).setup = s.setup ∧ (s.modTolls f).pad = s.pad ∧
    (s.modTolls f).seals = s.seals ∧ (s.modTolls f).rings = s.rings ∧ (s.modTolls f).groups = s.groups ∧
    (s.modTolls f).wb = s.wb ∧ (s.modTolls f).slots = s.slots ∧ (s.modTolls f).loads = s.loads ∧
    (s.modTolls f).staging = s.staging ∧ (s.modTolls f).ue = s.ue ∧ (s.modTolls f).clusters = s.clusters ∧
    (s.modTolls f).standin = s.standin ∧ (s.modTolls f).assay = s.assay ∧ (s.modTolls f).rowCtx = s.rowCtx ∧
    (s.modTolls f).asHeld = s.asHeld ∧ (s.modTolls f).asSeen = s.asSeen ∧ (s.modTolls f).asBad = s.asBad ∧
    (s.modTolls f).asStray = s.asStray ∧ (s.modTolls f).asCheckFail = s.asCheckFail ∧ (s.modTolls f).tolls = f s.tolls ∧
    (s.modTolls f).cw = s.cw ∧ (s.modTolls f).inc = s.inc ∧ (s.modTolls f).start = s.start ∧ (s.modTolls f).gov = s.gov ∧
    (s.modTolls f).out = s.out :=
  ⟨rfl, rfl, rfl, rfl, rfl, rfl, rfl, rfl, rfl, rfl, rfl, rfl, rfl, rfl, rfl, rfl, rfl, rfl, rfl, rfl, rfl, rfl, rfl, rfl, rfl, rfl, rfl, rfl, rfl, rfl⟩

@[simp] theorem modCluster_fields (s : State) (c : Nat) (f : Cluster → Cluster) :
    (s.modCluster c f).pending = s.pending ∧ (s.modCluster c f).freeCtr = s.freeCtr ∧ (s.modCluster c f).grade = s.grade ∧
    (s.modCluster c f).rst = s.rst ∧ (s.modCluster c f).regs = s.regs ∧ (s.modCluster c f).setup = s.setup ∧
    (s.modCluster c f).pad = s.pad ∧ (s.modCluster c f).seals = s.seals ∧ (s.modCluster c f).rings = s.rings ∧
    (s.modCluster c f).groups = s.groups ∧ (s.modCluster c f).wb = s.wb ∧ (s.modCluster c f).slots = s.slots ∧
    (s.modCluster c f).loads = s.loads ∧ (s.modCluster c f).staging = s.staging ∧ (s.modCluster c f).ue = s.ue ∧
    (s.modCluster c f).clusters = s.clusters.modify c f ∧ (s.modCluster c f).standin = s.standin ∧
    (s.modCluster c f).assay = s.assay ∧ (s.modCluster c f).rowCtx = s.rowCtx ∧ (s.modCluster c f).asHeld = s.asHeld ∧
    (s.modCluster c f).asSeen = s.asSeen ∧ (s.modCluster c f).asBad = s.asBad ∧ (s.modCluster c f).asStray = s.asStray ∧
    (s.modCluster c f).asCheckFail = s.asCheckFail ∧ (s.modCluster c f).tolls = s.tolls ∧ (s.modCluster c f).cw = s.cw ∧
    (s.modCluster c f).inc = s.inc ∧ (s.modCluster c f).start = s.start ∧ (s.modCluster c f).gov = s.gov ∧
    (s.modCluster c f).out = s.out :=
  ⟨rfl, rfl, rfl, rfl, rfl, rfl, rfl, rfl, rfl, rfl, rfl, rfl, rfl, rfl, rfl, rfl, rfl, rfl, rfl, rfl, rfl, rfl, rfl, rfl, rfl, rfl, rfl, rfl, rfl, rfl⟩

@[simp] theorem modGov_fields (s : State) (f : Gov → Gov) :
    (s.modGov f).pending = s.pending ∧ (s.modGov f).freeCtr = s.freeCtr ∧ (s.modGov f).grade = s.grade ∧
    (s.modGov f).rst = s.rst ∧ (s.modGov f).regs = s.regs ∧ (s.modGov f).setup = s.setup ∧ (s.modGov f).pad = s.pad ∧
    (s.modGov f).seals = s.seals ∧ (s.modGov f).rings = s.rings ∧ (s.modGov f).groups = s.groups ∧ (s.modGov f).wb = s.wb ∧
    (s.modGov f).slots = s.slots ∧ (s.modGov f).loads = s.loads ∧ (s.modGov f).staging = s.staging ∧ (s.modGov f).ue = s.ue ∧
    (s.modGov f).clusters = s.clusters ∧ (s.modGov f).standin = s.standin ∧ (s.modGov f).assay = s.assay ∧
    (s.modGov f).rowCtx = s.rowCtx ∧ (s.modGov f).asHeld = s.asHeld ∧ (s.modGov f).asSeen = s.asSeen ∧
    (s.modGov f).asBad = s.asBad ∧ (s.modGov f).asStray = s.asStray ∧ (s.modGov f).asCheckFail = s.asCheckFail ∧
    (s.modGov f).tolls = s.tolls ∧ (s.modGov f).cw = s.cw ∧ (s.modGov f).inc = s.inc ∧ (s.modGov f).start = s.start ∧
    (s.modGov f).gov = f s.gov ∧ (s.modGov f).out = s.out :=
  ⟨rfl, rfl, rfl, rfl, rfl, rfl, rfl, rfl, rfl, rfl, rfl, rfl, rfl, rfl, rfl, rfl, rfl, rfl, rfl, rfl, rfl, rfl, rfl, rfl, rfl, rfl, rfl, rfl, rfl, rfl⟩

@[simp] theorem modStart_fields (s : State) (f : StartSt → StartSt) :
    (s.modStart f).pending = s.pending ∧ (s.modStart f).freeCtr = s.freeCtr ∧ (s.modStart f).grade = s.grade ∧
    (s.modStart f).rst = s.rst ∧ (s.modStart f).regs = s.regs ∧ (s.modStart f).setup = s.setup ∧ (s.modStart f).pad = s.pad ∧
    (s.modStart f).seals = s.seals ∧ (s.modStart f).rings = s.rings ∧ (s.modStart f).groups = s.groups ∧
    (s.modStart f).wb = s.wb ∧ (s.modStart f).slots = s.slots ∧ (s.modStart f).loads = s.loads ∧
    (s.modStart f).staging = s.staging ∧ (s.modStart f).ue = s.ue ∧ (s.modStart f).clusters = s.clusters ∧
    (s.modStart f).standin = s.standin ∧ (s.modStart f).assay = s.assay ∧ (s.modStart f).rowCtx = s.rowCtx ∧
    (s.modStart f).asHeld = s.asHeld ∧ (s.modStart f).asSeen = s.asSeen ∧ (s.modStart f).asBad = s.asBad ∧
    (s.modStart f).asStray = s.asStray ∧ (s.modStart f).asCheckFail = s.asCheckFail ∧ (s.modStart f).tolls = s.tolls ∧
    (s.modStart f).cw = s.cw ∧ (s.modStart f).inc = s.inc ∧ (s.modStart f).start = f s.start ∧ (s.modStart f).gov = s.gov ∧
    (s.modStart f).out = s.out :=
  ⟨rfl, rfl, rfl, rfl, rfl, rfl, rfl, rfl, rfl, rfl, rfl, rfl, rfl, rfl, rfl, rfl, rfl, rfl, rfl, rfl, rfl, rfl, rfl, rfl, rfl, rfl, rfl, rfl, rfl, rfl⟩

@[simp] theorem modRegs_fields (s : State) (f : Regs → Regs) :
    (s.modRegs f).pending = s.pending ∧ (s.modRegs f).freeCtr = s.freeCtr ∧ (s.modRegs f).grade = s.grade ∧
    (s.modRegs f).rst = s.rst ∧ (s.modRegs f).regs = f s.regs ∧ (s.modRegs f).setup = s.setup ∧ (s.modRegs f).pad = s.pad ∧
    (s.modRegs f).seals = s.seals ∧ (s.modRegs f).rings = s.rings ∧ (s.modRegs f).groups = s.groups ∧
    (s.modRegs f).wb = s.wb ∧ (s.modRegs f).slots = s.slots ∧ (s.modRegs f).loads = s.loads ∧
    (s.modRegs f).staging = s.staging ∧ (s.modRegs f).ue = s.ue ∧ (s.modRegs f).clusters = s.clusters ∧
    (s.modRegs f).standin = s.standin ∧ (s.modRegs f).assay = s.assay ∧ (s.modRegs f).rowCtx = s.rowCtx ∧
    (s.modRegs f).asHeld = s.asHeld ∧ (s.modRegs f).asSeen = s.asSeen ∧ (s.modRegs f).asBad = s.asBad ∧
    (s.modRegs f).asStray = s.asStray ∧ (s.modRegs f).asCheckFail = s.asCheckFail ∧ (s.modRegs f).tolls = s.tolls ∧
    (s.modRegs f).cw = s.cw ∧ (s.modRegs f).inc = s.inc ∧ (s.modRegs f).start = s.start ∧ (s.modRegs f).gov = s.gov ∧
    (s.modRegs f).out = s.out :=
  ⟨rfl, rfl, rfl, rfl, rfl, rfl, rfl, rfl, rfl, rfl, rfl, rfl, rfl, rfl, rfl, rfl, rfl, rfl, rfl, rfl, rfl, rfl, rfl, rfl, rfl, rfl, rfl, rfl, rfl, rfl⟩

@[simp] theorem modLoad_fields (s : State) (q : Nat) (f : Load → Load) :
    (s.modLoad q f).pending = s.pending ∧ (s.modLoad q f).freeCtr = s.freeCtr ∧ (s.modLoad q f).grade = s.grade ∧
    (s.modLoad q f).rst = s.rst ∧ (s.modLoad q f).regs = s.regs ∧ (s.modLoad q f).setup = s.setup ∧
    (s.modLoad q f).pad = s.pad ∧ (s.modLoad q f).seals = s.seals ∧ (s.modLoad q f).rings = s.rings ∧
    (s.modLoad q f).groups = s.groups ∧ (s.modLoad q f).wb = s.wb ∧ (s.modLoad q f).slots = s.slots ∧
    (s.modLoad q f).staging = s.staging ∧ (s.modLoad q f).ue = s.ue ∧ (s.modLoad q f).clusters = s.clusters ∧
    (s.modLoad q f).standin = s.standin ∧ (s.modLoad q f).assay = s.assay ∧ (s.modLoad q f).rowCtx = s.rowCtx ∧
    (s.modLoad q f).asHeld = s.asHeld ∧ (s.modLoad q f).asSeen = s.asSeen ∧ (s.modLoad q f).asBad = s.asBad ∧
    (s.modLoad q f).asStray = s.asStray ∧ (s.modLoad q f).asCheckFail = s.asCheckFail ∧ (s.modLoad q f).tolls = s.tolls ∧
    (s.modLoad q f).cw = s.cw ∧ (s.modLoad q f).inc = s.inc ∧ (s.modLoad q f).start = s.start ∧ (s.modLoad q f).gov = s.gov ∧
    (s.modLoad q f).out = s.out :=
  ⟨rfl, rfl, rfl, rfl, rfl, rfl, rfl, rfl, rfl, rfl, rfl, rfl, rfl, rfl, rfl, rfl, rfl, rfl, rfl, rfl, rfl, rfl, rfl, rfl, rfl, rfl, rfl, rfl, rfl⟩

end Sys2Proof.Machine.State
end

