-- ==== Sys2Proof/Laws/Keeps.lean ====
section
/-!
SUPPORT. What every operation but a reset keeps, as one relation between a state and a later one, with a lemma for each operation
that the meanings share: `h.pump` says of `s.pump` what `h` says of `s`. This file: the relation, the primitive updates, links and
the journal.
-/
namespace Sys2Proof.Machine
set_option Elab.async false
open Sys2Proof

/-- From `s` to `t` nothing is broken that must hold, nothing that has left is taken back, and a fenced block stays fenced and has
sent no flit. -/
structure Keeps (s t : State) : Prop where
  staging : s.stagingOk → t.stagingOk
  sized : s.Sized → t.Sized
  journal : s.journalOk → t.journalOk
  out : ∃ l, t.out = s.out ++ l ∧ (s.inc.fenced = true → ∀ o ∈ l, o.isFlit = false)
  fenced : s.inc.fenced = true → t.inc.fenced = true
  grade : t.grade = s.grade
  pending : t.pending = s.pending

namespace Keeps
variable {s t u : State}

theorem refl (s : State) : Keeps s s := ⟨id, id, id, ⟨[], by simp⟩, id, rfl, rfl⟩

theorem trans (h : Keeps s t) (k : Keeps t u) : Keeps s u where
  staging x := k.staging (h.staging x)
  sized x := k.sized (h.sized x)
  journal x := k.journal (h.journal x)
  out := by
    obtain ⟨l, e, f⟩ := h.out
    obtain ⟨m, e', f'⟩ := k.out
    refine ⟨l ++ m, by rw [e', e, List.append_assoc], fun x o ho => ?_⟩
    rcases List.mem_append.1 ho with ho | ho
    · exact f x o ho
    · exact f' (h.fenced x) o ho
  fenced x := k.fenced (h.fenced x)
  grade := k.grade.trans h.grade
  pending := k.pending.trans h.pending

/-- An update that the relation does not see, or that shows what it sees. -/
theorem step (h : Keeps s t)
    (staging : t.stagingOk → u.stagingOk := by exact id)
    (sized : t.Sized → u.Sized := by exact id)
    (journal : t.journalOk → u.journalOk := by exact id)
    (out : u.out = t.out := by rfl)
    (fenced : t.inc.fenced = true → u.inc.fenced = true := by exact id)
    (grade : u.grade = t.grade := by rfl)
    (pending : u.pending = t.pending := by rfl) : Keeps s u :=
  h.trans ⟨staging, sized, journal, ⟨[], by simp [out]⟩, fenced, grade, pending⟩

/-- A list worked off. -/
theorem foldl {α : Type} (h : Keeps s t) (l : List α) (f : State → α → State) (hf : ∀ u a, Keeps s u → Keeps s (f u a)) :
    Keeps s (l.foldl f t) := by
  induction l generalizing t with
  | nil => exact h
  | cons a l ih => exact ih (hf t a h)

theorem ite {c : Prop} [Decidable c] (h : Keeps s t) (k : Keeps s u) : Keeps s (if c then t else u) := by
  split
  · exact h
  · exact k

-- Primitive updates --------------------------------------------------------------------------------------------------

/-- What is no flit may leave at any time. -/
theorem emit (h : Keeps s t) {o : Out} (ho : o.isFlit = false := by rfl) : Keeps s (t.emit o) :=
  h.trans ⟨id, id, id,
    ⟨[o], rfl, fun _ p hp => by rw [List.mem_singleton.1 hp]; exact ho⟩, id, rfl, rfl⟩

/-- A flit leaves while the block is not fenced. -/
theorem emitFlit (h : Keeps s t) {f : TxFlit} (hf : t.inc.fenced = false) : Keeps s (t.emit (.flit f)) :=
  h.trans ⟨id, id, id,
    ⟨[.flit f], rfl, fun x => by rw [hf] at x; cases x⟩, id, rfl, rfl⟩

theorem bump (h : Keeps s t) : Keeps s t.bump := h.step

theorem modRing (h : Keeps s t) {r : Nat} {f : Ring → Ring} : Keeps s (t.modRing r f) :=
  h.step (sized := fun h => { h with rings := by simpa using h.rings })

theorem modRings (h : Keeps s t) {f : Ring → Ring} : Keeps s (t.modRings f) :=
  h.step (sized := fun h => { h with rings := by simpa using h.rings })

theorem modGroup (h : Keeps s t) {q : Nat} {f : Group → Group} : Keeps s (t.modGroup q f) := h.step
theorem modMember (h : Keeps s t) {q : Nat} {f : Member → Member} : Keeps s (t.modMember q f) := h.step

theorem modSlot (h : Keeps s t) {i : Nat} {f : Slot → Slot} : Keeps s (t.modSlot i f) :=
  h.step (sized := fun h => { h with slots := by simpa using h.slots })

theorem stageWrite (h : Keeps s t) {a : Nat} {bs : List (Option Byte)} : Keeps s (t.stageWrite a bs) :=
  h.step (staging := Memory.write_wf a bs)

theorem modWb (h : Keeps s t) {f : Wb → Wb} (hf : t.wb.ordered → (f t.wb).ordered := by exact id) : Keeps s (t.modWb f) :=
  h.step (journal := hf)

theorem modCw (h : Keeps s t) {f : Cw → Cw} (hf : ∀ c, c.sized → (f c).sized := by exact fun _ h => h) : Keeps s (t.modCw f) :=
  h.step (sized := fun h => { h with cw := hf _ h.cw })

theorem modLink (h : Keeps s t) {p : Nat} {f : Link → Link} : Keeps s (t.modLink p f) := h.modCw
theorem modExch (h : Keeps s t) {q : Nat} {f : Exch → Exch} : Keeps s (t.modExch q f) := h.modCw

theorem modInc (h : Keeps s t) {f : Inc → Inc} (hf : ∀ i, i.sized → (f i).sized := by exact fun _ h => h)
    (hq : ∀ i, i.fenced = true → (f i).fenced = true := by exact fun _ h => h) : Keeps s (t.modInc f) :=
  h.step (sized := fun h => { h with inc := hf _ h.inc }) (fenced := hq _)

theorem irqInc (h : Keeps s t) {n : Nat} : Keeps s (t.irqInc n) := h.step

theorem modTolls (h : Keeps s t) {f : Tolls → Tolls} (hf : ∀ x, x.sized → (f x).sized := by exact fun _ h => h) : Keeps s (t.modTolls f) :=
  h.step (sized := fun h => { h with tolls := hf _ h.tolls })

theorem modCluster (h : Keeps s t) {c : Nat} {f : Cluster → Cluster} : Keeps s (t.modCluster c f) :=
  h.step (sized := fun h => { h with clusters := by simpa using h.clusters })

theorem modGov (h : Keeps s t) {f : Gov → Gov} (hf : ∀ g, g.cals.length = 3 → (f g).cals.length = 3 := by exact fun _ h => h) :
    Keeps s (t.modGov f) :=
  h.step (sized := fun h => { h with cals := hf _ h.cals })

theorem modStart (h : Keeps s t) {f : StartSt → StartSt}
    (hf : ∀ x, x.codes.length = 10 → (f x).codes.length = 10 := by exact fun _ h => h) : Keeps s (t.modStart f) :=
  h.step (sized := fun h => { h with codes := hf _ h.codes })

theorem modRegs (h : Keeps s t) {f : Regs → Regs} : Keeps s (t.modRegs f) := h.step

theorem modLoad (h : Keeps s t) {q : Nat} {f : Load → Load} : Keeps s (t.modLoad q f) := h.step

/-- The seals with as many change counts. -/
theorem seals (h : Keeps s t) {x : Seals} (hx : t.seals.changes.length = 4 → x.changes.length = 4) : Keeps s { t with seals := x } :=
  h.step (sized := fun h => { h with changes := hx h.changes })

/-- Rings, clusters or slots replaced one by one. -/
theorem clusters (h : Keeps s t) {x : List Cluster} (hx : x.length = t.clusters.length) : Keeps s { t with clusters := x } :=
  h.step (sized := fun h => { h with clusters := hx.trans h.clusters })

-- Ops ----------------------------------------------------------------------------------------------------------------

theorem wr (h : Keeps s t) {a : Nat} {bs : List Byte} : Keeps s (t.wr a bs) := by
  unfold State.wr
  split
  · exact h
  · refine h.emit.ite (h.stageWrite.foldl _ _ fun u a k => ?_)
    exact k.ite k.emit

theorem ask (h : Keeps s t) {a : Nat} : Keeps s (t.ask a) := by
  unfold State.ask
  exact h.ite h.emit

theorem writeHead (h : Keeps s t) {r : Nat} : Keeps s (t.writeHead r) := by
  unfold State.writeHead
  exact h.ite h.wr

-- Links --------------------------------------------------------------------------------------------------------------

theorem needRoute (h : Keeps s t) {i : Image} {p : Nat} : Keeps s (t.needRoute i p) := by
  unfold State.needRoute
  exact h.ite (h.modCw.ite h)

theorem needLink (h : Keeps s t) {p : Nat} : Keeps s (t.needLink p) := by
  unfold State.needLink
  exact h.ite (h.modCw.ite h)

theorem freeLinks (h : Keeps s t) : Keeps s t.freeLinks := h.modCw

theorem queueFlit (h : Keeps s t) {f : TxFlit} : Keeps s (t.queueFlit f) := h.needLink.modLink

theorem queueAll (h : Keeps s t) {fs : List TxFlit} : Keeps s (t.queueAll fs) := h.foldl _ _ fun _ _ k => k.queueFlit

theorem spendLane (h : Keeps s t) {cd : Bool} {lane : Nat} : Keeps s (t.spendLane cd lane) :=
  h.modCw fun c ⟨cu, cdn, rest⟩ => by
    split
    · exact ⟨cu, by simpa using cdn, rest⟩
    · exact ⟨by simpa using cu, cdn, rest⟩

theorem takeRx (h : Keeps s t) {cd : Bool} {lane : Nat} : Keeps s (t.takeRx cd lane) := by
  unfold State.takeRx
  refine h.emit.ite (h.modCw fun c ⟨cu, cdn, rcu, rcd⟩ => ?_)
  split
  · exact ⟨cu, cdn, rcu, by simpa using rcd⟩
  · exact ⟨cu, cdn, by simpa using rcu, rcd⟩

theorem sendNew (h : Keeps s t) {l : Link} {r : Route} {i lane : Nat} {f : TxFlit} (hf : t.inc.fenced = false) :
    Keeps s (t.sendNew l r i lane f) := h.modLink.spendLane.emitFlit hf

theorem sendAgain (h : Keeps s t) {l : Link} {lane : Nat} {f : TxFlit} (hf : t.inc.fenced = false) :
    Keeps s (t.sendAgain l lane f) := h.modLink.spendLane.emitFlit hf

theorem pumpLink (h : Keeps s t) {p : Nat} (e : t.pumpLink p = some u) : Keeps s u := by
  have up : ∀ {cd : Bool} {v : State}, (if t.portSends cd then some v else none) = some u → t.inc.fenced = false ∧ v = u := by
    intro cd v e
    split at e
    · next k => exact ⟨by simpa [State.portSends, and_assoc] using (Bool.and_eq_true_iff.1 (Bool.and_eq_true_iff.1 k).1).1, Option.some.inj e⟩
    · cases e
  unfold State.pumpLink at e
  split at e
  · split at e
    · cases e
    · split at e
      · split at e
        · obtain ⟨hf, rfl⟩ := up e
          exact h.sendAgain hf
        · cases e
      · split at e
        · split at e
          · obtain ⟨hf, rfl⟩ := up e
            exact h.sendNew hf
          · cases e
        · cases e
  · cases e

theorem pumpN (n : Nat) (h : Keeps s t) : Keeps s (State.pumpN n t) := by
  induction n generalizing t with
  | zero => exact h
  | succ n ih =>
    unfold State.pumpN
    split
    · next e =>
      obtain ⟨l, _, hl⟩ := List.exists_of_findSome?_eq_some e
      exact ih (h.pumpLink hl)
    · exact h

theorem pump (h : Keeps s t) : Keeps s t.pump := h.pumpN _

theorem learnRoutes (h : Keeps s t) {i : Image} : Keeps s (t.learnRoutes i) := by
  unfold State.learnRoutes
  exact h.ite (h.foldl _ _ fun _ _ k => k.needRoute.pump.ite k)

-- The journal --------------------------------------------------------------------------------------------------------

theorem wbWrite (h : Keeps s t) {ty : Nat} {ps : List (List Byte)} {a : Act} : Keeps s (t.wbWrite ty ps a) := by
  unfold State.wbWrite
  have k : Keeps s (t.modWb (fun w => { w with
      tail := w.tail + ps.length,
      recs := w.recs ++ ps.mapIdx (fun i p =>
        Rec.mk (t.wb.tail + i) (recBytes (t.wb.tail + i) ty i ps.length t.wb.epoch p) false false (if i + 1 = ps.length then a else .none)),
      since := w.since + ps.length })) := by
    refine h.modWb fun ⟨hp, hl⟩ => ⟨?_, ?_⟩
    · refine List.pairwise_append.2 ⟨hp, ?_, ?_⟩
      · rw [List.pairwise_iff_getElem]
        intro i j hi hj hij
        simpa using hij
      · intro x hx y hy
        obtain ⟨i, hi, e⟩ := List.getElem_of_mem hy
        have := hl x hx
        rw [← e]
        simp
        omega
    · intro r hr
      dsimp only
      rcases List.mem_append.1 hr with hr | hr
      · have := hl r hr; omega
      · obtain ⟨i, hi, e⟩ := List.getElem_of_mem hr
        rw [← e]
        simpa using hi
  have k2 := k.foldl (ps.mapIdx (fun i p =>
        Rec.mk (t.wb.tail + i) (recBytes (t.wb.tail + i) ty i ps.length t.wb.epoch p) false false (if i + 1 = ps.length then a else .none)))
    (fun s r => s.wr (s.recAddr r.rnum) r.bytes) (fun u r k => k.wr)
  exact (Keeps.pump (k2.modWb.queueAll)).ite k2

theorem wbWriteFor (h : Keeps s t) {q ty : Nat} {ps : List (List Byte)} {a : Act} : Keeps s (t.wbWriteFor q ty ps a) :=
  h.wbWrite.modMember

end Keeps
end Sys2Proof.Machine
end

