-- ==== Sys2Proof/Laws/KeepsWork.lean ====
section
/-!
SUPPORT. What every operation but a reset keeps, continued: groups, exchanges, the journal's scan, incidents, rings, tolls, reports.
-/
namespace Sys2Proof.Machine.Keeps
open Sys2Proof
set_option Elab.async false
variable {s t u : State}

-- Groups -------------------------------------------------------------------------------------------------------------

theorem writeCheckpoint (h : Keeps s t) {m : Nat} : Keeps s (t.writeCheckpoint m) := by
  unfold State.writeCheckpoint
  refine Keeps.modWb ?_
  exact h.wbWrite.ite h.wbWriteFor

theorem wrBits (h : Keeps s t) {a : Nat} {v k : Byte} : Keeps s (t.wrBits a v k) := by
  unfold State.wrBits
  split
  · exact h.stageWrite
  · exact h.emit

theorem startWrites (h : Keeps s t) {g : Group} : Keeps s (t.startWrites g) := by
  unfold State.startWrites
  extract_lets ws s0 s1
  have k0 : Keeps s s0 := h.foldl _ _ fun _ _ k => k.wr
  have k1 : Keeps s s1 := k0.foldl _ _ fun _ _ k => k.wrBits
  exact k1.modGroup.queueAll.pump.ite h

theorem writeHeads (h : Keeps s t) {g : Group} : Keeps s (t.writeHeads g) :=
  h.foldl _ _ fun _ _ k => k.ite (Keeps.modMember (k.foldl _ _ fun _ _ q => q.wr))

theorem retryWrites (h : Keeps s t) : Keeps s t.retryWrites := by
  refine h.foldl _ _ fun u g k => ?_
  split
  · exact k.startWrites
  · exact k

theorem endExchanges (h : Keeps s t) {g : Group} : Keeps s (t.endExchanges g) :=
  (h.foldl _ _ fun _ _ k => k.queueAll).modCw.pump

theorem postGo (n r : Nat) (h : Keeps s t) : Keeps s (State.postGo n r t) := by
  induction n generalizing t with
  | zero => exact h
  | succ n ih =>
    unfold State.postGo
    split
    · split
      · exact ih (h.foldl _ _ fun _ _ k => k.wr).modGroup.endExchanges
      · exact h
    · exact h

theorem post (h : Keeps s t) {r : Nat} : Keeps s (t.post r) := h.postGo _ _

theorem finishGroup (h : Keeps s t) {g : Group} : Keeps s (t.finishGroup g) := by
  unfold State.finishGroup
  extract_lets todo last s1
  have k : Keeps s s1 := h.foldl _ _ fun _ _ k => k.modMember.wbWriteFor.bump
  exact k.modGroup.post.ite k

theorem finishGo (n r : Nat) (h : Keeps s t) : Keeps s (State.finishGo n r t) := by
  induction n generalizing t with
  | zero => exact h
  | succ n ih =>
    unfold State.finishGo
    split
    · exact (ih h.finishGroup).ite h
    · exact h

theorem tryFinish (h : Keeps s t) {q : Nat} : Keeps s (t.tryFinish q) := by
  unfold State.tryFinish
  split
  · exact h.finishGo _ _
  · exact h

theorem noteDigests (h : Keeps s t) {q : Nat} {ds : List Digest} : Keeps s (t.noteDigests q ds) := h.modMember

theorem writeDigests (h : Keeps s t) {q : Nat} {b : Bool} : Keeps s (t.writeDigests q b) := by
  unfold State.writeDigests
  split
  · exact Keeps.modMember (h.foldl _ _ fun _ _ k => k.wbWriteFor)
  · exact h

theorem noteItem (h : Keeps s t) {q : Nat} {k : Nat × Nat} {bs : List Byte} : Keeps s (t.noteItem q k bs) := by
  unfold State.noteItem
  split
  · exact h.noteDigests.writeDigests
  · exact h

theorem dropWork (h : Keeps s t) {g : Group} : Keeps s (t.dropWork g) := by
  unfold State.dropWork
  extract_lets has cl clus left waiting shut s1
  have k : Keeps s s1 := h.step (sized := fun h => { h with clusters := by simpa [s1] using h.clusters })
  exact k.modCw

theorem faultGroup (h : Keeps s t) {q : Nat} {c : Member → Nat} : Keeps s (t.faultGroup q c) := by
  unfold State.faultGroup
  split
  · exact h.ite ((Keeps.ite (h.foldl _ _ fun _ _ k => k.writeDigests) h).modGroup.dropWork.tryFinish)
  · exact h

theorem faultMember (h : Keeps s t) {q c : Nat} : Keeps s (t.faultMember q c) := h.faultGroup

theorem killGroup (h : Keeps s t) {g : Group} : Keeps s (t.killGroup g) := h.modGroup

theorem endOpenGroup (h : Keeps s t) {r : Nat} : Keeps s (t.endOpenGroup r) := by
  unfold State.endOpenGroup
  split
  · exact h.killGroup.modGroup.tryFinish
  · exact h

-- Exchanges ----------------------------------------------------------------------------------------------------------

theorem grantTo (h : Keeps s t) {c p : Nat} : Keeps s (t.grantTo c p) := h.needLink.modLink.queueFlit

theorem openExch (h : Keeps s t) {m : Member} : Keeps s (t.openExch m) := by
  unfold State.openExch
  exact Keeps.ite (Keeps.pump (h.modCw.foldl _ _ fun _ _ k => k.grantTo)) h

theorem sendFlits (h : Keeps s t) {q : Nat} {fs : List TxFlit} : Keeps s (t.sendFlits q fs) := h.modExch.queueAll.pump

theorem sendAborts (h : Keeps s t) {e : Exch} {ps : List Nat} {c : Nat} : Keeps s (t.sendAborts e ps c) := h.queueAll.pump

theorem abortExch (h : Keeps s t) {e : Exch} {c : Nat} {ps : List Nat} : Keeps s (t.abortExch e c ps) := by
  unfold State.abortExch
  split
  · exact h.sendAborts.faultMember
  · exact h

theorem restartLinkTo (h : Keeps s t) {p e y : Nat} : Keeps s (t.restartLinkTo p e y) := by
  unfold State.restartLinkTo
  split
  · extract_lets control owed messages again grants src l' s1 w s2
    have k1 : Keeps s s1 := h.modCw
    have k2 : Keeps s s2 := k1.step.ite k1
    exact k2.modLink.pump
  · exact h

theorem restartLink (h : Keeps s t) {p : Nat} : Keeps s (t.restartLink p) := by
  unfold State.restartLink
  split
  · exact h.restartLinkTo
  · exact h

theorem resend (h : Keeps s t) {p : Nat} : Keeps s (t.resend p) := h.modLink.pump

-- The scan -----------------------------------------------------------------------------------------------------------

theorem mirrorAgain (h : Keeps s t) {i : Image} {a b : Nat} : Keeps s (t.mirrorAgain i a b) := by
  unfold State.mirrorAgain
  exact h.needRoute.modWb.queueAll.ite h

theorem rewriteTolls (h : Keeps s t) {rs : List Rec} : Keeps s (t.rewriteTolls rs) := by
  refine h.foldl _ _ fun u r k => ?_
  dsimp only
  split
  · exact (k.wbWrite.modTolls (f := fun x => { x with waits := _ }))
  · exact (k.wbWrite.modTolls (f := fun x => { x with sets := _ }))
  · exact k

theorem pubAgain (h : Keeps s t) {i : Image} : Keeps s (t.pubAgain i) :=
  Keeps.pump (h.foldl _ _ fun _ _ k => k.foldl _ _ fun _ _ q => q.needRoute.queueFlit)

theorem startReplay (h : Keeps s t) : Keeps s t.startReplay :=
  Keeps.foldl (h.foldl _ _ fun _ _ k => k.ite k.endOpenGroup) _ _ fun _ _ k => k.tryFinish

theorem rebuild (h : Keeps s t) {c : State.Scan} {a : Nat} {i : Image} {b : Nat} : Keeps s (t.rebuild c a i b) := by
  unfold State.rebuild
  extract_lets gs high old s1 s2 s3 lost pend entry x i4 s4
  have k1 : Keeps s s1 := h.modWb fun ⟨hp, _⟩ => by
    refine ⟨(hp.filter _).map _ fun _ _ h => h, fun r hr => ?_⟩
    obtain ⟨x, hx, rfl⟩ := List.mem_map.1 hr
    have := (List.mem_filter.1 hx).2
    simp only [State.keepRec, Bool.and_eq_true, decide_eq_true_eq] at this
    exact this.1
  have k3 : Keeps s s3 := k1.mirrorAgain.wbWrite.rewriteTolls
  have k4 : Keeps s s4 := k3.step (sized := fun h => { h with rings := by simpa [s4] using h.rings, inc := ⟨by simpa [s4] using h.inc.1, h.inc.2⟩ })
  exact (k4.foldl _ _ fun _ _ k => k.ask.ite k).pubAgain

theorem abandon (h : Keeps s t) : Keeps s t.abandon := by
  unfold State.abandon
  extract_lets empty again quiet w s1 peers s2
  have k1 : Keeps s s1 := h.step (sized := fun h => { h with rings := by simpa [s1] using h.rings, clusters := by simpa [s1] using h.clusters })
  exact k1.modCw.foldl _ _ fun _ _ k => k.restartLink

-- Incidents ----------------------------------------------------------------------------------------------------------

theorem modEntry (h : Keeps s t) {p : Nat} {f : IncEntry → IncEntry} : Keeps s (t.modEntry p f) :=
  h.modInc fun i hi => ⟨by simpa using hi.1, hi.2⟩

theorem writeEntry (h : Keeps s t) {p : Nat} : Keeps s (t.writeEntry p) := by
  unfold State.writeEntry
  split
  · exact h.wbWrite.modEntry.ite h
  · exact h

theorem flushInc (h : Keeps s t) : Keeps s t.flushInc := h.foldl _ _ fun _ _ k => k.writeEntry

theorem setEntry (h : Keeps s t) {p : Nat} {e : Option IncEntry} : Keeps s (t.modInc (fun i => { i with log := i.log.set p e })) :=
  h.modInc fun i hi => ⟨by simpa using hi.1, hi.2⟩

theorem entryReported (h : Keeps s t) {p : Nat} : Keeps s (t.entryReported p) := by
  unfold State.entryReported
  split
  · exact h.ite h.setEntry
  · exact h

theorem incidentS1 (h : Keeps s t) {f : Finding} : Keeps s (t.incidentS1 f) := by
  unfold State.incidentS1
  extract_lets old n x due go e s1
  have k : Keeps s s1 := h.modInc fun i hi => ⟨hi.1, by simpa using hi.2.1, by simpa using hi.2.2⟩
  exact k.wbWrite.bump.ite k

/-- Several outputs at once, none of them a flit. -/
theorem emits (h : Keeps s t) {l : List Out} (hl : ∀ o ∈ l, o.isFlit = false) : Keeps s { t with out := t.out ++ l } :=
  h.trans ⟨id, id, id, ⟨l, rfl, fun _ => hl⟩, id, rfl, rfl⟩

theorem refuseWaiting (h : Keeps s t) : Keeps s t.refuseWaiting := by
  unfold State.refuseWaiting
  extract_lets asks waits sets
  have k := h.emits (l := asks ++ waits ++ sets) fun o ho => by
    simp only [asks, waits, sets, List.mem_append, List.mem_map] at ho
    rcases ho with (⟨x, _, rfl⟩ | ⟨x, _, rfl⟩) | ⟨x, _, rfl⟩
    · split <;> rfl
    · rfl
    · rfl
  exact k.modTolls (f := fun x => { x with asks := [], waits := [], sets := [] })

theorem fence (h : Keeps s t) : Keeps s t.fence := by
  unfold State.fence
  split
  · exact h
  · extract_lets s1 x y s2
    have k1 : Keeps s s1 := h.foldl _ _ fun u e k => by
      split
      · split
        · exact k.sendAborts
        · exact k
      · exact k
    have k2 : Keeps s s2 := k1.step
    exact (k2.modInc (hq := by intro _ _; rfl)).refuseWaiting

theorem repeatGroup (h : Keeps s t) {q : Nat} : Keeps s (t.repeatGroup q) := by
  unfold State.repeatGroup
  split
  · split
    · exact h
    · extract_lets mine fresh s1 s2 s3 peers bounded
      have k1 : Keeps s s1 := h.modGroup
      have k2 : Keeps s s2 := k1.step
      exact k2.modCw.modGroup.foldl _ _ fun _ _ k => k.restartLink
  · exact h

theorem emptyBankOf (h : Keeps s t) {i : Nat} {b : Bool} : Keeps s (t.emptyBankOf i b) := by
  unfold State.emptyBankOf
  extract_lets bk hit s1
  exact (h.modSlot : Keeps s s1).foldl _ _ fun _ _ k => k.faultGroup.ite k

theorem actS2 (h : Keeps s t) {e : IncEntry} {r : State × Nat} (he : t.actS2 e = some r) : Keeps s r.1 := by
  unfold State.actS2 at he
  split at he
  · split at he
    · split at he
      · cases he
      · cases he; exact h.repeatGroup
    · cases he; exact h
  · split at he
    · dsimp only at he
      split at he
      · cases he; exact h.foldl _ _ fun _ _ k => k.repeatGroup
      · cases he; exact h.emptyBankOf
    · split at he
      · cases he; exact h.emptyBankOf
      · split at he
        · cases he; exact h.foldl _ _ fun _ _ k => k.repeatGroup
        · cases he; exact h

theorem scanS3 (h : Keeps s t) {i : Image} : Keeps s (t.scanS3 i).1 := by
  unfold State.scanS3
  split
  · exact h.modInc.rebuild.startReplay.pump
  · dsimp only
    refine Keeps.modInc ?_
    exact h.step (sized := fun h => { h with rings := by simpa using h.rings })

theorem storeS4 (h : Keeps s t) {f : Finding} : Keeps s (t.storeS4 f) := by
  unfold State.storeS4
  split
  · exact (h.modInc (by intro i hi; exact ⟨by simpa using hi.1, hi.2⟩)).bump.irqInc.fence
  · exact h.modInc.irqInc.irqInc.fence

theorem closeEntry (h : Keeps s t) {p a b : Nat} : Keeps s (t.closeEntry p a b) := h.modEntry.writeEntry

theorem scanNow (h : Keeps s t) {i : Image} : Keeps s (t.scanNow i) := by
  unfold State.scanNow
  dsimp only
  split
  · exact h.scanS3
  · split
    · exact h.scanS3.closeEntry.storeS4
    · exact h.scanS3.storeS4

theorem beginS3 (h : Keeps s t) {i : Image} : Keeps s (t.beginS3 i) := by
  unfold State.beginS3
  exact h.abandon.modInc.ite h.abandon.modInc.scanNow

theorem activate (h : Keeps s t) {p : Nat} {i : Image} : Keeps s (t.activate p i) := by
  unfold State.activate
  extract_lets s1
  have k : Keeps s s1 := h.modEntry.modInc
  split
  · split
    · split
      · next e => exact (k.actS2 e).modEntry
      · exact k.modEntry.irqInc.beginS3
    · exact k.modEntry.beginS3.ite k.modEntry.fence
  · exact h

theorem endRecovery (h : Keeps s t) {i : Image} : Keeps s (t.endRecovery i) := by
  unfold State.endRecovery
  split
  · extract_lets s1
    have k : Keeps s s1 := h.closeEntry.flushInc.modInc.irqInc
    split
    · exact k.activate
    · exact k
  · exact h

theorem incidentHigh (h : Keeps s t) {f : Finding} {a b : Nat} : Keeps s (t.incidentHigh f a b) := by
  unfold State.incidentHigh
  split
  · extract_lets s1 s2 e4
    have k : Keeps s s1 := h.modInc.irqInc
    split
    · exact k
    · have k2 : Keeps s s2 := by
        simp only [s2]
        split
        · exact k.closeEntry
        · exact k
      exact k2.modInc.irqInc.bump.fence
  · extract_lets e put
    have kp : ∀ {u : State} (x : IncEntry), Keeps s u → Keeps s (put u x) := fun x k =>
      (k.modInc (by intro i hi; exact ⟨by simpa using hi.1, hi.2⟩)).bump.irqInc
    split
    · exact kp _ h
    · split
      · exact (kp _ h).activate
      · split
        · exact (kp _ h).activate
        · split
          · exact ((kp _ h).writeEntry.modEntry.irqInc.beginS3).ite (kp _ h).writeEntry.modEntry.irqInc.fence
          · exact (kp _ h).closeEntry.activate.ite ((kp _ h).endRecovery.ite (kp _ h))

theorem settleS2 (i : Image) (n : Nat) (h : Keeps s t) : Keeps s (State.settleS2 i n t) := by
  induction n generalizing t with
  | zero => exact h
  | succ n ih =>
    unfold State.settleS2
    exact (ih h.endRecovery).ite h

theorem incident (h : Keeps s t) {f : Finding} {a : Nat} : Keeps s (t.incident f a) := by
  unfold State.incident
  exact h.ite (h.incidentS1.ite (h.incidentHigh.settleS2 _ _))

-- Rings --------------------------------------------------------------------------------------------------------------

theorem askHead (h : Keeps s t) {r : Nat} {w : HeadRead} : Keeps s (t.askHead r w) := h.modRing.ask

theorem serveBell (h : Keeps s t) {r : Nat} : Keeps s (t.serveBell r) := by
  unfold State.serveBell
  exact h.askHead.ite h

theorem haltRing (h : Keeps s t) {r : Nat} {x : RStat} : Keeps s (t.haltRing r x) := h.modRing.endOpenGroup.writeHead

theorem promote (h : Keeps s t) {r : Nat} : Keeps s (t.promote r) := by
  unfold State.promote
  dsimp only
  split
  · exact h.modRing.ite h
  · exact h

theorem seeProd (h : Keeps s t) {r : Nat} {p : BitVec 32} : Keeps s (t.seeProd r p) := by
  unfold State.seeProd
  exact h.ite (h.haltRing.ite (h.modRing.foldl _ _ fun _ _ k => k.ask))

theorem repost (h : Keeps s t) {r : Nat} {d : BitVec 32} : Keeps s (t.repost r d) := by
  unfold State.repost
  extract_lets beyond s1
  have k : Keeps s s1 := h.step
  exact k.post

theorem enableRing (h : Keeps s t) {r : Nat} : Keeps s (t.enableRing r) := by
  unfold State.enableRing
  exact h.modRing.ite (h.modRing.askHead.ite h.modRing.modRing)

theorem settleRing (h : Keeps s t) {r : Nat} : Keeps s (t.settleRing r) := by
  unfold State.settleRing
  exact h.modRing.writeHead.ite h

theorem headRecovered (h : Keeps s t) {r : Nat} {d : List Byte} : Keeps s (t.headRecovered r d) := by
  unfold State.headRecovered
  exact (Keeps.ite h.modRing h.modRing.modRing).repost.writeHead.settleRing.seeProd

theorem disableRing (h : Keeps s t) {r : Nat} : Keeps s (t.disableRing r) := h.modRing.endOpenGroup.settleRing

theorem endReplay (h : Keeps s t) {r : Nat} : Keeps s (t.endReplay r) := by
  unfold State.endReplay
  exact (h.modRing.writeHead.askHead.ite h.modRing.writeHead).ite h

theorem writeWaymark (h : Keeps s t) {r : Nat} {d : Desc} {x : Nat} {q : Resolved} : Keeps s (t.writeWaymark r d x q) := by
  unfold State.writeWaymark
  extract_lets g seq nz ok joins padVal resv parts m0 m s1 g0 s2 s3 s4 s5
  have k1 : Keeps s s1 := h.ite h.endOpenGroup
  have k2 : Keeps s s2 := Keeps.ite k1.step k1.step
  have k3 : Keeps s s3 := by
    simp only [s3]
    split
    · exact k2.killGroup.ite k2
    · exact k2
  exact (k3.modRing.modWb : Keeps s s5).wbWrite.promote

-- Tolls --------------------------------------------------------------------------------------------------------------

theorem grantToll (h : Keeps s t) {q : WinReq} : Keeps s (t.grantToll q) := by
  unfold State.grantToll
  extract_lets c count limit ok m rnum s1
  have k : Keeps s s1 := h.modTolls fun x hx => ⟨by dsimp only; split <;> simpa using hx.1, hx.2⟩
  exact k.wbWrite

theorem askToll (h : Keeps s t) {q : WinReq} {d : Option Nat} : Keeps s (t.askToll q d) := h.modTolls

theorem serveRequest (h : Keeps s t) {q : WinReq} : Keeps s (t.serveRequest q) := by
  unfold State.serveRequest
  refine h.emit.ite (h.askToll.ite ?_)
  dsimp only
  split
  · split
    · exact h.modTolls
    · exact h.emit
  · exact h.askToll.ite h.grantToll

theorem serveSet (h : Keeps s t) {q : WinReq} {d : Nat} : Keeps s (t.serveSet q d) := by
  unfold State.serveSet
  refine h.askToll.ite (Keeps.wbWrite (h.modTolls fun x hx => ⟨?_, ?_⟩))
  · simpa using hx.1
  · simpa using hx.2

theorem retryTolls (h : Keeps s t) : Keeps s t.retryTolls := by
  unfold State.retryTolls
  refine h.ite (h.modTolls.foldl _ _ fun u a k => ?_)
  split
  · exact k.serveRequest
  · exact k.serveSet

-- Reports ------------------------------------------------------------------------------------------------------------

theorem reportWaymark (h : Keeps s t) {q : Nat} : Keeps s (t.reportWaymark q) := by
  unfold State.reportWaymark
  split
  · exact h.modMember.modRing.writeHead.tryFinish
  · exact h

theorem reportPublished (h : Keeps s t) {q : Nat} : Keeps s (t.reportPublished q) := by
  unfold State.reportPublished
  split
  · extract_lets worked s0 s1
    have k : Keeps s s0 := h.clusters (by simp)
    exact k.modGroup.post.endReplay.retryWrites.retryTolls
  · exact h

theorem apply_changes (x : Seals) (f : SealField) (v : Nat) (h : x.changes.length = 4) : (x.apply f v).changes.length = 4 := by
  cases f <;> simpa [Seals.apply] using h

theorem reportSeal (h : Keeps s t) {f : SealField} : Keeps s (t.reportSeal f) := by
  unfold State.reportSeal
  split
  · exact (h.seals (by intro hx; exact apply_changes _ f _ hx)).retryTolls
  · exact h

theorem reportSet (h : Keeps s t) {n : Nat} : Keeps s (t.reportSet n) := by
  unfold State.reportSet
  split
  · exact h.modTolls.emit
  · exact h

theorem reportCheckpoint (h : Keeps s t) {a b c : Nat} : Keeps s (t.reportCheckpoint a b c) := by
  unfold State.reportCheckpoint
  exact (Keeps.ite h.modWb h.modWb.modGroup.tryFinish).retryTolls

theorem runAct (h : Keeps s t) {r : Rec} : Keeps s (t.runAct r) := by
  unfold State.runAct
  split
  · exact h
  · exact h
  · exact h.retryTolls
  · exact h
  · exact h.reportWaymark
  · dsimp only
    split
    · exact h.modGroup.startWrites
    · exact h.modGroup
  · exact h.modMember
  · exact h.reportPublished
  · exact h.reportSeal
  · exact h.reportSet
  · exact h.reportCheckpoint
  · exact h.entryReported

theorem reportGo (n : Nat) (h : Keeps s t) : Keeps s (State.reportGo n t) := by
  induction n generalizing t with
  | zero => exact h
  | succ n ih =>
    unfold State.reportGo
    split
    · next r rest e =>
      refine (ih (Keeps.runAct (h.modWb ?_))).ite h
      rintro ⟨hp, hl⟩
      rw [e] at hp hl
      exact ⟨(List.pairwise_cons.1 hp).2, fun x hx => hl x (List.mem_cons_of_mem _ hx)⟩
    · exact h

theorem report (h : Keeps s t) : Keeps s t.report := h.reportGo _

theorem journalFailed (h : Keeps s t) : Keeps s t.journalFailed :=
  h.modRings.modWb.foldl _ _ fun _ _ k => k.writeHead

theorem advanceDone (n r : Nat) (h : Keeps s t) : Keeps s (State.advanceDone n t r) := by
  induction n generalizing t with
  | zero => exact h
  | succ n ih =>
    unfold State.advanceDone
    exact (ih h.modRing).ite h

theorem removeDone (h : Keeps s t) {r : Nat} : Keeps s (t.removeDone r) := h.step

/-- A record's report flag set. -/
theorem setRecs (h : Keeps s t) {f : Rec → Rec} (hf : ∀ r, (f r).rnum = r.rnum) : Keeps s (t.modWb (fun w => { w with recs := w.recs.map f })) :=
  h.modWb fun ⟨hp, hl⟩ => by
    refine ⟨hp.map _ fun a b h => by simpa [hf] using h, fun r hr => ?_⟩
    obtain ⟨x, hx, rfl⟩ := List.mem_map.1 hr
    simpa [hf] using hl x hx

end Sys2Proof.Machine.Keeps
end

