-- ==== Sys2Proof/Laws/KeepsUnits.lean ====
section
/-!
SUPPORT. What every operation but a reset keeps, concluded: operands, tiles, exchanges under way, issue, ingots, the assay, the
governor, the start, the setup window, what arrives on the causeway, detections.
-/
namespace Sys2Proof.Machine.Keeps
open Sys2Proof
set_option Elab.async false
variable {s t u : State}

-- Operands -----------------------------------------------------------------------------------------------------------

theorem stageFault (h : Keeps s t) {q a : Nat} : Keeps s (t.stageFault q a) := h.faultMember.incident

theorem checkDigests (h : Keeps s t) {q : Nat} {ds : List Digest} : Keeps s (t.checkDigests q ds) := by
  unfold State.checkDigests
  split
  · refine h.foldl _ _ fun u d k => ?_
    split
    · exact k.ite k.incident
    · exact k
  · exact h

theorem reserveMember (h : Keeps s t) {m : Member} : Keeps s (t.reserveMember m) := by
  unfold State.reserveMember
  extract_lets s1
  have k : Keeps s s1 := h.modMember
  split
  · exact k.modMember.modRing.wr
  · exact k

theorem reserveCaps (h : Keeps s t) {r : Nat} : Keeps s (t.reserveCaps r) :=
  h.foldl _ _ fun _ _ k => k.ite (k.modMember.ite k.reserveMember)

theorem dueCaps (h : Keeps s t) {q : Nat} : Keeps s (t.dueCaps q) := by
  unfold State.dueCaps
  split
  · exact h.reserveCaps.ite h
  · exact h

theorem writeCaps (h : Keeps s t) {m : Member} {xs : List (ItemSrc × List Byte)} : Keeps s (t.writeCaps m xs) :=
  Keeps.modMember (h.foldl _ _ fun _ _ k => k.wr)

theorem captureFlow (h : Keeps s t) {m : Member} {bs : List Byte} : Keeps s (t.captureFlow m bs) := by
  unfold State.captureFlow
  split
  · refine h.ite ?_
    dsimp only
    split
    · exact h.modRing.wr.wr.modMember
    · exact h.modRing.wr
  · exact h

theorem readInputs (h : Keeps s t) {i : Image} {m : Member} : Keeps s (t.readInputs i m).1 :=
  h.checkDigests.noteDigests.writeDigests.writeCaps.bump

theorem finishOp (h : Keeps s t) {q : Nat} {r : Result} {c : List Nat} {i : Nat} : Keeps s (t.finishOp q r c i) := h.modMember

theorem withInputs (h : Keeps s t) {q : Nat} {o : Op} {i : Image} {k : State → Group → Member → Inputs → State}
    (hk : ∀ u g m inp, Keeps s u → Keeps s (k u g m inp)) : Keeps s (t.withInputs q o i k) := by
  unfold State.withInputs
  extract_lets s1
  have k1 : Keeps s s1 := h.dueCaps
  split
  · split
    · exact k1.stageFault
    · exact hk _ _ _ _ k1.learnRoutes.readInputs
  · exact k1

-- Exchanges under way ------------------------------------------------------------------------------------------------

theorem checkSigns (h : Keeps s t) {q : Nat} : Keeps s (t.checkSigns q) := by
  unfold State.checkSigns
  split
  · exact h.ite (h.abortExch.ite h.modExch)
  · exact h

theorem sendOnce (h : Keeps s t) {q k p a : Nat} {fs : List TxFlit} : Keeps s (t.sendOnce q k p a fs) := by
  unfold State.sendOnce
  split
  · exact h.ite h.modExch.sendFlits
  · exact h

theorem sendSigns (h : Keeps s t) {m : Member} : Keeps s (t.sendSigns m) := (h.foldl _ _ fun _ _ k => k.sendOnce).checkSigns

theorem writeCwDigest (h : Keeps s t) {q c a : Nat} : Keeps s (t.writeCwDigest q c a) := by
  unfold State.writeCwDigest
  split
  · exact (Keeps.ite h.checkDigests h.checkDigests.wbWriteFor.captureFlow).modMember
  · exact h

theorem exchGo (v : SpanEnv) (n : Nat) (h : Keeps s t) : Keeps s (State.exchGo v n t) := by
  induction n generalizing t with
  | zero => exact h
  | succ n ih =>
    unfold State.exchGo
    split
    · split
      · exact h
      · extract_lets q out s1 arrived s2 d give ps more put s3
        have k1 : Keeps s s1 := h.foldl _ _ fun u x k => by
          split
          · exact k.sendOnce
          · exact k
        exact (ih (k1.writeCwDigest.modExch : Keeps s s3).bump).ite k1
    · exact h

theorem exchBegin (h : Keeps s t) {v : SpanEnv} : Keeps s (t.exchBegin v) := h.sendSigns.modExch

theorem startExch (h : Keeps s t) {g : Group} {m : Member} {i : Inputs} {n : Nat} : Keeps s (t.startExch g m i n) := by
  unfold State.startExch
  exact (h.modMember.exchBegin.exchGo _ _).ite h

-- Operations ---------------------------------------------------------------------------------------------------------

theorem dropContexts (h : Keeps s t) {q : Nat} : Keeps s (t.dropContexts q) :=
  h.step (sized := fun h => { h with clusters := by simpa [State.dropContexts] using h.clusters })

theorem runElem (h : Keeps s t) {g : Group} {m : Member} {i : Inputs} : Keeps s (t.runElem g m i) :=
  h.finishOp.dropContexts.startExch

theorem putRows (h : Keeps s t) {e : RowEnv} {d : Nat → RowRes} : Keeps s (t.putRows e d) := by
  unfold State.putRows
  exact h.finishOp.dropContexts.ite h.finishOp.dropContexts

theorem finishRows (h : Keeps s t) {g : Group} {m : Member} {i : Inputs} {e : Exch} : Keeps s (t.finishRows g m i e) := h.putRows

theorem runRows (h : Keeps s t) {g : Group} {m : Member} {i : Inputs} : Keeps s (t.runRows g m i) := by
  unfold State.runRows
  extract_lets v own s1
  have k : Keeps s s1 := h.startExch
  refine Keeps.ite (k.putRows.ite ?_) h.putRows
  split
  · exact k.finishRows.ite k
  · exact k

theorem openBand (h : Keeps s t) {c : Nat} : Keeps s (t.openBand c) := by
  unfold State.openBand
  dsimp only
  split
  · exact h.ite (h.modCluster.ite (h.modCluster.ite h))
  · exact h

theorem openBands (h : Keeps s t) : Keeps s t.openBands := h.foldl _ _ fun _ _ k => k.openBand

theorem drainBands (h : Keeps s t) {q : Nat} : Keeps s (t.drainBands q) := h.clusters (by simp)

theorem writeStream (h : Keeps s t) {m : Member} : Keeps s (t.writeStream m) := by
  unfold State.writeStream
  exact h.ite (Keeps.ite h.checkDigests h.checkDigests.wbWriteFor.captureFlow).modMember

theorem tryClose (h : Keeps s t) {q : Nat} : Keeps s (t.tryClose q) := by
  unfold State.tryClose
  split
  · refine h.ite ?_
    extract_lets s1
    have k1 : Keeps s s1 := h.ite h.writeStream
    split
    · extract_lets x s2
      have k2 : Keeps s s2 := k1.finishOp.ite k1.finishOp
      exact k2.drainBands.openBands
    · exact k1
  · exact h

theorem takeBeat (h : Keeps s t) {p : Nat} {m : Member} {b : Beat} : Keeps s (t.takeBeat p m b) := by
  unfold State.takeBeat
  refine h.faultMember.ite (h.ite ?_)
  split
  · exact h.incident.ite h.faultMember.incident
  · split
    · exact Keeps.tryClose h.modMember
    · exact h

/-- A beat held on a port, or taken from it. -/
theorem held (h : Keeps s t) {x : List (Option Beat)} (hx : x.length = t.asHeld.length) : Keeps s { t with asHeld := x } :=
  h.step (sized := fun h => { h with held := hx.trans h.held })

theorem takeHeld (h : Keeps s t) : Keeps s t.takeHeld := by
  refine h.foldl _ _ fun u p k => ?_
  split
  · split
    · exact (k.held (by simp)).takeBeat
    · exact k
  · exact k

theorem failBeat (h : Keeps s t) {p : Nat} {b : Beat} {c : Bool} : Keeps s (t.failBeat p b c) := by
  unfold State.failBeat
  extract_lets s1
  have k : Keeps s s1 := Keeps.ite h.step h
  split
  · exact k.faultMember.incident
  · exact k.incident

theorem putChain (h : Keeps s t) {m : Member} {i : Inputs} {d : Nat → Item} : Keeps s (t.putChain m i d) := by
  unfold State.putChain
  exact h.finishOp.ite h.finishOp

theorem runChain (h : Keeps s t) {g : Group} {m : Member} {i : Inputs} : Keeps s (t.runChain g m i) := by
  unfold State.runChain
  have k : Keeps s (t.startExch g m i (m.rows * m.cols)) := h.startExch
  refine Keeps.ite (k.putChain.ite ?_) h.putChain
  split
  · exact k.putChain.ite k
  · exact k

theorem sendHalo (h : Keeps s t) {m : Member} {x : Tile} : Keeps s (t.sendHalo m x) := by
  unfold State.sendHalo
  extract_lets p go
  have kg : ∀ {u : State} (i : Option Nat) (b : Bool), Keeps s u → Keeps s (go u i b) := fun i b k => by
    simp only [go]
    split
    · exact k.sendOnce
    · exact k
  exact (kg _ _ (kg _ _ h)).bump

theorem putUpd (h : Keeps s t) {g : Group} {m : Member} {i : Inputs} : Keeps s (t.putUpd g m i) := by
  unfold State.putUpd
  exact h.finishOp.modMember.ite h.finishOp.bump

theorem sendParity (h : Keeps s t) {m : Member} : Keeps s (t.sendParity m) := by
  unfold State.sendParity
  dsimp only
  split
  · exact h.sendOnce.ite h
  · exact h

theorem streamGo (h : Keeps s t) {g : Group} {m : Member} {i : Inputs} : Keeps s (t.streamGo g m i) := by
  unfold State.streamGo
  split
  · refine h.ite ?_
    extract_lets close
    have k : Keeps s (close t) := h.writeCwDigest.modExch
    refine k.ite ?_
    split
    · split
      · exact k.finishOp
      · exact h
    · exact k.putUpd.sendParity.ite h
  · exact h

theorem exchResume (h : Keeps s t) {q : Nat} : Keeps s (t.exchResume q) := by
  unfold State.exchResume
  split
  · split
    · refine h.ite (h.streamGo.ite ?_)
      dsimp only
      have k := h.exchGo (t.spanEnv ‹_› ‹_› ‹_›) 4
      split
      · exact (k.putChain.ite k.finishRows).ite k
      · exact k
    · exact h
  · exact h

theorem runHalo (h : Keeps s t) {g : Group} {m : Member} {i : Inputs} : Keeps s (t.runHalo g m i) := by
  unfold State.runHalo
  refine Keeps.ite (h.modMember.sendSigns.finishOp.exchResume.ite h.modMember.sendSigns.sendHalo.exchResume) (h.finishOp.ite ?_)
  split
  · exact h.finishOp
  · exact h

theorem runUpd (h : Keeps s t) {g : Group} {m : Member} {i : Inputs} : Keeps s (t.runUpd g m i) := by
  unfold State.runUpd
  exact Keeps.ite (h.modMember.sendSigns.putUpd.exchResume.ite h.modMember.sendSigns.exchResume) h.putUpd

-- Issue --------------------------------------------------------------------------------------------------------------

theorem needPeers (h : Keeps s t) {i : Image} {d : Desc} : Keeps s (t.needPeers i d) := h.foldl _ _ fun _ _ k => k.needRoute.needLink

theorem slots (h : Keeps s t) {x : List Slot} (hx : x.length = t.slots.length) : Keeps s { t with slots := x } :=
  h.step (sized := fun h => { h with slots := hx.trans h.slots })

theorem assignReplicas (h : Keeps s t) {g : Group} (e : t.assignReplicas g = some u) : Keeps s u := by
  unfold State.assignReplicas at e
  dsimp only at e
  split at e
  · cases e
    exact h.foldl _ _ fun u p k => (k.slots (by simp)).modSlot
  · cases e

theorem forget_all_wf (gs : List Nat) : ∀ m : Memory, Memory.wf m = true →
    Memory.wf (gs.foldl (fun (m : Memory) g => m.forget (g * 65536) 65536) m) = true := by
  induction gs with
  | nil => exact fun _ h => h
  | cons g gs ih => exact fun m h => ih _ (Memory.forget_wf _ _ h)

theorem forgetGran (h : Keeps s t) {gs : List Nat} : Keeps s (t.forgetGran gs) := h.step (staging := forget_all_wf gs _)

theorem offerWork (h : Keeps s t) {q : Nat} : Keeps s (t.offerWork q) := h.foldl _ _ fun _ _ k => k.modCluster

theorem writeOpen (h : Keeps s t) {g : Group} {n : Nat} : Keeps s (t.writeOpen g n) := by
  unfold State.writeOpen
  exact h.ite h.wbWriteFor

theorem issueGroup (h : Keeps s t) {g : Group} : Keeps s (t.issueGroup g) :=
  (h.forgetGran.modGroup.writeOpen.foldl _ _ fun _ _ k => k.openExch).offerWork.reserveCaps.openBands.takeHeld

theorem itemRead (h : Keeps s t) {q : Nat} {k : Nat × Nat} {bs : List Byte} : Keeps s (t.itemRead q k bs) := by
  unfold State.itemRead
  split
  · exact h.checkDigests.noteItem
  · exact h

-- Control and banks --------------------------------------------------------------------------------------------------

theorem controlDone (h : Keeps s t) {q : Nat} : Keeps s (t.controlDone q) := h.modGroup.tryFinish

theorem pruneLoads (h : Keeps s t) : Keeps s t.pruneLoads := h.step

theorem writeSwitch (h : Keeps s t) {l : Load} {b : Bool} {g i : Nat} : Keeps s (t.writeSwitch l b g i) := by
  unfold State.writeSwitch
  split
  · exact h.ite h.wbWriteFor
  · exact h

theorem loadFailed (h : Keeps s t) {l : Load} {c : Nat} : Keeps s (t.loadFailed l c) := h.modSlot.modLoad.faultMember

theorem loadReadError (h : Keeps s t) {l : Load} {p : Bool} {a : Nat} : Keeps s (t.loadReadError l p a) := h.loadFailed.incident

-- The assay ----------------------------------------------------------------------------------------------------------

theorem failCluster (h : Keeps s t) {c : Nat} : Keeps s (t.failCluster c) := by
  unfold State.failCluster
  extract_lets f s1 s2
  have k1 : Keeps s s1 := h.modCluster
  have k2 : Keeps s s2 := Keeps.ite (Keeps.modCluster k1.step) k1
  exact h.ite ((h.step : Keeps s { t with standin := BitVec.ofNat 5 c }).incident.ite (k2.incidentHigh.ite k2.incident))

theorem failLane (h : Keeps s t) {c l : Nat} : Keeps s (t.failLane c l) := by
  unfold State.failLane
  split
  · exact h
  · split
    · exact h.modCluster.incident
    · exact h.failCluster

theorem assayed (h : Keeps s t) {r : AssayRes} : Keeps s (t.assayed r) := by
  unfold State.assayed
  exact h.modCluster.ite (h.modCluster.failCluster.ite (h.modCluster.foldl _ _ fun _ _ k => k.failLane))

-- The governor -------------------------------------------------------------------------------------------------------

theorem sendPg (h : Keeps s t) {w : Nat} : Keeps s (t.sendPg w) := by
  unfold State.sendPg
  exact h.ite h.emit

theorem sendLevel (h : Keeps s t) : Keeps s t.sendLevel := h.sendPg

theorem settleGov (h : Keeps s t) : Keeps s t.settleGov := h.modGov

theorem forecastTo (h : Keeps s t) {l : Nat} : Keeps s (t.forecastTo l) := by
  unfold State.forecastTo
  exact h.modGov.ite h.modGov.sendPg

theorem cancelForecast (h : Keeps s t) : Keeps s t.cancelForecast := by
  unfold State.cancelForecast
  split
  · exact h.modGov.sendPg
  · exact h

theorem seekRise (h : Keeps s t) : Keeps s t.seekRise := by
  unfold State.seekRise
  exact h.forecastTo.ite h

theorem descend (h : Keeps s t) : Keeps s t.descend := by
  unfold State.descend
  exact h.modGov.ite h.modGov

theorem countPgBad (h : Keeps s t) : Keeps s t.countPgBad := h.modGov

theorem patchRecord (h : Keeps s t) {f : List Byte → List Byte} : Keeps s (t.patchRecord f) := h.step

-- The start ----------------------------------------------------------------------------------------------------------

theorem makeReady (h : Keeps s t) {n : Nat} : Keeps s (t.makeReady n) := by
  unfold State.makeReady
  exact Keeps.ite h.step h

theorem makeAllReady (h : Keeps s t) : Keeps s t.makeAllReady := h.foldl _ _ fun _ _ k => k.makeReady

theorem endStart (h : Keeps s t) : Keeps s t.endStart := by
  unfold State.endStart
  extract_lets b s1 s2
  have k1 : Keeps s s1 := h.modStart.bump
  have k2 : Keeps s s2 := k1.wr.ite k1
  exact k2.wbWrite.ite k2

theorem park (h : Keeps s t) {n : Nat} : Keeps s (t.park n) := by
  unfold State.park
  extract_lets codes s1
  have len : t.start.codes.length = 10 → codes.length = 10 := fun h => by
    simp only [codes]
    split
    · simpa using h
    · exact h
  have k : Keeps s s1 := h.step (sized := fun h => { h with codes := len h.codes })
  exact k.modWb.refuseWaiting.endStart

theorem tryStep (h : Keeps s t) {n a : Nat} {b : Bool} : Keeps s (t.tryStep n a b) := by
  unfold State.tryStep
  extract_lets s1
  have k : Keeps s s1 := h.modStart
  refine Keeps.ite (k.clusters (by simp)) (Keeps.ite (k.ite k.modGov.seekRise.settleGov) (Keeps.ite ?_ k))
  exact k.step (sized := fun h => { h with seen := by simp })

theorem beginStep (h : Keeps s t) {n : Nat} : Keeps s (t.beginStep n) := by
  unfold State.beginStep
  exact (h.modStart (by intro x hx; simpa using hx)).ite h.tryStep

theorem beginStart (h : Keeps s t) {w : Bool} : Keeps s (t.beginStart w) := by
  unfold State.beginStart
  exact h.modStart

theorem leaveWait (h : Keeps s t) : Keeps s t.leaveWait := h.modStart.beginStep

theorem calibrate (h : Keeps s t) {ds : List Nat} {a : Bool} : Keeps s (t.calibrate ds a) :=
  (h.modGov (f := fun g => { g with cals := _, calProv := a, demand := 0 }) (by intro g _; rfl)).cancelForecast.modStart.bump

theorem dropBanks (h : Keeps s t) {xs : List (Nat × Nat)} : Keeps s (t.dropBanks xs) :=
  h.foldl _ _ fun _ _ k => k.modSlot.incident.ite k

theorem writeSeals (h : Keeps s t) : Keeps s t.writeSeals := by
  unfold State.writeSeals
  extract_lets s1
  have k : Keeps s s1 := h.foldl _ _ fun _ _ k => k.wbWrite
  exact k.step

theorem settleSeals (h : Keeps s t) {es : List JEntry} : Keeps s (t.settleSeals es) := by
  unfold State.settleSeals
  extract_lets found x
  refine h.seals (x := { x with pending := [] }) fun hc => ?_
  have key : ∀ (ps : List SealPend) (y : Seals), y.changes.length = 4 →
      (ps.foldl (fun x p => if found p then x.apply p.field p.value else x) y).changes.length = 4 := by
    intro ps
    induction ps with
    | nil => exact fun _ hy => hy
    | cons p ps ih =>
      intro y hy
      refine ih _ ?_
      dsimp only
      split
      · exact apply_changes _ _ _ hy
      · exact hy
  exact key _ _ hc

theorem faultMissing (h : Keeps s t) : Keeps s t.faultMissing := h.foldl _ _ fun _ _ k => k.faultGroup.ite k

theorem freshJournal (h : Keeps s t) : Keeps s t.freshJournal := by
  unfold State.freshJournal
  exact (Keeps.modRings (h.modWb fun _ => ⟨List.Pairwise.nil, fun _ hr => (List.not_mem_nil hr).elim⟩)).wbWrite.writeCheckpoint

theorem journalReady (h : Keeps s t) : Keeps s t.journalReady :=
  h.writeSeals.makeReady.flushInc.retryTolls.foldl _ _ fun _ _ k => k.askHead.ite (k.askHead.ite k)

theorem scanStart (h : Keeps s t) {i : Image} (e : t.scanStart i = some u) : Keeps s u := by
  unfold State.scanStart at e
  extract_lets cold from' at e
  split at e
  · cases e; exact h.freshJournal
  · split at e
    · cases e
    · split at e
      · cases e
      · cases e
        exact Keeps.modRegs (f := fun r => { r with wbCtl := _ }) h.settleSeals.rebuild

theorem afterStep (h : Keeps s t) {n : Nat} : Keeps s (t.afterStep n) := by
  unfold State.afterStep
  extract_lets s1
  have k : Keeps s s1 :=
    Keeps.ite (h.modStart.ite h.leaveWait) (Keeps.ite (h.foldl _ _ fun _ _ k => k.beginStep) (h.beginStep.ite h))
  exact k.endStart.ite k

theorem patchRerun (h : Keeps s t) : Keeps s t.patchRerun := by
  unfold State.patchRerun
  exact h.patchRecord

theorem resolveStep (h : Keeps s t) {n : Nat} {c : StepCode} : Keeps s (t.resolveStep n c) := by
  unfold State.resolveStep
  extract_lets again s1 s2 s3
  have k1 : Keeps s s1 := h.modStart (by intro x hx; simpa using hx)
  have k2 : Keeps s s2 := k1.journalReady.ite k1.makeAllReady
  have k3 : Keeps s s3 := k2.pump.ite k2
  exact k3.patchRerun.ite k3.afterStep

theorem failStep (h : Keeps s t) {n a : Nat} : Keeps s (t.failStep n a) := by
  unfold State.failStep
  extract_lets s1
  have k : Keeps s s1 := h.modStart
  exact k.tryStep.ite (k.park.ite k.resolveStep)

theorem runStep (h : Keeps s t) {n : Nat} {a : Bool} {i : StepInfo} : Keeps s (t.runStep n a i).1 := by
  unfold State.runStep
  split
  · exact h
  · exact h.step
  · exact h.dropBanks.ite h
  · exact h.foldl _ _ fun _ _ k => k.assayed
  · split
    · exact h.calibrate
    · exact h.calibrate
  · split
    · next e =>
      split at e
      · cases e
      · exact h.scanStart e
    · exact h.modRings.ite h.modRings.incident
  · exact h.step
  · exact h.step
  · exact h
  · exact h

-- The setup window ---------------------------------------------------------------------------------------------------

theorem modPath (h : Keeps s t) {p : PathId} {f : Path' → Path'} : Keeps s (t.modPath p f) := by
  cases p <;> exact h.step

theorem respond (h : Keeps s t) {p : PathId} {d : Nat} {e : Bool} : Keeps s (t.respond p d e) := h.modPath

theorem refuse (h : Keeps s t) {p : PathId} {o c : Nat} : Keeps s (t.refuse p o c) := Keeps.respond h.step

theorem dbgData (h : Keeps s t) {p : PathId} : Keeps s (t.dbgData p) := by
  unfold State.dbgData
  extract_lets w g bad shutOut v r1 x1 s1 s2
  have k1 : Keeps s s1 := h.step
  have k2 : Keeps s s2 := by
    simp only [s2]
    cases bad with
    | some a => exact k1.incident
    | none => exact k1
  exact k2.bump.respond

theorem setupRead (h : Keeps s t) {p : PathId} {o : Nat} : Keeps s (t.setupRead p o) := by
  unfold State.setupRead
  refine h.respond.ite (h.refuse.ite ?_)
  split
  · exact h.refuse
  · exact h.dbgData.ite (h.respond.ite (h.modPath.respond.ite h.respond))

/-- What a register write that is not refused keeps. -/
theorem act (h : Keeps s t) {c : Option Nat} (e : Wr.act c t = .ok u) : Keeps s u := by
  unfold Wr.act at e
  split at e <;> cases e
  exact h

theorem sealSet (h : Keeps s t) {f : SealField} {v : Nat} : Keeps s (t.sealSet f v) := by
  unfold State.sealSet
  exact (h.seals (by exact id)).ite (h.seals (by intro hx; exact apply_changes _ f v hx))

theorem applyStaged (h : Keeps s t) {f : SealField} {v : Nat} {b : Bool} (e : t.applyStaged f v b = .ok u) : Keeps s u := by
  unfold State.applyStaged at e
  split at e
  · cases e
  · split at e
    · cases e; exact h
    · exact h.sealSet.act e

theorem writeSealCtl (h : Keeps s t) {d : Nat} (e : t.writeSealCtl d = .ok u) : Keeps s u := by
  unfold State.writeSealCtl at e
  extract_lets c r newC newR at e
  split at e
  · cases e
  · split at e
    · cases e
    · cases e
    · cases e
      have k : Keeps s (if newC = true then t.sealSet .compat c else t) := h.sealSet.ite h
      exact k.sealSet.ite k

theorem goAct (h : Keeps s t) : Keeps s t.goAct := by
  unfold State.goAct
  exact h.ite (h.leaveWait.ite (Keeps.ite h.modStart h.modStart).leaveWait)

theorem rerunAct (h : Keeps s t) {n : Nat} : Keeps s (t.rerunAct n) := h.modStart.tryStep

theorem writeStartCtl (h : Keeps s t) {d : Nat} (e : t.writeStartCtl d = .ok u) : Keeps s u := by
  unfold State.writeStartCtl at e
  extract_lets n s1 at e
  have k : Keeps s s1 := h.modRegs
  split at e
  · split at e <;> cases e
    exact k.rerunAct
  · cases e
    exact k.goAct.ite k

theorem routeInvAct (h : Keeps s t) {d : Nat} : Keeps s (t.routeInvAct d) := h.modCw.foldl _ _ fun _ _ k => k.restartLink

theorem writeIncCtl (h : Keeps s t) {d : Nat} : Keeps s (t.writeIncCtl d) := by
  unfold State.writeIncCtl
  exact h.modRegs.incident.ite h.modRegs

theorem writeAssayCtl (h : Keeps s t) {d : Nat} : Keeps s (t.writeAssayCtl d) := by
  unfold State.writeAssayCtl
  extract_lets s1
  have k : Keeps s s1 := h.modRegs
  exact Keeps.ite k.step k

theorem writeRingCtl (h : Keeps s t) {r d : Nat} (e : t.writeRingCtl r d = .ok u) : Keeps s u := by
  unfold State.writeRingCtl at e
  extract_lets g at e
  split at e
  · cases e
  · split at e
    · cases e
    · cases e
      exact h.modRing.enableRing.ite (h.modRing.disableRing.ite h.modRing)

theorem writeRingAddr (h : Keeps s t) {r c d : Nat} {f : Ring → Ring} (e : t.writeRingAddr r c d f = .ok u) : Keeps s u :=
  h.modRing.act e

theorem writeLow (h : Keeps s t) {b d : Nat} (e : t.writeLow b d = .ok u) : Keeps s u := by
  unfold State.writeLow at e
  dsimp only at e
  split at e
  · cases e; exact h.step
  · cases e
    refine Keeps.ite (h.step (sized := fun h => { h with pad := ⟨h.pad.1, h.pad.2.1, ?_⟩ })) h
    intro v hv
    cases hv
    exact h.9.2.1
  · cases e; exact h.modRegs
  · cases e; exact h.step
  · cases e; exact h.step
  · cases e; exact h.step
  · cases e; exact h.step
  · exact h.writeSealCtl e
  · split at e
    · exact h.applyStaged e
    · cases e; exact h
  · split at e
    · exact h.applyStaged e
    · cases e; exact h
  · split at e
    · cases e; exact h.modRegs
    · split at e
      · cases e; exact h.modRegs
      · cases e; exact h

theorem writeStart (h : Keeps s t) {b d : Nat} (e : t.writeStart b d = .ok u) : Keeps s u := by
  unfold State.writeStart at e
  dsimp only at e
  split at e
  · exact h.writeStartCtl e
  · cases e; exact h.modRegs
  · exact h.modRegs.act e
  · exact h.modRegs.retryTolls.act e
  · exact h.modRegs.act e
  · cases e; exact h.modRegs.retryTolls
  · exact h.modRegs.act e
  · exact h.modRegs.act e
  · split at e
    · cases e; exact h.modRegs
    · cases e; exact h

theorem writePorts (h : Keeps s t) {b d : Nat} (e : t.writePorts b d = .ok u) : Keeps s u := by
  unfold State.writePorts at e
  dsimp only at e
  split at e
  · exact h.modRegs.act e
  · exact h.modRegs.act e
  · exact h.modRegs.act e
  · cases e; exact h.modRegs
  · cases e; exact h.modRegs
  · cases e; exact h.routeInvAct
  · exact h.modRegs.act e
  · exact h.modRegs.act e
  · split at e
    · cases e
      exact h.step (sized := fun h => { h with pad := ⟨h.pad.1, by simpa using h.pad.2.1, h.pad.2.2⟩ })
    · cases e; exact h

theorem writeUnits (h : Keeps s t) {b d : Nat} (e : t.writeUnits b d = .ok u) : Keeps s u := by
  unfold State.writeUnits at e
  dsimp only at e
  split at e
  · cases e; exact h.modRegs
  · exact h.modRegs.act e
  · exact h.modRegs.act e
  · exact h.modRegs.act e
  · exact h.modRegs.act e
  · cases e; exact h.writeIncCtl
  · cases e; exact h.writeAssayCtl
  · exact h.modRegs.act e
  · exact h.modRegs.act e
  · cases e; exact h

theorem writeRings (h : Keeps s t) {b d : Nat} (e : t.writeRings b d = .ok u) : Keeps s u := by
  unfold State.writeRings at e
  dsimp only at e
  split at e
  · exact h.writeRingCtl e
  · exact h.writeRingAddr e
  · exact h.writeRingAddr e
  · exact h.writeRingAddr e

theorem writeReg (h : Keeps s t) {b d : Nat} (e : t.writeReg b d = .ok u) : Keeps s u := by
  unfold State.writeReg at e
  split at e
  · exact h.writeLow e
  · split at e
    · exact h.writeStart e
    · split at e
      · exact h.writePorts e
      · split at e
        · exact h.writeUnits e
        · split at e
          · exact h.writeRings e
          · cases e; exact h

theorem setupWrite (h : Keeps s t) {p : PathId} {o d b : Nat} : Keeps s (t.setupWrite p o d b) := by
  unfold State.setupWrite
  refine h.respond.ite (h.refuse.ite ?_)
  split
  · exact h.refuse
  · refine Keeps.ite ?_ h.modPath.respond
    split
    · next e => exact (h.writeReg e).respond
    · exact h.refuse

-- What arrives on the causeway ---------------------------------------------------------------------------------------

theorem stray (h : Keeps s t) {f : Flit} : Keeps s (t.stray f) := h.incident

theorem recvGrant (h : Keeps s t) {f : Flit} : Keeps s (t.recvGrant f) := by
  unfold State.recvGrant
  extract_lets s1
  have k : Keeps s s1 := h.modLink
  split
  · exact k.modCw.pump
  · exact (k.modCw (f := Cw.early' _ _) (by exact fun _ h => h)).pump.ite h.stray

theorem recvData (h : Keeps s t) {k : Nat} {f : Flit} : Keeps s (t.recvData k f) := by
  unfold State.recvData
  split
  · refine h.stray.ite ?_
    split
    · exact h.stray.ite h.abortExch.incident
    · exact (Keeps.ite h.modExch.checkSigns h.modExch).exchResume
  · exact h.stray

theorem recvPub (h : Keeps s t) {f : Flit} : Keeps s (t.recvPub f) := by
  unfold State.recvPub
  split
  · exact h.modCw
  · exact h.stray

theorem recvAbort (h : Keeps s t) {f : Flit} : Keeps s (t.recvAbort f) := by
  unfold State.recvAbort
  split
  · exact h.abortExch.ite h.stray
  · exact h.stray

theorem dropMsg (h : Keeps s t) {m : RxMsg} : Keeps s (t.dropMsg m) := h.modCw

theorem sendDone (h : Keeps s t) {m : RxMsg} {x : Nat} : Keeps s (t.sendDone m x) := h.queueFlit.pump

theorem offered (h : Keeps s t) {m : RxMsg} : Keeps s (t.offered m) := by
  unfold State.offered
  exact h.modWb.ite h

theorem tryMsg (h : Keeps s t) {m : RxMsg} : Keeps s (t.tryMsg m) := by
  unfold State.tryMsg
  split
  · extract_lets s1
    have k : Keeps s s1 := h.offered
    exact Keeps.ite (k.modCw.foldl _ _ fun _ _ q => q.wr) k.dropMsg.sendDone.incident
  · exact h

theorem recvMsg (h : Keeps s t) {k : Nat} {f : Flit} : Keeps s (t.recvMsg k f) := by
  unfold State.recvMsg
  dsimp only
  refine h.modCw.tryMsg.ite ?_
  split
  · exact h.ite h.modCw.tryMsg
  · exact h

theorem recvSetDone (h : Keeps s t) {f : Flit} : Keeps s (t.recvSetDone f) := by
  unfold State.recvSetDone
  exact h.modMember.tryFinish.ite h

theorem recvWaybookDone (h : Keeps s t) {f : Flit} : Keeps s (t.recvWaybookDone f) := by
  unfold State.recvWaybookDone
  split
  · refine Keeps.ite (Keeps.report (h.modWb fun ⟨hp, hl⟩ => ⟨?_, fun r hr => ?_⟩)) h
    · exact hp.map _ fun a b h => by split <;> split <;> exact h
    · obtain ⟨x, hx, rfl⟩ := List.mem_map.1 hr
      have := hl x hx
      dsimp only
      split <;> exact this
  · exact h

theorem sendAck (h : Keeps s t) {p : Nat} {n : Bool} : Keeps s (t.sendAck p n) := by
  unfold State.sendAck
  split
  · exact h.modLink.pump
  · exact h

theorem resendOrFail (h : Keeps s t) {p : Nat} : Keeps s (t.resendOrFail p) := by
  unfold State.resendOrFail
  split
  · exact h.ite (h.modLink.incident.ite (h.modLink.queueFlit.pump.ite h.resend))
  · exact h

theorem recvAck (h : Keeps s t) {f : Flit} : Keeps s (t.recvAck f) := by
  unfold State.recvAck
  split
  · refine h.ite ?_
    exact (Keeps.ite h.modLink.resendOrFail h.modLink).pump
  · exact h

theorem recvSync (h : Keeps s t) {f : Flit} : Keeps s (t.recvSync f) := by
  unfold State.recvSync
  split
  · exact (h.modLink.pump.ite (h.modLink.queueFlit.pump.ite h)).ite (h.restartLinkTo.ite h.queueFlit.pump)
  · exact h

theorem deliver (h : Keeps s t) {k : Nat} {f : Flit} : Keeps s (t.deliver k f) := by
  unfold State.deliver
  exact h.recvGrant.ite (h.recvPub.ite (h.recvAbort.ite ((h.recvWaybookDone.ite h.recvMsg).ite
    ((h.recvSetDone.ite h.recvMsg).ite h.recvData))))

theorem deliverGo (n p : Nat) (h : Keeps s t) : Keeps s (State.deliverGo n p t) := by
  induction n generalizing t with
  | zero => exact h
  | succ n ih =>
    unfold State.deliverGo
    split
    · split
      · exact ih h.modLink.deliver
      · exact h
    · exact h

theorem meet (h : Keeps s t) {p : Nat} {i : Image} : Keeps s (t.meet p i) := by
  unfold State.meet
  have k : Keeps s (if ((t.needLink p).link? p).isSome then t.needLink p else (t.needLink p).freeLinks.needLink p) :=
    h.needLink.ite h.needLink.freeLinks.needLink
  exact k.needRoute.ite k

theorem heed (h : Keeps s t) {k : Nat} {f : Flit} {l : Link} : Keeps s (t.heed k f l) := by
  unfold State.heed
  exact (h.ite h.recvAck).ite (h.recvSync.ite (h.ite (h.sendAck.ite (h.ite (h.modLink.deliverGo _ _).sendAck))))

theorem land (h : Keeps s t) {k : Nat} {f : Flit} {i : Image} : Keeps s (t.land k f i) := by
  unfold State.land
  refine h.ite ?_
  extract_lets s1 s2
  have k1 : Keeps s s1 := h.takeRx
  refine k1.ite ?_
  have k2 : Keeps s s2 := k1.meet
  split
  · exact k2
  · exact k2.heed

-- Detections ---------------------------------------------------------------------------------------------------------

theorem noteError (h : Keeps s t) {f : Finding} : Keeps s (t.noteError f) := by
  unfold State.noteError
  refine Keeps.ite ?_ (h.modCluster.ite h)
  extract_lets w s1
  have k : Keeps s s1 := h.step
  exact k.faultMember.ite k

end Sys2Proof.Machine.Keeps
end

