-- ==== Sys2Proof/Laws/Frames.lean ====
section
/-!
SUPPORT. Frames of the operations that many meanings share: what a flit that leaves, a journal entry and the end of a group change,
and nothing else.
-/
namespace Sys2Proof.Machine
set_option Elab.async false
open Sys2Proof

-- Flits that leave ----------------------------------------------------------------------------------------------------

/-- What sending leaves of a link as it was. -/
def Link.kept (l : Link) : Nat × Nat × Nat × Nat × Bool × Nat × List (Nat × Flit) :=
  (l.peer, l.rxSeq, l.epoch, l.sync, l.failed, l.resent, l.landing)

/-- From `s` to `t` flits have left and nothing else has happened. -/
structure Sent (s t : State) : Prop where
  frame : t = { s with cw := t.cw, out := t.out }
  routes : t.cw.routes = s.cw.routes
  exchs : t.cw.exchs = s.cw.exchs
  early : t.cw.early = s.cw.early
  rx : t.cw.rx = s.cw.rx
  links : ∀ p, (t.link? p).map Link.kept = (s.link? p).map Link.kept
  out : ∃ l, t.out = s.out ++ l ∧ ∀ o ∈ l, o.isFlit = true

namespace Sent
variable {s t u : State}

theorem refl (s : State) : Sent s s := ⟨rfl, rfl, rfl, rfl, rfl, fun _ => rfl, [], by simp⟩

theorem trans (h : Sent s t) (k : Sent t u) : Sent s u where
  frame := by rw [k.frame, h.frame]
  routes := k.routes.trans h.routes
  exchs := k.exchs.trans h.exchs
  early := k.early.trans h.early
  rx := k.rx.trans h.rx
  links p := (k.links p).trans (h.links p)
  out := by
    obtain ⟨l, e, f⟩ := h.out
    obtain ⟨m, e', f'⟩ := k.out
    refine ⟨l ++ m, by rw [e', e, List.append_assoc], fun o ho => ?_⟩
    rcases List.mem_append.1 ho with ho | ho
    · exact f o ho
    · exact f' o ho

end Sent

/-- A link that is found is one of the links, with the peer it is asked for. -/
theorem State.link?_some {s : State} {p : Nat} {l : Link} (h : s.link? p = some l) : l ∈ s.cw.links ∧ l.peer = p := by
  unfold State.link? at h
  exact ⟨List.mem_of_find?_eq_some h, by simpa using List.find?_some h⟩

/-- An update of one link, as its peers see it. -/
theorem State.link?_modLink (s : State) (p q : Nat) (f : Link → Link) (hf : ∀ l, l.peer = p → (f l).peer = p) :
    (s.modLink p f).link? q = (s.link? q).map (fun l => if l.peer == p then f l else l) := by
  simp only [State.link?, State.modLink, State.modCw, List.find?_map]
  congr 1
  congr 1
  funext l
  simp only [Function.comp]
  split
  · rename_i h
    have h' : l.peer = p := by simpa using h
    rw [hf l h', h']
  · rfl

namespace Sent
variable {s t u : State}

/-- A link is replaced by one that has kept what sending keeps, a lane's credit is spent and one flit leaves. -/
theorem leave {l l' : Link} {p lane : Nat} {cd : Bool} {f : TxFlit} (hl : s.link? p = some l) (hk : l'.kept = l.kept) :
    Sent s (((s.modLink l.peer (fun _ => l')).spendLane cd lane).emit (.flit f)) := by
  have hp := (State.link?_some hl).2
  have hp' : l'.peer = l.peer := congrArg Prod.fst hk
  refine ⟨rfl, ?_, ?_, ?_, ?_, fun q => ?_, _, rfl, by simp [Out.isFlit]⟩
  iterate 4 (cases cd <;> rfl)
  have e : ∀ (u : State) (o : Out), ((u.spendLane cd lane).emit o).link? q = u.link? q := by
    intro u o
    cases cd <;> rfl
  rw [e, State.link?_modLink _ _ _ _ fun _ _ => hp']
  cases hq : s.link? q with
  | none => rfl
  | some k =>
    simp only [Option.map_some]
    split
    · rename_i hk'
      have hq' := (State.link?_some hq).2
      have : q = p := by rw [← hq', ← hp]; simpa using hk'
      subst this
      rw [hl] at hq
      cases hq
      exact congrArg some hk
    · rfl

theorem pumpLink {p : Nat} (h : s.pumpLink p = some t) : Sent s t := by
  unfold State.pumpLink at h
  split at h
  · rename_i l r hl hr
    split at h
    · cases h
    · split at h
      · split at h
        · split at h
          · cases h; exact leave hl rfl
          · cases h
        · cases h
      · split at h
        · split at h
          · split at h
            · cases h; exact leave hl rfl
            · cases h
          · cases h
        · cases h
  · cases h

theorem pumpN (n : Nat) (s : State) : Sent s (s.pumpN n) := by
  induction n generalizing s with
  | zero => exact refl s
  | succ n ih =>
    unfold State.pumpN
    split
    · rename_i s' h
      obtain ⟨l, -, hl⟩ := List.exists_of_findSome?_eq_some h
      exact (pumpLink hl).trans (ih s')
    · exact refl s

theorem pump (s : State) : Sent s s.pump := pumpN _ s

end Sent
end Sys2Proof.Machine
end

