-- ==== Sys2Proof/Laws/Wrote.lean ====
section
/-!
SUPPORT. What the writes of a command do, said once for each operation: bytes written to memory or staging (`State.wr`), reads that
leave (`State.ask`), and entries written to the journal (`State.wbWrite`).
-/
namespace Sys2Proof.Machine
set_option Elab.async false
open Sys2Proof

-- Staging -------------------------------------------------------------------------------------------------------------

/-- The resident range goes by the settings alone. -/
theorem State.stageAddr_regs {s t : State} (h : t.regs = s.regs) (a : Nat) : t.stageAddr a = s.stageAddr a := by
  unfold State.stageAddr State.aper State.resident
  rw [h]

/-- So does the place of a record. -/
theorem State.recAddr_regs {s t : State} (h : t.regs = s.regs) (n : Nat) : t.recAddr n = s.recAddr n := by
  unfold State.recAddr State.wbSize
  rw [h]

namespace State.StageKept
variable {s t u : State} {ws vs : List (Nat × Nat)}

theorem refl (s : State) : s.StageKept s ws := ⟨fun _ _ => rfl, fun _ h => h, fun _ h _ => h⟩

/-- Nothing of staging and no mark has changed. -/
theorem same (hs : t.staging = s.staging) (hu : t.ue = s.ue) : s.StageKept t ws :=
  ⟨fun x _ => by unfold State.stageByte; rw [hs], fun w h => hu ▸ h, fun w h _ => hu ▸ h⟩

theorem mono (h : s.StageKept t ws) (hw : ∀ w ∈ ws, w ∈ vs) : s.StageKept t vs :=
  ⟨fun x hx => h.bytes x fun w m => hx w (hw w m), h.marks, fun w m hx => h.others w m fun x e v hv => hx x e v (hw v hv)⟩

/-- `stageAddr` goes by the settings alone. -/
theorem trans (h : s.StageKept t ws) (hr : t.regs = s.regs) (k : t.StageKept u vs) : s.StageKept u (ws ++ vs) := by
  have e : ∀ a n x, t.reaches a n x ↔ s.reaches a n x := by
    intro a n x
    simp only [State.reaches, State.stageAddr_regs hr]
  refine ⟨fun x hx => ?_, fun w m => h.marks w (k.marks w m), fun w m hx => k.others w (h.others w m ?_) ?_⟩
  · rw [k.bytes x fun w m => by rw [e]; exact hx w (by simp [m]), h.bytes x fun w m => hx w (by simp [m])]
  · exact fun x e' v hv => hx x e' v (by simp [hv])
  · exact fun x e' v hv => by rw [e]; exact hx x e' v (by simp [hv])

end State.StageKept

/-- A store of bytes, some of them absent. -/
theorem Memory.get_write_absent : ∀ {m : Memory} {a x : Nat} (bs : List (Option Byte)), (∀ i, a + i = x → bs[i]? = none ∨ bs[i]? = some none) →
    Memory.get x (m.write a bs) = Memory.get x m
  | m, a, x, [], _ => rfl
  | m, a, x, none :: r, h => by
    rw [Memory.write]
    exact get_write_absent r fun i e => by simpa using h (i + 1) (by omega)
  | m, a, x, some b :: r, h => by
    rw [Memory.write, get_write_absent r fun i e => by simpa using h (i + 1) (by omega)]
    exact Memory.get_store_other fun e => by simpa using h 0 (by omega)

/-- Bytes stored in staging change the bytes they are stored to. -/
theorem State.stageWrite_kept {s : State} {a : Nat} {bs : List (Option Byte)} {ws : List (Nat × Nat)}
    (h : ∀ i b, bs[i]? = some (some b) → ∃ w ∈ ws, s.reaches w.1 w.2 (a + i)) : s.StageKept (s.stageWrite a bs) ws where
  bytes x hx := Memory.get_write_absent bs fun i e => by
    cases q : bs[i]? with
    | none => exact .inl rfl
    | some o =>
      cases o with
      | none => exact .inr rfl
      | some b =>
        obtain ⟨w, m, r⟩ := h i b q
        exact absurd (e ▸ r) (hx w m)
  marks w m := (List.mem_filter.1 m).1
  others w m hx := by
    refine List.mem_filter.2 ⟨m, ?_⟩
    simp only [Bool.not_eq_true', List.any_eq_false, Bool.and_eq_true, decide_eq_true_eq, not_and]
    rintro ⟨o, i⟩ hp ho e
    obtain ⟨b, rfl⟩ := Option.isSome_iff_exists.1 ho
    have q : bs[i]? = some (some b) := by simpa [List.mem_zipIdx_iff_getElem?] using hp
    obtain ⟨v, hv, r⟩ := h i b q
    exact hx _ e v hv r

-- Writes of descriptors and of the block -------------------------------------------------------------------------------

/-- From `s` to `t` something has been stored or has left, and nothing else has happened. -/
structure Wrought (s t : State) (ws : List (Nat × Nat)) : Prop where
  frame : t = { s with staging := t.staging, ue := t.ue, out := t.out }
  stage : s.StageKept t ws
  out : ∃ l, t.out = s.out ++ l

namespace Wrought
variable {s t u : State} {ws vs : List (Nat × Nat)}

theorem refl (s : State) : Wrought s s ws := ⟨rfl, .refl s, [], by simp⟩

theorem trans (h : Wrought s t ws) (k : Wrought t u vs) : Wrought s u (ws ++ vs) where
  frame := by rw [k.frame, h.frame]
  stage := h.stage.trans (by rw [h.frame]) k.stage
  out := by
    obtain ⟨l, e⟩ := h.out
    obtain ⟨m, e'⟩ := k.out
    exact ⟨l ++ m, by rw [e', e, List.append_assoc]⟩

theorem emit (s : State) (o : Out) : Wrought s (s.emit o) ws := ⟨rfl, .same rfl rfl, [o], rfl⟩

theorem emits {α : Type} (f : State → α → State) (hf : ∀ s a, ∃ l, f s a = { s with out := s.out ++ l }) (l : List α) (s : State) :
    ∃ m, l.foldl f s = { s with out := s.out ++ m } := by
  induction l generalizing s with
  | nil => exact ⟨[], by simp⟩
  | cons a l ih =>
    obtain ⟨x, hx⟩ := hf s a
    obtain ⟨y, hy⟩ := ih (f s a)
    exact ⟨x ++ y, by rw [List.foldl_cons, hy, hx]; simp [List.append_assoc]⟩

end Wrought

/-- What a write of bytes does, wherever they lie (R482). -/
theorem State.wr_wrought (s : State) (a : Nat) (bs : List Byte) : Wrought s (s.wr a bs) [(a, bs.length)] := by
  unfold State.wr
  split
  · exact .refl s
  · split
    · exact .emit s _
    · dsimp only
      generalize hc : (bs.mapIdx fun i b => if ((s.stageAddr (a + i)).isSome == true) = true then some b else none).drop (if s.aper ≤ a then 0 else s.aper - a) = c
      generalize hst : (if s.aper ≤ a then a - s.aper else 0) = st
      have k : s.StageKept (s.stageWrite st c) [(a, bs.length)] := by
        refine State.stageWrite_kept fun i b q => ⟨_, List.mem_singleton_self _, ?_⟩
        subst hc hst
        simp only [List.getElem?_drop, List.getElem?_mapIdx, Option.map_eq_some_iff] at q
        obtain ⟨v, hv, q⟩ := q
        by_cases hs : (s.stageAddr (a + ((if s.aper ≤ a then 0 else s.aper - a) + i))).isSome = true
        · refine ⟨_, (List.getElem?_eq_some_iff.1 hv).1, ?_⟩
          unfold State.stageAddr at hs ⊢
          by_cases hr : s.aper ≤ a + ((if s.aper ≤ a then 0 else s.aper - a) + i) ∧
              a + ((if s.aper ≤ a then 0 else s.aper - a) + i) < s.aper + s.resident * 65536
          · rw [if_pos hr]
            congr 1
            split <;> omega
          · rw [if_neg hr] at hs
            cases hs
        · rw [if_neg (by simpa using hs)] at q
          cases q
      obtain ⟨m, hm⟩ := Wrought.emits (fun (s : State) (p : Nat × Byte) => if (s.stageAddr p.1).isSome then s else s.emit (.mpWrite p.1 [p.2]))
        (fun s p => by
          split
          · exact ⟨[], by simp⟩
          · exact ⟨_, rfl⟩) (bs.mapIdx fun i b => (a + i, b)) (s.stageWrite st c)
      rw [hm]
      exact ⟨rfl, ⟨k.bytes, k.marks, k.others⟩, m, rfl⟩

/-- Bytes that staging does not serve leave as one write. -/
theorem State.wr_outside {s : State} {a : Nat} {bs : List Byte} (hb : bs ≠ []) (h : ∀ i < bs.length, s.stageAddr (a + i) = none) :
    s.wr a bs = s.emit (.mpWrite a bs) := by
  have hn : 0 < bs.length := List.length_pos_iff.2 hb
  have far : s.resident = 0 ∨ a + bs.length ≤ s.aper ∨ s.aper + s.resident * 65536 ≤ a := by
    refine Classical.byContradiction fun hc => ?_
    have := h (if s.aper ≤ a then 0 else s.aper - a) (by split <;> omega)
    unfold State.stageAddr at this
    rw [if_pos (by split <;> omega)] at this
    cases this
  unfold State.wr
  split
  · exact absurd rfl hb
  · rw [if_pos far]

theorem State.ask_eq (s : State) (a : Nat) : s.ask a = { s with out := s.out ++ s.asks a } := by
  unfold State.ask State.asks
  dsimp only
  split
  · simp
  · rfl

-- The journal ---------------------------------------------------------------------------------------------------------

/-- A queue of flits takes more. -/
theorem State.queueAll_frame (s : State) (fs : List TxFlit) : ∃ c, s.queueAll fs = { s with cw := c } := by
  unfold State.queueAll
  induction fs generalizing s with
  | nil => exact ⟨s.cw, rfl⟩
  | cons f fs ih =>
    obtain ⟨c, hc⟩ := ih (s.queueFlit f)
    refine ⟨c, ?_⟩
    rw [List.foldl_cons, hc]
    unfold State.queueFlit State.needLink
    split
    · rfl
    · split <;> rfl

theorem entryRecs_append (epoch n : Nat) (es fs : List Entry) :
    entryRecs epoch n (es ++ fs) = entryRecs epoch n es ++ entryRecs epoch (n + (entryRecs epoch n es).length) fs := by
  induction es generalizing n with
  | nil => simp [entryRecs]
  | cons e es ih => simp [entryRecs, ih, Nat.add_assoc]

theorem recBytes_length (rnum ty part parts epoch : Nat) (p : List Byte) : (recBytes rnum ty part parts epoch p).length = 64 := by
  simp [recBytes, padTo, toBytes, zeroBytes]
  omega

/-- The records of entries follow each other from the first RNUM on. -/
theorem entryRecs_rnum (epoch n : Nat) (es : List Entry) :
    (entryRecs epoch n es).map (·.rnum) = List.range' n (entryRecs epoch n es).length := by
  induction es generalizing n with
  | nil => rfl
  | cons e es ih =>
    rw [entryRecs, List.map_append, ih, List.length_append, List.length_mapIdx, ← List.range'_append_1]
    congr 1
    refine List.ext_getElem (by simp) fun i h _ => by simp

theorem entryRecs_bytes {epoch n : Nat} {es : List Entry} {r : Rec} (h : r ∈ entryRecs epoch n es) : r.bytes.length = 64 := by
  induction es generalizing n with
  | nil => cases h
  | cons e es ih =>
    rcases List.mem_append.1 h with h | h
    · obtain ⟨i, hi, rfl⟩ := List.getElem_of_mem h
      simp [recBytes_length]
    · exact ih h

/-- What the writing of records to memory does. -/
theorem State.wrRecs_wrought (recs : List Rec) (s : State) :
    Wrought s (recs.foldl (fun s r => s.wr (s.recAddr r.rnum) r.bytes) s) (recs.map (fun r => (s.recAddr r.rnum, r.bytes.length))) ∧
      ∃ l, (recs.foldl (fun s r => s.wr (s.recAddr r.rnum) r.bytes) s).out = s.out ++ l ∧
        ∀ r ∈ recs, r.bytes ≠ [] → (∀ i < r.bytes.length, s.stageAddr (s.recAddr r.rnum + i) = none) → Out.mpWrite (s.recAddr r.rnum) r.bytes ∈ l := by
  induction recs generalizing s with
  | nil => exact ⟨.refl s, [], by simp⟩
  | cons x xs ih =>
    obtain ⟨k, l, e, hl⟩ := ih (s.wr (s.recAddr x.rnum) x.bytes)
    have w := s.wr_wrought (s.recAddr x.rnum) x.bytes
    have hr : (s.wr (s.recAddr x.rnum) x.bytes).regs = s.regs := by rw [w.frame]
    simp only [State.recAddr_regs hr, State.stageAddr_regs hr] at k hl
    refine ⟨w.trans k, ?_⟩
    obtain ⟨m, hm⟩ := w.out
    refine ⟨m ++ l, by rw [List.foldl_cons, e, hm, List.append_assoc], fun r h hb hs => ?_⟩
    rcases List.mem_cons.1 h with rfl | h
    · rw [State.wr_outside hb hs] at hm
      have : m = [Out.mpWrite (s.recAddr r.rnum) r.bytes] := by simpa [State.emit] using hm.symm
      simp [this]
    · exact List.mem_append_right _ (hl r h hb hs)

/-- What is left of a state by what sends flits, beside the causeway. -/
theorem Sent.wrought {s t : State} (h : Sent s t) (ws : List (Nat × Nat)) :
    s.StageKept t ws ∧ t.wb = s.wb ∧ t.regs = s.regs ∧ t.seals = s.seals ∧ ∃ l, t.out = s.out ++ l := by
  obtain ⟨l, e, _⟩ := h.out
  have f := h.frame
  exact ⟨.same (by rw [f]) (by rw [f]), by rw [f], by rw [f], by rw [f], l, e⟩

/-- What an entry does: its records stand at the tail of the journal, in memory and with PARTNER, and nothing else has changed. -/
theorem State.wbWrite_wrote (s : State) (ty : Nat) (parts : List (List Byte)) (act : Act) :
    s.Wrote (s.wbWrite ty parts act) [⟨ty, parts, act⟩] ∧
      s.wbWrite ty parts act = { s with
        wb := (s.wbWrite ty parts act).wb, cw := (s.wbWrite ty parts act).cw, out := (s.wbWrite ty parts act).out,
        staging := (s.wbWrite ty parts act).staging, ue := (s.wbWrite ty parts act).ue } := by
  have hn : s.newRecs [⟨ty, parts, act⟩] = parts.mapIdx (fun i p => ⟨s.wb.tail + i, recBytes (s.wb.tail + i) ty i parts.length s.wb.epoch p, false, false,
      if i + 1 = parts.length then act else .none⟩) := by
    simp [State.newRecs, entryRecs]
  have hb : ∀ r ∈ s.newRecs [⟨ty, parts, act⟩], r.bytes.length = 64 := fun r h => entryRecs_bytes h
  have hl : (s.newRecs [⟨ty, parts, act⟩]).length = parts.length := by rw [hn]; simp
  generalize hq : s.newRecs [⟨ty, parts, act⟩] = recs at hn hb hl
  let s1 := s.modWb (fun w => { w with tail := w.tail + parts.length, recs := w.recs ++ recs, since := w.since + parts.length })
  obtain ⟨k, l, e, hm⟩ := State.wrRecs_wrought recs s1
  generalize ht : recs.foldl (fun s r => s.wr (s.recAddr r.rnum) r.bytes) s1 = s2 at k e hm
  have spans : ∀ w ∈ recs.map (fun r => (s1.recAddr r.rnum, r.bytes.length)),
      w ∈ (List.range recs.length).map (fun i => (s.recAddr (s.wb.tail + i), 64)) := by
    intro w hw
    obtain ⟨r, hr, rfl⟩ := List.mem_map.1 hw
    obtain ⟨i, hi, rfl⟩ := List.getElem_of_mem hr
    refine List.mem_map.2 ⟨i, List.mem_range.2 hi, ?_⟩
    rw [hb _ hr]
    subst hn
    simp [s1, State.modWb, State.recAddr, State.wbSize]
  have out2 : ∀ r ∈ recs, (∀ i < 64, s.stageAddr (s.recAddr r.rnum + i) = none) → Out.mpWrite (s.recAddr r.rnum) r.bytes ∈ l := fun r h hs =>
    hm r h (by intro c; have := hb r h; rw [c] at this; cases this) (by rw [hb r h]; exact hs)
  have f2 : s2 = { s1 with staging := s2.staging, ue := s2.ue, out := s2.out } := k.frame
  have w2 : s2.wb = s1.wb := by rw [f2]
  have stage2 : s.StageKept s2 (recs.map (fun r => (s1.recAddr r.rnum, r.bytes.length))) := ⟨k.stage.bytes, k.stage.marks, k.stage.others⟩
  have def' : s.wbWrite ty parts act = if s.mirrorEn && !s.noPartner then
      ((s2.modWb (fun w => { w with
        mirror := w.mirror ++ recs.map (fun (r : Rec) => (r.rnum, r.bytes)),
        sent := w.sent ++ (if recs.isEmpty then [] else [(s.wb.tail, s.wb.tail + parts.length - 1)]) })).queueAll
          (s.waybookMsg s.wb.tail (recs.map (·.bytes)))).pump else s2 := by
    rw [← ht]
    subst hn
    rfl
  by_cases hmir : (s.mirrorEn && !s.noPartner) = true
  · rw [if_pos hmir] at def'
    generalize hu : s2.modWb _ = u at def'
    obtain ⟨c, hc⟩ := u.queueAll_frame (s.waybookMsg s.wb.tail (recs.map (·.bytes)))
    rw [hc] at def'
    have sent := Sent.pump { u with cw := c }
    rw [← def'] at sent
    have fr := sent.frame
    obtain ⟨m, hm', -⟩ := sent.out
    have ho : (s.wbWrite ty parts act).out = s.out ++ (l ++ m) := by
      rw [hm', ← hu]
      simp [State.modWb, e, s1, List.append_assoc]
    refine ⟨⟨⟨?_, ?_, l ++ m, ho, ?_⟩, ?_⟩, ?_⟩
    · rw [fr, ← hu, hq, hl, if_pos hmir]
      simp [State.modWb, w2, s1]
    · intro h
      rw [h] at hmir
      cases hmir
    · rw [hq]
      exact fun r h hs => List.mem_append_left _ (out2 r h hs)
    · refine (StageKept.mono (ws := recs.map (fun r => (s1.recAddr r.rnum, r.bytes.length))) ?_ ?_)
      · exact ⟨fun x hx => by rw [← stage2.bytes x hx, fr, ← hu]; rfl, fun w h => stage2.marks w (by rw [fr, ← hu] at h; exact h),
          fun w h hx => by rw [fr, ← hu]; exact stage2.others w h hx⟩
      · intro w hw
        have := spans w hw
        rw [List.append_nil]
        unfold State.newSpans
        rw [fr, ← hu]
        simpa [State.modWb, w2, s1, ← hl] using this
    · rw [fr, ← hu]
      rw [f2]
      rfl
  · rw [if_neg hmir] at def'
    rw [def']
    refine ⟨⟨⟨?_, fun _ => by rw [w2]; rfl, l, e, by rw [hq]; exact out2⟩, stage2.mono ?_⟩, ?_⟩
    · rw [w2, hq, hl, if_neg hmir]
      simp [s1, State.modWb]
    · intro w hw
      rw [List.append_nil]
      unfold State.newSpans
      rw [w2]
      simpa [s1, State.modWb, ← hl] using spans w hw
    · rw [f2]
      rfl

/-- Entries after entries, while the settings and the geometry stand. -/
theorem State.Wrote.trans {s t u : State} {es fs : List Entry} {ws vs : List (Nat × Nat)} (h : s.Wrote t es ws) (hr : t.regs = s.regs)
    (hs : t.seals = s.seals) (k : t.Wrote u fs vs) : s.Wrote u (es ++ fs) (ws ++ vs) := by
  have he : t.wb.epoch = s.wb.epoch := by rw [h.journal.wb]
  have ht : t.wb.tail = s.wb.tail + (s.newRecs es).length := by rw [h.journal.wb]
  have hn : s.newRecs (es ++ fs) = s.newRecs es ++ t.newRecs fs := by
    unfold State.newRecs
    rw [entryRecs_append, he, ht]
    rfl
  have hm : t.mirrorEn = s.mirrorEn := by unfold State.mirrorEn; rw [hr]
  have hp : t.noPartner = s.noPartner := by unfold State.noPartner State.partner State.geo; rw [hs]
  have hu : u.wb.tail = t.wb.tail + (t.newRecs fs).length := by rw [k.journal.wb]
  refine ⟨⟨?_, fun m => ?_, ?_⟩, ?_⟩
  · rw [k.journal.wb, hn, hm, hp]
    rw [h.journal.wb]
    simp only [List.length_append, List.append_assoc, Nat.add_assoc, List.map_append]
    split <;> simp
  · rw [k.journal.sent (hm.trans m), h.journal.sent m]
  · obtain ⟨l, e, hl⟩ := h.journal.out
    obtain ⟨m, e', hl'⟩ := k.journal.out
    refine ⟨l ++ m, by rw [e', e, List.append_assoc], fun r q a => ?_⟩
    rw [hn] at q
    rcases List.mem_append.1 q with q | q
    · exact List.mem_append_left _ (hl r q a)
    · refine List.mem_append_right _ ?_
      have := hl' r q (by simpa only [State.recAddr_regs hr, State.stageAddr_regs hr] using a)
      rwa [State.recAddr_regs hr] at this
  · refine (h.stage.trans hr k.stage).mono fun w hw => ?_
    simp only [State.newSpans, List.mem_append, List.mem_map, List.mem_range, State.recAddr_regs hr] at hw ⊢
    rcases hw with (⟨i, hi, rfl⟩ | hw) | (⟨i, hi, rfl⟩ | hw)
    · exact .inl ⟨i, by omega, rfl⟩
    · exact .inr (.inl hw)
    · exact .inl ⟨t.wb.tail - s.wb.tail + i, by omega, by rw [show s.wb.tail + (t.wb.tail - s.wb.tail + i) = t.wb.tail + i by omega]⟩
    · exact .inr (.inr hw)

end Sys2Proof.Machine
end

