-- ==== Sys2Proof/Machine/Accuracy.lean ====
section
/-!
DEFINITION. The accuracy bounds (R231 to R245, R248, R250 to R253) over the model's own evaluation with the ROM images. The manual
prints no coefficient but level-1 c0 of slots 0 and 1 (R198), so the bounds are what it says of the others: a claim that needs the
accuracy of a function takes the bound of its rule as a premise, and a run of the model needs none of them (log 16). Each rule is a
proposition of its own, so that a claim takes no more than it uses.
-/
namespace Sys2Proof.Machine.Accuracy
open Sys2Proof Sys2Proof.Machine

-- The measure (R231 to R233) -----------------------------------------------------------------------------------------

/-- The real number that a finite value denotes. -/
noncomputable def real : Fv → ℝ
  | .fin s m e => (if s then -1 else 1) * (m : ℝ) * (2 : ℝ) ^ e
  | _ => 0

/-- The real number that a finite L36 value denotes (R76). -/
noncomputable def realL (z : L36) : ℝ := (if z.neg then -1 else 1) * (2 : ℝ) ^ ((z.mag : ℝ) / 2 ^ 24)

/-- u. -/
noncomputable def u : ℝ := 2 ^ (-24 : ℤ)

/-- One ulp at an exact result y of a grid with p significant bits and least normal exponent emin (R231). -/
noncomputable def ulp (p : Nat) (emin : Int) (y : ℝ) : ℝ :=
  (2 : ℝ) ^ ((if y = 0 then emin else max ⌊Real.logb 2 |y|⌋ emin) - p + 1)

/-- One ulp of an output of the IEEE family. -/
noncomputable def ulpOf (o : Fmt) (y : ℝ) : ℝ := ulp (o.manBits + 1) (Path.emin o) y

/-- The Gauss error function. -/
noncomputable def erf (x : ℝ) : ℝ := 2 / √Real.pi * ∫ t in (0 : ℝ)..x, Real.exp (-t ^ 2)

/-- The exact function of a built-in, zero for the others (R232). -/
noncomputable def exact (f : Fn) (x : ℝ) : ℝ :=
  match f with
  | .exp b2 => if b2 then (2 : ℝ) ^ x else Real.exp x
  | .log nat => if nat then Real.log x else Real.logb 2 x
  | .recip => x⁻¹
  | .sqrt => √x
  | .rsqrt => (√x)⁻¹
  | .pow c => x ^ real (Fv.of32 c)
  | .sigmoid => (1 + Real.exp (-x))⁻¹
  | .silu => x * (1 + Real.exp (-x))⁻¹
  | .tanh => Real.tanh x
  | .erf => erf x
  | .softplus => Real.log (1 + Real.exp x)
  | .geluErf => x / 2 * (1 + erf (x / √2))
  | .geluTanh => x / 2 * (1 + Real.tanh (√(2 / Real.pi) * (x + 44715 / 1000000 * x ^ 3)))
  | .user _ | .prog _ => 0

/-- The condition number κ(x). -/
noncomputable def kappa (f : Fn) (x : ℝ) : ℝ := |x * deriv (exact f) x / exact f x|

/-- The arguments that a bound speaks of. -/
def InDomain (f : Fn) (x : ℝ) : Prop :=
  match f with
  | .recip => x ≠ 0
  | .sqrt | .rsqrt | .log _ => 0 < x
  | .pow c => 0 < x ∧ |real (Fv.of32 c)| ≤ 2 ^ 10
  | .user _ | .prog _ => False
  | _ => True

/-- The functions whose slot is a function table. -/
def isTable : Fn → Bool
  | .sigmoid | .silu | .tanh | .erf | .softplus | .geluErf | .geluTanh => true
  | _ => false

def isPow : Fn → Bool
  | .pow _ => true
  | _ => false

/-- An FP32 number. -/
def IsF32 (x : Fv) : Prop := x.isFin = true ∧ Fv.eqv (Fv.rne32 x) x = true

/-- A descriptor of one function with `k` passes into an unscaled output: no epilogue, no clip, the ROM images (R234). -/
def ctx (o : Fmt) (k : Nat) : Ctx := ⟨false, Conv.rom, k, ORef.plain o, none⟩

def use (f : Fn) : FnUse := ⟨f, .rom (f.slot.getD 0), []⟩

/-- An argument as an element: an FP32 number, or a code of an L format (R232). -/
inductive Arg where
  | f32 (x : Fv)
  | code (f : Fmt) (scale code t : Nat)

def Arg.el : Arg → El
  | .f32 x => ⟨x, none, x, 0x7F, 0⟩
  | .code f s c t => elOf false Conv.rom f t [] s c

/-- The exact value of an argument (R232). -/
noncomputable def Arg.real (a : Arg) : ℝ :=
  match a.el.img with
  | some z => if z.isFin then realL z else 0
  | none => Accuracy.real a.el.x

/-- A finite argument that a bound over FP32 speaks of. -/
def Arg.Ok : Arg → Prop
  | .f32 x => IsF32 x
  | .code f s c t => f.isL = true ∧ (Elem.lmag f s c t).isFin = true

/-- What the output path makes of an argument, and the element written (R411). -/
def cut (f : Fn) (o : Fmt) (k : Nat) (a : Arg) : Cut := Path.fnOut (ctx o k) (use f) a.el.x a.el.img

def written (f : Fn) (o : Fmt) (k : Nat) (a : Arg) : Coded := Rnd.elem (ORef.plain o) .rne 0 (cut f o k a).v

/-- The results that a bound speaks of (R233): no overflow or saturation, no flush, no NaN and no code of R95; no zero or infinite
class on the way. -/
def Covered (f : Fn) (o : Fmt) (k : Nat) (a : Arg) : Prop :=
  InDomain f a.real ∧ a.Ok ∧ ((cut f o k a).cns ||| (written f o k a).cns) &&& (cSAT ||| cOVF ||| cNAN ||| cINF ||| cFLUSH) = 0 ∧
  ∀ z, (Lane.eval f ⟨Conv.rom, (use f).bank⟩ k (Lane.defTheta o) a.el.x a.el.img).log = some z → z.isFin = true

/-- The real number that a written element of the IEEE family denotes. -/
noncomputable def value (f : Fn) (o : Fmt) (k : Nat) (a : Arg) : ℝ := real (Elem.value o [] (written f o k a).code)

/-- The result lies within b ulps of the exact one. -/
def Within (f : Fn) (o : Fmt) (k : Nat) (a : Arg) (b : ℝ) : Prop :=
  |value f o k a - exact f a.real| ≤ b * ulpOf o (exact f a.real)

/-- The result is the exact one, rounded to nearest: no element of the format is nearer. -/
def Nearest (f : Fn) (o : Fmt) (k : Nat) (a : Arg) : Prop :=
  ∀ c, (Elem.value o [] c).isFin = true → |value f o k a - exact f a.real| ≤ |real (Elem.value o [] c) - exact f a.real|

/-- Steps of log2 magnitude per unit: 2^4 of L8, 2^8 of L16 (R231). -/
noncomputable def perUnit (o : Fmt) : ℝ := if o = .l8 then 2 ^ 4 else 2 ^ 8

/-- The field of a written L element, in steps. -/
noncomputable def steps (f : Fn) (o : Fmt) (k : Nat) (a : Arg) : ℝ :=
  (Elem.lField o (written f o k a).code : ℝ) / 2 ^ 24 * perUnit o

/-- The exact log magnitude, in steps. -/
noncomputable def exactSteps (f : Fn) (o : Fmt) (a : Arg) : ℝ := Real.logb 2 |exact f a.real| * perUnit o

/-- An exact result that an L format represents: neither zero nor below its least field, nor at the field that a negative element
does not have (R59, R233). -/
def Shown (f : Fn) (o : Fmt) (a : Arg) : Prop :=
  exact f a.real ≠ 0 ∧ -(2 ^ (Rnd.lWidth o - 1) : ℝ) ≤ exactSteps f o a ∧ (exact f a.real < 0 → 1 < |exactSteps f o a|)

/-- The field lies within b steps of the exact log magnitude. -/
def WithinSteps (f : Fn) (o : Fmt) (k : Nat) (a : Arg) (b : ℝ) : Prop := |steps f o k a - exactSteps f o a| ≤ b

-- The conversion kernels (R236) --------------------------------------------------------------------------------------

/-- `tol` keeps within 0.53 of a field unit. -/
def TolBound : Prop :=
  ∀ x, IsF32 x → x.isZero = false → |((Lane.tol Conv.rom x).mag : ℝ) - 2 ^ 24 * Real.logb 2 (|real x|)| ≤ 0.53

/-- `froml` keeps a relative error of 2^-29. -/
def FromlBound : Prop :=
  ∀ m : Int, -(2 ^ 32) ≤ m → m < 2 ^ 32 →
    |real (Lane.froml Conv.rom ⟨false, .fin, m⟩) - (2 : ℝ) ^ ((m : ℝ) / 2 ^ 24)| ≤ 2 ^ (-29 : ℤ) * (2 : ℝ) ^ ((m : ℝ) / 2 ^ 24)

-- FP32 outputs (R237 to R239) ----------------------------------------------------------------------------------------

/-- The ulps of R237 for a function at an exact argument in one, two or three passes; none for a table function and for pow in one
pass, which has a relative bound. -/
noncomputable def ulps (f : Fn) (k : Nat) (x : ℝ) : Option ℝ :=
  if isTable f then none
  else match k with
  | 1 => match f with
    | .exp _ | .recip => some 0.9
    | .sqrt | .rsqrt => some 0.75
    | .log _ => some (if 0.75 ≤ x ∧ x < 1.5 then 0.52 else 1.6)
    | _ => none
  | 2 => some 0.51
  | 3 => some 0.501
  | _ => none

def Elementary : Prop :=
  (∀ f k x b, Covered f .fp32 k (.f32 x) → ulps f k (real x) = some b → Within f .fp32 k (.f32 x) b) ∧
  (∀ f x, f = .recip ∨ f = .sqrt → Covered f .fp32 3 (.f32 x) → Nearest f .fp32 3 (.f32 x)) ∧
  ∀ c x, Covered (.pow c) .fp32 1 (.f32 x) →
    |value (.pow c) .fp32 1 (.f32 x) - exact (.pow c) (real x)| ≤
      0.5 * ulpOf .fp32 (exact (.pow c) (real x)) + (|real (Fv.of32 c)| + 1) * u * |exact (.pow c) (real x)|

/-- η of R238: of linear tables and of log tables. -/
noncomputable def eta (f : Fn) : ℝ :=
  match f with
  | .tanh | .erf | .softplus => 2 ^ (-27 : ℤ)
  | _ => 2 ^ (-25 : ℤ)

/-- The relative error of a table function in one pass (R238). -/
noncomputable def tableRel (f : Fn) (x : ℝ) : ℝ := kappa f x * 2 ^ (-19 : ℤ) + eta f

def TableOnePass : Prop :=
  ∀ f x, isTable f = true → Covered f .fp32 1 (.f32 x) →
    |value f .fp32 1 (.f32 x) - exact f (real x)| ≤
      0.5 * ulpOf .fp32 (exact f (real x)) + tableRel f (real x) * |exact f (real x)|

def TableRefined : Prop :=
  ∀ f x, isTable f = true →
    (Covered f .fp32 2 (.f32 x) → Within f .fp32 2 (.f32 x) 0.51) ∧ (Covered f .fp32 3 (.f32 x) → Within f .fp32 3 (.f32 x) 0.501)

-- Outputs of 16 bits or fewer (R240 to R244) -------------------------------------------------------------------------

def HalfRefined : Prop :=
  ∀ f o k x, isPow f = false → o = .fp16 ∨ o = .bf16 → k = 2 ∨ k = 3 → Covered f o k (.f32 x) → Nearest f o k (.f32 x)

/-- The arguments of R241: every code of an L format, and every FP32 number that FP16, BF16 or a block-scaled element of a tensor
with T = 1.0 decodes to. -/
def Exact16 : Arg → Prop
  | .code _ _ _ _ => True
  | .f32 x => (∃ f c, (f = .fp16 ∨ f = .bf16) ∧ x = Elem.value f [] c) ∨
      ∃ f tab s c, (f.isMx || f.isB) = true ∧ x = Elem.decode f tab s c 0x3F800000

def LogNearest : Prop :=
  ∀ f o k a, isPow f = false → o = .l8 ∨ o = .l16 → k = 2 ∨ k = 3 → Exact16 a → Covered f o k a → Shown f o a →
    WithinSteps f o k a 0.5

def LogRefined : Prop :=
  ∀ f o k x, isPow f = false → k = 2 ∨ k = 3 → Covered f o k (.f32 x) → Shown f o (.f32 x) →
    (o = .l16 → WithinSteps f o k (.f32 x) (0.5 + 2 ^ (-15 : ℤ))) ∧ (o = .l8 → WithinSteps f o k (.f32 x) (0.5 + 2 ^ (-19 : ℤ)))

def PowRefined : Prop :=
  ∀ c o k x, k = 2 ∨ k = 3 → Covered (.pow c) o k (.f32 x) →
    ((o = .fp16 ∨ o = .bf16) → Within (.pow c) o k (.f32 x) 0.501) ∧
    ((o = .l8 ∨ o = .l16) → Shown (.pow c) o (.f32 x) → WithinSteps (.pow c) o k (.f32 x) 0.501)

/-- The table of R244: BF16, FP16, L16, L8. -/
noncomputable def onePass (f : Fn) : Fmt → Option ℝ
  | .bf16 => match f with
    | .tanh | .erf => some 0.5005 | .sigmoid | .softplus | .silu => some 0.56 | .geluErf | .geluTanh => some 0.6
    | .pow c => some (0.5 + |real (Fv.of32 c)| * 2 ^ (-15 : ℤ)) | .user _ | .prog _ => none | _ => some 0.502
  | .fp16 => match f with
    | .tanh | .erf => some 0.504 | .sigmoid | .softplus | .silu => some 0.57 | .geluErf | .geluTanh => some 0.63
    | .pow c => some (0.5 + |real (Fv.of32 c)| * 2 ^ (-12 : ℤ)) | .user _ | .prog _ => none | _ => some 0.51
  | .l16 => match f with
    | .tanh | .erf => some 0.501 | .sigmoid | .softplus | .silu => some 0.52 | .geluErf | .geluTanh => some 0.53
    | .pow c => some (0.5 + |real (Fv.of32 c)| * 2 ^ (-15 : ℤ)) | .user _ | .prog _ => none | _ => some 0.501
  | .l8 => match f with
    | .tanh | .erf => some 0.5001 | .sigmoid | .softplus | .silu => some 0.502 | .geluErf | .geluTanh => some 0.503
    | .pow c => some (0.5 + |real (Fv.of32 c)| * 2 ^ (-19 : ℤ)) | .user _ | .prog _ => none | _ => some 0.5001
  | _ => none

def Narrow : Prop :=
  ∀ f o x b, Covered f o 1 (.f32 x) → onePass f o = some b →
    if o.isL then Shown f o (.f32 x) → WithinSteps f o 1 (.f32 x) b else Within f o 1 (.f32 x) b

-- Block-scaled outputs and GATE (R245, R248) -------------------------------------------------------------------------

/-- The FP32 error that q of R87 carries: the function's bound at the passes, and half an ulp of the quotient by T. -/
noncomputable def qBound (f : Fn) (k : Nat) (x : ℝ) (t : Nat) : ℝ :=
  let y := exact f x
  let fn := if isTable f && decide (k = 1) then 0.5 * ulpOf .fp32 y + tableRel f x * |y|
    else if isPow f && decide (k = 1) then 0.5 * ulpOf .fp32 y + (kappa f x + 1) * u * |y|
    else (if isTable f then (if k = 2 then 0.51 else 0.501) else (ulps f k x).getD 0) * ulpOf .fp32 y
  fn / |real (Fv.of32 t)| + (if t % 2 ^ 23 = 0 then 0 else 0.5 * ulpOf .fp32 (y / real (Fv.of32 t)))

/-- What goes to the block stage for an output with per-tensor scale T lies within that of f(x) ÷ T, and the block stage rounds it
to nearest on the element grid at X (R104). -/
def Quotient : Prop :=
  ∀ (f : Fn) (o : Fmt) (k : Nat) (x : Fv) (t : Nat) (q : Fv), Covered f .fp32 k (.f32 x) → o.isL = false → o.scaled = true → (Fv.of32 t).isFinNz = true →
    (Path.fnOut ⟨false, Conv.rom, k, { ORef.plain o with t := t }, none⟩ (use f) x none).v = .lin q → q.isFin = true →
    |real q - exact f (real x) / real (Fv.of32 t)| ≤ qBound f k (real x) t

/-- GATE of an activation and a gate element: its value before the output rounding (R248). An exact image of the gate adds no
error of its own. -/
def Gate : Prop :=
  ∀ (f : Fn) (o : Fmt) (a : Fv) (b : Arg) (v : Fv), isTable f = true → o.isIeee = true → Covered f .fp32 1 (.f32 a) → b.Ok → b.real ≠ 0 →
    (Path.gate (ctx o 1) (use f) (Arg.f32 a).el b.el).v = .lin v → v.isFinNz = true →
    |real v - exact f (real a) * b.real| ≤
      (kappa f (real a) * 2 ^ (-19 : ℤ) + (2 : ℝ) ^ (if b.el.img.isSome then (-24.5 : ℝ) else -23.5)) * |exact f (real a) * b.real|

-- Row operations (R250 to R253) --------------------------------------------------------------------------------------

/-- Relative error of at most e. -/
def Rel (y f e : ℝ) : Prop := |y - f| ≤ e * |f|

/-- ρ of R250 and the error of an exponential term (R251), by passes. -/
noncomputable def rho (k : Nat) : ℝ := (if k = 1 then 1.5 else if k = 2 then 1.02 else 1.002) * u
noncomputable def epsE (k : Nat) : ℝ := (if k = 1 then 2 else if k = 2 then 1.05 else 1.01) * u

def rowCtx (k : Nat) (fam : RowFam) : RowCtx := ⟨ctx .fp32 k, fam, ⟨⟨Conv.rom, .rom 1⟩, k, none⟩, []⟩

/-- The finite FP32 numbers of a row, where it has no others. -/
def RowOk (cs : List Chunk) : Prop := ∀ e ∈ Red.rowEls cs, IsF32 e.x ∧ e.img = none

/-- RMSN before its output rounding (R250): with a total within δ of the sum of squares, every element with its γ lies within
δ / 2 + 5u + ρ of x_i · γ_i ÷ √(Σx² ÷ N + ε). The total is that of the sum as it stands (R303, k = 0). -/
def Rmsn : Prop :=
  ∀ (k : Nat) (p : Row.Rms) (t : Fv) (δ : ℝ) (cs : List Chunk) (i : Nat) (e : El) (v : Fv), 1 ≤ k → k ≤ 3 → RowOk cs →
    0 ≤ real (Row.epsOf false p) → t.isFinNz = true →
    Rel (real t) (((Red.rowEls cs).map (fun e => real e.x ^ 2)).sum) δ → (Row.cells cs)[i]? = some (some e) →
    ((Row.rmsn (rowCtx k .ieee) p t 0 (Red.rowEls cs).length 0 cs).1.els[i]?).join.map (·.v) = some (.lin v) → v.isFinNz = true →
    Rel (real v) (real e.x * real (Row.gammaAt false p i) /
        √((((Red.rowEls cs).map (fun e => real e.x ^ 2)).sum) / (Red.rowEls cs).length + real (Row.epsOf false p)))
      (δ / 2 + 5 * u + rho k)

/-- One exponential term (R251) in the normal range; below it one FP32 rounding alone may exceed a relative bound. -/
def Term : Prop :=
  ∀ k d, 1 ≤ k → k ≤ 3 → IsF32 d → real d ≤ 0 → (2 : ℝ) ^ (-126 : ℤ) ≤ Real.exp (real d) →
    Rel (real (Red.ex (rowCtx k .ieee).soft d).1) (Real.exp (real d)) (epsE k)

/-- The softmax state of a row: chunk by chunk within a segment, the segments merged in order (R308). -/
def rowState (c : Red.SoftCtx) (cs : List Chunk) : Red.St :=
  ((Red.segments cs).map (fun g => g.2.foldl (fun r ch => (Red.chunkStep c r ch.els).1) Red.St.empty)).foldl
    (fun a b => (Red.merge c a b).1) Red.St.empty

/-- R: the chunks at which the running maximum of their segment rises. -/
def rises (c : Red.SoftCtx) (cs : List Chunk) : Nat :=
  ((Red.segments cs).map (fun g => (g.2.foldl (fun (r : Red.St × Nat) ch =>
    let q := (Red.chunkStep c r.1 ch.els).1; (q, r.2 + b2n (Fv.lt r.1.m q.m && r.1.s.isSome))) (Red.St.empty, 0)).2)).sum

/-- A: the additions after the chunk level of a row of N unmasked elements. -/
def adds (n : Nat) : Nat := min ((n + 31) / 32) 128 - 1 + ((n + 4095) / 4096 - 1)

noncomputable def sumErr (k : Nat) (cs : List Chunk) : ℝ :=
  1.01 * (5 + (adds (Red.rowEls cs).length : ℝ) + 2 * (rises (rowCtx k .ieee).soft cs : ℝ)) * u

noncomputable def expSum (cs : List Chunk) : ℝ := ((Red.rowEls cs).map (fun e => Real.exp (real e.x))).sum

/-- SMAX before its output rounding (R252), flushed probabilities apart. -/
def Smax : Prop :=
  ∀ (k : Nat) (cs : List Chunk) (s : Fv) (i : Nat) (e : El) (c : Cut) (v : Fv), 1 ≤ k → k ≤ 3 → RowOk cs →
    (rowState (rowCtx k .ieee).soft cs).s = some s → (Row.cells cs)[i]? = some (some e) →
    ((Row.smax (rowCtx k .ieee) (rowState (rowCtx k .ieee).soft cs).m s 0 cs).els[i]?).join = some c →
    c.cns &&& cFLUSH = 0 → c.v = .lin v →
    Rel (real v) (Real.exp (real e.x) / expSum cs) (2 * epsE k + sumErr k cs + u)

/-- LSMAX before its output rounding (R253). -/
def Lsmax : Prop :=
  ∀ (k : Nat) (cs : List Chunk) (s : Fv) (i : Nat) (e : El) (v : Fv), 1 ≤ k → k ≤ 3 → RowOk cs →
    (rowState (rowCtx k .ieee).soft cs).s = some s → (Row.cells cs)[i]? = some (some e) →
    ((Row.lsmax (rowCtx k .ieee) (rowState (rowCtx k .ieee).soft cs).m s 0 cs).els[i]?).join.map (·.v) = some (.lin v) →
    |real v - (real e.x - Real.log (expSum cs))| ≤
      epsE k + sumErr k cs + 2 * u + u * |real e.x - real (rowState (rowCtx k .ieee).soft cs).m|

/-- The S5's functions under COMPAT_GEN = 5, results in the normal range (R254). -/
def S5Bound : Prop :=
  ∀ f slot x, f.s5Slot = some slot → IsF32 x → InDomain f (real x) → (Lane.evalS5 f (.rom slot) slot x).lin.isFinNz = true →
    (2 : ℝ) ^ (-126 : ℤ) ≤ |exact f (real x)| →
    |real (Lane.evalS5 f (.rom slot) slot x).lin - exact f (real x)| ≤ 2 * ulpOf .fp32 (exact f (real x))

end Sys2Proof.Machine.Accuracy
end

