-- ==== Sys2Proof/WellFormed.lean ====
section
/-!
DEFINITION. Which commands can come about at all: every operand within what its port, its register or its field can carry.
A meaning does not rely on it; a claim may.
-/
namespace Sys2Proof

namespace Flit

/-- The fields of a flit fit their places (R543). -/
def wf (f : Flit) : Bool :=
  decide (f.lane < 8) && decide (f.attempt < 4) && decide (f.chainId < 65536) && decide (f.src < 65536) && decide (f.destId < 65536) &&
    decide (f.lseq < 2 ^ 32) && decide (f.offset < 2 ^ 32) && f.payload.length == 44

end Flit

namespace Beat

/-- A beat of an accumulator-stream port: 128 bytes, one keep bit for each, TUSER of its port's width (R754). -/
def wf (b : Beat) : Bool := b.data.length == 128 && decide (b.keep < 2 ^ 128) && decide (b.user < 2 ^ 48)

end Beat

namespace WinReq

/-- A burst stands on one of the store-window ports SW0 and SW1 and inside the window (R749, R750). -/
def wf (r : WinReq) : Bool := decide (r.port < 2) && decide (r.off < 2 ^ 27) && decide (0 < r.len)

end WinReq

namespace Instr

/-- A 32-bit word. -/
def word (n : Nat) : Bool := decide (n < 2 ^ 32)
/-- A word offset in the 64 KiB setup window (R760). -/
def offset16 (n : Nat) : Bool := decide (n < 65536)
/-- A ring number (R328). -/
def ringNo (n : Nat) : Bool := decide (n < 64)
/-- A waymark sequence number (R618). -/
def seqNo (n : Nat) : Bool := decide (0 < n) && decide (n < 2 ^ 64)
/-- A cluster number (R27). -/
def clusterNo (n : Nat) : Bool := decide (n < 17)
/-- An accumulator-stream port (R754). -/
def portNo (n : Nat) : Bool := decide (n < 16)
/-- A level of the governor (R712). -/
def level (n : Nat) : Bool := decide (n < 16)

/-- The check of a command. -/
def wf : Instr → Bool
  | .setupWrite o d st => offset16 o && word d && decide (st < 16)
  | .snapshotRead o => offset16 o
  | .setupAccess _ o d => offset16 o && word d
  | .sealCtlWrite d | .routeInv d | .fenceReq d | .assayForce d | .go d | .rerun d => word d
  | .ringEnable r d | .ringDisable r d => ringNo r && word d
  | .sealChangeApply f => decide (f < 4)
  | .bell r w st => r.wf && word w && decide (st < 16)
  | .headRecordData r _ d => ringNo r && d.length == 64
  | .descriptorData r _ d => ringNo r && d.length == 128
  | .waymarkWrite r | .readyRecheck r | .notReadyTimeout r => ringNo r
  | .milepostWriteResponse q _ _ | .groupIssue q _ | .shapeWordRead q _ | .paramRecordRead q _ => seqNo q
  | .valueTableRead q w _ => seqNo q && decide (w < 4)
  | .drainPoint q | .outputWritesComplete q | .fence q | .mark q | .capture q | .loadIngot q | .switch q | .peek q
  | .arriveLimitExpire q | .mirrorTimeout q => seqNo q
  | .memReadError q p _ _ | .memWriteError q p _ => seqNo q && decide (p < 8)
  | .convert q _ | .affine q _ | .func q _ | .gate q _ | .clamp q _ | .rmsn q _ | .smax q _ | .lsmax q _ | .rowred q _
  | .rowstat q _ | .scan q _ | .mcombine q _ | .chain q _ | .halo q _ | .upd q _ => seqNo q
  | .ingotPinsReleased q _ h => seqNo q && h.length == 128
  | .ingotLoadDone q _ _ => seqNo q
  | .codebookFillDone c q f => clusterNo c && seqNo q && decide (f.scale < 256)
  | .segmentTotalArrive q _ _ _ => seqNo q
  | .bandDrainDone c => clusterNo c
  | .asBeat p b | .asCheckPattern p b => portNo p && b.wf
  | .strayWaitExpire p => portNo p
  | .tollRequest r | .windowRead r => r.wf
  | .tollSet r d st => r.wf && decide (d < 2 ^ 64) && decide (st < 256)
  | .windowWrite r d st => r.wf && d.length == r.len && st.length == r.len
  | .cwGrant f _ | .ack f _ | .run f _ | .offset f _ | .segtot f _ | .total f _ | .haloMessage f _ | .sign f _ | .pub f _ | .abort f _
  | .mirror f _ | .parity f _ | .mirrorDone f _ | .waybook f _ | .waybookDone f _ | .sync f _ => f.wf
  | .ackTimeout p => decide (p < 65536)
  | .exchTimeout c => decide (c < 65536)
  | .txCredit _ l => decide (l < 8)
  | .incidentDetect f => decide (f.source < 256) && decide (f.unit < 65536) && decide (f.detail < 65536)
  | .scrub _ n => decide (n ≤ 2)
  | .assayComplete r _ => clusterNo r.cluster && r.lanes.all (fun l => decide (l < 264))
  | .startStepDone n _ _ | .startStepTimeout n => decide (n < 10)
  | .pgGrant l t => level l && decide (t < 256)
  | .throttle l | .railGood l => level l
  | .pgReservedWord w => word w
  | .recalComplete d => decide (d < 256)
  | .clusterClockGated d => decide (d < 32)
  | .flitCrcFailure l p _ => decide (l.lane < 8) && decide (p < 65536)
  | .mirrorWriteResponse p q => decide (p < 65536) && seqNo q
  | .waybookWindowWriteResponse p => decide (p < 65536)
  | .commitPad | .pendingSetApply | .drawApply | .geomApply | .dbgDataRead | .waybookWriteResponse _ _ _ | .tollGrantReported
  | .mirrorLost | .checkpoint | .recoveryEnd _ | .assayStart | .resetAssert _ | .coldResetRelease | .warmResetRelease _
  | .demandUpdate | .forecastStart | .levelStep | .holdExpire | .pgWordTruncated | .pgLost | .droopStretch | .stretchEnd
  | .recalWindow => true

end Instr
end Sys2Proof
end

