-- ==== Sys2Proof/Tests/Slice0.lean ====
section
/-!
SUPPORT. The model's own tests: ill-formed commands that `wf` refuses, worked examples of the manual, and for every statement a
concrete state and operands that meet its hypotheses.
-/
namespace Sys2Proof.Tests
set_option Elab.async false
open Sys2Proof Sys2Proof.Machine

-- Small states --------------------------------------------------------------------------------------------------------

/-- 128 bytes of a descriptor, from the values of its fields by their first byte. -/
def dsc (fs : List (Nat × Nat)) : Desc := toBytes 128 (fs.foldl (fun a p => a + (p.2 <<< (8 * p.1))) 0)

/-- Header of one descriptor, last of its group: ROWS 1, PLAN 32 × 256, COLS 32. -/
def hd (op : Nat) : List (Nat × Nat) := [(0, op), (1, 2), (2, 1), (24, 1), (26, 32), (28, 32), (32, 256)]

/-- References at bytes 56 and 72: FP32, T 1, LP 1, planes apart. -/
def ao : List (Nat × Nat) := [(48, 16), (64, 0x3F800000), (68, 0x200), (72, 0x1000), (80, 0x3F800000), (84, 0x200)]

def dFence : Desc := dsc [(0, 1), (1, 2)]
def dMark : Desc := dsc [(0, 2), (1, 2)]
def dCkpt : Desc := dsc [(0, 2), (1, 2), (48, 1)]
def dConvert : Desc := dsc (hd 0x10 ++ ao)

def mem1 (seq : Nat) (d : Desc) : Member where
  seq := seq
  ring := 0
  idx := 0
  bytes := d
  status := 0
  compat := 6
  reads := []
  progGen := 0
  fgen := 0
  agen := 0
  padVal := 0
  rnum := 0
  resv := 16
  taken := true
  fault := 0
  shape := none
  tabs := []
  param := none
  inputs := none
  beats := []
  run := []
  retries := 0
  result := none
  census := Census.zero
  ieee := 0
  digests := []
  owed := []
  seen := []
  mirrorDone := true
  capSet := false
  caps := []
  capHeads := []
  milepost := none
  pubSeen := false
  respReturned := false

def shaped (m : Member) : Member := { m with shape := some ⟨1, 32, none, none, []⟩ }

def grp (m : Member) : Group where
  ring := 0
  members := [m]
  ended := true
  dead := false
  issued := true
  waited := false
  gran := []
  closeWritten := false
  closeReported := false
  wrote := false
  outDone := false
  published := false
  posted := false
  replay := false
  openSeen := false
  closeSeen := false

def ring0 : Ring := { State.resetRing with
  ctl := 0x03E80003, base := 0x10000, head := 0x20000, cpl := 0x30000, known := true, seqKnown := true, status := .running }

/-- A block that has started, with ring 0 running. -/
def rdy : State := { State.reset with
  start := { State.reset.start with active := false, running := [], ready := 0x3FF, codes := List.replicate 10 (some .pass) },
  gov := { State.reset.gov with coreGood := true, sramGood := true },
  wb := { State.reset.wb with tail := 8, epoch := 1 },
  rings := ring0 :: List.replicate 63 State.resetRing }

def ringIs (g : Ring) (s : State) : State := { s with rings := s.rings.set 0 g }
def one (g : Group) (s : State) : State := { s with groups := [g] }

/-- Position 0 of a chain of four, with PARTNER 1. -/
def geo4 : BitVec 512 := BitVec.ofNat 512 (1 + (4 <<< 16) + (4 <<< 48) + (1 <<< 64) + (4 <<< 128))

def lnk : Link := ⟨1, true, 5, 7, 3, 64, 4, 1, false, 0, [], [], [], []⟩
def rt : Route := ⟨1, 9, false, true⟩

/-- A link to position 1 over CD. -/
def net : State := { rdy with
  seals := { rdy.seals with geometry := geo4 },
  cw := { rdy.cw with routes := [rt], links := [lnk], credCd := List.replicate 8 2, credCu := List.replicate 8 2 } }

def flt (chain off : Nat) (p : List Byte) : Flit := ⟨true, 0, true, 0, chain, 1, 0, 7, off, padPayload p⟩

def ent (src unit sf : Nat) : IncEntry := ⟨0, 2, sf, 1, src, unit, 0, 0, 0xFF, 0, 0, 0, 1, false, false⟩

-- Commands that cannot come about ------------------------------------------------------------------------------------

def wr8 (off : Nat) : WinReq := ⟨0, off, 8, true, false⟩
def goodBeat : Beat := ⟨zeroBytes 128, 2 ^ 128 - 1, 0⟩

theorem test_wf_refuses_setup : [Instr.setupWrite 65536 0 15, .setupWrite 0 (2 ^ 32) 15, .setupWrite 0 0 16, .snapshotRead 65536,
    .setupAccess true 65536 0, .setupAccess true 0 (2 ^ 32), .sealCtlWrite (2 ^ 32), .routeInv (2 ^ 32), .fenceReq (2 ^ 32), .assayForce (2 ^ 32),
    .go (2 ^ 32), .rerun (2 ^ 32), .ringEnable 64 0, .ringEnable 0 (2 ^ 32), .ringDisable 64 0, .ringDisable 0 (2 ^ 32), .sealChangeApply 4].all
    (fun c => !c.wf) = true := by decide

theorem test_wf_refuses_rings : [Instr.bell ⟨2, 0, 4, true, false⟩ 0 15, .bell ⟨0, 2 ^ 27, 4, true, false⟩ 0 15, .bell ⟨0, 0, 0, true, false⟩ 0 15,
    .bell (wr8 0) (2 ^ 32) 15, .bell (wr8 0) 0 16, .headRecordData 64 .okay (zeroBytes 64), .headRecordData 0 .okay (zeroBytes 63),
    .descriptorData 64 .okay (zeroBytes 128), .descriptorData 0 .okay (zeroBytes 127), .waymarkWrite 64, .readyRecheck 64, .notReadyTimeout 64].all
    (fun c => !c.wf) = true := by decide +kernel

theorem test_wf_refuses_groups : ([Instr.milepostWriteResponse 0 .okay [], .groupIssue 0 [], .shapeWordRead 0 [], .paramRecordRead 0 [],
    .valueTableRead 0 0 [], .valueTableRead 1 4 [], .drainPoint 0, .outputWritesComplete 0, .memReadError 0 0 0 false, .memReadError 1 8 0 false,
    .memWriteError 0 0 0, .memWriteError 1 8 0, .mirrorTimeout (2 ^ 64)] ++
    [Instr.fence 0, .mark 0, .capture 0, .convert 0 [], .affine 0 [], .func 0 [], .gate 0 [], .clamp 0 [], .rmsn 0 [], .smax 0 [], .lsmax 0 [],
    .rowred 0 [], .rowstat 0 [], .scan 0 [], .mcombine 0 [], .chain 0 [], .halo 0 [], .upd 0 [], .loadIngot 0, .switch 0, .peek 0] ++
    [Instr.ingotPinsReleased 0 .okay (zeroBytes 128), .ingotPinsReleased 1 .okay [], .ingotLoadDone 0 .okay []]).all (fun c => !c.wf) = true := by
  decide +kernel

theorem test_wf_refuses_streams : [Instr.codebookFillDone 17 1 ⟨0, [], []⟩, .codebookFillDone 0 0 ⟨0, [], []⟩, .codebookFillDone 0 1 ⟨256, [], []⟩, .segmentTotalArrive 0 0 0 .empty,
    .bandDrainDone 17, .asBeat 16 goodBeat, .asBeat 0 { goodBeat with data := [] }, .asBeat 0 { goodBeat with keep := 2 ^ 128 },
    .asBeat 0 { goodBeat with user := 2 ^ 48 }, .asCheckPattern 16 goodBeat, .strayWaitExpire 16, .arriveLimitExpire 0,
    .tollRequest ⟨2, 0, 8, true, false⟩, .windowRead ⟨0, 0, 0, true, false⟩, .tollSet (wr8 0) (2 ^ 64) 255, .tollSet (wr8 0) 0 256,
    .windowWrite (wr8 0) [] (List.replicate 8 true), .windowWrite (wr8 0) (zeroBytes 8) []].all (fun c => !c.wf) = true := by decide +kernel

theorem test_wf_refuses_flits : (let f := flt 0 0 []
    [Instr.cwGrant { f with attempt := 4 } [], .ack { f with chainId := 65536 } [], .run { f with src := 65536 } [], .offset { f with destId := 65536 } [],
    .segtot { f with lseq := 2 ^ 32 } [], .total { f with offset := 2 ^ 32 } [], .haloMessage { f with payload := [] } [],
    .ackTimeout 65536, .exchTimeout 65536, .txCredit true 8, .flitCrcFailure ⟨true, 8⟩ 0 [], .flitCrcFailure ⟨true, 0⟩ 65536 [], .mirrorWriteResponse 65536 1, .mirrorWriteResponse 0 0,
    .waybookWindowWriteResponse 65536]).all (fun c => !c.wf) = true := by decide +kernel

theorem test_wf_refuses_rest : [Instr.incidentDetect (finding 256 0 0 0), .incidentDetect (finding 1 65536 0 0),
    .incidentDetect { finding 1 0 0 0 with detail := 65536 }, .scrub 0 3, .assayComplete ⟨17, [], false⟩ true, .assayComplete ⟨0, [264], false⟩ true,
    .startStepDone 10 true ⟨[], [], [], []⟩, .startStepTimeout 10, .pgGrant 16 0, .pgGrant 0 256, .throttle 16, .railGood 16, .pgReservedWord (2 ^ 32),
    .recalComplete 256, .clusterClockGated 32].all (fun c => !c.wf) = true := by decide +kernel

theorem test_wf_accepts : [Instr.setupWrite 65535 (2 ^ 32 - 1) 15, .ringEnable 63 0, .bell (wr8 0x05000000) 63 15, .descriptorData 63 .okay (zeroBytes 128),
    .convert (2 ^ 64 - 1) [], .asBeat 15 goodBeat, .run (flt 65535 0 []) [], .scrub 0 2, .assayComplete ⟨16, [263], false⟩ true, .pgGrant 15 255,
    .clusterClockGated 31].all Instr.wf = true := by decide +kernel

-- Worked examples of the manual ---------------------------------------------------------------------------------------

def tollAt (c i q : Nat) : WinReq := wr8 (0x04000000 + (c <<< 18) + (i <<< 8) + (q <<< 3))
def run (c : Instr) (s : State) : State := match exec c s with | .next t => t | _ => s
def toll9 : State := { rdy with tolls := { rdy.tolls with count := rdy.tolls.count.set 9 40, limit := rdy.tolls.limit.set 9 42 } }

/-- The example of R382: issuer 3 repeats SEQ 17 and takes no second tile. -/
theorem test_toll_example :
    let s1 := run (.tollRequest (tollAt 9 3 17)) toll9
    let s2 := run (.tollRequest (tollAt 9 6 2)) s1
    let s3 := run (.tollRequest (tollAt 9 3 17)) { s2 with tolls := { s2.tolls with waits := [] }, wb := { s2.wb with recs := [] } }
    let s4 := run (.tollRequest (tollAt 9 3 18)) s3
    s1.tolls.memos = [⟨3, 9, 17, 40, true⟩] ∧ (s2.tolls.count.getD 9 0) = 42 ∧ s2.tolls.memos.getLast? = some ⟨6, 9, 2, 41, true⟩ ∧
      s3.out.getLast? = some (.winRead (tollAt 9 3 17) (toBytes 8 (40 + 2 ^ 32 + 2 ^ 33)) .okay) ∧ s3.tolls.count = s2.tolls.count ∧
      (s4.tolls.count.getD 9 0) = 42 ∧ s4.tolls.memos.getLast? = some ⟨3, 9, 18, 42, false⟩ := by decide +kernel

/-- The example below R759: the split-1 beat of chunk 12, row 7, on a tile with TILE_TAG 0x2C. -/
def beatEx : Beat := ⟨zeroBytes 20 ++ toBytes 4 0x3F800000 ++ zeroBytes 104, 2 ^ 128 - 1, 0x04080601C12C⟩
theorem test_beat_example : Beat'.ok beatEx = true ∧ Beat'.tag beatEx = 0x2C ∧ Beat'.split beatEx = 1 ∧ Beat'.row beatEx = 7 ∧
    Beat'.chunk beatEx = 12 := by decide +kernel

/-- STEP_INT from the reset values: 175 × 0x33 ÷ (10 × 0x50), rounded up (R715). -/
theorem test_step_int : rdy.stepInt = 12 := by decide +kernel

-- Witnesses: the machine and the setup port ---------------------------------------------------------------------------

theorem test_witness_steps : ({ rdy with pending := [.levelStep] } : State).pending = .levelStep :: [] ∧ State.reset.pending = [] ∧
    ∃ t, exec .levelStep rdy = .next t := ⟨rfl, rfl, _, rfl⟩

theorem test_witness_sized : rdy.Sized := by
  constructor <;> first | decide +kernel | (refine ⟨?_, ?_⟩ <;> decide +kernel)

/-- One byte of staging is known and one record waits. -/
def kept : State := { rdy with staging := [(65536, 7)], wb := { rdy.wb with recs := [⟨6, [], false, false, .none⟩, ⟨7, [], true, false, .none⟩] } }

theorem test_witness_invariants : kept.stagingOk ∧ (∃ t, step kept = .next t) ∧ kept.journalOk :=
  ⟨by unfold State.stagingOk; decide +kernel, ⟨_, rfl⟩, by unfold State.journalOk Wb.ordered; decide +kernel⟩

theorem test_witness_FencedBlockSendsNoFlit : Instr'.isReset .levelStep = false ∧ ({ net with inc := { net.inc with fenced := true } } : State).inc.fenced = true ∧
    ∃ t, exec .levelStep { net with inc := { net.inc with fenced := true } } = .next t := ⟨rfl, rfl, _, rfl⟩

theorem test_witness_PlainRegistersTakeTheirData : rdy.inReset = false := by decide +kernel

theorem test_witness_InvalidAccessesAreRefused : rdy.inReset = false ∧ ({ rdy with rst := ⟨false, true⟩ } : State).inReset = true ∧
    0x301 % 4 ≠ 0 ∧ (0x7 : Nat) ≠ 0xF ∧ regAt 0x2004 = none := by decide +kernel

def held : State := { rdy with setup := { rdy.setup with apb := { rdy.setup.apb with holds := [(0x300, 0xFFFFFFC0)] } } }
theorem test_witness_BusyFieldsKeepTheirValue : held.inReset = false ∧
    (held.setup.apb.holds.find? (fun q => q.1 == 0x300)).map (·.2) = some 0xFFFFFFC0 ∧ held.wbBusy = true ∧ held.regs.wbBase.toNat ≠ 0xFFFFFFC0 ∧
    (ringIs State.resetRing held).wbBusy = false := by decide +kernel

theorem test_witness_WideReadsAreSnapshots : rdy.inReset = false ∧ 0xC00 % 4 = 0 ∧ regAt 0xC00 = some (0xC00, 8) ∧ regAt (0xC00 + 4 * 7) = some (0xC00, 8) ∧
    regAt 0 = some (0, 2) ∧ regAt (0 + 4 * 1) = some (0, 2) := by decide +kernel

theorem test_witness_DebugSegmentActsAsSetupPort : rdy.setup.dbg = rdy.setup.apb := rfl

def padded : State := { rdy with pad := { rdy.pad with pendingSet := some (List.replicate 8 1) } }
theorem test_witness_PadSetAppliesAtQuietPoint : padded.inReset = false ∧ padded.pad.pendingSet = some (List.replicate 8 1) ∧ padded.quiet 2 = true ∧
    padded.quiet 3 = true := by decide +kernel

theorem test_witness_SealedFieldsChange :
    let base := { rdy with regs := { rdy.regs with drawStage := 1, geomStage := geo4 } }
    base.inReset = false ∧ base.seals.changes.length = 4 ∧ base.isReady 9 = true ∧ State.reset.isReady 9 = false ∧
    5 ≠ base.seals.value .compat ∧ 1 ≠ base.seals.value .repro ∧ base.regs.drawStage.toNat ≠ base.seals.value .drawKey ∧
    base.regs.geomStage.toNat ≠ base.seals.value .geometry ∧ geomOk base.regs.geomStage.toNat = true ∧ base.seals.pending = [] ∧
    base.seals.count .compat < 3 ∧ base.seals.count .geometry < 3 := by decide +kernel

def sealing (f : SealField) (v : Nat) : State := { rdy with seals := { rdy.seals with pending := [⟨f, v, false⟩] } }
theorem test_witness_SealChangeIsJournalledFirst : (sealing .compat 5).inReset = false ∧ (sealing .compat 5).wbOpen = true ∧
    (sealing .compat 5).seals.pending.find? (fun p => p.field == SealField.ofCode 0 && !p.written) = some ⟨.compat, 5, false⟩ ∧
    (State.governed (SealField.ofCode 0)).all (sealing .compat 5).quiet = true ∧
    (State.governed (SealField.ofCode 3)).all (sealing .drawKey 1).quiet = true := by decide +kernel

theorem test_witness_RingsStartAndStop :
    let off := ringIs { ring0 with ctl := 0x03E80C00, status := .disabled } rdy
    let busy := one (grp (mem1 1 dFence)) rdy
    off.inReset = false ∧ off.rings.length = 64 ∧ (off.ring 0).enabled = false ∧ bit 0x03E80C01 0 = true ∧ bits 0x03E80C01 11 8 ≤ 12 ∧
    (off.ring 0).base ≠ 0 ∧ (off.ring 0).head ≠ 0 ∧ (off.ring 0).cpl ≠ 0 ∧
    off.groups.any (fun g => g.ring == 0 && g.replay && g.ended && !g.published) = false ∧ off.isReady 9 = true ∧ off.inc.fenced = false ∧
    ({ off with start := { off.start with ready := 3 } } : State).isReady 9 = false ∧
    (rdy.ring 0).enabled = true ∧ bit 0x03E80002 0 = false ∧ (rdy.ring 0).ctl.toNat &&& 0xF00 = 0x03E80002 &&& 0xF00 ∧ rdy.openGroup 0 = none ∧
    busy.openGroup 0 = none ∧ busy.groups.any (fun g => g.ring == 0) = true ∧ rdy.groups.any (fun g => g.ring == 0) = false ∧
    (rdy.ring 0).status ≠ .disabled ∧ (rdy.ring 0).status ≠ .replay ∧ (rdy.ring 0).known = true ∧
    ((ringIs { ring0 with known := false } rdy).ring 0).known = false ∧
    (one { grp (mem1 1 dFence) with replay := true } off).groups.any (fun g => g.ring == 0 && g.replay && g.ended && !g.published) = true := by
  decide +kernel

theorem test_witness_FenceRequestFencesTheBlock : net.calm ∧ net.freePos = some 0 ∧ (∀ e ∈ net.cw.exchs, e.isOpen = false) ∧ bit 3 0 = true := by
  decide +kernel

theorem test_witness_StartAndAssayControls :
    let wait := { State.reset with start := { State.reset.start with waitingGo := true, running := [] } }
    rdy.inReset = false ∧ bit 0x300000 21 = true ∧ bits 0x300000 20 16 < 17 ∧
    bit 0x640001 8 = false ∧ bit 0x640001 0 = true ∧ wait.start.waitingGo = true ∧ wait.start.warm = false ∧ bit 0x640001 1 = false ∧ bit 0x640003 1 = true ∧
    State.recordOk (toBytes 64 wait.regs.startHint.toNat) = false ∧
    bit 0x640190 8 = true ∧ 7 ≤ bits 0x640190 7 4 ∧ bits 0x640190 7 4 ≤ 9 ∧ rdy.start.parked = false ∧ rdy.start.active = false ∧
    rdy.stepRunning (bits 0x640190 7 4) = false ∧ rdy.rerunBusy (bits 0x640190 7 4) = false ∧ rdy.rerunBusy 7 = false := by decide +kernel

/-- The hint clause of GO: a start record with its CRC. -/
def hint : List Byte := toBytes 4 0x54525453 ++ toBytes 1 1 ++ zeroBytes 51
theorem test_witness_hint :
    let s := { State.reset with regs := { State.reset.regs with startHint := BitVec.ofNat 512 (ofBytes (hint ++ toBytes 8 (Hash.crc64 hint))) } }
    State.recordOk (toBytes 64 s.regs.startHint.toNat) = true ∧ s.start.warm = false := by decide +kernel

theorem test_witness_DebugDataReadReturnsStaging :
    let top := { rdy with regs := { rdy.regs with dbgAddr := 0x3FFFFFC } }
    top.inReset = false ∧ top.ueIn top.regs.dbgAddr.toNat 4 = none ∧ top.stepBegun 1 = true ∧
    top.openGran.contains (top.regs.dbgAddr.toNat / 65536) = false ∧ top.heldGran.contains (top.regs.dbgAddr.toNat / 65536) = false ∧
    State.reset.stepBegun 1 = false ∧ State.reset.regs.clkCtl.getLsbD 17 = false := by decide +kernel

-- Witnesses: taking ---------------------------------------------------------------------------------------------------

theorem test_witness_BellsSetFlagsAndAreCounted :
    let q := wr8 0x05000000
    rdy.inReset = false ∧ WinReq'.inBell q = true ∧ rdy.rings.length = 64 ∧ rdy.shut = false ∧ q.incr = true ∧ q.atomic = false ∧
    (bits 64 31 6 ≠ 0) ∧ (rdy.ring 63).enabled = false ∧ bits 0x7 3 0 ≠ 0xF ∧
    (bits 0 31 6 = 0 ∧ bits 0xF 3 0 = 0xF ∧ (rdy.ring (bits 0 5 0)).enabled = true) ∧ (rdy.ring 0).reading = none ∧ rdy.isReady 9 = true ∧
    ({ rdy with inc := { rdy.inc with fenced := true } } : State).shut = true ∧
    ((ringIs { ring0 with reading := some .bell } rdy).ring 0).reading ≠ none := by decide +kernel

/-- A head record: PROD_IDX, ACCEPT_IDX and DONE_IDX. -/
def headRec (prod acc done : Nat) : List Byte := toBytes 4 prod ++ zeroBytes 28 ++ toBytes 4 acc ++ toBytes 4 done ++ zeroBytes 24

theorem test_witness_HeadRecordIsTaken :
    let a := ringIs { ring0 with reading := some .bell } rdy
    let e := ringIs { ring0 with reading := some .enable, status := .disabled } rdy
    let bs := fun (s : State) (data : List Byte) => s.rd [⟨(s.ring 0).head.toNat, data⟩] (s.ring 0).head.toNat 64
    a.rings.length = 64 ∧ a.inc.fenced = false ∧ (a.ring 0).pending = false ∧ (a.ring 0).enabled = true ∧ (a.ring 0).reading = some .bell ∧
    (a.ring 0).taking = true ∧ (BitVec.ofNat 32 (field (bs a (headRec 16 0 0)) 0 4) - a.acceptIdx 0).toNat = (a.ring 0).slots ∧
    (a.ring 0).slots < (BitVec.ofNat 32 (field (bs a (headRec 17 0 0)) 0 4) - a.acceptIdx 0).toNat ∧ a.openGroup 0 = none ∧
    (e.ring 0).pending = false ∧ (e.ring 0).enabled = true ∧ (e.ring 0).reading = some .enable ∧ e.untaken 0 = [] ∧
    (BitVec.ofNat 32 (field (bs e (headRec 21 5 5)) 0 4) - BitVec.ofNat 32 (field (bs e (headRec 21 5 5)) 32 4)).toNat ≤ (e.ring 0).slots := by
  decide +kernel

def fetching1 : State := ringIs { ring0 with prod := 2 } rdy
def atHead (h : Head) : State := ringIs { ring0 with prod := 1, atHead := some h } rdy

theorem test_witness_DescriptorsComeToTheHead :
    fetching1.rings.length = 64 ∧ fetching1.inc.fenced = false ∧ (fetching1.ring 0).taking = true ∧ 0 < (fetching1.ring 0).fetching ∧
    (fetching1.ring 0).atHead = none ∧ (fetching1.ring 0).arrived = [] ∧
    0 < ((ringIs { ring0 with prod := 2, atHead := some ⟨dFence, 0, false, false⟩ } rdy).ring 0).fetching := by decide +kernel

theorem test_witness_WaymarkIsWritten :
    let s := atHead ⟨dFence, 0, false, false⟩
    let bad := atHead ⟨dsc [(0, 1)], 0, false, false⟩
    s.rings.length = 64 ∧ (s.ring 0).atHead = some ⟨dFence, 0, false, false⟩ ∧ (s.ring 0).taking = true ∧ s.wb.stopped = false ∧ s.unsettled = false ∧
    s.isReady 9 = true ∧ s.inc.fenced = false ∧ s.sealHolds dFence = false ∧ s.member? s.wb.nextSeq = none ∧ s.check 0 dFence = 0 ∧
    s.needsReady dFence = true ∧ dFence.fuse = false ∧ s.openGroup 0 = none ∧ s.wbRoom (State.reserve dFence true true 0) = true ∧
    bad.check 0 (dsc [(0, 1)]) ≠ 0 ∧ bad.wbRoom (State.reserve (dsc [(0, 1)]) false true 0) = true := by decide +kernel

/-- A descriptor joins the open group of its ring: one that is rejected, and so ends it. -/
theorem test_witness_joins :
    let d := dsc [(0, 1), (1, 1)]
    let g := { grp { mem1 5 dConvert with taken := true } with ended := false, issued := false }
    let s := one g (atHead ⟨d, 0x0118, false, true⟩)
    (s.ring 0).atHead = some ⟨d, 0x0118, false, true⟩ ∧ (s.ring 0).taking = true ∧ s.wb.stopped = false ∧ s.unsettled = false ∧ s.isReady 9 = true ∧
    s.inc.fenced = false ∧ s.sealHolds d = false ∧ s.member? s.wb.nextSeq = none ∧ (d.fuse && (s.openGroup 0).isSome) = true ∧
    s.wbRoom (State.reserve d false false 0) = true ∧ s.groups = [] ++ g :: [] ∧ g.ring = 0 ∧ g.ended = false ∧ g.members ≠ [] := by decide +kernel

theorem test_witness_WaitingDescriptorsAreSettled :
    let s := atHead ⟨dConvert, 0, true, false⟩
    (s.ring 0).atHead = some ⟨dConvert, 0, true, false⟩ ∧ s.needsReady dConvert = true ∧ (s.ring 0).waitLimit ≠ 0 ∧ s.isReady 9 = true := by
  decide +kernel

def done1 (m : Member) : Member := { m with result := some ⟨none, [], [], none, []⟩ }

def rec1 (act : Act) : State := { rdy with wb := { rdy.wb with recs := [⟨7, [], false, false, act⟩] } }

theorem test_witness_ReportsFollowRnumOrder :
    let two := { rdy with wb := { rdy.wb with recs := [⟨6, [], false, false, .none⟩, ⟨7, [], false, false, .none⟩] } }
    let sl := { rec1 (.seal .compat) with seals := { rdy.seals with pending := [⟨.compat, 5, true⟩] } }
    let m := { mem1 1 dFence with taken := false }
    let g := { grp m with ended := false }
    let wm := one g (rec1 (.waymark 1))
    two.routed ∧ two.inc.fenced = false ∧ two.wb.recs = ⟨6, [], false, false, .none⟩ :: [⟨7, [], false, false, .none⟩] ∧
    [(⟨7, [], false, false, .none⟩ : Rec)].any (fun r => r.rnum == 7 && !r.ok) = true ∧
    (rec1 .toll).routed ∧ (rec1 .toll).wb.recs = [⟨7, [], false, false, .toll⟩] ∧ (rec1 .toll).mirrorEn = false ∧
    sl.routed ∧ sl.mirrorEn = false ∧ sl.seals.pending.find? (fun p => p.field == .compat && p.written) = some ⟨.compat, 5, true⟩ ∧ sl.tolls.asks = [] ∧
    wm.routed ∧ wm.only g m ∧ g.ended = false ∧ g.published = false ∧ m.milepost = none ∧
    (rec1 (.checkpoint 5 0)).routed ∧ (rec1 (.checkpoint 5 0)).tolls.asks = [] ∧ (rec1 (.checkpoint 5 0)).inc.fenced = false := by decide +kernel

theorem test_witness_reports_that_release :
    let m := { done1 (shaped (mem1 1 dConvert)) with milepost := some (zeroBytes 64) }
    let c := { grp m with closeWritten := true }
    let s := one c (rec1 (.groupClose 1))
    let p := { c with closeReported := true, wrote := true, outDone := true }
    let t := one p (rec1 (.published 1))
    let w := tollAt 9 0x3FF 0
    let u := { rec1 (.tollSet 9) with tolls := { rdy.tolls with sets := [(w, 7)] } }
    let e := { ent 0x0C 0 2 with state := 2 }
    let i := { rec1 (.incident 31) with inc := { rdy.inc with log := rdy.inc.log.set 31 (some e) } }
    s.routed ∧ s.only c m ∧ c.wrote = false ∧ c.dead = false ∧ s.wb.recs = [⟨7, [], false, false, .groupClose 1⟩] ∧
    t.routed ∧ t.only p m ∧ p.posted = false ∧ p.ring = m.ring ∧ m.milepost = some (zeroBytes 64) ∧ t.cw.exchs = [] ∧ (t.ring 0).status ≠ .replay ∧
    t.tolls.asks = [] ∧
    u.routed ∧ u.tolls.sets.find? (fun w => w.2 == 7) = some (w, 7) ∧
    i.routed ∧ i.entry? 31 = some e ∧ e.sevFinal ≠ 4 := by decide +kernel

theorem test_witness_MilepostResponseMovesDone :
    let m := { mem1 1 dFence with milepost := some (zeroBytes 64) }
    let g := { grp m with posted := true, published := true, outDone := true }
    (one g rdy).only g m ∧ g.ring = m.ring ∧ m.respReturned = false ∧ m.ring < 64 ∧ (one g rdy).rings.length = 64 ∧ m.idx = ((one g rdy).ring m.ring).done ∧
    ((one g rdy).ring m.ring).enabled = true ∧ (one g rdy).inc.fenced = false ∧ g.posted = true := by decide +kernel

-- Witnesses: groups and operations ------------------------------------------------------------------------------------

def waiting (d : Desc) : Group := { grp (mem1 1 d) with issued := false }

theorem test_witness_GroupIssueTakesItsAllocation :
    let g := waiting dConvert
    let s := one g rdy
    s.routed ∧ s.group? 1 = some g ∧ s.atIssue g = true ∧ s.heldAtIssue g = false ∧ s.outOfOrder g = false ∧ s.inc.fenced = false ∧
    s.start.parked = false ∧ s.inReset = false ∧ s.overflows g = none ∧ (∀ m ∈ g.members, s.wide m.bytes = false ∧ s.needsDone m.bytes = false) ∧
    0 < s.need g ∧ s.need g ≤ s.freeGran.length ∧ s.stagingQueue g = false ∧ s.assignReplicas g = some s ∧ s.noCapture ∧
    (∀ b ∈ s.asHeld, b = none) ∧ g.openSeen = false := by decide +kernel

def dShape : Desc := dsc ((hd 0x10 ++ ao).filter (fun p => p.1 != 24 && p.1 != 28) ++ [(16, 0x100000)])
def dB3 : Desc := dsc (hd 0x10 ++ ao.filter (fun p => p.1 != 68) ++ [(68, 0x20E)])
def dUpd : Desc := dsc (hd 0x50 ++ [(48, 16), (64, 0x3F800000), (68, 0x200), (88, 0x4000), (92, 0x8000), (96, 0x100)])

/-- A shape word of one row and 32 columns, with a column mask; and one with more rows than the plan. -/
def shapeMem (rows : Nat) : Image := [⟨0x100000, toBytes 4 rows ++ toBytes 4 32 ++ zeroBytes 8 ++ toBytes 8 0x200000 ++ zeroBytes 8⟩]

theorem test_witness_ReadsAtIssueAreKept :
    let m := mem1 1 dShape
    let g := grp m
    let s := one g rdy
    s.reading? 1 = some (g, m) ∧ m.seen = [] ∧ m.bytes.shapeAddr ≠ 0 ∧ m.shape = none ∧ s.badPart [(m.bytes.shapeAddr, 32)] = none ∧
    State.shapeFault m.bytes (s.rd (shapeMem 33) m.bytes.shapeAddr 32) ≠ 0 ∧ g.live ∧ s.group? 1 = some g ∧
    State.shapeFault m.bytes (s.rd (shapeMem 32) m.bytes.shapeAddr 32) = 0 ∧ s.badPart [(0x200000, ceilDiv 32 8)] = none ∧ s.noCapture ∧
    s.exchOf? 1 = none ∧ m.bytes.is .mcombine = false := by decide +kernel

theorem test_witness_tables_and_parameters :
    let m := shaped (mem1 1 dB3)
    let s := one (grp m) rdy
    let k := mem1 1 dUpd
    let t := one (grp k) rdy
    let nan : Image := (m.source (2, 56)).parts.map (fun p => ⟨p.1, List.replicate p.2 0xFF⟩)
    (State.words ((m.source (2, 56)).parts.flatMap (fun p => s.rd nan p.1 p.2))).any (fun w => bits w 30 23 == 0xFF) = true ∧ (grp m).live ∧
    s.group? 1 = some (grp m) ∧
    s.reading? 1 = some (grp m, m) ∧ m.seen = [] ∧ m.bytes.items.contains (2, 56) = true ∧ m.kept (2, 56) = none ∧ s.readsWait m = false ∧
    s.badPart (m.source (2, 56)).parts = none ∧
    (State.words ((m.source (2, 56)).parts.flatMap (fun p => s.rd [] p.1 p.2))).any (fun w => bits w 30 23 == 0xFF) = false ∧
    t.reading? 1 = some (grp k, k) ∧ k.bytes.is .upd = true ∧ k.param = none ∧ t.readsWait k = false ∧ t.badPart [(k.bytes.paramAddr, 64)] = none := by
  decide +kernel

theorem test_witness_GroupsCloseAndPublish :
    let m := done1 (shaped (mem1 1 dConvert))
    let s := one (grp m) rdy
    let g := { grp m with closeWritten := true, closeReported := true, wrote := true }
    let t := one g rdy
    s.group? 1 = some (grp m) ∧ s.drained (grp m) = true ∧ (grp m).closeSeen = false ∧
    t.only g m ∧ g.fresh m ∧ t.inc.fenced = false ∧ g.dead = false ∧ g.wrote = true ∧ g.outDone = false := by decide +kernel

theorem test_witness_MemoryErrorsFaultTheGroup :
    let g := { grp (mem1 1 dConvert) with wrote := true }
    let s := one g rdy
    s.calm ∧ s.freePos = some 0 ∧ s.group? 1 = some g ∧ g.live ∧ g.issued = true ∧ g.wrote = true ∧ g.outDone = false ∧
    (let t := { rdy with regs := { rdy.regs with startAddr := 64 } }
     t.group? 1 = none ∧ 64 ≠ 0 ∧ 64 = t.regs.startAddr.toNat ∧ t.start.active = false) := by decide +kernel

def dCapture (len : Nat) : Desc := dsc [(0, 3), (1, 2), (48, 0x10000), (56, len)]

theorem test_witness_ControlOperationsPublish :
    [dFence, dMark, dCkpt, dCapture 0, dCapture 64].all (fun d =>
      let m := mem1 1 d
      let g := waiting d
      let s := one g rdy
      decide (s.only g m ∧ g.fresh m ∧ m.accepted = true ∧ g.dead = false ∧ g.outDone = false ∧ s.inc.fenced = false ∧ m.seen = [] ∧ m.result = none ∧
        s.wb.stopped = false ∧ 0 < m.seq)) = true ∧
    dFence.is .fence = true ∧ dMark.is .mark = true ∧ dMark.ckpt = false ∧ dCkpt.ckpt = true ∧ (dCapture 0).is .capture = true ∧ (dCapture 0).capLen = 0 ∧
    (dCapture 64).capLen ≠ 0 := by decide +kernel

/-- A descriptor whose operation is ready: its group issued, its bounds known. -/
def readyFor (d : Desc) (o : Op) : Bool :=
  let m := shaped (mem1 1 d)
  let s := one (grp m) rdy
  decide (s.opReady 1 o = some (grp m, m) ∧ s.badInput m = none ∧ m.seen = [] ∧ s.routed ∧ s.wide m.bytes = false ∧ m.caps = [] ∧ m.zeroShape = false)

def dAffine : Desc := dsc (hd 0x11 ++ ao ++ [(88, 0x2000), (96, 0x3F800000), (100, 0x200)])
def dGate : Desc := dsc (hd 0x13 ++ ao ++ [(53, 1), (88, 0x2000), (96, 0x3F800000), (100, 0x200)])
def dRmsn : Desc := dsc (hd 0x20 ++ ao ++ [(112, 0x358637BD)])
def dStd (op f1 : Nat) : Desc := dsc (hd op ++ ao ++ [(53, f1)])

/-- One row of 8,192 columns: two segments. -/
def dLong (op : Nat) : Desc := dsc ((hd op).filter (fun p => p.1 != 28 && p.1 != 32) ++ ao ++ [(28, 8192), (32, 8192)])

theorem test_witness_ElementwiseOperationsProduceTheirTile :
    readyFor dConvert .convert = true ∧ readyFor dAffine .affine = true ∧ readyFor (dStd 0x12 1) .func = true ∧ readyFor dGate .gate = true ∧
    readyFor (dStd 0x14 0) .clamp = true := by decide +kernel

theorem test_witness_RowOperationsProduceTheirRows :
    readyFor dRmsn .rmsn = true ∧ readyFor (dStd 0x21 0) .smax = true ∧ readyFor (dStd 0x22 0) .lsmax = true ∧ readyFor (dStd 0x23 0) .rowred = true ∧
    readyFor (dStd 0x24 0) .rowstat = true ∧ readyFor (dStd 0x25 0) .scan = true ∧
    (let z := { shaped (mem1 1 (dStd 0x23 0)) with shape := some ⟨0, 32, none, none, []⟩ }
     (one (grp z) rdy).opReady 1 .rowred = some (grp z, z) ∧ z.zeroShape = true) ∧
    (let m := shaped (mem1 1 (dStd 0x25 0))
     (one (grp m) rdy).scanHeld m = false) ∧
    (let m := { mem1 1 (dLong 0x25) with shape := some ⟨1, 8192, none, none, []⟩ }
     let s := { one (grp m) rdy with rowCtx := [⟨1, 0, 0, .empty, [], []⟩] }
     s.opReady 1 .scan = some (grp m, m) ∧ s.badInput m = none ∧ s.wide m.bytes = false ∧ s.scanHeld m = true) := by decide +kernel

/-- MCOMBINE of two partials, from memory and from the streams. -/
def dCombine (src : Nat) : Desc :=
  dsc (hd 0x30 ++ [(48, 16), (53, 2), (72, 0x1000), (80, 0x3F800000), (84, 0x200), (104, 0x8000), (126, src), (127, if src = 0 then 0x2C else 0)])

theorem test_witness_CombineClosesItsTile :
    readyFor (dCombine 1) .mcombine = true ∧ readyFor (dCombine 0) .mcombine = true ∧ (dCombine 1).srcMem = true ∧ (dCombine 0).srcMem = false ∧
    State.allBeats (shaped (mem1 1 (dCombine 0))) = false ∧
    (let m := { shaped (mem1 1 (dCombine 0)) with
       beats := [⟨0, 0, 0, zeroBytes 128⟩, ⟨1, 0, 0, zeroBytes 128⟩], digests := [⟨Ty.streamDigest, 0, 0, 0, 2⟩] }
     (one (grp m) rdy).opReady 1 .mcombine = some (grp m, m) ∧ State.allBeats m = true ∧ m.digests.any (fun d => d.ty == Ty.streamDigest) = true) := by
  decide +kernel

/-- Once its inputs are here, MCOMBINE's group and member are still there. -/
theorem test_witness_combining :
    let m := shaped (mem1 1 (dCombine 0))
    let s := one (grp m) rdy
    let q := s.readInputs [] m
    let u := q.1.modMember 1 (fun x => State.runChunks (m.compat == 5) (s.convOf m) (grp m) { x with inputs := some q.2 })
    (u.group? 1).isSome = true ∧ (u.member? 1).isSome = true := by decide +kernel

def dChain (id : Nat) : Desc := dsc (hd 0x40 ++ [(48, 16), (56, 0), (60, 0x1000), (64, id)])
def dHalo : Desc := dsc (hd 0x41 ++ ao ++ [(53, 3), (54, 1)])

theorem test_witness_SpanOperationsOnOnePosition :
    readyFor (dChain 0) .chain = true ∧ readyFor dHalo .halo = true ∧
    (let m := { shaped (mem1 1 dUpd) with param := some (zeroBytes 64) }
     let s := one (grp m) rdy
     s.opReady 1 .upd = some (grp m, m) ∧ s.badInput m = none ∧ s.wide m.bytes = false ∧ m.zeroShape = false ∧
       (s.readInputs [] m).1.badPart (State.recParts m) = none) ∧
    [(dChain 0, Op.chain), (dHalo, .halo), (dUpd, .upd)].all (fun p =>
      let m := { mem1 1 p.1 with shape := some ⟨0, 32, none, none, []⟩, param := some (zeroBytes 64) }
      let s := one (grp m) rdy
      decide (s.opReady 1 p.2 = some (grp m, m) ∧ s.badInput m = none ∧ s.wide m.bytes = false ∧ s.routed ∧ m.zeroShape = true)) = true := by
  decide +kernel

def dLoad (rom : Nat) : Desc := dsc [(0, 0x60), (1, 2), (48, 0x10000), (56, 1), (57, rom), (60, 3)]
def dSwitch : Desc := dsc [(0, 0x61), (1, 2), (56, 1), (60, 0)]

theorem test_witness_LoadsAndSwitchesActOnBanks :
    let m := mem1 1 (dLoad 1)
    let g := waiting (dLoad 1)
    let s := one g rdy
    let l : Load := ⟨1, 1, true, 0, true, .accepted, []⟩
    let a := { s with loads := [l] }
    let b := { s with loads := [{ l with phase := .reading }] }
    let k := mem1 1 dSwitch
    let t := one (waiting dSwitch) rdy
    s.due 1 .loadIngot false = some (g, m) ∧ s.load? 1 = none ∧
    a.due 1 .loadIngot true = some (g, m) ∧ a.load? 1 = some l ∧ l.oldEmpty = true ∧ m.bytes.romFlag = true ∧ (dLoad 0).romFlag = false ∧
    b.only g m ∧ g.fresh m ∧ m.seen = [] ∧ b.due m.seq .loadIngot true = some (g, m) ∧ b.load? m.seq = some { l with phase := .reading } ∧
    l.slot < b.slots.length ∧
    t.only (waiting dSwitch) k ∧ (waiting dSwitch).fresh k ∧ t.due k.seq .switch false = some (waiting dSwitch, k) ∧ t.load? k.seq = none ∧
    (t.slot k.bytes.slotOf).holds k.bytes.generation = some false := by decide +kernel

def dPeek : Desc := dsc [(0, 0x7F), (1, 2), (48, 1), (50, 1), (56, 0x100000)]
theorem test_witness_PeekCopiesGranules :
    (one (waiting dPeek) rdy).due 1 .peek true = some (waiting dPeek, mem1 1 dPeek) ∧ (mem1 1 dPeek).result = none ∧ (waiting dPeek).openSeen = false ∧
    (one (waiting dPeek) rdy).ueIn (65536 * dPeek.peekGran) (65536 * dPeek.peekCount) = none := by decide +kernel

-- Witnesses: streams and contexts -------------------------------------------------------------------------------------

theorem test_witness_BeatsReachTheirTiles :
    let m := shaped (mem1 1 (dCombine 0))
    let s := one (grp m) rdy
    let b : Beat := { beatEx with user := 0x04000000012C }
    let c : Beat := ⟨zeroBytes 128, 2 ^ 128 - 1, 0x2C + 2 ^ 42⟩
    s.inReset = false ∧ s.inc.fenced = false ∧ s.start.parked = false ∧ (s.asHeld[15]?).join = none ∧
    Beat'.ok beatEx = true ∧ rdy.tagged (Beat'.tag beatEx) = none ∧
    Beat'.ok c = true ∧ s.tagged (Beat'.tag c) = some m ∧ s.member? m.seq = some m ∧ m.inputs = none ∧ Beat'.split c < m.bytes.nSplit ∧
    Beat'.row c < m.bytes.planRows ∧ Beat'.chunk c < m.bytes.planCols / 32 ∧ Beat'.row c < m.rows ∧ Beat'.chunk c < m.cols / 32 ∧ m.beats = [] ∧
    Beat'.ok { beatEx with keep := 0 } = false ∧ rdy.tagged (Beat'.tag { beatEx with keep := 0 }) = none ∧ rdy.calm ∧ rdy.freePos = some 0 ∧
    b.data.length = 128 ∧
    bits s.regs.asCtl.toNat 15 0 ≠ 0 ∧ s.openTiles.any (fun m => m.seq == 1 && !m.bytes.srcMem) = true ∧ s.group? 1 = some (grp m) ∧ (grp m).live := by
  decide +kernel

/-- The beat of split 1 is the last that the tile waits for. -/
theorem test_witness_last_beat :
    let m0 := shaped (mem1 1 (dCombine 0))
    let keep := fun (s : State) (m : Member) (b : Beat) => State.runChunk false (s.convOf m) (grp m) (Beat'.row b) (Beat'.chunk b)
      { m with beats := m.beats ++ [⟨Beat'.split b, Beat'.row b, Beat'.chunk b, b.data⟩] }
    let b0 : Beat := ⟨zeroBytes 128, 2 ^ 128 - 1, 0x2C + 2 ^ 42⟩
    let b1 : Beat := ⟨zeroBytes 128, 2 ^ 128 - 1, 0x12C⟩
    let m := keep rdy m0 b0
    let s := one (grp m) rdy
    m.run.length = 1 ∧ m.compat ≠ 5 ∧ State.allBeats m = false ∧ Beat'.ok b1 = true ∧ s.tagged (Beat'.tag b1) = some m ∧ s.group? 1 = some (grp m) ∧
    s.member? 1 = some m ∧ Beat'.split b1 < m.bytes.nSplit ∧
    m.beats.any (fun o => o.split == Beat'.split b1 && o.row == Beat'.row b1 && o.chunk == Beat'.chunk b1) = false ∧ m.shape ≠ none ∧
    State.allBeats (keep s m b1) = true ∧ m.inputs = none ∧ m.result = none ∧ m.seen = [] ∧ (grp m).dead = false ∧
    m.digests.any (fun d => d.ty == Ty.streamDigest) = false ∧ (s.ring m.ring).cap = none := by decide +kernel

theorem test_witness_bands :
    let k := { State.resetCluster with slotA := .draining 1 }
    let a := { rdy with clusters := rdy.clusters.set 0 k }
    let b := { rdy with clusters := rdy.clusters.set 0 { State.resetCluster with slotB := .draining 1 } }
    let m := shaped (mem1 1 (dCombine 0))
    let c := one (grp m) a
    (({ rdy with asHeld := rdy.asHeld.set 15 (some beatEx) } : State).asHeld[15]?).join = some beatEx ∧
    0 < a.clusters.length ∧ (a.cluster 0).slotA = .draining 1 ∧ a.openTiles = [] ∧
    (b.cluster 0).slotA = .empty ∧ (b.cluster 0).slotB = .draining 1 ∧ b.openTiles = [] ∧
    (c.cluster 0).slotA = .draining 1 ∧ (c.cluster 0).slotB = .empty ∧ c.openTiles = [m] ∧ c.takesWork 0 = true := by decide +kernel

def dMx : Desc := dsc (hd 0x10 ++ ao.filter (fun p => p.1 != 68) ++ [(60, 0x8000), (68, 0x204)])

theorem test_witness_ContextsTakeTotalsAndFills :
    let m := { mem1 1 (dLong 0x23) with shape := some ⟨1, 8192, none, none, []⟩ }
    let s := one (grp m) rdy
    s.group? 1 = some (grp m) ∧ s.member? 1 = some m ∧ SegVal.acc m.bytes.accOp (.num 0x3F800000) = some (.num (Fv.of32 0x3F800000)) ∧
    (grp m).issued = true ∧ (grp m).dead = false ∧ m.bytes.row = true ∧ m.result = none ∧ m.inputs = none ∧ 0 < m.tileRows ∧ m.firstSeg = 0 ∧
    1 < m.firstSeg + m.segCount ∧ s.rowCtx = [] := by decide +kernel

/-- A cluster that has passed over the first block: a fill is queued, or its entry is there. -/
theorem test_witness_codebook :
    let m := shaped (mem1 1 dMx)
    let s := one (grp m) rdy
    let v := s.elemEnv (grp m) m (s.inputsNow [] m)
    let queued := s.modCluster 15 (fun k => { k with fills := [(1, 0xFE)] })
    let filled := s.modCluster 15 (fun k => { k with cache := [⟨1, 3, []⟩, ⟨1, 0, []⟩] })
    s.opReady 1 .convert = some (grp m, m) ∧ m.bytes.op = some .convert ∧ m.compat ≠ 5 ∧ m.bytes.codebook (s.progBytes m.progGen) = true ∧
    s.takesWork 15 = true ∧ s.badInput m = none ∧ 15 < s.clusters.length ∧ v.a.fmt.scaled = true ∧ v.lookupScale 0 0 = some 0 ∧
    queued.takesWork 15 = true ∧ (queued.cluster 15).fills.contains (1, 0xFE) = true ∧ (s.cluster 15).fills.contains (1, 0xFE) = false ∧
    (s.cluster 15).fills.contains (1, 0) = false ∧ 0 ≠ 0xFE ∧
    ((filled.cluster 15).cache.find? (fun e => e.seq == 1 && e.scale == 0)).isSome = true ∧
    ((s.cluster 15).cache.find? (fun e => e.seq == 1 && e.scale == 0)) = none := by decide +kernel

-- Witnesses: the store window -----------------------------------------------------------------------------------------

theorem test_witness_TollRequestsAreAnswered :
    let q := tollAt 63 1022 31
    let strict := { rdy with seals := { rdy.seals with reproClass := 1 } }
    let known := { rdy with tolls := { rdy.tolls with memos := [⟨1022, 63, 31, 5, true⟩] } }
    let wait : TollWait := ⟨q, ⟨1022, 63, 31, 5, true⟩, false, 7⟩
    let due := { rdy with tolls := { rdy.tolls with waits := [wait] } }
    rdy.inReset = false ∧ WinReq'.inToll q = true ∧ rdy.shut = false ∧ WinReq'.isRequest q = true ∧ strict.strictRepro = true ∧ rdy.strictRepro = false ∧
    rdy.tollQueued q = false ∧ rdy.memo? (WinReq'.issuer q) (WinReq'.counter q) (WinReq'.tollSeq q) = none ∧ rdy.reproPending = false ∧ rdy.tollRoom = true ∧
    known.memo? (WinReq'.issuer q) (WinReq'.counter q) (WinReq'.tollSeq q) = some ⟨1022, 63, 31, 5, true⟩ ∧ known.tollQueued q = false ∧
    known.owedToll ⟨1022, 63, 31, 5, true⟩ = none ∧
    (let m : Memo := ⟨1022, 63, 31, 5, true⟩
     let owing := { known with wb := { known.wb with recs := [⟨7, recBytes 7 Ty.toll 0 1 1 (tollPart m), false, false, .toll⟩] } }
     owing.tollQueued q = false ∧ owing.owedToll m = some 7) ∧
    due.tolls.waits.findIdx? (fun w => !due.wb.recs.any (fun r => r.rnum == w.rnum)) = some 0 ∧ due.tolls.waits[0]? = some wait := by decide +kernel

theorem test_witness_TollControlWritesSetCounters :
    let q := tollAt 63 0x3FF 0
    rdy.inReset = false ∧ WinReq'.inToll q = true ∧ rdy.shut = false ∧ WinReq'.isControl q = true ∧ 255 % 256 = 255 ∧ rdy.tollQueued q = false ∧
    rdy.tollRoom = true ∧ WinReq'.isControl (tollAt 63 0x3FF 1) = false := by decide +kernel

theorem test_witness_WindowReadsAndWritesStaging :
    let q : WinReq := ⟨0, 0x3FFFFF8, 8, true, false⟩
    let m := shaped (mem1 1 (dCombine 0))
    let s := one { grp m with gran := [1023] } rdy
    rdy.inReset = false ∧ WinReq'.inToll q = false ∧ WinReq'.inBell q = false ∧ rdy.shut = false ∧ q.incr = true ∧ q.atomic = false ∧
    (zeroBytes 8).length = q.len ∧ WinReq'.inStage q = true ∧ State.touches q rdy.heldGran = false ∧ State.touches q rdy.openGran = false ∧
    rdy.ueIn q.off q.len = none ∧ State.touches q s.heldGran = true ∧ State.touches q s.openGran = true ∧ s.regs.debugCtl.getLsbD 0 = false ∧
    WinReq'.inStage { q with off := 0x5001000 } = false ∧ WinReq'.inBell { q with off := 0x5001000 } = false := by decide +kernel

/-- An accumulator tile under way, in granule 1023: what it holds is read with OPEN_READ. -/
theorem test_witness_open_tile :
    let m0 := shaped (mem1 1 (dCombine 0))
    let m := State.runChunk false (rdy.convOf m0) (grp m0) 0 0 { m0 with beats := [⟨0, 0, 0, zeroBytes 128⟩] }
    let g := { grp m with gran := [1023] }
    let s := { one g rdy with regs := { rdy.regs with debugCtl := 1 } }
    s.regs.debugCtl.getLsbD 0 = true ∧ s.heldGran.contains 1023 = true ∧ s.accAt 1023 = some (g, m, 0) ∧ s.ueIn (1023 * 65536) 8 = none ∧ m.compat ≠ 5 ∧
    (((State.accRow false (s.convOf m) g m 0)[0]?).join).isSome = true := by decide +kernel

-- Witnesses: the causeway ---------------------------------------------------------------------------------------------

def exch4 (seq : Nat) : Exch := ⟨3, seq, true, [], [], 0, [], [], [], [], [], [], [], [], [1], [], false, []⟩
def withExch (e : Exch) (s : State) : State := { s with cw := { s.cw with exchs := [e] } }
/-- A CHAIN over four positions, under way. -/
def chainNet : State := withExch (exch4 1) (one (grp (mem1 1 (dChain 3))) net)

theorem test_witness_ExchangeFlitsAreTakenOnce :
    let f := flt 3 0 []
    let again := withExch { exch4 1 with rx := [⟨3, 1, 0, 0, true, padPayload []⟩] } chainNet
    let other := withExch { exch4 1 with rx := [⟨3, 1, 0, 0, true, padPayload [1]⟩] } chainNet
    chainNet.inTurn f lnk ∧ chainNet.exch? f.chainId = some (exch4 1) ∧ (exch4 1).senders.contains f.src = true ∧
    State.rxOf (exch4 1) 3 f.src f.attempt f.offset = none ∧ (chainNet.member? 1).map (fun m => (m.inputs, m.shape)) = some (none, none) ∧
    again.inTurn f lnk ∧ (again.exch? 3).bind (fun e => State.rxOf e 3 f.src f.attempt f.offset) = some ⟨3, 1, 0, 0, true, padPayload []⟩ ∧
    f.payload = padPayload [] ∧ net.inTurn f lnk ∧ net.exch? f.chainId = none ∧
    other.inTurn f lnk ∧ (other.exch? 3).bind (fun e => State.rxOf e 3 f.src f.attempt f.offset) = some ⟨3, 1, 0, 0, true, padPayload [1]⟩ ∧
    padPayload [1] ≠ f.payload ∧ other.calm ∧ other.freePos = some 0 ∧ other.group? 1 = some (grp (mem1 1 (dChain 3))) ∧
    (grp (mem1 1 (dChain 3))).live := by decide +kernel

/-- PARITY within a parity group under CHAIN_ID 0. -/
theorem test_witness_parity_exchange :
    let f := flt 0 0 []
    let e := { exch4 1 with chain := 0 }
    let s := withExch e (one (grp (mem1 1 dUpd)) net)
    s.inTurn f lnk ∧ s.exch? 0 = some e ∧ e.senders.contains f.src = true ∧ f.chainId = 0 ∧ f.offset < 0xFFFFFFFE ∧
    s.member? 1 = some (mem1 1 dUpd) ∧ dUpd.is .upd = true ∧ s.cw.rx.any (fun m => m.src == f.src && m.kind == 12 && !m.awaiting) = false ∧
    State.rxOf e 12 f.src f.attempt f.offset = none := by decide +kernel

theorem test_witness_GrantsPublicationsAborts :
    let f := flt 3 0 (toBytes 2 64)
    let keeps := withExch { exch4 9 with isOpen := false, kept := [mkFlit 1 Kind.run 3 0 0 true []] } net
    let g := grp (mem1 1 (dChain 3))
    let far := { f with chainId := 0x1003 }
    net.inTurn f lnk ∧ net.grantPeer f = true ∧ net.cw.exchs.find? (net.takesGrant f) = none ∧
    net.inTurn far lnk ∧ net.grantPeer far = false ∧ net.cw.exchs.find? (net.takesGrant far) = none ∧ keeps.inTurn f lnk ∧ (keeps.cw.exchs.find? (keeps.takesGrant f)).isSome = true ∧
    keeps.cw.exchs.findIdx? (keeps.takesPub f) = some 0 ∧
    chainNet.inTurn f lnk ∧ chainNet.exch? f.chainId = some (exch4 1) ∧ (chainNet.exchPeers (exch4 1)).contains f.src = true ∧
    chainNet.group? 1 = some g ∧ g.live := by decide +kernel

def rxm (kind count : Nat) : RxMsg := ⟨1, kind, 5, 0, count, 12, [], false⟩
def getting (m : RxMsg) (s : State) : State := { s with cw := { s.cw with rx := [m] } }

theorem test_witness_ProtectionMessagesAreWritten :
    let op := flt 0 0xFFFFFFFF (toBytes 8 5 ++ toBytes 4 0 ++ toBytes 4 1)
    let f := flt 0 0 []
    let room := { net with regs := { net.regs with mirrorSize := 1 } }
    let m := rxm 11 1
    let m' := { m with bytes := [(0, f.payload)] }
    let two := { rxm 11 4 with bytes := [(0, f.payload)] }
    net.inTurn op lnk ∧ op.offset = 0xFFFFFFFF ∧ op.chainId = 0 ∧ State.msgStream ⟨1, 11, 5, 0, 1, 0, [], false⟩ = none ∧
    (getting m room).inTurn f lnk ∧ f.offset < 0xFFFFFFFE ∧
    (getting m room).cw.rx.find? (fun m => m.src == f.src && m.kind == 11 && !m.awaiting) = some m ∧ m.bytes.any (fun b => b.1 == f.offset) = false ∧
    (State.msgStream m').isSome = true ∧ (getting m room).takes m' = true ∧ State.msgStream two = none ∧
    (getting m net).takes m' = false ∧ (getting m net).calm ∧ (getting m net).freePos = some 0 := by decide +kernel

theorem test_witness_WrittenMessagesAreAnswered :
    let m := { rxm 11 1 with awaiting := true }
    let w := { rxm 13 1 with awaiting := true }
    (getting m net).clearTo lnk rt 0 ∧ m.src = lnk.peer ∧
    (getting m net).cw.rx.find? (fun x => x.awaiting && x.kind != 13 && x.src == m.src && x.seq == m.seq) = some m ∧
    (getting w net).clearTo lnk rt 0 ∧ (getting w net).cw.rx.find? (fun x => x.awaiting && x.kind == 13 && x.src == w.src) = some w ∧
    net.wb.wbmRuns = [] ∧ max net.wb.wbmHigh (net.wb.wbmFirst.getD w.seq) = w.seq ∧ 0 < w.count ∧
    (let t := { net with wb := { net.wb with wbmFirst := some 4 } }
     t.wb.wbmRuns = [] ∧ max t.wb.wbmHigh (t.wb.wbmFirst.getD w.seq) < w.seq) := by decide +kernel

theorem test_witness_DonesReleaseWhatTheyAnswer :
    let f := flt 0 0 (toBytes 8 1 ++ toBytes 2 0)
    let m := { shaped (mem1 1 dUpd) with mirrorDone := false }
    let g := { grp m with wrote := true }
    net.inTurn f lnk ∧ f.src = net.partner ∧ field f.payload 8 2 = 0 ∧ (one g net).inTurn f lnk ∧ (one g net).only g m ∧ m.seq = field f.payload 0 8 ∧
    g.dead = false ∧ g.published = false ∧ g.wrote = true ∧ g.outDone = false ∧ ({ g with outDone := true } : Group).fresh { m with mirrorDone := true } ∧
    (one { g with outDone := true } net).only { g with outDone := true } m ∧ (∀ r ∈ net.wb.recs, r.ok = false) ∧
    (let t := { net with wb := { net.wb with sent := [(0, 1), (2, 3)] } }
     t.inTurn f lnk ∧ t.wb.sent.find? (fun x => x.2 == field f.payload 0 8) = some (0, 1)) := by decide +kernel

def sent (n : Nat) : TxFlit := { mkFlit 1 Kind.mirror 0 0 0 true [] with lseq := n, cd := true }
def linked (l : Link) (s : State) : State := { s with cw := { s.cw with links := [l] } }

theorem test_witness_LinksAnswerTheirPeers :
    let l := { lnk with unacked := [sent 3, sent 4] }
    let s := linked l net
    let f := flt 0 0 (toBytes 4 3)
    let w := { lnk with sync := 0 }
    s.laneUp f.cd f.lane = true ∧ (s.route? f.src).isSome = true ∧ s.link? f.src = some l ∧ s.cw.links = [l] ∧ l.queue = [] ∧ l.again = [] ∧ l.sync ≠ 0 ∧
    bit (field f.payload 4 1) 0 = false ∧ (l.txSeq + 2 ^ 32 - 1 - field f.payload 0 4) % 2 ^ 32 < 2 ^ 31 ∧
    (linked w net).link? f.src = some w ∧ w.sync = 0 ∧ field (flt 0 0 (toBytes 4 4)).payload 0 4 = w.epoch ∧
    field (flt 0 0 (toBytes 4 5)).payload 0 4 ≠ lnk.epoch ∧ (field (flt 0 0 (toBytes 4 5)).payload 0 4 + 2 ^ 32 - lnk.epoch) % 2 ^ 32 < 2 ^ 31 ∧
    net.clearTo lnk rt 0 ∧ net.laneUp true 7 = true ∧ net.inReset = false ∧ (∀ l ∈ net.cw.links, l.queue = [] ∧ l.again = []) := by decide +kernel

theorem test_witness_UnacknowledgedFlitsGoAgain :
    let l := { lnk with unacked := [sent 3, sent 4] }
    let s := linked l net
    let w := { lnk with sync := 0 }
    let k := { l with unacked := [{ sent 3 with resends := 16 }] }
    let x := linked k net
    s.calm ∧ s.link? 1 = some l ∧ (s.route? 1).isSome = true ∧ l.failed = false ∧ l.resent < s.retryMax ∧ (∀ x ∈ l.unacked, x.resends < s.retryMax) ∧
    s.cw.links = [l] ∧ l.sync ≠ 0 ∧ l.unacked ≠ [] ∧ l.queue = [] ∧ l.again = [] ∧ (∀ x ∈ l.unacked, x.cd = l.cd) ∧ (l.unacked.map TxFlit.lseq).Nodup ∧
    s.portSends l.cd = true ∧ (linked w net).link? 1 = some w ∧ w.sync = 0 ∧
    x.calm ∧ x.link? 1 = some k ∧ x.retryMax ≤ 16 ∧ x.freePos = some 0 := by decide +kernel

theorem test_witness_LimitsOfExchangesAndMirrors :
    let m := { shaped (mem1 1 dUpd) with mirrorDone := false }
    let g := { grp m with wrote := true }
    let u := one g net
    let lost := { net with regs := { net.regs with wbCtl := 0x0010002C }, wb := { net.wb with recs := [⟨7, [], false, false, .none⟩] } }
    chainNet.calm ∧ chainNet.freePos = some 0 ∧ chainNet.exchLimit ≠ 0 ∧ chainNet.exch? 3 = some (exch4 1) ∧
    chainNet.group? 1 = some (grp (mem1 1 (dChain 3))) ∧ chainNet.member? 1 = some (mem1 1 (dChain 3)) ∧ (grp (mem1 1 (dChain 3))).live ∧
    u.calm ∧ u.freePos = some 0 ∧ u.exchLimit ≠ 0 ∧ u.group? 1 = some g ∧ u.member? 1 = some m ∧ g.live ∧ g.wrote = true ∧ m.mirrorDone = false ∧
    lost.calm ∧ lost.freePos = some 0 ∧ lost.exchLimit ≠ 0 ∧ lost.mirrorEn = true ∧ lost.wb.mirrorLost = false ∧ (∀ r ∈ lost.wb.recs, r.ok = false) ∧
    lost.wb.recs.find? (fun r => !r.acked) = some ⟨7, [], false, false, .none⟩ ∧ lost.wb.mirror = [] := by decide +kernel

-- Witnesses: journal, incidents, assay --------------------------------------------------------------------------------

theorem test_witness_CheckpointIsWritten :
    let s := { rdy with wb := { rdy.wb with since := 1024 } }
    s.wbOpen = true ∧ s.ckptInterval ≠ 0 ∧ s.ckptInterval * 64 ≤ s.wb.since := by decide +kernel

def logging (l : List (Option IncEntry)) (c : Option Nat) (s : State) : State := { s with inc := { s.inc with log := l, cur := c } }

theorem test_witness_IncidentsAreRecorded :
    let busy := logging (some (ent 0x10 0 3) :: List.replicate 31 none) (some 0) rdy
    let full := logging (List.replicate 32 (some { ent 0x0C 0 2 with state := 2 })) none rdy
    let two := logging (some (ent 0x08 0 2) :: List.replicate 31 none) (some 0) rdy
    rdy.inReset = false ∧ rdy.ue.contains 2097151 = false ∧ 32 * 2097151 < Memory.size ∧ rdy.calm ∧ rdy.freePos = some 0 ∧
    busy.inReset = false ∧ busy.inc.fenced = false ∧ busy.inc.cur = some 0 ∧ busy.entry? 0 = some (ent 0x10 0 3) ∧ (ent 0x10 0 3).sevFinal = 3 ∧
    busy.freePos = some 1 ∧ resource 0x0C 0 ≠ resource 0x10 0 ∧
    full.inReset = false ∧ full.inc.fenced = false ∧ full.inc.cur = none ∧ full.freePos = none ∧
    two.inReset = false ∧ two.inc.cur = some 0 ∧ two.entry? 0 = some (ent 0x08 0 2) ∧ (ent 0x08 0 2).sevFinal = 2 ∧
    (∀ x ∈ two.inc.log, x.map (·.state) ≠ some 0) := by decide +kernel

theorem test_witness_AssayRepairsAndReplaces :
    let f := { rdy with assay := { rdy.assay with forced := some 16 } }
    let s := { rdy with assay := { rdy.assay with running := some 15 } }
    let z := { rdy with assay := { rdy.assay with running := some 0 } }
    f.assay.running = none ∧ f.start.active = false ∧ f.shut = false ∧ f.assay.forced = some 16 ∧ rdy.assay.forced = none ∧
    bits rdy.regs.assayCtl.toNat 15 0 ≠ 0 ∧ rdy.assay.next = 0 ∧ rdy.assay.running = none ∧
    s.assay.running = some 15 ∧ s.logicalLane 15 255 = some 255 ∧ s.freeSpare 15 = some 0 ∧ (s.cluster 15).suspectFrom = 0 ∧ s.calm ∧ s.freePos = some 0 ∧
    s.inService 15 = true ∧ (s.cluster 16).retired = false ∧ s.standin = 0x1F ∧ 0 < (s.cluster 15).spare.length ∧ 15 < s.clusters.length ∧
    (s.cluster 15).spare.length = 8 ∧
    z.assay.running = some 0 ∧ z.calm ∧ z.freePos ≠ none := by decide +kernel

/-- No later spare of a cluster fresh from reset serves logical lane 255. -/
theorem test_witness_later_spares :
    ∀ j : Fin 8, (rdy.cluster 15).spare[j.val]?.map (fun e => e.getLsbD 8 && bits e.toNat 7 0 == 255) = some false := by decide +kernel

-- Witnesses: resets, start, governor ----------------------------------------------------------------------------------

theorem test_witness_ResetsKeepAndDrop :
    let s := { rdy with regs := { rdy.regs with stageCtl := 1 }, staging := [(3, 7), (65536, 8)] }
    ({ s with rst := ⟨true, false⟩ } : State).rst.cold = true ∧ s.rst.cold = false ∧ (3 < s.resident * 65536) ∧ s.resident * 65536 ≤ 65536 ∧
    65536 < Memory.size ∧ ({ s with rst := ⟨false, true⟩ } : State).rst.warm = true ∧ s.start.stuck = false := by decide +kernel

def step1 : State := { State.reset with start := { State.reset.start with running := [(1, 1)], codes := some StepCode.pass :: List.replicate 9 none } }

theorem test_witness_StartStepsFollowTheirOutcome :
    let r := { State.reset with gov := { State.reset.gov with coreGood := true, sramGood := true } }
    let s7 := { step1 with start := { step1.start with running := [(2, 1), (7, 1)], codes := (List.replicate 2 (some StepCode.pass)) ++ List.replicate 8 none } }
    let second := { step1 with start := { step1.start with running := [(6, 2)] } }
    r.inReset = false ∧ r.inc.fenced = false ∧ r.start.parked = false ∧ r.start.rerun = [] ∧ r.start.running = [(0, 1)] ∧
    r.start.codes = List.replicate 10 none ∧ r.start.warm = false ∧ r.gov.coreGood = true ∧ r.gov.sramGood = true ∧
    step1.start.running = [(1, 1)] ∧ step1.start.codes = some StepCode.pass :: List.replicate 9 none ∧ step1.start.prev = none ∧ step1.start.altUse = 0 ∧
    s7.start.running.find? (fun p => p.1 == 7) = some (7, 1) ∧ s7.stepPassed 0 = true ∧ s7.stepPassed 1 = true ∧ s7.start.codes.length = 10 ∧
    s7.isReady 6 = false ∧ s7.start.altUse.getLsbD 7 = false ∧ s7.stepLimit ≠ 0 ∧
    second.start.running.find? (fun p => p.1 == 6) = some (6, 2) ∧ second.start.codes.length = 10 ∧ second.start.parked = false := by decide +kernel

/-- The pattern's beat 0 on port 15 (R758). -/
def patBeat : Beat :=
  let d := (List.range 32).flatMap (fun j => toBytes 4 (Beat'.patternWord 15 0 j))
  let u := 0xFF + (63 <<< 8) + (511 <<< 14)
  ⟨d, 2 ^ 128 - 1, u + (Beat'.dpar d <<< 34) + (b2n (parity 34 u) <<< 42)⟩

theorem test_witness_pattern :
    let s := { rdy with start := { rdy.start with running := [(9, 1)] } }
    s.inReset = false ∧ s.stepRunning 9 = true ∧ Beat'.isPattern 15 patBeat = true ∧ Beat'.isPattern 14 patBeat = false ∧ Beat'.ok patBeat = true := by
  decide +kernel

def gov (g : Gov) : State := { rdy with gov := g }

theorem test_witness_GovernorMovesTheLevel :
    let g := { rdy.gov with level := 7, demand := 9, budget := 12 }
    let up := gov { g with ramp := some 15 }
    let down := gov { g with ramp := some 0 }
    let f := gov { g with forecast := some ⟨12, 0xAF, 1⟩ }
    let lapse := gov { g with forecast := some ⟨13, 0xAF, 1⟩ }
    let cal := { gov { g with level := 14 } with start := { rdy.start with running := [(4, 1)] } }
    let hold := gov { g with demand := 6 }
    rdy.inReset = false ∧ rdy.groups = [] ∧ rdy.stepRunning 4 = false ∧ rdy.gov.forecast = none ∧ rdy.pgBypass = false ∧
    f.gov.forecast = some ⟨12, 0xAF, 1⟩ ∧ f.gov.level.toNat < 12 ∧ 12 ≤ f.budget ∧ lapse.gov.level.toNat < 13 ∧ lapse.budget < 13 ∧
    cal.inc.fenced = false ∧ cal.start.parked = false ∧ cal.stepRunning 4 = true ∧ cal.start.altUse.getLsbD 4 = false ∧ cal.gov.forecast = none ∧
    cal.gov.ramp = none ∧ cal.gov.level.toNat < 15 ∧ cal.gov.level.toNat < cal.gov.cap.toNat ∧
    up.gov.ramp = some 15 ∧ up.gov.level.toNat < 15 ∧ up.gov.stretch = false ∧ up.gov.level.toNat < up.limit ∧
    down.gov.ramp = some 0 ∧ 0 < down.gov.level.toNat ∧
    hold.gov.demand.toNat < hold.gov.level.toNat ∧ hold.gov.forecast = none ∧ hold.gov.ramp = none := by decide +kernel

theorem test_witness_PowerWordsDroopAndClocks :
    let low := gov { rdy.gov with level := 3, budget := 3 }
    let high := gov { rdy.gov with level := 4, budget := 4 }
    let full := gov { rdy.gov with level := 15, calProv := true }
    let m := gov { rdy.gov with recal := true, stretch := true }
    rdy.inReset = false ∧ rdy.pgBypass = false ∧ bits 0 3 0 ∉ [1, 2, 3, 8, 9, 10] ∧ bits 15 3 0 ∉ [1, 2, 3, 8, 9, 10] ∧ low.gov.pgLost = false ∧
    low.gov.level.toNat ≤ min low.gov.budget.toNat 3 ∧ min high.gov.budget.toNat 3 < high.gov.level.toNat ∧ high.gov.forecast = none ∧
    rdy.gov.stretch = false ∧ m.gov.stretch = true ∧ full.gov.calProv = true ∧ full.gov.level = 15 ∧ full.gov.recal = false ∧
    m.gov.recal = true ∧ m.guardTaps + 249 < 256 ∧ (rdy.cluster 16).slotA = .empty ∧ (rdy.cluster 16).slotB = .empty ∧ (rdy.cluster 16).fills = [] ∧ rdy.assay.running ≠ some 16 ∧
    rdy.takesWork 16 = false ∧ rdy.groups = [] ∧
    (let tuned := { rdy.gov with level := 8, cals := rdy.gov.cals.set 2 ⟨0, 20, true, false⟩ }
     ((tuned.cals[2]?).map Cal.trig).getD 0 ≠ 0) := by decide +kernel

end Sys2Proof.Tests
end

section
/-!
The setup window as it is written: what a transfer does to a register whose fields act at once (R14), to an I field (R20, R21) and
to the pad channels (R16, R17). The lemmas about `setupWrite`, `heldData` and `iFields` hold for every register; the ones about
`writeReg` give the equation of the register that they name.
-/
namespace Sys2Proof.Machine
open Sys2Proof

namespace Wr

/-- Data equal to the fields' values is no write of them (R777). -/
theorem iFields_same {isBusy bad : Bool} {mask cur d : Nat} (h : cur &&& mask = d &&& mask) :
    iFields isBusy bad mask cur d = none := if_pos h

/-- At a quiet point a value in range is taken (R21). -/
theorem iFields_quiet (mask cur d : Nat) : iFields false false mask cur d = none := by
  simp [iFields]

/-- A changed I field of a busy function is refused, in range or not (R20). -/
theorem iFields_busy {bad : Bool} {mask cur d : Nat} (h : cur &&& mask ≠ d &&& mask) :
    iFields true bad mask cur d = some busy := by
  simp [iFields, h]

end Wr

namespace State

/-- The setup port's write is `setupWrite` on its path. -/
theorem exec_setupWrite (s : State) (off d strb : Nat) :
    exec (.setupWrite off d strb) s = .next (s.setupWrite .apb off d strb) := rfl

/-- A register one word wide has nothing to hold: its data is the transfer's. -/
@[simp] theorem heldData_one (s : State) (p : PathId) (b d : Nat) : s.heldData p b 1 d = d := by
  simp [heldData]

/-- The data of a register two words wide: the held low word below the transfer's (R764). -/
theorem heldData_two {s : State} {p : PathId} {b lo : Nat} (hi : Nat)
    (h : ((s.path p).holds.find? (fun q => q.1 == b)).map (·.2) = some lo) :
    s.heldData p b 2 hi = lo + hi * 2 ^ 32 := by
  have hrange : List.range (2 - 1) = [0] := rfl
  simp only [heldData, hrange, List.foldl_cons, List.foldl_nil, Nat.mul_zero, Nat.add_zero, h, Option.getD_some,
    Nat.shiftLeft_eq]
  omega

section Transfer
variable {s t : State} {p : PathId} {off b n d : Nat}
  (hreset : s.inReset = false) (haligned : off % 4 = 0) (hreg : regAt off = some (b, n))
include hreset haligned hreg

/-- A write at a register's highest word that the register takes. -/
theorem setupWrite_of_ok (htop : off = b + 4 * (n - 1)) (hw : s.writeReg b (s.heldData p b n d) = .ok t) :
    s.setupWrite p off d 0xF = t.respond p 0 false := by
  simp [setupWrite, hreset, haligned, hreg, ← htop, hw]

/-- A write at a register's highest word that the register refuses with a code. -/
theorem setupWrite_of_error {c : Nat} (htop : off = b + 4 * (n - 1)) (hw : s.writeReg b (s.heldData p b n d) = .error c) :
    s.setupWrite p off d 0xF = s.refuse p off c := by
  simp [setupWrite, hreset, haligned, hreg, ← htop, hw]

end Transfer

/-- A write on the setup port to a register one word wide that takes its data. -/
theorem exec_setupWrite_word {s t : State} {off d : Nat} (hreset : s.inReset = false) (haligned : off % 4 = 0)
    (hreg : regAt off = some (off, 1)) (hw : s.writeReg off d = .ok t) :
    exec (.setupWrite off d 0xF) s = .next (t.respond .apb 0 false) := by
  rw [exec_setupWrite, setupWrite_of_ok hreset haligned hreg rfl (by rwa [heldData_one])]

-- The registers ------------------------------------------------------------------------------------------------------

theorem writeReg_asCtl (s : State) (d : Nat) :
    s.writeReg 0x418 d = .ok { s with regs := { s.regs with asCtl := BitVec.ofNat 32 d } } := rfl

theorem writeReg_cwCtl (s : State) (d : Nat) :
    s.writeReg 0x428 d = .ok { s with regs := { s.regs with cwCtl := BitVec.ofNat 32 d } } := rfl

theorem writeReg_debugCtl (s : State) (d : Nat) :
    s.writeReg 0x014 d = .ok { s with regs := { s.regs with debugCtl := BitVec.ofNat 32 (d &&& 1) } } := rfl

theorem writeReg_clkCtl (s : State) (d : Nat) :
    s.writeReg 0x500 d = .ok { s with regs := { s.regs with clkCtl := BitVec.ofNat 32 (d &&& 0x1FFFFFF) } } := rfl

/-- DX_COMMIT.PAD written with 1: the shadow copies become the pending set (R16). -/
theorem writeReg_commit_pad (s : State) :
    s.writeReg 0x10 1 = .ok { s with pad := { s.pad with pendingSet := some s.pad.shadow } } := rfl

/-- DX_WB_BASE is one I field of the waybook; its low six bits read as zero (R782). -/
theorem writeReg_wbBase (s : State) (d : Nat) :
    s.writeReg 0x300 d = Wr.act (Wr.iFields s.wbBusy false (2 ^ 64 - 1) s.regs.wbBase.toNat (d - d % 64))
      { s with regs := { s.regs with wbBase := BitVec.ofNat 64 (d - d % 64) } } := rfl

/-- DX_WB_BASE takes its data at the waybook's quiet point, and data equal to its value at any time. -/
theorem writeReg_wbBase_taken {s : State} {d : Nat} (h : s.wbBusy = false ∨ s.regs.wbBase.toNat = d - d % 64) :
    s.writeReg 0x300 d = .ok { s with regs := { s.regs with wbBase := BitVec.ofNat 64 (d - d % 64) } } := by
  rw [writeReg_wbBase]
  rcases h with hquiet | hsame
  · rw [hquiet, Wr.iFields_quiet]; rfl
  · rw [Wr.iFields_same (by rw [hsame])]; rfl

/-- DX_WB_BASE refuses a new value while the waybook is busy. The field's mask covers both values, so they differ under it. -/
theorem writeReg_wbBase_busy {s : State} {d : Nat} (hd : d < 2 ^ 64) (hbusy : s.wbBusy = true)
    (hne : s.regs.wbBase.toNat ≠ d - d % 64) : s.writeReg 0x300 d = .error Wr.busy := by
  have hmasked : s.regs.wbBase.toNat &&& (2 ^ 64 - 1) ≠ (d - d % 64) &&& (2 ^ 64 - 1) := by
    rwa [Nat.and_two_pow_sub_one_of_lt_two_pow s.regs.wbBase.isLt, Nat.and_two_pow_sub_one_of_lt_two_pow (by omega)]
  rw [writeReg_wbBase, hbusy, Wr.iFields_busy hmasked]
  rfl

/-- With a pending set, PENDING_SET_APPLY at the common quiet point of ELEMENTWISE and ROW puts it in force (R17). -/
theorem exec_pendingSetApply_quiet {s : State} {v : List (BitVec 32)} (hreset : s.inReset = false)
    (hset : s.pad.pendingSet = some v) (helem : s.quiet 2 = true) (hrow : s.quiet 3 = true) :
    exec .pendingSetApply s = .next { s with pad := { s.pad with active := v, pendingSet := none } } := by
  change execPendingSetApply s = _
  simp [execPendingSetApply, hset, hreset, helem, hrow]

end State

-- The statements -----------------------------------------------------------------------------------------------------

/-- Settles O12: the held low word and the data make the register's value, which its I field takes or refuses. -/
theorem busyFieldsKeepTheirValue : Obligations.BusyFieldsKeepTheirValue := by
  intro s lo hi hreset hlo hhi hheld line
  have hdata : s.heldData .apb 0x300 2 hi = lo + hi * 2 ^ 32 := State.heldData_two hi hheld
  have hreg : regAt 0x304 = some (0x300, 2) := by decide
  have hwrite := congrArg (s.writeReg 0x300) hdata
  refine ⟨fun htaken => ?_, fun ⟨hbusy, hne⟩ => ?_⟩
  · have hok := hwrite.trans (State.writeReg_wbBase_taken htaken)
    exact ⟨_, by rw [State.exec_setupWrite, State.setupWrite_of_ok hreset rfl hreg rfl hok], rfl, rfl⟩
  · have hrefused := hwrite.trans (State.writeReg_wbBase_busy (by omega) hbusy hne)
    exact ⟨_, by rw [State.exec_setupWrite, State.setupWrite_of_error hreset rfl hreg rfl hrefused], rfl, rfl, rfl⟩

/-- Settles O10: each of the four registers is one word wide and takes its data, masked to its fields. -/
theorem plainRegistersTakeTheirData : Obligations.PlainRegistersTakeTheirData := fun s d hreset =>
  ⟨State.exec_setupWrite_word hreset rfl (by decide) (s.writeReg_asCtl d),
   State.exec_setupWrite_word hreset rfl (by decide) (s.writeReg_cwCtl d),
   State.exec_setupWrite_word hreset rfl (by decide) (s.writeReg_debugCtl d),
   State.exec_setupWrite_word hreset rfl (by decide) (s.writeReg_clkCtl d)⟩

/-- Settles O15: COMMIT_PAD is the write of DX_COMMIT.PAD, and PENDING_SET_APPLY acts at the quiet point of both functions. -/
theorem padSetAppliesAtQuietPoint : Obligations.PadSetAppliesAtQuietPoint :=
  ⟨fun s hreset => State.exec_setupWrite_word hreset rfl (by decide) s.writeReg_commit_pad,
   fun _ _ hreset hset helem hrow => State.exec_pendingSetApply_quiet hreset hset helem hrow⟩

end Sys2Proof.Machine
end

section
/-!
What every command keeps: each meaning answers `next`, with a state that `Keeps` relates to the one it began in; the three reset
commands keep all of it but the fence. Each lemma follows the branches of its meaning and cites what its operations keep.
-/
namespace Sys2Proof.Machine
open Sys2Proof

theorem Keeps.sendMirror {s t : State} (h : Keeps s t) : Keeps s t.sendMirror := h.modWb.queueAll.pump

/-- A meaning answers with a next state, and that state has kept what every operation but a reset keeps. -/
def Answers (s : State) (r : Res) : Prop := ∃ t, r = .next t ∧ Keeps s t

namespace Answers
variable {s t : State}

theorem next (h : Keeps s t) : Answers s (.next t) := ⟨t, rfl, h⟩

/-- A command whose occasion is not there leaves the state as it is (log 11). -/
theorem stay (s : State) : Answers s (.next s) := next (.refl s)

theorem ite {c : Prop} [Decidable c] {a b : Res} (ha : Answers s a) (hb : Answers s b) : Answers s (if c then a else b) := by
  split
  · exact ha
  · exact hb

-- Rings and taking ---------------------------------------------------------------------------------------------------

theorem bell (req : WinReq) (word strb : Nat) (s : State) : Answers s (execBell req word strb s) := by
  have h : ∀ x : SetupSt, Keeps s { s with setup := x } := fun _ => (Keeps.refl s).step
  exact (stay s).ite ((next (Keeps.refl s).emit).ite ((next (h _).emit).ite (next (h _).modRing.emit.serveBell)))

theorem headRecordData (ring : Nat) (resp : Resp) (data : List Byte) (s : State) :
    Answers s (execHeadRecordData ring resp data s) := by
  unfold execHeadRecordData
  dsimp only
  split
  · exact stay s
  · rename_i why _
    have h : Keeps s (s.modRing ring fun g => { g with reading := none }) := (Keeps.refl s).modRing
    refine (next h).ite ((next h.haltRing.incident.serveBell).ite (next (Keeps.serveBell ?_)))
    cases why with
    | bell => exact h.seeProd
    | enable => exact h.modRing.writeHead.seeProd
    | recovery => exact h.headRecovered

theorem descriptorData (ring : Nat) (resp : Resp) (data : List Byte) (s : State) :
    Answers s (execDescriptorData ring resp data s) :=
  ((next (Keeps.refl s).modRing.promote).ite (next (Keeps.refl s).haltRing.incident)).ite (stay s)

theorem readyRecheck (ring : Nat) (s : State) : Answers s (execReadyRecheck ring s) := by
  unfold execReadyRecheck
  split
  · exact (next (Keeps.refl s).modRing).ite (stay s)
  · exact stay s

theorem notReadyTimeout (ring : Nat) (s : State) : Answers s (execNotReadyTimeout ring s) := by
  unfold execNotReadyTimeout
  split
  · exact (next (Keeps.refl s).modRing).ite (stay s)
  · exact stay s

theorem waymarkWrite (ring : Nat) (s : State) : Answers s (execWaymarkWrite ring s) := by
  unfold execWaymarkWrite
  dsimp only
  split
  · exact (stay s).ite ((next (Keeps.refl s).modRing).ite ((next (Keeps.refl s).writeWaymark).ite (stay s)))
  · exact stay s

-- Tolls --------------------------------------------------------------------------------------------------------------

theorem tollRequest (req : WinReq) (s : State) : Answers s (execTollRequest req s) :=
  (stay s).ite ((next (Keeps.refl s).emit).ite (next (Keeps.refl s).serveRequest))

theorem tollGrantReported (s : State) : Answers s (execTollGrantReported s) := by
  unfold execTollGrantReported
  split
  · split
    · exact next (Keeps.modTolls (f := fun x => { x with waits := _ }) (.refl s)).emit
    · exact stay s
  · exact stay s

theorem tollSet (req : WinReq) (data strb : Nat) (s : State) : Answers s (execTollSet req data strb s) :=
  (stay s).ite ((next (Keeps.refl s).emit).ite (next (Keeps.refl s).serveSet))

-- The journal --------------------------------------------------------------------------------------------------------

theorem waybookWriteResponse (rnum : Nat) (resp : Resp) (mem : Image) (s : State) :
    Answers s (execWaybookWriteResponse rnum resp mem s) := by
  have mark : ∀ {u : State}, Keeps s u →
      Keeps s (u.modWb fun w => { w with recs := w.recs.map fun r => if r.rnum = rnum then { r with ok := true } else r }) :=
    fun h => h.setRecs fun r => by split <;> rfl
  have h := Keeps.refl s
  exact ((next ((mark h).ite (mark h).incident)).ite ((next (mark h.learnRoutes).report).ite (next h.journalFailed.incident))).ite (stay s)

theorem milepostWriteResponse (seq : Nat) (resp : Resp) (mem : Image) (s : State) :
    Answers s (execMilepostWriteResponse seq resp mem s) := by
  unfold execMilepostWriteResponse
  split
  · rename_i g m _ _
    refine (stay s).ite (Answers.ite ?_ (next (Keeps.refl s).incident))
    extract_lets r s1 x s2 s3 s4
    have h1 : Keeps s s1 := (Keeps.refl s).modMember
    have h2 : Keeps s s2 := Keeps.ite h1.step h1
    have h3 : Keeps s s3 := h2.advanceDone _ _
    have h4 : Keeps s s4 := h3.writeHead.ite h3
    exact next h4.removeDone.retryWrites.settleRing
  · exact stay s

theorem drainPoint (seq : Nat) (s : State) : Answers s (execDrainPoint seq s) := by
  unfold execDrainPoint
  split
  · refine Answers.ite ?_ (stay s)
    dsimp only
    split
    · split
      · exact next (Keeps.refl s).modGroup.modGroup.startWrites
      · exact next (Keeps.refl s).modGroup.modGroup
    · exact next (Keeps.refl s).modGroup.wbWriteFor
  · exact stay s

theorem outputWritesComplete (seq : Nat) (s : State) : Answers s (execOutputWritesComplete seq s) := by
  unfold execOutputWritesComplete
  split
  · exact (next (Keeps.refl s).writeHeads.modGroup.tryFinish.retryWrites).ite (stay s)
  · exact stay s

theorem checkpoint (s : State) : Answers s (execCheckpoint s) := (next (Keeps.refl s).writeCheckpoint).ite (stay s)

-- Banks and control operations ---------------------------------------------------------------------------------------

theorem loadIngot (seq : Nat) (s : State) : Answers s (execLoadIngot seq s) := by
  unfold execLoadIngot
  split
  · exact (stay s).ite (next (Keeps.refl s).pruneLoads.modSlot.step)
  · exact stay s

theorem ingotPinsReleased (seq : Nat) (resp : Resp) (hdr : List Byte) (s : State) :
    Answers s (execIngotPinsReleased seq resp hdr s) := by
  unfold execIngotPinsReleased
  split
  · rename_i m l _ _
    have h : Keeps s (s.modSlot l.slot fun t => t.setBank l.bank State.emptyBank) := (Keeps.refl s).modSlot
    exact (stay s).ite ((next h.modLoad).ite ((next h.loadReadError).ite ((next h.loadFailed).ite ((next h.loadFailed).ite (next h.modLoad)))))
  · exact stay s

theorem ingotLoadDone (seq : Nat) (resp : Resp) (payload : List Byte) (s : State) :
    Answers s (execIngotLoadDone seq resp payload s) := by
  unfold execIngotLoadDone
  split
  · refine (stay s).ite ?_
    extract_lets fill
    have filled : ∀ b, Keeps s (fill b) := fun b => (Keeps.refl s).modSlot.modLoad.writeSwitch.controlDone
    have h := Keeps.refl s
    exact (next (filled _)).ite ((next h.loadReadError).ite ((next h.loadFailed).ite (next (filled _))))
  · exact stay s

theorem switch (seq : Nat) (s : State) : Answers s (execSwitch seq s) := by
  unfold execSwitch
  split
  · extract_lets n t again l s0 s1
    have h0 : Keeps s s0 := (Keeps.refl s).pruneLoads.modSlot
    have h1 : Keeps s s1 := by
      clear_value again
      simp only [s1]
      split
      · exact .refl s
      · exact h0.step
    exact next h1.writeSwitch.controlDone
  · exact stay s

theorem fence (seq : Nat) (s : State) : Answers s (execFence seq s) := by
  unfold execFence
  split
  · exact (next (Keeps.refl s).controlDone).ite (stay s)
  · exact stay s

theorem mark (seq : Nat) (s : State) : Answers s (execMark seq s) := by
  unfold execMark
  split
  · exact (next (Keeps.refl s).controlDone).ite ((stay s).ite (next (Keeps.refl s).modMember.writeCheckpoint))
  · exact stay s

theorem capture (seq : Nat) (s : State) : Answers s (execCapture seq s) := by
  unfold execCapture
  split
  · exact (stay s).ite ((next (Keeps.refl s).modRing.controlDone).ite (next (Keeps.refl s).modRing.wr.controlDone))
  · exact stay s

theorem peek (seq : Nat) (s : State) : Answers s (execPeek seq s) := by
  unfold execPeek
  split
  · refine (stay s).ite ?_
    split
    · exact next (Keeps.refl s).stageFault
    · exact next (Keeps.refl s).writeOpen.modGroup.modMember.bump
  · exact stay s

-- Issue and what is read at issue ------------------------------------------------------------------------------------

theorem groupIssue (seq : Nat) (mem : Image) (s : State) : Answers s (execGroupIssue seq mem s) := by
  unfold execGroupIssue
  extract_lets s'
  have h : Keeps s s' := (Keeps.refl s).learnRoutes
  split
  · refine (next h).ite ?_
    split
    · exact next h.faultMember
    · extract_lets wides ask linked s0 s1
      have asked : ∀ {u : State}, Keeps s u → Keeps s (ask u) := fun k => k.foldl _ _ fun _ _ k => k.needPeers
      have h1 : Keeps s s1 := (asked h).ite (asked (asked h).freeLinks)
      refine (next h1).ite ((next h1.modGroup).ite ?_)
      split
      · rename_i s2 hs2
        exact next (h1.assignReplicas hs2).issueGroup
      · exact next h1
  · exact next h

theorem shapeWordRead (seq : Nat) (mem : Image) (s : State) : Answers s (execShapeWordRead seq mem s) := by
  unfold execShapeWordRead
  have h := Keeps.refl s
  split
  · refine (stay s).ite ?_
    split
    · exact next h.stageFault
    · refine (next h.faultMember.bump).ite ?_
      dsimp only
      split
      · exact next h.stageFault
      · exact next h.modMember.bump.itemRead.reserveCaps.checkSigns.tryClose
  · exact stay s

theorem valueTableRead (seq which : Nat) (mem : Image) (s : State) : Answers s (execValueTableRead seq which mem s) := by
  unfold execValueTableRead
  extract_lets off
  split
  · refine (stay s).ite ?_
    extract_lets src
    split
    · exact next (Keeps.refl s).stageFault
    · exact (next (Keeps.refl s).bump.itemRead.faultMember).ite (next (Keeps.refl s).bump.itemRead.modMember)
  · exact stay s

theorem paramRecordRead (seq : Nat) (mem : Image) (s : State) : Answers s (execParamRecordRead seq mem s) := by
  unfold execParamRecordRead
  split
  · refine (stay s).ite ?_
    split
    · exact next (Keeps.refl s).stageFault
    · exact next (Keeps.refl s).modMember.bump.itemRead
  · exact stay s

theorem memReadError (seq port addr : Nat) (poisoned : Bool) (s : State) :
    Answers s (execMemReadError seq port addr poisoned s) := by
  unfold execMemReadError
  split
  · exact (stay s).ite (next (Keeps.refl s).faultMember.incident)
  · exact stay s

theorem memWriteError (seq port addr : Nat) (s : State) : Answers s (execMemWriteError seq port addr s) := by
  unfold execMemWriteError
  split
  · exact (stay s).ite (next (Keeps.refl s).faultMember.incident)
  · exact (next (Keeps.refl s).step).ite (stay s)

-- Operations ---------------------------------------------------------------------------------------------------------

/-- The elementwise operations. -/
theorem elementwise (seq : Nat) (op : Op) (mem : Image) (s : State) : Answers s (.next (s.withInputs seq op mem State.runElem)) :=
  next ((Keeps.refl s).withInputs fun _ _ _ _ h => h.runElem)

/-- The row operations. -/
theorem rows (seq : Nat) (op : Op) (mem : Image) (s : State) : Answers s (.next (s.withInputs seq op mem State.runRows)) :=
  next ((Keeps.refl s).withInputs fun _ _ _ _ h => h.runRows)

theorem scan (seq : Nat) (mem : Image) (s : State) : Answers s (execScan seq mem s) := (stay s).ite (rows seq .scan mem s)

theorem mcombine (seq : Nat) (mem : Image) (s : State) : Answers s (execMcombine seq mem s) :=
  next ((Keeps.refl s).withInputs fun _ _ _ _ h => h.modMember.tryClose)

theorem chain (seq : Nat) (mem : Image) (s : State) : Answers s (execChain seq mem s) :=
  next ((Keeps.refl s).withInputs fun _ _ _ _ h => h.runChain)

theorem halo (seq : Nat) (mem : Image) (s : State) : Answers s (execHalo seq mem s) :=
  next ((Keeps.refl s).withInputs fun _ _ _ _ h => h.runHalo)

theorem upd (seq : Nat) (mem : Image) (s : State) : Answers s (execUpd seq mem s) := by
  refine next ((Keeps.refl s).withInputs fun u g m inp h => ?_)
  dsimp only
  split
  · exact h.stageFault
  · exact h.runUpd

-- Streams, bands, contexts -------------------------------------------------------------------------------------------

theorem asBeat (port : Nat) (beat : Beat) (s : State) : Answers s (execAsBeat port beat s) := by
  refine (stay s).ite ((next (Keeps.refl s).failBeat).ite ?_)
  split
  · exact next (Keeps.refl s).takeBeat
  · exact next ((Keeps.refl s).held (by simp))

theorem strayWaitExpire (port : Nat) (s : State) : Answers s (execStrayWaitExpire port s) := by
  unfold execStrayWaitExpire
  split
  · exact next ((Keeps.refl s).held (x := s.asHeld.set port none) (by simp)).step
  · exact stay s

theorem arriveLimitExpire (seq : Nat) (s : State) : Answers s (execArriveLimitExpire seq s) :=
  (next (Keeps.refl s).modMember.faultMember).ite (stay s)

theorem asCheckPattern (port : Nat) (beat : Beat) (s : State) : Answers s (execAsCheckPattern port beat s) := by
  have seen : ∀ f, Keeps s { s with asSeen := s.asSeen.modify port f } :=
    fun f => (Keeps.refl s).step (sized := fun h => { h with seen := by simpa using h.seen })
  have bad : Keeps s { s with asBad := true } := (Keeps.refl s).step
  exact (stay s).ite ((next (seen _)).ite (next (bad.ite bad.failBeat)))

theorem bandDrainDone (cluster : Nat) (s : State) : Answers s (execBandDrainDone cluster s) :=
  (next (Keeps.refl s).modCluster.openBand).ite ((next (Keeps.refl s).modCluster.openBand).ite (stay s))

theorem segmentTotalArrive (seq row seg : Nat) (v : SegVal) (s : State) : Answers s (execSegmentTotalArrive seq row seg v s) := by
  unfold execSegmentTotalArrive
  split
  · split
    · have h : ∀ x, Keeps s { s with rowCtx := x } := fun _ => (Keeps.refl s).step
      exact (stay s).ite ((stay s).ite ((next (h _)).ite ((next (h _)).ite (stay s))))
    · exact stay s
  · exact stay s

theorem codebookFillDone (cluster seq : Nat) (fill : CbFill) (s : State) : Answers s (execCodebookFillDone cluster seq fill s) := by
  unfold execCodebookFillDone
  split
  · exact (stay s).ite (next (Keeps.refl s).modCluster)
  · exact stay s

-- The store window ---------------------------------------------------------------------------------------------------

theorem windowWrite (req : WinReq) (data : List Byte) (strb : List Bool) (s : State) : Answers s (execWindowWrite req data strb s) := by
  have answer : ∀ r, Answers s (.next (s.emit (.winWrite req r))) := fun _ => next (Keeps.refl s).emit
  exact (stay s).ite ((answer _).ite ((answer _).ite ((answer _).ite (next (Keeps.refl s).stageWrite.emit))))

theorem windowRead (req : WinReq) (s : State) : Answers s (execWindowRead req s) := by
  have answer : ∀ bs r, Answers s (.next (s.emit (.winRead req bs r))) := fun _ _ => next (Keeps.refl s).emit
  refine (stay s).ite ((answer _ _).ite ((answer _ _).ite ((answer _ _).ite ((answer _ _).ite ?_))))
  split
  · exact next (Keeps.refl s).emit.incident
  · exact next (Keeps.refl s).emit.bump

-- The causeway -------------------------------------------------------------------------------------------------------

/-- Every flit that arrives. -/
theorem land (k : Nat) (f : Flit) (mem : Image) (s : State) : Answers s (.next (s.land k f mem)) := next (Keeps.refl s).land

theorem flitCrcFailure (lane : RxLane) (peer : Nat) (mem : Image) (s : State) : Answers s (execFlitCrcFailure lane peer mem s) :=
  (stay s).ite (next ((Keeps.refl s).takeRx.meet.sendAck.ite (Keeps.refl s).takeRx))

theorem ackTimeout (peer : Nat) (s : State) : Answers s (execAckTimeout peer s) := (stay s).ite (next (Keeps.refl s).resendOrFail)

theorem txCredit (cd : Bool) (lane : Nat) (s : State) : Answers s (execTxCredit cd lane s) := by
  refine (stay s).ite (next (Keeps.pump ((Keeps.refl s).modCw fun c ⟨cu, cdn, rest⟩ => ?_)))
  split
  · exact ⟨cu, by simpa using cdn, rest⟩
  · exact ⟨by simpa using cu, cdn, rest⟩

theorem exchTimeout (chainId : Nat) (s : State) : Answers s (execExchTimeout chainId s) := by
  unfold execExchTimeout
  split
  · split
    · exact (stay s).ite (next (Keeps.refl s).abortExch.incident)
    · exact stay s
  · exact stay s

theorem mirrorTimeout (seq : Nat) (s : State) : Answers s (execMirrorTimeout seq s) := by
  unfold execMirrorTimeout
  split
  · exact (stay s).ite (next (Keeps.refl s).faultMember.incident)
  · exact stay s

theorem mirrorLost (s : State) : Answers s (execMirrorLost s) := by
  unfold execMirrorLost
  split
  · exact stay s
  · exact (stay s).ite ((next (Keeps.refl s).sendMirror).ite (next (Keeps.refl s).modWb.incident.sendMirror.report))

theorem mirrorWriteResponse (src seq : Nat) (s : State) : Answers s (execMirrorWriteResponse src seq s) := by
  unfold execMirrorWriteResponse
  split
  · exact next (Keeps.refl s).dropMsg.sendDone
  · exact stay s

theorem waybookWindowWriteResponse (src : Nat) (s : State) : Answers s (execWaybookWindowWriteResponse src s) := by
  unfold execWaybookWindowWriteResponse
  split
  · exact next (Keeps.refl s).dropMsg.sendDone.modWb
  · exact stay s

-- Incidents and the assay --------------------------------------------------------------------------------------------

theorem incidentDetect (f : Finding) (s : State) : Answers s (execIncidentDetect f s) :=
  (stay s).ite (next (Keeps.refl s).noteError.incident)

theorem recoveryEnd (mem : Image) (s : State) : Answers s (execRecoveryEnd mem s) := by
  refine (stay s).ite ?_
  split
  · split
    · exact (next ((Keeps.refl s).ite (Keeps.refl s).scanNow)).ite ((next ((Keeps.refl s).endRecovery.settleS2 _ _)).ite (stay s))
    · exact stay s
  · exact stay s

theorem scrub (word bits : Nat) (s : State) : Answers s (execScrub word bits s) := (stay s).ite (next (Keeps.refl s).incident)

theorem assayStart (s : State) : Answers s (execAssayStart s) := by
  have h : ∀ x, Keeps s { s with assay := x } := fun _ => (Keeps.refl s).step
  refine (stay s).ite ?_
  split
  · exact next (h _).modCluster
  · exact (stay s).ite (next (h _).modCluster)

theorem assayComplete (r : AssayRes) (drawOk : Bool) (s : State) : Answers s (execAssayComplete r drawOk s) := by
  have h : Keeps s { s with assay := { s.assay with running := none } } := (Keeps.refl s).step
  exact (next (h.assayed.incident.ite h.assayed)).ite (stay s)

-- The start ----------------------------------------------------------------------------------------------------------

theorem startStepDone (step : Nat) (pass : Bool) (info : StepInfo) (s : State) : Answers s (execStartStepDone step pass info s) := by
  unfold execStartStepDone
  have h := Keeps.refl s
  split
  · refine (stay s).ite ((next h.failStep).ite ?_)
    extract_lets alt r
    have hr : Keeps s r.1 := h.runStep
    exact (next (hr.resolveStep.faultMissing.startReplay.pump.ite hr.resolveStep)).ite (next (hr.ite h).failStep)
  · exact stay s

theorem startStepTimeout (step : Nat) (s : State) : Answers s (execStartStepTimeout step s) := by
  unfold execStartStepTimeout
  split
  · exact (stay s).ite (next (Keeps.refl s).failStep)
  · exact stay s

-- The governor and the clocks ----------------------------------------------------------------------------------------

theorem demandUpdate (s : State) : Answers s (execDemandUpdate s) := by
  refine (stay s).ite ?_
  extract_lets d s1 s2
  have h1 : Keeps s s1 := (Keeps.refl s).modGov.bump
  have h2 : Keeps s s2 := by
    simp only [s2]
    split
    · exact h1.cancelForecast.ite h1
    · exact h1
  exact next h2.seekRise.settleGov

theorem forecastStart (s : State) : Answers s (execForecastStart s) := by
  unfold execForecastStart
  split
  · exact (stay s).ite ((next (Keeps.refl s).modGov.settleGov).ite (next (Keeps.refl s).cancelForecast.forecastTo.settleGov))
  · exact stay s

theorem levelStep (s : State) : Answers s (execLevelStep s) := by
  unfold execLevelStep
  split
  · refine (stay s).ite ?_
    extract_lets l stepTo
    have moved : ∀ n, Keeps s (stepTo n) := fun _ => (Keeps.refl s).modGov.sendLevel.settleGov
    have rest : Answers s (.next (s.modGov fun g => { g with ramp := none, unforecast := false })) := next (Keeps.refl s).modGov
    exact ((stay s).ite (rest.ite (next (moved _)))).ite ((next (moved _)).ite rest)
  · exact stay s

theorem holdExpire (s : State) : Answers s (execHoldExpire s) := (next (Keeps.refl s).forecastTo.settleGov).ite (stay s)

theorem pgGrant (level token : Nat) (s : State) : Answers s (execPgGrant level token s) :=
  (stay s).ite (next (Keeps.refl s).modGov.descend)

theorem throttle (level : Nat) (s : State) : Answers s (execThrottle level s) := (stay s).ite (next (Keeps.refl s).modGov.descend)

theorem railGood (level : Nat) (s : State) : Answers s (execRailGood level s) := next (Keeps.refl s).modGov

theorem pgReservedWord (word : Nat) (s : State) : Answers s (execPgReservedWord word s) :=
  (stay s).ite (next (Keeps.refl s).countPgBad)

theorem pgWordTruncated (s : State) : Answers s (execPgWordTruncated s) := (stay s).ite (next (Keeps.refl s).countPgBad)

theorem pgLost (s : State) : Answers s (execPgLost s) := by
  have h : Keeps s (s.modGov fun g => { g with pgLost := true }) := (Keeps.refl s).modGov
  exact (stay s).ite ((next h.cancelForecast.modGov.forecastTo.settleGov).ite (next h))

theorem droopStretch (s : State) : Answers s (execDroopStretch s) := (stay s).ite (next (Keeps.refl s).modGov.sendLevel)

theorem stretchEnd (s : State) : Answers s (execStretchEnd s) := (next (Keeps.refl s).modGov.sendLevel).ite (stay s)

theorem recalWindow (s : State) : Answers s (execRecalWindow s) := (next (Keeps.refl s).modGov).ite (stay s)

theorem recalComplete (drop : Nat) (s : State) : Answers s (execRecalComplete drop s) := by
  unfold execRecalComplete
  refine Answers.ite ?_ (stay s)
  extract_lets t50 c s1 x s2
  have h1 : Keeps s s1 := (Keeps.refl s).modGov fun g hg => by simpa using hg
  have h2 : Keeps s s2 := h1.step
  exact next h2.patchRecord.bump

theorem clusterClockGated (domain : Nat) (s : State) : Answers s (execClusterClockGated domain s) :=
  (next (Keeps.refl s).modCluster).ite (stay s)

-- The setup window ---------------------------------------------------------------------------------------------------

/-- Every write on a setup path. -/
theorem setupWrite (p : PathId) (off data strb : Nat) (s : State) : Answers s (.next (s.setupWrite p off data strb)) :=
  next (Keeps.refl s).setupWrite

/-- Every read on a setup path. -/
theorem setupRead (p : PathId) (off : Nat) (s : State) : Answers s (.next (s.setupRead p off)) := next (Keeps.refl s).setupRead

theorem setupAccess (write : Bool) (off data : Nat) (s : State) : Answers s (execSetupAccess write off data s) :=
  next ((Keeps.refl s).setupWrite.ite (Keeps.refl s).setupRead)

theorem pendingSetApply (s : State) : Answers s (execPendingSetApply s) := by
  unfold execPendingSetApply
  split
  · rename_i v hv
    refine Answers.ite (next ((Keeps.refl s).step (sized := fun h => { h with pad := ⟨h.pad.2.2 v hv, h.pad.2.1, ?_⟩ }))) (stay s)
    intro w hw
    cases hw
  · exact stay s

theorem sealChangeApply (field : Nat) (s : State) : Answers s (execSealChangeApply field s) := by
  unfold execSealChangeApply
  extract_lets f
  split
  · refine Answers.ite (next (Keeps.wbWrite ?_)) (stay s)
    exact (Keeps.refl s).seals id
  · exact stay s

-- All of them --------------------------------------------------------------------------------------------------------

/-- Every command but a reset answers with a state that has kept what it must. -/
theorem command : ∀ (c : Instr) (s : State), Instr'.isReset c = false → Answers s (exec c s)
  | .setupWrite _ _ _, _, _ => setupWrite ..
  | .snapshotRead _, _, _ => setupRead ..
  | .setupAccess _ _ _, _, _ => setupAccess ..
  | .commitPad, _, _ => setupWrite ..
  | .pendingSetApply, _, _ => pendingSetApply ..
  | .sealCtlWrite _, _, _ => setupWrite ..
  | .drawApply, _, _ => setupWrite ..
  | .geomApply, _, _ => setupWrite ..
  | .sealChangeApply _, _, _ => sealChangeApply ..
  | .ringEnable _ _, _, _ => setupWrite ..
  | .ringDisable _ _, _, _ => setupWrite ..
  | .routeInv _, _, _ => setupWrite ..
  | .fenceReq _, _, _ => setupWrite ..
  | .assayForce _, _, _ => setupWrite ..
  | .go _, _, _ => setupWrite ..
  | .rerun _, _, _ => setupWrite ..
  | .dbgDataRead, _, _ => setupRead ..
  | .bell _ _ _, _, _ => bell ..
  | .headRecordData _ _ _, _, _ => headRecordData ..
  | .descriptorData _ _ _, _, _ => descriptorData ..
  | .waymarkWrite _, _, _ => waymarkWrite ..
  | .readyRecheck _, _, _ => readyRecheck ..
  | .notReadyTimeout _, _, _ => notReadyTimeout ..
  | .waybookWriteResponse _ _ _, _, _ => waybookWriteResponse ..
  | .milepostWriteResponse _ _ _, _, _ => milepostWriteResponse ..
  | .groupIssue _ _, _, _ => groupIssue ..
  | .shapeWordRead _ _, _, _ => shapeWordRead ..
  | .valueTableRead _ _ _, _, _ => valueTableRead ..
  | .paramRecordRead _ _, _, _ => paramRecordRead ..
  | .drainPoint _, _, _ => drainPoint ..
  | .outputWritesComplete _, _, _ => outputWritesComplete ..
  | .memReadError _ _ _ _, _, _ => memReadError ..
  | .memWriteError _ _ _, _, _ => memWriteError ..
  | .fence _, _, _ => fence ..
  | .mark _, _, _ => mark ..
  | .capture _, _, _ => capture ..
  | .convert _ _, _, _ => elementwise ..
  | .affine _ _, _, _ => elementwise ..
  | .func _ _, _, _ => elementwise ..
  | .gate _ _, _, _ => elementwise ..
  | .clamp _ _, _, _ => elementwise ..
  | .rmsn _ _, _, _ => rows ..
  | .smax _ _, _, _ => rows ..
  | .lsmax _ _, _, _ => rows ..
  | .rowred _ _, _, _ => rows ..
  | .rowstat _ _, _, _ => rows ..
  | .scan _ _, _, _ => scan ..
  | .mcombine _ _, _, _ => mcombine ..
  | .chain _ _, _, _ => chain ..
  | .halo _ _, _, _ => halo ..
  | .upd _ _, _, _ => upd ..
  | .loadIngot _, _, _ => loadIngot ..
  | .ingotPinsReleased _ _ _, _, _ => ingotPinsReleased ..
  | .ingotLoadDone _ _ _, _, _ => ingotLoadDone ..
  | .switch _, _, _ => switch ..
  | .peek _, _, _ => peek ..
  | .codebookFillDone _ _ _, _, _ => codebookFillDone ..
  | .segmentTotalArrive _ _ _ _, _, _ => segmentTotalArrive ..
  | .bandDrainDone _, _, _ => bandDrainDone ..
  | .asBeat _ _, _, _ => asBeat ..
  | .strayWaitExpire _, _, _ => strayWaitExpire ..
  | .arriveLimitExpire _, _, _ => arriveLimitExpire ..
  | .tollRequest _, _, _ => tollRequest ..
  | .tollGrantReported, _, _ => tollGrantReported ..
  | .tollSet _ _ _, _, _ => tollSet ..
  | .windowWrite _ _ _, _, _ => windowWrite ..
  | .windowRead _, _, _ => windowRead ..
  | .cwGrant _ _, _, _ => land ..
  | .ack _ _, _, _ => land ..
  | .run _ _, _, _ => land ..
  | .offset _ _, _, _ => land ..
  | .segtot _ _, _, _ => land ..
  | .total _ _, _, _ => land ..
  | .haloMessage _ _, _, _ => land ..
  | .sign _ _, _, _ => land ..
  | .pub _ _, _, _ => land ..
  | .abort _ _, _, _ => land ..
  | .mirror _ _, _, _ => land ..
  | .parity _ _, _, _ => land ..
  | .mirrorDone _ _, _, _ => land ..
  | .waybook _ _, _, _ => land ..
  | .waybookDone _ _, _, _ => land ..
  | .sync _ _, _, _ => land ..
  | .ackTimeout _, _, _ => ackTimeout ..
  | .exchTimeout _, _, _ => exchTimeout ..
  | .mirrorTimeout _, _, _ => mirrorTimeout ..
  | .mirrorLost, _, _ => mirrorLost ..
  | .txCredit _ _, _, _ => txCredit ..
  | .checkpoint, _, _ => checkpoint ..
  | .incidentDetect _, _, _ => incidentDetect ..
  | .recoveryEnd _, _, _ => recoveryEnd ..
  | .scrub _ _, _, _ => scrub ..
  | .assayStart, _, _ => assayStart ..
  | .assayComplete _ _, _, _ => assayComplete ..
  | .resetAssert _, _, h => nomatch h
  | .coldResetRelease, _, h => nomatch h
  | .warmResetRelease _, _, h => nomatch h
  | .startStepDone _ _ _, _, _ => startStepDone ..
  | .startStepTimeout _, _, _ => startStepTimeout ..
  | .asCheckPattern _ _, _, _ => asCheckPattern ..
  | .demandUpdate, _, _ => demandUpdate ..
  | .forecastStart, _, _ => forecastStart ..
  | .levelStep, _, _ => levelStep ..
  | .holdExpire, _, _ => holdExpire ..
  | .pgGrant level token, s, _ => pgGrant level token s
  | .throttle _, _, _ => throttle ..
  | .railGood _, _, _ => railGood ..
  | .pgReservedWord _, _, _ => pgReservedWord ..
  | .pgWordTruncated, _, _ => pgWordTruncated ..
  | .pgLost, _, _ => pgLost ..
  | .droopStretch, _, _ => droopStretch ..
  | .stretchEnd, _, _ => stretchEnd ..
  | .recalWindow, _, _ => recalWindow ..
  | .recalComplete _, _, _ => recalComplete ..
  | .clusterClockGated _, _, _ => clusterClockGated ..
  | .flitCrcFailure _ _ _, _, _ => flitCrcFailure ..
  | .mirrorWriteResponse _ _, _, _ => mirrorWriteResponse ..
  | .waybookWindowWriteResponse _, _, _ => waybookWindowWriteResponse ..

end Answers

-- Resets -------------------------------------------------------------------------------------------------------------

/-- What every command keeps, a reset too: nothing is broken that must hold, and nothing that has left is taken back. -/
structure Preserves (s t : State) : Prop where
  staging : s.stagingOk → t.stagingOk
  sized : s.Sized → t.Sized
  journal : s.journalOk → t.journalOk
  out : ∃ l, t.out = s.out ++ l
  grade : t.grade = s.grade
  pending : t.pending = s.pending

namespace Preserves
variable {s t u : State}

theorem trans (h : Preserves s t) (k : Preserves t u) : Preserves s u where
  staging x := k.staging (h.staging x)
  sized x := k.sized (h.sized x)
  journal x := k.journal (h.journal x)
  out := by
    obtain ⟨l, e⟩ := h.out
    obtain ⟨m, e'⟩ := k.out
    exact ⟨l ++ m, by rw [e', e, List.append_assoc]⟩
  grade := k.grade.trans h.grade
  pending := k.pending.trans h.pending

theorem of_keeps (h : Keeps s t) : Preserves s t :=
  ⟨h.staging, h.sized, h.journal, h.out.imp fun _ k => k.1, h.grade, h.pending⟩

theorem coldReset (s : State) : Preserves s s.coldReset where
  staging _ := rfl
  sized _ := {
    rings := rfl, slots := rfl, clusters := rfl, held := rfl, seen := rfl, codes := rfl, cals := rfl, changes := rfl,
    pad := ⟨rfl, rfl, fun _ h => nomatch h⟩, tolls := ⟨rfl, rfl⟩, cw := ⟨rfl, rfl, rfl, rfl⟩, inc := ⟨rfl, rfl, rfl⟩ }
  journal _ := ⟨.nil, fun _ h => nomatch h⟩
  out := ⟨[], by simp [State.coldReset]⟩
  grade := rfl
  pending := rfl

/-- A warm reset maps the arrays that it keeps, and replaces the others by their values at reset. -/
theorem warmDrop (s : State) : Preserves s s.warmDrop where
  staging h := Memory.forget_wf _ _ h
  sized h := { h with
    rings := by simpa [State.warmDrop] using h.rings
    clusters := by simpa [State.warmDrop] using h.clusters
    held := rfl, seen := rfl, codes := rfl
    pad := ⟨h.pad.1, h.pad.2.1, fun _ h => nomatch h⟩
    tolls := h.tolls
    cw := ⟨rfl, rfl, rfl, rfl⟩
    inc := ⟨by simpa [State.warmDrop] using h.inc.1, h.inc.2.1, rfl⟩ }
  journal := fun ⟨hp, hl⟩ => ⟨hp.filter _, fun r hr => hl r (List.mem_filter.1 hr).1⟩
  out := ⟨[], by simp [State.warmDrop]⟩
  grade := rfl
  pending := rfl

theorem giveRxCredits (s : State) : Preserves s s.giveRxCredits := ⟨id, id, id, ⟨_, rfl⟩, rfl, rfl⟩

theorem resetAssert (cold : Bool) (s : State) : ∃ t, execResetAssert cold s = .next t ∧ Preserves s t := by
  unfold execResetAssert
  split
  · exact ⟨_, rfl, (coldReset s).trans (of_keeps (Keeps.refl _).step)⟩
  · split
    · exact ⟨_, rfl, of_keeps (Keeps.refl s).step⟩
    · exact ⟨_, rfl, (warmDrop s).trans (of_keeps (Keeps.refl _).step)⟩

theorem coldResetRelease (s : State) : ∃ t, execColdResetRelease s = .next t ∧ Preserves s t := by
  unfold execColdResetRelease
  split
  · exact ⟨_, rfl, (coldReset s).trans (giveRxCredits _)⟩
  · exact ⟨_, rfl, of_keeps (.refl s)⟩

theorem warmResetRelease (bad : Option Nat) (s : State) : ∃ t, execWarmResetRelease bad s = .next t ∧ Preserves s t := by
  unfold execWarmResetRelease
  split
  · have released : ∀ {t}, Keeps ({ s.warmDrop with rst := ⟨false, false⟩ } : State).giveRxCredits t → Preserves s t :=
      fun k => ((warmDrop s).trans (of_keeps (Keeps.refl _).step)).trans ((giveRxCredits _).trans (of_keeps k))
    extract_lets s1
    cases bad with
    | some n => exact ⟨_, rfl, released (Keeps.refl _).beginStart.incident.modStart.park⟩
    | none =>
      dsimp only
      split
      · exact ⟨_, rfl, released (Keeps.refl _).beginStart.park⟩
      · exact ⟨_, rfl, released (Keeps.refl _).beginStart⟩
  · exact ⟨_, rfl, of_keeps (.refl s)⟩

/-- Every command answers with a state that has kept what it must. -/
theorem command (c : Instr) (s : State) : ∃ t, exec c s = .next t ∧ Preserves s t := by
  cases h : Instr'.isReset c with
  | false =>
    obtain ⟨t, ht, hk⟩ := Answers.command c s h
    exact ⟨t, ht, of_keeps hk⟩
  | true =>
    unfold Instr'.isReset at h
    split at h
    · exact resetAssert _ s
    · exact coldResetRelease s
    · exact warmResetRelease _ s
    · cases h

/-- What a command answers has kept what it must. -/
theorem of_exec {c : Instr} (h : exec c s = .next t) : Preserves s t := by
  obtain ⟨u, hu, hp⟩ := command c s
  rw [h] at hu
  cases hu
  exact hp

end Preserves

-- The statements -----------------------------------------------------------------------------------------------------

/-- Settles O4: no command touches the queue or the grade, and its outputs come after those that have left. -/
theorem execKeepsQueueGradeAndOutputs : Obligations.ExecKeepsQueueGradeAndOutputs := fun _ _ _ h =>
  have hp := Preserves.of_exec h
  ⟨hp.pending, hp.grade, hp.out⟩

/-- Settles O6: an idle step leaves the arrays as they are, and a command keeps their sizes. -/
theorem stepKeepsArraySizes : Obligations.StepKeepsArraySizes := by
  intro s t hs h
  unfold step at h
  split at h
  · cases h
    exact hs
  · exact (Preserves.of_exec h).sized hs

end Sys2Proof.Machine
end

section
/-!
A fetched descriptor as it arrives (R343 steps 1 to 3): what an update of a ring leaves of its checks, and what `promote` does where a
descriptor is at the head and where none is.
-/
namespace Sys2Proof.Machine
open Sys2Proof

namespace State
variable {s : State} {r : Nat} {d : Desc} {rest : List Desc}

/-- A ring of the block, once it has been updated. -/
theorem ring_modRing (f : Ring → Ring) (h : r < s.rings.length) : (s.modRing r f).ring r = f (s.ring r) := by
  simp [ring, modRing, List.getD_eq_getElem?_getD, h]

/-- Two updates of a ring are one. -/
theorem modRing_modRing (f k : Ring → Ring) : (s.modRing r f).modRing r k = s.modRing r (k ∘ f) := by
  simp [modRing, List.modify_modify_eq]

/-- The checks of a descriptor read no ring's state but its open group (R344). -/
theorem check_modRing (n : Nat) (f : Ring → Ring) : (s.modRing n f).check r d = s.check r d := rfl

/-- Nor do the functions that it needs (R351). -/
theorem needsReady_modRing (n : Nat) (f : Ring → Ring) : (s.modRing n f).needsReady d = s.needsReady d := rfl

/-- Behind a descriptor at the head nothing moves. -/
theorem promote_of_atHead (h : (s.ring r).atHead ≠ none) : s.promote r = s := by
  obtain ⟨x, hx⟩ := Option.ne_none_iff_exists'.1 h
  simp [promote, hx]

/-- The first arrived descriptor comes to a free head, where it is checked and waits for what it needs (R343, R351). -/
theorem promote_of_free (hhead : (s.ring r).atHead = none) (harr : (s.ring r).arrived = d :: rest) (htaking : (s.ring r).taking = true) :
    s.promote r = s.modRing r fun g => { g with
      arrived := rest, atHead := some ⟨d, s.check r d, s.check r d == 0 && !s.needsReady d, false⟩ } := by
  simp [promote, hhead, harr, htaking]

/-- A descriptor arrives behind those of its ring that are here, and moves on where it can (R40). -/
theorem exec_descriptorData_okay (data : List Byte) (hfenced : s.inc.fenced = false) (htaking : (s.ring r).taking = true)
    (hfetching : 0 < (s.ring r).fetching) :
    let a := (s.ring r).descAddr ((s.ring r).next + BitVec.ofNat 32 ((s.ring r).arrived.length + b2n (s.ring r).atHead.isSome))
    exec (.descriptorData r .okay data) s =
      .next ((s.modRing r fun g => { g with arrived := g.arrived ++ [s.rd [⟨a, data⟩] a 128] }).promote r) := by
  change execDescriptorData r .okay data s = _
  simp [execDescriptorData, hfenced, htaking, hfetching]

end State

/-- Settles O25: the descriptor joins those that are here, and `promote` takes it to the head where that is free. -/
theorem descriptorsComeToTheHead : Obligations.DescriptorsComeToTheHead := by
  intro s r data hr hlen hfenced htaking hfetching g a d
  have hring := s.ring_modRing (fun g => { g with arrived := g.arrived ++ [d] }) (hlen ▸ hr)
  rw [State.exec_descriptorData_okay data hfenced htaking hfetching]
  refine ⟨fun hhead harr => ?_, fun hhead => ?_⟩
  · rw [State.promote_of_free (d := d) (rest := []) (by rw [hring]; exact hhead) (by rw [hring]; exact congrArg (· ++ [d]) harr)
      (by rw [hring]; exact htaking), State.modRing_modRing, State.check_modRing, State.needsReady_modRing]
    rfl
  · rw [State.promote_of_atHead (by rw [hring]; exact hhead)]
    rfl

end Sys2Proof.Machine
end

section
/-!
Segment totals (R259) and codebook fills (R165 to R168): what the two commands do where their occasion is there, and how many cells a
fill holds.
-/
namespace Sys2Proof.Machine
open Sys2Proof

-- Row contexts -------------------------------------------------------------------------------------------------------

/-- The context of a member's row: the one that is kept, or a new one before the first segment (R259). -/
def State.rowContext (s : State) (m : Member) (seq row : Nat) : RowCx :=
  (s.rowCtx.find? fun c => c.seq == seq && c.row == row).getD ⟨seq, row, m.firstSeg, .empty, [], []⟩

/-- The contexts of every other row. -/
def State.otherContexts (s : State) (seq row : Nat) : List RowCx := s.rowCtx.filter fun c => !(c.seq == seq && c.row == row)

/-- Totals that all contexts hold parked. -/
def State.parkedTotals (s : State) : Nat := (s.rowCtx.map fun c => c.parked.length).sum

/-- With nothing parked for the next segment a context stands. -/
theorem RowCx.drain_of_none_next {op : AccOp} {c : Red.SoftCtx} {x : RowCx} (h : x.parked.any (fun p => p.1 == x.next) = false) (n : Nat) :
    RowCx.drain op c n x = x := by
  have hfind : x.parked.find? (fun p => p.1 == x.next) = none := by simpa using h
  cases n with
  | zero => rfl
  | succ n => simp [RowCx.drain, hfind]

section Totals
variable {s : State} {seq row seg : Nat} {v : SegVal} {g : Group} {m : Member} {a : Acc}
  (hg : s.group? seq = some g) (hm : s.member? seq = some m) (ha : SegVal.acc m.bytes.accOp v = some a)
  (hissued : g.issued = true) (hdead : g.dead = false) (hop : m.bytes.row = true) (hres : m.result = none) (hin : m.inputs = none)
  (hrow : row < m.tileRows) (hfirst : m.firstSeg ≤ seg) (hlast : seg < m.firstSeg + m.segCount)
  (hnew : (s.rowContext m seq row).parked.any (fun p => p.1 == seg) = false) (hroom : (s.otherContexts seq row).length < 16384)
include hg hm ha hissued hdead hop hres hin hrow hfirst hlast hnew hroom

/-- A total that has not come before, of a segment of the row that is not behind: it is added, with what is parked behind it, where it
is the next, and else parked where there is room. -/
theorem exec_segmentTotalArrive (hle : (s.rowContext m seq row).next ≤ seg) :
    let x := s.rowContext m seq row
    let y := x.add m.bytes.accOp (s.softOf m) a
    exec (.segmentTotalArrive seq row seg v) s =
      if seg = x.next then
        .next { s with rowCtx := s.otherContexts seq row ++ [RowCx.drain m.bytes.accOp (s.softOf m) y.parked.length y] }
      else if s.parkedTotals < 4096 then
        .next { s with rowCtx := s.otherContexts seq row ++ [{ x with parked := x.parked ++ [(seg, a)] }] }
      else .next s := by
  change execSegmentTotalArrive seq row seg v s = _
  simp only [execSegmentTotalArrive, hg, hm, ha]
  rw [if_neg (by simp [hissued, hdead, hop, hres, hin]; omega)]
  refine if_neg ?_
  simp only [Bool.or_eq_true, decide_eq_true_eq, not_or, Bool.not_eq_true]
  exact ⟨⟨Nat.not_lt.2 hle, hnew⟩, Nat.not_le.2 hroom⟩

/-- The next total of a row, with nothing parked behind it. -/
theorem exec_segmentTotalArrive_next (hnext : seg = (s.rowContext m seq row).next)
    (halone : (s.rowContext m seq row).parked.any (fun p => p.1 == seg + 1) = false) :
    exec (.segmentTotalArrive seq row seg v) s = .next { s with rowCtx := s.otherContexts seq row ++
      [(s.rowContext m seq row).add m.bytes.accOp (s.softOf m) a] } := by
  rw [exec_segmentTotalArrive hg hm ha hissued hdead hop hres hin hrow hfirst hlast hnew hroom hnext.ge, if_pos hnext,
    RowCx.drain_of_none_next (by rwa [hnext] at halone)]

/-- A total that comes early, with room to park it. -/
theorem exec_segmentTotalArrive_early (hearly : (s.rowContext m seq row).next < seg) (hheld : s.parkedTotals < 4096) :
    exec (.segmentTotalArrive seq row seg v) s = .next { s with rowCtx := s.otherContexts seq row ++
      [{ s.rowContext m seq row with parked := (s.rowContext m seq row).parked ++ [(seg, a)] }] } := by
  rw [exec_segmentTotalArrive hg hm ha hissued hdead hop hres hin hrow hfirst hlast hnew hroom hearly.le, if_neg hearly.ne',
    if_pos hheld]

end Totals

-- What a fill holds --------------------------------------------------------------------------------------------------

theorem cutGo_flatten {α : Type} {n : Nat} (hn : 0 < n) : ∀ (k : Nat) (xs : List α), xs.length ≤ k → (cutGo n k xs).flatten = xs
  | 0, xs, h => by simpa [cutGo] using (List.length_eq_zero_iff.1 (Nat.le_zero.1 h)).symm
  | _ + 1, [], _ => rfl
  | k + 1, x :: xs, h => by
    have ih := cutGo_flatten hn k ((x :: xs).drop n) (by simp at h ⊢; omega)
    simp only [cutGo, List.flatten_cons, ih, List.take_append_drop]

/-- The pieces of a list make the list. -/
theorem cut_flatten {α : Type} (n : Nat) (xs : List α) : (cut n xs).flatten = xs := cutGo_flatten (by omega) _ xs le_rfl

/-- Pieces replaced by lists of their length leave the length of the whole. -/
theorem length_flatten_mapIdx {α β : Type} {f : Nat → List α → List β} (hf : ∀ i l, (f i l).length = l.length) (ls : List (List α)) :
    (ls.mapIdx f).flatten.length = ls.flatten.length := by
  have hlens : (ls.mapIdx f).map List.length = ls.map List.length := List.ext_getElem (by simp) (by simp [hf])
  rw [List.length_flatten, List.length_flatten, hlens]

namespace Prog

@[simp] theorem length_stepAll (e : Env) (live : List Bool) (rs : List Regs) (w : Nat) : (stepAll e live rs w).length = rs.length := by
  unfold stepAll
  dsimp only
  split
  · simp
  · split <;> simp

theorem length_foldl_stepAll (e : Env) (live : List Bool) (ws : List Nat) (rs : List Regs) :
    (ws.foldl (fun rs i => stepAll e live rs (step e.bank e.d i)) rs).length = rs.length := by
  induction ws generalizing rs with
  | nil => rfl
  | cons w ws ih => rw [List.foldl_cons, ih, length_stepAll]

@[simp] theorem length_run (e : Env) (els : List (Option El)) : (run e els).length = els.length := by
  simp [run, length_foldl_stepAll]

@[simp] theorem length_func (x : Ctx) (e : Epi) (f : FnUse) (i : Nat) (els : List (Option El)) (col : Nat) :
    (func x e f i els col).length = els.length := by
  simp [func]

end Prog

namespace ElemEnv

/-- The direct path answers each element, one operation as another. -/
theorem length_direct (v : ElemEnv) (es : List (Option El)) : (v.direct es).length = es.length := by
  unfold direct
  split
  · unfold funcAll
    split
    · split
      · rw [length_flatten_mapIdx (fun _ _ => Prog.length_func ..), cut_flatten]
      · simp
    · simp
  · simp [convertAll]

/-- A fill holds one cell for each code of the format. -/
theorem length_entry_cells (v : ElemEnv) (sc : Nat) : (v.entry sc).cells.length = 2 ^ v.a.fmt.width := by
  simp [entry, length_direct]

end ElemEnv

-- The cache of a cluster ---------------------------------------------------------------------------------------------

namespace Cluster
variable {k : Cluster} {e : CbEntry} {seq sc : Nat}

/-- A queued fill that completes leaves the queue and joins the cache, at whose front an entry of 64 gives way (R168). -/
theorem takeFill_of_queued (hseq : e.seq = seq) (hsc : e.scale = sc) (h : k.fills.contains (seq, sc) = true) :
    k.takeFill e = { k with
      fills := k.fills.filter (· != (seq, sc)), cache := (if 64 ≤ k.cache.length then k.cache.drop 1 else k.cache) ++ [e] } := by
  subst hseq hsc
  exact if_pos h

/-- Without a queued fill nothing is taken. -/
theorem takeFill_of_not_queued (hseq : e.seq = seq) (hsc : e.scale = sc) (h : k.fills.contains (seq, sc) = false) :
    k.takeFill e = k := by
  subst hseq hsc
  exact if_neg (Bool.not_eq_true _ ▸ h)

/-- A block whose scale has an entry makes it the most recently gathered (R168). -/
theorem passBlock_of_entry (h : k.cache.find? (fun x => x.seq == seq && x.scale == sc) = some e) :
    passBlock seq k sc = { k with cache := k.cache.filter (fun x => !(x.seq == seq && x.scale == sc)) ++ [e] } := by
  simp only [passBlock, h]

/-- A block whose scale has none queues a fill, once (R166). -/
theorem passBlock_of_no_entry (h : k.cache.find? (fun x => x.seq == seq && x.scale == sc) = none)
    (hq : k.fills.contains (seq, sc) = false) : passBlock seq k sc = { k with fills := k.fills ++ [(seq, sc)] } := by
  simp only [passBlock, h, hq]
  rfl

end Cluster

namespace State
variable {s : State} {c : Nat} {f k : Cluster → Cluster}

/-- An update of a cluster is what it does to that cluster. -/
theorem modCluster_congr (h : f (s.cluster c) = k (s.cluster c)) (hc : c < s.clusters.length) : s.modCluster c f = s.modCluster c k := by
  have hget : s.cluster c = s.clusters[c] := by simp [cluster, List.getD_eq_getElem?_getD, hc]
  rw [hget] at h
  simp only [modCluster, List.modify_eq_take_cons_drop hc, h]

/-- An update that finds nothing to do at its cluster does nothing. -/
theorem modCluster_self (h : f (s.cluster c) = s.cluster c) (hc : c < s.clusters.length) : s.modCluster c f = s := by
  rw [modCluster_congr (k := id) h hc]
  simp [modCluster]

/-- A member that is ready for its operation is the block's member of its number. -/
theorem opReady_member {seq : Nat} {op : Op} {g : Group} {m : Member} (h : s.opReady seq op = some (g, m)) :
    s.member? seq = some m ∧ m.seq = seq := by
  unfold opReady at h
  split at h
  · rename_i g' m' _ hm
    obtain ⟨-, hsame⟩ := Option.ite_none_right_eq_some.1 h
    cases hsame
    exact ⟨hm, by simpa using List.find?_some hm⟩
  · cases h

end State

/-- CODEBOOK_FILL_DONE of a descriptor that takes the codebook path: its cluster passes over the blocks, and takes the fill (R165 to
R168). -/
theorem exec_codebookFillDone {s : State} {cluster seq scale : Nat} {passed : List (Nat × Nat)} {mem : Image} {op : Op} {g : Group}
    {m : Member} (hready : s.opReady seq op = some (g, m)) (hop : m.bytes.op = some op) (hcompat : m.compat ≠ 5)
    (hbook : m.bytes.codebook (s.progBytes m.progGen) = true) (hwork : s.takesWork cluster = true) (hbad : s.badInput m = none) :
    let v := s.elemEnv g m (s.inputsNow mem m)
    let sc := if v.a.fmt.scaled then scale else 0
    exec (.codebookFillDone cluster seq ⟨scale, passed, mem⟩) s = .next (s.modCluster cluster fun k =>
      ((passed.filterMap fun p => v.lookupScale p.1 p.2).foldl (Cluster.passBlock seq) k).takeFill (v.entry sc)) := by
  change execCodebookFillDone cluster seq ⟨scale, passed, mem⟩ s = _
  simp [execCodebookFillDone, (State.opReady_member hready).1, hop, hready, hcompat, hbook, hwork, hbad]

-- The statement ------------------------------------------------------------------------------------------------------

/-- Settles O42: the two ways of a segment total, and of a block and a fill at their cluster. -/
theorem contextsTakeTotalsAndFills : Obligations.ContextsTakeTotalsAndFills := by
  constructor
  · intro s seq row seg v g m a hg hm ha hissued hdead hop hres hin hrow hfirst hlast x others hnew hroom
    exact ⟨exec_segmentTotalArrive_next hg hm ha hissued hdead hop hres hin hrow hfirst hlast hnew hroom,
      exec_segmentTotalArrive_early hg hm ha hissued hdead hop hres hin hrow hfirst hlast hnew hroom⟩
  · intro s cluster seq scale mem op g m hready hop hcompat hbook hwork hbad v sc on k hc
    have hseq : (v.entry sc).seq = seq := (State.opReady_member hready).2
    have hsc : (v.entry sc).scale = sc := rfl
    have hexec := fun passed => exec_codebookFillDone (scale := scale) (passed := passed) (mem := mem) hready hop hcompat hbook hwork hbad
    refine ⟨fun hqueued => ⟨?_, hseq, hsc, v.length_entry_cells sc⟩, fun hqueued => ?_, fun row block z hz hqueued => ?_⟩
    · rw [hexec]
      exact congrArg _ (State.modCluster_congr (Cluster.takeFill_of_queued hseq hsc hqueued) hc)
    · rw [hexec]
      exact congrArg _ (State.modCluster_self (Cluster.takeFill_of_not_queued hseq hsc hqueued) hc)
    · have hpassed : [(row, block)].filterMap (fun p => v.lookupScale p.1 p.2) = [z] := by simp [hz]
      refine ⟨fun e he => ?_, fun he hfill hne => ?_⟩
      · rw [hexec, hpassed]
        refine congrArg _ (State.modCluster_congr ?_ hc)
        rw [List.foldl_cons, List.foldl_nil, Cluster.passBlock_of_entry he]
        exact Cluster.takeFill_of_not_queued hseq hsc hqueued
      · rw [hexec, hpassed]
        refine congrArg _ (State.modCluster_congr ?_ hc)
        rw [List.foldl_cons, List.foldl_nil, Cluster.passBlock_of_no_entry he hfill]
        exact Cluster.takeFill_of_not_queued hseq hsc (by simpa [hne.symm] using hqueued)

end Sys2Proof.Machine
end

section
/-!
A member's items and its journal: what an update of a member leaves of the groups, and what the INPUT_DIGEST entries of items just read
come to (R601, R608, R619).
-/
namespace Sys2Proof.Machine
open Sys2Proof

-- A member, once updated ---------------------------------------------------------------------------------------------

/-- A group, its members with the number `q` updated. -/
def Group.modMember (q : Nat) (f : Member → Member) (g : Group) : Group :=
  { g with members := g.members.map (fun m => if m.seq == q then f m else m) }

namespace State
variable {s : State} {q : Nat} {m : Member} {f k : Member → Member}

theorem groups_modMember (s : State) (q : Nat) (f : Member → Member) :
    (s.modMember q f).groups = s.groups.map (Group.modMember q f) := rfl

/-- The member that a number names has that number. -/
theorem seq_of_member? (h : s.member? q = some m) : m.seq = q := by
  simpa using List.find?_some h

theorem members_modMember (s : State) (q : Nat) (f : Member → Member) :
    (s.modMember q f).members = s.members.map (fun m => if m.seq == q then f m else m) := by
  simp [members, modMember, List.flatMap_map, List.map_flatMap]

/-- An update that keeps the numbers is seen at the member it names. -/
theorem member?_modMember (hf : ∀ m, (f m).seq = m.seq) : (s.modMember q f).member? q = (s.member? q).map f := by
  have hp : ((fun m : Member => m.seq == q) ∘ fun m => if m.seq == q then f m else m) = (·.seq == q) := by
    funext m
    simp only [Function.comp]
    split <;> simp [hf]
  rw [member?, members_modMember, List.find?_map, hp, ← member?]
  cases h : s.member? q with
  | none => rfl
  | some m => simp [seq_of_member? h]

/-- It is seen at the group that holds the member, which stays where it is. -/
theorem group?_modMember (hf : ∀ m, (f m).seq = m.seq) (q p : Nat) :
    (s.modMember q f).group? p = (s.group? p).map (Group.modMember q f) := by
  have hp : (fun g : Group => g.members.any (·.seq == p)) ∘ Group.modMember q f = fun g => g.members.any (·.seq == p) := by
    funext g
    simp only [Function.comp, Group.modMember, List.any_map]
    congr 1
    funext m
    simp only [Function.comp]
    split <;> simp [hf]
  rw [group?, groups_modMember, List.find?_map, hp, ← group?]

/-- Two updates of a member are one. -/
theorem modMember_modMember (hf : ∀ m, (f m).seq = m.seq) : (s.modMember q f).modMember q k = s.modMember q (k ∘ f) := by
  have hg : Group.modMember q k ∘ Group.modMember q f = Group.modMember q (k ∘ f) := by
    funext g
    simp only [Function.comp, Group.modMember, List.map_map]
    congr 2
    funext m
    simp only [Function.comp]
    by_cases h : (m.seq == q) = true
    · rw [if_pos h, if_pos (by rwa [hf]), if_pos h]
    · rw [if_neg h, if_neg h, if_neg h]
  have hgroups : ((s.modMember q f).modMember q k).groups = (s.modMember q (k ∘ f)).groups := by
    simp only [groups_modMember, List.map_map, hg]
  exact congrArg (fun l => { s with groups := l }) hgroups

/-- What a descriptor captures, and whether its space has been dealt with, are not seen by an update that keeps both. -/
theorem captures_modMember (hf : ∀ m, (f m).bytes = m.bytes ∧ (f m).capSet = m.capSet)
    (h : ∀ m ∈ s.members, m.bytes.capture = true → m.capSet = true) :
    ∀ m ∈ (s.modMember q f).members, m.bytes.capture = true → m.capSet = true := by
  rw [members_modMember, List.forall_mem_map]
  intro m hm
  split
  · rw [(hf m).1, (hf m).2]
    exact h m hm
  · exact h m hm

end State

-- Pieces of a list ---------------------------------------------------------------------------------------------------

/-- No piece is empty, or longer than `n`. -/
theorem cutGo_pieces {α : Type} {n : Nat} (hn : 0 < n) : ∀ (k : Nat) (xs : List α), ∀ g ∈ cutGo n k xs, g ≠ [] ∧ g.length ≤ n
  | 0, _, _, h => nomatch h
  | _ + 1, [], _, h => nomatch h
  | k + 1, x :: xs, g, h => by
    rcases List.mem_cons.1 h with rfl | h
    · exact ⟨by simp; omega, by simp⟩
    · exact cutGo_pieces hn k _ g h

/-- No more than `n` elements are one piece. -/
theorem cut_of_length_le {α : Type} {n : Nat} {g : List α} (hg : g ≠ []) (hn : g.length ≤ n) : cut n g = [g] := by
  obtain ⟨x, xs, rfl⟩ := List.exists_cons_of_ne_nil hg
  have hmax : (x :: xs).length ≤ max 1 n := le_max_of_le_right hn
  have hrest : cutGo (max 1 n) xs.length ([] : List α) = [] := by cases xs.length <;> rfl
  simp only [cut, List.length_cons, cutGo, List.take_of_length_le hmax, List.drop_eq_nil_of_le hmax, hrest]

/-- A piece of up to two digests fills one record (R608). -/
theorem inputDigestParts_length {seq : Nat} {ds g : List Digest} (h : g ∈ cut 2 ds) : (inputDigestParts seq g).length = 1 := by
  obtain ⟨hne, hle⟩ := cutGo_pieces (n := 2) (by decide) _ _ g h
  simp [inputDigestParts, cut_of_length_le hne hle]

-- A member's entries in the journal ----------------------------------------------------------------------------------

/-- Flits are queued on links alone. -/
theorem State.queueAll_exchs (s : State) (fs : List TxFlit) : (s.queueAll fs).cw.exchs = s.cw.exchs := by
  refine List.foldlRecOn (motive := fun t : State => t.cw.exchs = s.cw.exchs) fs _ rfl fun t ht f _ => ht ▸ ?_
  unfold State.queueFlit State.needLink
  split
  · rfl
  · split <;> rfl

/-- An entry touches no exchange: under MIRROR_EN its flits go to PARTNER's link. -/
theorem State.wbWrite_exchs (s : State) (ty : Nat) (parts : List (List Byte)) (act : Act) :
    (s.wbWrite ty parts act).cw.exchs = s.cw.exchs := by
  unfold State.wbWrite
  extract_lets n recs s1 s2 sent run
  have h2 : s2.cw.exchs = s.cw.exchs := (congrArg (·.cw.exchs) (State.wrRecs_wrought recs s1).1.frame :)
  split
  · rw [(Sent.pump _).exchs, State.queueAll_exchs]
    exact h2
  · exact h2

/-- `j` records of a member's own reservation have been written (R612). -/
def Member.spend (j : Nat) (m : Member) : Member := { m with resv := m.resv - j }

/-- From `s` to `t` the members with the number `q` have been updated by `f`, the entries `es` have been written, and nothing else has
happened. -/
structure Recorded (s t : State) (q : Nat) (f : Member → Member) (es : List Entry) : Prop where
  seq : ∀ m, (f m).seq = m.seq
  frame : t = { s with groups := t.groups, wb := t.wb, cw := t.cw, out := t.out, staging := t.staging, ue := t.ue }
  groups : t.groups = (s.modMember q f).groups
  exchs : t.cw.exchs = s.cw.exchs
  wrote : s.Wrote t es

/-- Without an entry the journal is not seen to change. -/
theorem State.Wrote.of_same {s t : State} (hwb : t.wb = s.wb) (hst : t.staging = s.staging) (hue : t.ue = s.ue) (hout : t.out = s.out) :
    s.Wrote t [] where
  journal := ⟨by simp [hwb, State.newRecs, entryRecs], fun _ => by rw [hwb], [], by simp [hout], fun _ h => nomatch h⟩
  stage := .same hst hue

namespace Recorded
variable {s t u : State} {q : Nat} {f k : Member → Member} {es fs : List Entry}

theorem modMember (s : State) (q : Nat) (hf : ∀ m, (f m).seq = m.seq) : Recorded s (s.modMember q f) q f [] :=
  ⟨hf, rfl, rfl, rfl, .of_same rfl rfl rfl rfl⟩

theorem refl (s : State) (q : Nat) : Recorded s s q id [] where
  seq _ := rfl
  frame := rfl
  groups := by simp [State.modMember]
  exchs := rfl
  wrote := .of_same rfl rfl rfl rfl

theorem trans (h : Recorded s t q f es) (h' : Recorded t u q k fs) : Recorded s u q (k ∘ f) (es ++ fs) where
  seq m := (h'.seq _).trans (h.seq m)
  frame := by rw [h'.frame, h.frame]
  groups := by
    rw [h'.groups, State.groups_modMember, h.groups, ← State.groups_modMember, State.modMember_modMember h.seq]
  exchs := h'.exchs.trans h.exchs
  wrote := h.wrote.trans (by rw [h.frame]) (by rw [h.frame]) h'.wrote

/-- The member, its group and its exchange as they are found afterwards. -/
theorem member? {m : Member} (h : Recorded s t q f es) (hm : s.member? q = some m) : t.member? q = some (f m) := by
  rw [State.member?, State.members, h.groups]
  exact (State.member?_modMember h.seq).trans (congrArg _ hm)

theorem group? {g : Group} {p : Nat} (h : Recorded s t q f es) (hg : s.group? p = some g) : t.group? p = some (g.modMember q f) := by
  rw [State.group?, h.groups]
  exact (State.group?_modMember h.seq q p).trans (congrArg _ hg)

theorem exchOf? (h : Recorded s t q f es) (p : Nat) : t.exchOf? p = s.exchOf? p := by
  rw [State.exchOf?, h.exchs, State.exchOf?]

/-- A record of a member's own reservation (R612). -/
theorem wbWriteFor (s : State) (q ty : Nat) (parts : List (List Byte)) (act : Act) :
    Recorded s (s.wbWriteFor q ty parts act) q (Member.spend parts.length) [⟨ty, parts, act⟩] := by
  obtain ⟨hwrote, hframe⟩ := s.wbWrite_wrote ty parts act
  have hentry : Recorded s (s.wbWrite ty parts act) q id [⟨ty, parts, act⟩] :=
    ⟨fun _ => rfl, by rw [hframe], by rw [hframe]; exact (refl s q).groups, s.wbWrite_exchs ty parts act, hwrote⟩
  exact hentry.trans (modMember _ q (f := Member.spend parts.length) fun _ => rfl)

/-- Digests are written piece by piece, one record each (R608). -/
theorem digestPieces (q : Nat) : ∀ (gs : List (List Digest)) (s : State), (∀ g ∈ gs, (inputDigestParts q g).length = 1) →
    Recorded s (gs.foldl (fun s g => s.wbWriteFor q Ty.inputDigest (inputDigestParts q g) .none) s) q
      (Member.spend gs.length) (gs.map fun g => ⟨Ty.inputDigest, inputDigestParts q g, .none⟩)
  | [], s, _ => refl s q
  | g :: gs, s, h => by
    have hrest := (wbWriteFor s q Ty.inputDigest (inputDigestParts q g) .none).trans (digestPieces q gs _ fun x hx => h x (by simp [hx]))
    have hresv : Member.spend (g :: gs).length = Member.spend gs.length ∘ Member.spend (inputDigestParts q g).length := by
      funext m
      simp [Member.spend, h g (by simp), Nat.sub_sub, Nat.add_comm]
    rw [hresv]
    exact hrest

end Recorded

-- Items that a member has read ---------------------------------------------------------------------------------------

namespace Member

/-- How many of the digests that a member owes are written once it has read items with the digests `ds`. -/
def due (m : Member) (ds : List Digest) (all : Bool) : Nat :=
  if all then (m.owing ds).length else (m.owing ds).length / 2 * 2

/-- The entries with those digests. -/
def dueEntries (m : Member) (ds : List Digest) (all : Bool) : List Entry := m.digestEntries ((m.owing ds).take (m.due ds all))

/-- A member has recorded the digests of what it has read. -/
def noting (ds : List Digest) (m : Member) : Member := { m with digests := m.digests ++ m.newDigests ds, owed := m.owing ds }

/-- `n` of the digests that a member owes have been written, in `j` records. -/
def writing (n j : Nat) (m : Member) : Member := { m with owed := m.owed.drop n, resv := m.resv - j }

end Member

namespace Recorded
variable {s t : State} {q : Nat} {f : Member → Member} {m k : Member} {ds : List Digest} {all : Bool}

/-- A member owes the digests of what it has read, and writes those that fill records. -/
theorem digests (hm : s.member? q = some m) (ds : List Digest) (all : Bool) :
    Recorded s ((s.noteDigests q ds).writeDigests q all) q
      (Member.writing (m.due ds all) (m.dueEntries ds all).length ∘ Member.noting ds) (m.dueEntries ds all) := by
  have hnoted : Recorded s (s.noteDigests q ds) q (Member.noting ds) [] := modMember s q fun _ => rfl
  have hmember : (s.noteDigests q ds).member? q = some (m.noting ds) :=
    (State.member?_modMember (f := Member.noting ds) fun _ => rfl).trans (by rw [hm]; rfl)
  have hpieces := digestPieces q (cut 2 ((m.owing ds).take (m.due ds all))) (s.noteDigests q ds) fun _ => inputDigestParts_length
  have hlength : (cut 2 ((m.owing ds).take (m.due ds all))).length = (m.dueEntries ds all).length := by
    simp [Member.dueEntries, Member.digestEntries]
  have hentries : (cut 2 ((m.owing ds).take (m.due ds all))).map (fun g => Entry.mk Ty.inputDigest (inputDigestParts q g) .none) =
      m.dueEntries ds all := by
    rw [Member.dueEntries, Member.digestEntries, State.seq_of_member? hm]
  have hwritten := hnoted.trans (hpieces.trans
    (modMember _ q (f := fun x : Member => { x with owed := x.owed.drop (m.due ds all) }) fun _ => rfl))
  rw [hentries, hlength, List.append_nil, List.nil_append] at hwritten
  simp only [State.writeDigests, hmember]
  exact hwritten

/-- An item that a member keeps has been read, with no walk behind it to hold its digest against (R635, R636). -/
theorem itemRead (hm : s.member? q = some m) (hseen : m.seen = []) (i : Nat × Nat) (bs : List Byte) :
    let ds := [m.itemDigest i bs]
    Recorded s (s.itemRead q i bs) q
      (Member.writing (m.due ds false) (m.dueEntries ds false).length ∘ Member.noting ds) (m.dueEntries ds false) := by
  intro ds
  have hchecked : s.checkDigests q ds = s := by simp [State.checkDigests, hm, hseen, ds]
  have hread : s.itemRead q i bs = (s.noteDigests q ds).writeDigests q false := by
    simp only [State.itemRead, hm, State.noteItem]
    rw [hchecked, hm]
  rw [hread]
  exact digests hm ds false

end Recorded
end Sys2Proof.Machine
end

section
/-!
The end of a group: what completes a group and those behind it leaves the statuses of the members, and what a fault makes of them
(R360, R496, R648).
-/
namespace Sys2Proof.Machine
open Sys2Proof

/-- What a group that ends shows of its end: that it has faulted, and the status of each member. -/
def Group.outcome (g : Group) : Bool × List (Nat × Nat) := (g.dead, g.members.map fun m => (m.seq, m.fault))

/-- From `s` to `t` every group is faulted or not as it was, and no member's status has changed. -/
structure SameFaults (s t : State) : Prop where
  outcomes : t.groups.map Group.outcome = s.groups.map Group.outcome

namespace SameFaults
variable {s t : State} {q : Nat}

theorem refl (s : State) : SameFaults s s := ⟨rfl⟩

/-- An operation that does not see the groups. -/
theorem step {u : State} (h : SameFaults s t) (hg : u.groups = t.groups := by rfl) : SameFaults s u :=
  ⟨(congrArg _ hg).trans h.outcomes⟩

theorem modGroup (h : SameFaults s t) {f : Group → Group} (hf : ∀ g, (f g).outcome = g.outcome := by exact fun _ => rfl) :
    SameFaults s (t.modGroup q f) := by
  refine ⟨Eq.trans ?_ h.outcomes⟩
  simp only [State.modGroup, List.map_map]
  refine List.map_congr_left fun g _ => ?_
  simp only [Function.comp]
  split
  · exact hf g
  · rfl

theorem modMember (h : SameFaults s t) {f : Member → Member}
    (hf : ∀ m, ((f m).seq, (f m).fault) = (m.seq, m.fault) := by exact fun _ => rfl) : SameFaults s (t.modMember q f) := by
  refine ⟨Eq.trans ?_ h.outcomes⟩
  rw [State.groups_modMember, List.map_map]
  refine List.map_congr_left fun g _ => ?_
  simp only [Function.comp, Group.outcome, Group.modMember, List.map_map]
  refine congrArg _ (List.map_congr_left fun m _ => ?_)
  simp only [Function.comp]
  split
  · exact hf m
  · rfl

theorem foldl {α : Type} (h : SameFaults s t) (l : List α) (f : State → α → State) (hf : ∀ u a, SameFaults s u → SameFaults s (f u a)) :
    SameFaults s (l.foldl f t) :=
  List.foldlRecOn l f h fun u hu a _ => hf u a hu

theorem ite {u : State} {c : Prop} [Decidable c] (h : SameFaults s t) (k : SameFaults s u) : SameFaults s (if c then t else u) := by
  split
  · exact h
  · exact k

theorem wr (h : SameFaults s t) {a : Nat} {bs : List Byte} : SameFaults s (t.wr a bs) :=
  h.step (congrArg State.groups (t.wr_wrought a bs).frame :)

theorem queueAll (h : SameFaults s t) {fs : List TxFlit} : SameFaults s (t.queueAll fs) := by
  obtain ⟨c, hc⟩ := t.queueAll_frame fs
  exact h.step (by rw [hc])

theorem pump (h : SameFaults s t) : SameFaults s t.pump := h.step (congrArg State.groups (Sent.pump t).frame :)

theorem wbWriteFor (h : SameFaults s t) {ty : Nat} {ps : List (List Byte)} {a : Act} : SameFaults s (t.wbWriteFor q ty ps a) :=
  SameFaults.modMember (h.step (congrArg State.groups (t.wbWrite_wrote ty ps a).2 :))

theorem bump (h : SameFaults s t) : SameFaults s t.bump := h.step

theorem writeDigests (h : SameFaults s t) {b : Bool} : SameFaults s (t.writeDigests q b) := by
  unfold State.writeDigests
  split
  · exact SameFaults.modMember (h.foldl _ _ fun _ _ k => k.wbWriteFor)
  · exact h

theorem endExchanges (h : SameFaults s t) {g : Group} : SameFaults s (t.endExchanges g) := by
  unfold State.endExchanges
  extract_lets mine s1
  have h1 : SameFaults s s1 := h.foldl _ _ fun _ _ k => k.queueAll
  exact (SameFaults.step (u := s1.modCw _) h1).pump

theorem postGo (n r : Nat) (h : SameFaults s t) : SameFaults s (State.postGo n r t) := by
  induction n generalizing t with
  | zero => exact h
  | succ n ih =>
    unfold State.postGo
    split
    · exact (ih (h.foldl _ _ fun _ _ k => k.wr).modGroup.endExchanges).ite h
    · exact h

theorem finishGroup (h : SameFaults s t) {g : Group} : SameFaults s (t.finishGroup g) := by
  unfold State.finishGroup
  extract_lets todo last s1
  have h1 : SameFaults s s1 := h.foldl _ _ fun _ _ k => k.modMember.wbWriteFor.bump
  exact (h1.modGroup.postGo _ _).ite h1

theorem finishGo (n r : Nat) (h : SameFaults s t) : SameFaults s (State.finishGo n r t) := by
  induction n generalizing t with
  | zero => exact h
  | succ n ih =>
    unfold State.finishGo
    split
    · exact (ih h.finishGroup).ite h
    · exact h

theorem tryFinish (h : SameFaults s t) : SameFaults s (t.tryFinish q) := by
  unfold State.tryFinish
  split
  · exact h.finishGo _ _
  · exact h

/-- The group that holds a number shows the same end. -/
theorem group? (h : SameFaults s t) : (t.group? q).map Group.outcome = (s.group? q).map Group.outcome := by
  have hp : (fun g : Group => g.members.any (·.seq == q)) = (fun o => o.2.any (·.1 == q)) ∘ Group.outcome := by
    funext g
    simp [Group.outcome, List.any_map, Function.comp_def]
  rw [State.group?, State.group?, hp, ← List.find?_map, ← List.find?_map, h.outcomes]

theorem faulted (h : SameFaults s t) {code : Nat} (hs : s.faulted q code) : t.faulted q code := by
  obtain ⟨g, hg, hdead, hfault⟩ := hs
  have hsame := h.group? (q := q)
  rw [hg] at hsame
  obtain ⟨g', hg', hout⟩ := Option.map_eq_some_iff.1 hsame
  obtain ⟨hdead', hmembers⟩ := Prod.ext_iff.1 hout
  refine ⟨g', hg', hdead'.trans hdead, fun m hm => ?_⟩
  have hmem : (m.seq, m.fault) ∈ g.outcome.2 := hmembers ▸ List.mem_map_of_mem (f := fun m : Member => (m.seq, m.fault)) hm
  obtain ⟨x, hx, hxm⟩ := List.mem_map.1 hmem
  obtain ⟨hseq, hf⟩ : x.seq = m.seq ∧ x.fault = m.fault := Prod.mk.inj hxm
  exact hf ▸ hseq ▸ hfault x hx

end SameFaults

/-- A group has faulted, each member with the status that `code` names. -/
def Group.fail (code : Member → Nat) (g : Group) : Group :=
  { g with dead := true, members := g.members.map fun m => { m with fault := code m } }

namespace State
variable {s : State} {q code : Nat} {g : Group}

/-- An update of a group that keeps its members' numbers is seen at that group. -/
theorem group?_modGroup {f : Group → Group} (hf : ∀ g, (f g).members.map (·.seq) = g.members.map (·.seq)) :
    (s.modGroup q f).group? q = (s.group? q).map f := by
  have hany : ∀ g : Group, g.members.any (·.seq == q) = (g.members.map (·.seq)).any (· == q) := fun g => by
    simp [List.any_map, Function.comp_def]
  have hp : (fun g : Group => g.members.any (·.seq == q)) ∘ (fun g => if g.members.any (·.seq == q) then f g else g) =
      fun g => g.members.any (·.seq == q) := by
    funext g
    simp only [Function.comp]
    split
    · rw [hany, hf, ← hany]
    · rfl
  rw [group?, modGroup, List.find?_map, hp, ← group?]
  cases h : s.group? q with
  | none => rfl
  | some g => exact congrArg some (if_pos (List.find?_some h))

/-- A group fails as one: the member that has faulted with its status, the others with GROUP_FAULT. -/
theorem faulted_modGroup_fail (hg : s.group? q = some g) :
    (s.modGroup q (Group.fail fun m => if m.seq = q then code else St.groupFault)).faulted q code := by
  refine ⟨_, (group?_modGroup fun g => by simp [Group.fail]).trans (congrArg _ hg), rfl, fun m hm => ?_⟩
  obtain ⟨x, -, rfl⟩ := List.mem_map.1 hm
  rfl

/-- A group that can fault does (R496, R648): what completes afterwards leaves the statuses as they are. -/
theorem faulted_faultMember (hg : s.group? q = some g) (hlive : g.live) : (s.faultMember q code).faulted q code := by
  obtain ⟨hdead, hpub, hmile⟩ := hlive
  have hopen : g.members.any (fun m => m.milepost.isSome && !m.pubSeen) = false :=
    List.any_eq_false.2 fun m hm => by simp [hmile m hm]
  unfold faultMember faultGroup
  simp only [hg, hdead, hpub, hopen, Bool.or_self, if_neg Bool.false_ne_true]
  generalize hs0 : (if (g.issued && !g.closeWritten) = true then _ else s) = s0
  have hdigests : SameFaults s s0 := hs0 ▸ ((SameFaults.refl s).foldl _ _ fun _ _ k => k.writeDigests).ite (.refl s)
  obtain ⟨g0, hg0, -⟩ := Option.map_eq_some_iff.1 (hdigests.group?.trans (congrArg _ hg))
  exact ((SameFaults.refl _).step (u := (s0.modGroup q _).dropWork g)).tryFinish.faulted (faulted_modGroup_fail hg0)

end State
end Sys2Proof.Machine
end

section
/-!
What is read at issue (R63, R466 to R469, R562): what the three reads do where their occasion is there, and how a read that is kept
shows in the groups and in the journal.
-/
namespace Sys2Proof.Machine
open Sys2Proof

namespace State
variable {s : State} {q r : Nat} {g : Group} {m : Member}

/-- A member that reads at issue is the block's member of its number. -/
theorem member?_of_reading? (h : s.reading? q = some (g, m)) : s.member? q = some m := by
  unfold reading? at h
  split at h
  · rename_i g' m' _ hm
    obtain ⟨-, hsame⟩ := Option.ite_none_right_eq_some.1 h
    cases hsame
    exact hm
  · cases h

/-- Where every capturing member has been dealt with, no capture space is to be reserved (R454). -/
theorem reserveCaps_of_set (h : ∀ m ∈ s.members, m.bytes.capture = true → m.capSet = true) : s.reserveCaps r = s := by
  unfold reserveCaps
  extract_lets gs todo known
  refine List.foldlRecOn (motive := (· = s)) known _ rfl fun t ht p hp => ?_
  obtain ⟨x, hx, hxp⟩ := List.mem_flatMap.1 (List.takeWhile_subset _ hp)
  obtain ⟨y, hy, rfl⟩ := List.mem_map.1 hxp
  have hset := h y (List.mem_flatMap.2 ⟨x, List.mem_of_mem_filter hx, hy⟩)
  cases hcap : y.bytes.capture with
  | false => simpa [hcap] using ht
  | true => simpa [hset hcap] using ht

/-- Without an open exchange there is no signature to hold against the member's (R520). -/
theorem checkSigns_of_no_exchange (h : s.exchOf? q = none) : s.checkSigns q = s := by
  simp [checkSigns, h]

/-- A member that is no MCOMBINE, or waits for beats, does not close (R271, R815). -/
theorem tryClose_of_waiting (hm : s.member? q = some m) (h : m.bytes.is .mcombine = true → allBeats m = false) : s.tryClose q = s := by
  unfold tryClose
  split
  · rename_i g' m' _ hm'
    cases hm.symm.trans hm'
    refine if_pos ?_
    cases hop : m.bytes.is .mcombine with
    | false => rfl
    | true => simp [h hop]
  · rfl

end State

/-- A group that can fault still can once a member has been updated, its milepost apart. -/
theorem Group.live_modMember {g : Group} {q : Nat} {f : Member → Member} (hf : ∀ m, (f m).milepost = m.milepost) (h : g.live) :
    (g.modMember q f).live := by
  obtain ⟨hdead, hpub, hmile⟩ := h
  refine ⟨hdead, hpub, fun m hm => ?_⟩
  obtain ⟨x, hx, rfl⟩ := List.mem_map.1 hm
  split
  · exact (hf x).trans (hmile x hx)
  · exact hmile x hx

-- A read that is kept ------------------------------------------------------------------------------------------------

namespace Member
variable {m k : Member} (ds : List Digest)

/-- What of a member the record of its items goes by. -/
def record (m : Member) : Nat × Desc × List Digest × List Digest × List Digest × Nat :=
  (m.seq, m.bytes, m.digests, m.owed, m.seen, m.resv)

/-- A member `m` that has become `k` and has taken items with the digests `ds`, of which an odd last one waits. -/
def taking (m k : Member) (ds : List Digest) : Member :=
  { k with digests := m.digests ++ m.newDigests ds, owed := (m.owing ds).drop (m.due ds false),
           resv := m.resv - (m.dueEntries ds false).length }

theorem itemDigest_of_record (h : k.record = m.record) (i : Nat × Nat) (bs : List Byte) : k.itemDigest i bs = m.itemDigest i bs := by
  simp only [record, Prod.mk.injEq] at h
  simp [itemDigest, h]

theorem owing_of_record (h : k.record = m.record) : k.owing ds = m.owing ds := by
  simp only [record, Prod.mk.injEq] at h
  simp [owing, newDigests, found, h]

theorem dueEntries_of_record (h : k.record = m.record) (all : Bool) : k.dueEntries ds all = m.dueEntries ds all := by
  have howing := owing_of_record ds h
  simp only [record, Prod.mk.injEq] at h
  simp [dueEntries, due, digestEntries, howing, h]

theorem taking_of_record (h : k.record = m.record) : k.taking k ds = m.taking k ds := by
  have howing := owing_of_record ds h
  have hentries := dueEntries_of_record ds h
  simp only [record, Prod.mk.injEq] at h
  simp [taking, due, newDigests, howing, hentries, h]

end Member

/-- From `s` to `t` one free value has been used, and a member `m`, which is `k` with what has been read, has kept it and taken its
digests; beside the groups and the journal everything stands. -/
def State.Keeping (s t : State) (m k : Member) (ds : List Digest) : Prop :=
  t = { s with groups := t.groups, wb := t.wb, cw := t.cw, out := t.out, staging := t.staging, ue := t.ue, freeCtr := s.freeCtr + 1 } ∧
    ∃ m', s.Became t m m' ∧ m' = { k with digests := m'.digests, owed := m'.owed, resv := m'.resv } ∧ s.TookItems t m m' ds false

namespace State.Keeping
variable {s t : State} {q : Nat} {m k : Member} {f : Member → Member} {ds : List Digest} {es : List Entry}
  {i : Nat × Nat} {bs : List Byte}

theorem of_recorded (hm : s.member? q = some m) (h : Recorded s.bump t q f es) (hes : es = m.dueEntries ds false)
    (hf : f m = m.taking k ds) : s.Keeping t m k ds := by
  subst hes
  have hbump : s.Wrote s.bump [] := .of_same rfl rfl rfl rfl
  refine ⟨h.frame, m.taking k ds, ⟨f, ?_, hf⟩, rfl, hbump.trans rfl rfl h.wrote, rfl, rfl, rfl⟩
  rw [seq_of_member? hm]
  exact h.groups

/-- What has been read is kept first, then its digest is taken. -/
theorem of_modMember_itemRead (hm : s.member? q = some m) (hseen : m.seen = []) (hf : ∀ x, (f x).record = x.record) :
    s.Keeping ((s.modMember q f).bump.itemRead q i bs) m (f m) [m.itemDigest i bs] := by
  have hseq : ∀ x, (f x).seq = x.seq := fun x => (Prod.mk.inj (hf x)).1
  have hm' : (s.modMember q f).bump.member? q = some (f m) := (member?_modMember hseq).trans (congrArg _ hm)
  have hseen' : (f m).seen = [] := (congrArg (·.2.2.2.2.1) (hf m)).trans hseen
  have h := (Recorded.modMember s.bump q hseq).trans (Recorded.itemRead hm' hseen' i bs)
  rw [List.nil_append, Member.itemDigest_of_record (hf m)] at h
  exact of_recorded hm h (Member.dueEntries_of_record _ (hf m) false)
    (Eq.trans (b := (f m).taking (f m) [m.itemDigest i bs]) rfl (Member.taking_of_record _ (hf m)))

/-- Its digest is taken first, then what has been read is kept. -/
theorem of_itemRead_modMember (hm : s.member? q = some m) (hseen : m.seen = []) (hf : ∀ x, (f x).seq = x.seq)
    (hk : f (m.taking m [m.itemDigest i bs]) = m.taking (f m) [m.itemDigest i bs]) :
    s.Keeping ((s.bump.itemRead q i bs).modMember q f) m (f m) [m.itemDigest i bs] := by
  have h := (Recorded.itemRead (s := s.bump) hm hseen i bs).trans (Recorded.modMember _ q hf)
  exact of_recorded hm h (List.append_nil _) hk

end State.Keeping

-- The commands -------------------------------------------------------------------------------------------------------

/-- The masks that a shape word names, each with its length (R466). -/
def shapeMasks (w : List Byte) : List (Nat × Nat) :=
  (if field w 8 8 = 0 then [] else [(field w 8 8, ceilDiv (field w 0 4) 8)]) ++
    (if field w 16 8 = 0 then [] else [(field w 16 8, ceilDiv (field w 4 4) 8)])

/-- The shape that a shape word gives, with its masks (R466). -/
def State.shapeOf (s : State) (mem : Image) (w : List Byte) : Shape :=
  ⟨field w 0 4, field w 4 4, if field w 8 8 = 0 then none else some (s.rd mem (field w 8 8) (ceilDiv (field w 0 4) 8)),
    if field w 16 8 = 0 then none else some (s.rd mem (field w 16 8) (ceilDiv (field w 4 4) 8)), w⟩

/-- A member knows its run-time bounds: what lies outside them of its beats and chunks goes (R815). -/
def Member.bounded (q : Shape) (m : Member) : Member :=
  { m with shape := some q, beats := State.boundBeats { m with shape := some q } m.beats,
           run := m.run.filter fun a => decide (a.row < q.rows) && decide (a.chunk < q.cols / 32) }

/-- The parts of a mask that may be absent. -/
theorem toList_mask (a n : Nat) : (if a = 0 then none else some (a, n) : Option (Nat × Nat)).toList = if a = 0 then [] else [(a, n)] := by
  split <;> rfl

section Commands
variable {s : State} {seq which : Nat} {mem : Image} {g : Group} {m : Member} (hread : s.reading? seq = some (g, m))
include hread

section Shape
variable (haddr : m.bytes.shapeAddr ≠ 0) (hshape : m.shape = none) (hpart : s.badPart [(m.bytes.shapeAddr, 32)] = none)
include haddr hshape hpart

/-- A shape word that the checks of R468 and R469 refuse. -/
theorem exec_shapeWordRead_fault (hfault : State.shapeFault m.bytes (s.rd mem m.bytes.shapeAddr 32) ≠ 0) :
    exec (.shapeWordRead seq mem) s = .next (s.faultMember seq (State.shapeFault m.bytes (s.rd mem m.bytes.shapeAddr 32))).bump := by
  change execShapeWordRead seq mem s = _
  simp [execShapeWordRead, hread, haddr, hshape, hpart, hfault]

/-- A shape word that holds, with its masks. -/
theorem exec_shapeWordRead_holds (hfault : State.shapeFault m.bytes (s.rd mem m.bytes.shapeAddr 32) = 0)
    (hmasks : s.badPart (shapeMasks (s.rd mem m.bytes.shapeAddr 32)) = none) :
    let w := s.rd mem m.bytes.shapeAddr 32
    let q := s.shapeOf mem w
    exec (.shapeWordRead seq mem) s = .next (((((s.modMember seq (Member.bounded q)).bump.itemRead seq (4, 0)
      (w ++ q.rmask.getD [] ++ q.cmask.getD [])).reserveCaps g.ring).checkSigns seq).tryClose seq) := by
  intro w q
  have hget : ∀ a n : Nat, (if a = 0 then none else some (a, n) : Option (Nat × Nat)).map (fun p => s.rd mem p.1 p.2) =
      if a = 0 then none else some (s.rd mem a n) := fun a n => by split <;> rfl
  change execShapeWordRead seq mem s = _
  simp only [shapeMasks] at hmasks
  simp only [execShapeWordRead, hread, haddr, hshape, hpart, hfault, toList_mask, hmasks, hget]
  rfl

end Shape

/-- A value table that has been read, with a NaN or an infinity in it or without (R63, R66, R67). -/
theorem exec_valueTableRead (hitem : m.bytes.items.contains (2, 56 + 16 * which) = true) (hkept : m.kept (2, 56 + 16 * which) = none)
    (hwait : s.readsWait m = false) (hpart : s.badPart (m.source (2, 56 + 16 * which)).parts = none) :
    let bs := (m.source (2, 56 + 16 * which)).parts.flatMap fun p => s.rd mem p.1 p.2
    let t := s.bump.itemRead seq (2, 56 + 16 * which) bs
    exec (.valueTableRead seq which mem) s =
      if (State.words bs).any (fun w => bits w 30 23 == 0xFF) then .next (t.faultMember seq St.codeTableInvalid)
      else .next (t.modMember seq fun m => { m with tabs := m.tabs ++ [(56 + 16 * which, State.words bs)] }) := by
  change execValueTableRead seq which mem s = _
  simp only [execValueTableRead, hread, hitem, hkept, hwait, hpart, Bool.not_true, Option.isSome_none, Bool.or_self,
    if_neg Bool.false_ne_true]

/-- A parameter record that has been read (R562). -/
theorem exec_paramRecordRead (hop : m.bytes.is .upd = true) (hparam : m.param = none) (hwait : s.readsWait m = false)
    (hpart : s.badPart [(m.bytes.paramAddr, 64)] = none) :
    let bs := s.rd mem m.bytes.paramAddr 64
    exec (.paramRecordRead seq mem) s =
      .next ((s.modMember seq fun m => { m with param := some bs }).bump.itemRead seq (6, 0) bs) := by
  change execParamRecordRead seq mem s = _
  simp only [execParamRecordRead, hread, hop, hparam, hwait, hpart, Bool.not_true, Option.isSome_none, Bool.or_self,
    if_neg Bool.false_ne_true]

end Commands

-- The statement ------------------------------------------------------------------------------------------------------

section Settled
variable {s : State} {seq which : Nat} {mem : Image} {g : Group} {m : Member} (hread : s.reading? seq = some (g, m)) (hseen : m.seen = [])
include hread hseen

/-- A shape word that holds is kept with its masks. No capture space is due, no signature waits and the member does not close, so the
read is all that happens. -/
theorem shapeWordRead_keeping (haddr : m.bytes.shapeAddr ≠ 0) (hshape : m.shape = none)
    (hpart : s.badPart [(m.bytes.shapeAddr, 32)] = none) (hfault : State.shapeFault m.bytes (s.rd mem m.bytes.shapeAddr 32) = 0)
    (hmasks : s.badPart (shapeMasks (s.rd mem m.bytes.shapeAddr 32)) = none) (hcap : s.noCapture) (hexch : s.exchOf? seq = none) :
    let w := s.rd mem m.bytes.shapeAddr 32
    let q := s.shapeOf mem w
    (m.bytes.is .mcombine = true → State.allBeats (m.bounded q) = false) →
      ∃ t, exec (.shapeWordRead seq mem) s = .next t ∧
        s.Keeping t m (m.bounded q) [m.itemDigest (4, 0) (w ++ q.rmask.getD [] ++ q.cmask.getD [])] := by
  intro w q hbeats
  have hm := State.member?_of_reading? hread
  have hbounded : (s.modMember seq (Member.bounded q)).bump.member? seq = some (m.bounded q) :=
    (State.member?_modMember (f := Member.bounded q) fun _ => rfl).trans (congrArg _ hm)
  have hrec := Recorded.itemRead hbounded hseen (4, 0) (w ++ q.rmask.getD [] ++ q.cmask.getD [])
  refine ⟨_, ?_, State.Keeping.of_modMember_itemRead hm hseen fun _ => rfl⟩
  generalize ht : (s.modMember seq (Member.bounded q)).bump.itemRead seq (4, 0) (w ++ q.rmask.getD [] ++ q.cmask.getD []) = t at hrec ⊢
  have hset : ∀ x ∈ t.members, x.bytes.capture = true → x.capSet = true := by
    rw [State.members, hrec.groups]
    exact State.captures_modMember (fun _ => ⟨rfl, rfl⟩) (State.captures_modMember (fun _ => ⟨rfl, rfl⟩) hcap.2)
  rw [exec_shapeWordRead_holds hread haddr hshape hpart hfault hmasks, ht, State.reserveCaps_of_set hset,
    State.checkSigns_of_no_exchange ((hrec.exchOf? seq).trans hexch), State.tryClose_of_waiting (hrec.member? hbounded) hbeats]

/-- A value table of finite words is kept. -/
theorem valueTableRead_keeping (hitem : m.bytes.items.contains (2, 56 + 16 * which) = true) (hkept : m.kept (2, 56 + 16 * which) = none)
    (hwait : s.readsWait m = false) (hpart : s.badPart (m.source (2, 56 + 16 * which)).parts = none) :
    let bs := (m.source (2, 56 + 16 * which)).parts.flatMap fun p => s.rd mem p.1 p.2
    (State.words bs).any (fun w => bits w 30 23 == 0xFF) = false →
      ∃ t, exec (.valueTableRead seq which mem) s = .next t ∧
        s.Keeping t m { m with tabs := m.tabs ++ [(56 + 16 * which, State.words bs)] } [m.itemDigest (2, 56 + 16 * which) bs] := by
  intro bs hfinite
  refine ⟨_, ?_, State.Keeping.of_itemRead_modMember (f := fun m => { m with tabs := m.tabs ++ [(56 + 16 * which, State.words bs)] })
    (State.member?_of_reading? hread) hseen (fun _ => rfl) rfl⟩
  rw [exec_valueTableRead hread hitem hkept hwait hpart, if_neg (by simpa using hfinite)]

/-- One with a NaN or an infinity faults its member (R66, R67): its digest leaves the group as able to fault as it was. -/
theorem valueTableRead_faulted (hitem : m.bytes.items.contains (2, 56 + 16 * which) = true) (hkept : m.kept (2, 56 + 16 * which) = none)
    (hwait : s.readsWait m = false) (hpart : s.badPart (m.source (2, 56 + 16 * which)).parts = none) (hlive : g.live)
    (hg : s.group? seq = some g) :
    let bs := (m.source (2, 56 + 16 * which)).parts.flatMap fun p => s.rd mem p.1 p.2
    (State.words bs).any (fun w => bits w 30 23 == 0xFF) = true →
      ∃ t, exec (.valueTableRead seq which mem) s = .next t ∧ t.faulted seq St.codeTableInvalid := by
  intro bs hbad
  have hrec := Recorded.itemRead (s := s.bump) (State.member?_of_reading? hread) hseen (2, 56 + 16 * which) bs
  refine ⟨_, ?_, State.faulted_faultMember (hrec.group? hg) (Group.live_modMember (fun _ => rfl) hlive)⟩
  rw [exec_valueTableRead hread hitem hkept hwait hpart, if_pos hbad]

end Settled

/-- Settles O31: each read keeps its bytes and takes their digest, or faults its member. -/
theorem readsAtIssueAreKept : Obligations.ReadsAtIssueAreKept := by
  intro s seq mem g m hread hseen frame
  refine ⟨?_, ?_, ?_⟩
  · intro haddr hshape hpart w rows cols masks q k
    refine ⟨fun hfault hlive hg => ?_, fun hfault hmasks hcap hexch hbeats => ?_⟩
    · exact ⟨_, exec_shapeWordRead_fault hread haddr hshape hpart hfault, State.faulted_faultMember hg hlive⟩
    · obtain ⟨t, hexec, hframe, m', hkept⟩ :=
        shapeWordRead_keeping hread hseen haddr hshape hpart hfault hmasks hcap hexch hbeats
      exact ⟨t, m', hexec, hframe, hkept⟩
  · intro which off hitem hempty hwait parts bs bad hpart
    refine ⟨fun hfinite => ?_, fun hbad hlive hg => ?_⟩
    · obtain ⟨t, hexec, hframe, m', hkept⟩ := valueTableRead_keeping hread hseen hitem hempty hwait hpart hfinite
      exact ⟨t, m', hexec, hframe, hkept⟩
    · exact valueTableRead_faulted hread hseen hitem hempty hwait hpart hlive hg hbad
  · intro hop hparam hwait hpart bs
    obtain ⟨hframe, m', hkept⟩ := State.Keeping.of_modMember_itemRead (f := fun m => { m with param := some bs }) (i := (6, 0))
      (bs := bs) (State.member?_of_reading? hread) hseen fun _ => rfl
    exact ⟨_, m', exec_paramRecordRead hread hop hparam hwait hpart, hframe, hkept⟩

end Sys2Proof.Machine
end

section
/-!
The inputs of a data operation (R455, R494, R601, R619): what reading them does, for whatever operation comes after it, and the
elementwise operations, which make their tile of them (R410 to R421).
-/
namespace Sys2Proof.Machine
open Sys2Proof

-- Bytes that have left ------------------------------------------------------------------------------------------------

namespace State.Left
variable {s t u : State} {a : Nat} {bs : List Byte}

theorem of_wr (s : State) (a : Nat) (bs : List Byte) : s.Left (s.wr a bs) a bs := fun hne hout => by
  rw [State.wr_outside hne hout]
  exact List.mem_append_right _ (List.mem_singleton_self _)

/-- What has left is not taken back. -/
theorem mono (h : s.Left t a bs) (hout : ∃ l, u.out = t.out ++ l) : s.Left u a bs := fun hne hstage => by
  obtain ⟨l, hl⟩ := hout
  rw [hl]
  exact List.mem_append_left _ (h hne hstage)

/-- The resident range goes by the settings alone. -/
theorem of_regs (h : t.Left u a bs) (hregs : t.regs = s.regs) : s.Left u a bs := fun hne hstage =>
  h hne fun i hi => (State.stageAddr_regs hregs _).trans (hstage i hi)

end State.Left

/-- The data of capture entries is written, each beside its header (R455). -/
theorem State.wrCaps_wrought : ∀ (todo : List (Nat × ItemSrc × List Byte)) (s : State),
    let t := todo.foldl (fun s p => s.wr (p.1 + 64) (capData p.2.2)) s
    Wrought s t (todo.map fun p => (p.1 + 64, (capData p.2.2).length)) ∧ ∀ p ∈ todo, s.Left t (p.1 + 64) (capData p.2.2)
  | [], s => ⟨.refl s, fun _ h => nomatch h⟩
  | p :: todo, s => by
    have hfirst := s.wr_wrought (p.1 + 64) (capData p.2.2)
    obtain ⟨hrest, hleft⟩ := wrCaps_wrought todo (s.wr (p.1 + 64) (capData p.2.2))
    refine ⟨hfirst.trans hrest, List.forall_mem_cons.2 ⟨(Left.of_wr s _ _).mono hrest.out, fun x hx => ?_⟩⟩
    exact (hleft x hx).of_regs (congrArg State.regs hfirst.frame :)

namespace State.Wrote
variable {s t : State} {ws : List (Nat × Nat)}

/-- Bytes that have been stored or have left are no entry. -/
theorem of_wrought (h : Wrought s t ws) : s.Wrote t [] ws where
  journal := by
    obtain ⟨l, hl⟩ := h.out
    have hwb : t.wb = s.wb := (congrArg State.wb h.frame :)
    exact ⟨by simp [hwb, State.newRecs, entryRecs], fun _ => by rw [hwb], l, hl, fun _ hr => nomatch hr⟩
  stage := h.stage.mono fun _ => List.mem_append_right _

end State.Wrote

-- What reading the inputs does ----------------------------------------------------------------------------------------

/-- The headers of a member's capture entries, each with its address (R455). -/
def State.captureHeads (s : State) (mem : Image) (m : Member) : List (Nat × List Byte) :=
  (s.captured mem m).map fun p => (p.1, capEntry m.seq (((p.2.1.parts.head?).map (·.1)).getD 0) p.2.2.length p.2.1.kind)

/-- The data of a member's capture entries has been written, and their headers wait (R455). -/
def Member.capturing (heads : List (Nat × List Byte)) (m : Member) : Member :=
  { m with caps := m.caps.map fun _ => none, capHeads := m.capHeads ++ heads }

/-- What reading the inputs makes of a member `m`: their digests stand and are written, and it has captured them. -/
def State.afterReading (s : State) (mem : Image) (m : Member) : Member → Member :=
  let ds := (s.readList mem m).map fun x => m.itemDigest x.1 x.2.2
  Member.capturing (s.captureHeads mem m) ∘ Member.writing (m.due ds true) (m.dueEntries ds true).length ∘ Member.noting ds

/-- What the end of its work makes of a member. -/
def Member.finishing (res : Result) (cns : List Nat) (ieee : Nat) (m : Member) : Member :=
  { m with result := some res, census := Census.addAll Census.zero cns, ieee := ieee }

/-- From `s` to `t` a member `m` has read its inputs: `f` is what that makes of the members with its number, one free value has been
used, and nothing else has happened. -/
structure ReadsInputs (s t : State) (mem : Image) (m : Member) (f : Member → Member) : Prop where
  seq : ∀ x, (f x).seq = x.seq
  frame : t = { s with
    groups := t.groups, wb := t.wb, cw := t.cw, out := t.out, staging := t.staging, ue := t.ue, freeCtr := s.freeCtr + 1 }
  groups : t.groups = (s.modMember m.seq f).groups
  reads : f m = { m with
    digests := (f m).digests, owed := (f m).owed, resv := (f m).resv, caps := (f m).caps, capHeads := (f m).capHeads }
  took : s.TookInputs t mem m (f m)

/-- An operation that keeps the journal, the store and what has left keeps what a member's reading has come to. -/
theorem State.TookInputs.step {s t u : State} {mem : Image} {m k k' : Member} (h : s.TookInputs t mem m k) (hwb : u.wb = t.wb)
    (hstage : u.staging = t.staging) (hue : u.ue = t.ue) (hout : u.out = t.out)
    (hk : (k'.digests, k'.owed, k'.resv, k'.caps, k'.capHeads) = (k.digests, k.owed, k.resv, k.caps, k.capHeads)) :
    s.TookInputs u mem m k' := by
  obtain ⟨⟨⟨⟨hjwb, hjsent, hjout⟩, hkept⟩, hdigests, howed, hresv⟩, hcaps, hheads, hdata⟩ := h
  simp only [Prod.mk.injEq] at hk
  obtain ⟨hk1, hk2, hk3, hk4, hk5⟩ := hk
  have hspans : s.newSpans u = s.newSpans t := by rw [State.newSpans, hwb, State.newSpans]
  have hstore : s.StageKept u _ :=
    ⟨fun x hx => (congrArg (Memory.get x) hstage).trans (hkept.bytes x hx), hue ▸ hkept.marks, hue ▸ hkept.others⟩
  exact {
    items := {
      wrote := ⟨⟨hwb ▸ hjwb, hwb ▸ hjsent, hout ▸ hjout⟩, hspans ▸ hstore⟩
      digests := hk1.trans hdigests
      owed := hk2.trans howed
      resv := hk3.trans hresv }
    caps := hk4.trans hcaps
    heads := hk5.trans hheads
    data := fun p hp => (hdata p hp).mono ⟨[], by rw [hout, List.append_nil]⟩ }

namespace State
variable {s : State} {q : Nat} {mem : Image} {g : Group} {m : Member}

/-- With no walk behind a member there is nothing to hold its digests against (R635, R636). -/
theorem checkDigests_of_unseen (hm : s.member? q = some m) (hseen : m.seen = []) (ds : List Digest) : s.checkDigests q ds = s := by
  simp only [checkDigests, hm, hseen, List.find?_nil]
  exact List.foldlRecOn (motive := (· = s)) ds _ rfl fun _ ht _ _ => ht

/-- Reading the inputs records their digests and captures them. -/
theorem readInputs_eq (hm : s.member? m.seq = some m) (hseen : m.seen = []) (mem : Image) :
    s.readInputs mem m =
      ((((s.noteDigests m.seq ((s.readList mem m).map fun x => m.itemDigest x.1 x.2.2)).writeDigests m.seq true).writeCaps m
        ((s.readList mem m).map (·.2))).bump, s.inputsNow mem m) := by
  simp only [readInputs, checkDigests_of_unseen hm hseen, inputsNow]

/-- The data of a member's capture entries leaves, and nothing else but the member sees it (R455). -/
theorem writeCaps_captures (s t : State) (mem : Image) (m : Member) :
    ∃ u, t.writeCaps m ((s.readList mem m).map (·.2)) = u.modMember m.seq (Member.capturing (s.captureHeads mem m)) ∧
      Wrought t u ((s.captured mem m).map fun p => (p.1 + 64, (capData p.2.2).length)) ∧
      ∀ p ∈ s.captured mem m, t.Left u (p.1 + 64) (capData p.2.2) :=
  ⟨_, rfl, State.wrCaps_wrought (s.captured mem m) t⟩

/-- What a member owes after reading all its inputs is written, and the data of its capture entries (R455, R608, R619). -/
theorem readInputs_reads (hm : s.member? m.seq = some m) (hseen : m.seen = []) (mem : Image) :
    ReadsInputs s (s.readInputs mem m).1 mem m (s.afterReading mem m) := by
  rw [readInputs_eq hm hseen]
  have hdigests := Recorded.digests hm ((s.readList mem m).map fun x => m.itemDigest x.1 x.2.2) true
  generalize (s.noteDigests m.seq _).writeDigests m.seq true = t at hdigests ⊢
  obtain ⟨u, hcaps, hwrought, hleft⟩ := writeCaps_captures s t mem m
  rw [hcaps]
  have hregs : t.regs = s.regs := (congrArg State.regs hdigests.frame :)
  have hseals : t.seals = s.seals := (congrArg State.seals hdigests.frame :)
  have hgroups : u.groups = t.groups := (congrArg State.groups hwrought.frame :)
  have hwrote := hdigests.wrote.trans hregs hseals (.of_wrought hwrought)
  rw [List.append_nil, List.nil_append] at hwrote
  have htook : s.TookInputs u mem m (s.afterReading mem m m) :=
    ⟨⟨hwrote, rfl, rfl, rfl⟩, rfl, rfl, fun p hp => (hleft p hp).of_regs hregs⟩
  exact {
    seq := fun _ => rfl
    frame := by
      have hframe := hwrought.frame
      rw [hdigests.frame] at hframe
      rw [hframe]
      rfl
    groups := (congrArg (List.map (Group.modMember m.seq _)) (hgroups.trans hdigests.groups)).trans
      (congrArg State.groups (modMember_modMember hdigests.seq))
    reads := rfl
    took := htook.step rfl rfl rfl rfl rfl }

-- A command whose member is ready --------------------------------------------------------------------------------------

/-- A member that captures is ready only once its capture space has been dealt with (R454). -/
theorem capSet_of_opReady {op : Op} (h : s.opReady q op = some (g, m)) (hcap : m.bytes.capture = true) : m.capSet = true := by
  unfold opReady at h
  split at h
  · obtain ⟨hready, hsame⟩ := Option.ite_none_right_eq_some.1 h
    cases hsame
    simp only [Bool.and_eq_true] at hready
    obtain ⟨⟨⟨-, hcaps⟩, -⟩, -⟩ := hready
    simpa [hcap] using hcaps
  · cases h

/-- Of a member that is ready no capture space is due (R454). -/
theorem dueCaps_of_opReady {op : Op} (h : s.opReady q op = some (g, m)) : s.dueCaps q = s := by
  simp only [dueCaps, (opReady_member h).1]
  refine if_neg ?_
  simpa using capSet_of_opReady h

/-- Where every link has its route, memory shows no routing entry that is waited for (R513). -/
theorem learnRoutes_of_routed (h : s.routed) (mem : Image) : s.learnRoutes mem = s := by
  have hall : ∀ l ∈ s.cw.links, l.waits = false ∨ (s.route? l.peer).isSome = true := fun l hl => .inr (h l hl)
  exact if_pos (by simpa using Or.inr hall)

/-- A member that is ready, with no word in error among its inputs, reads them and goes on (R494, R500, R644). -/
theorem withInputs_of_ready {op : Op} (hready : s.opReady q op = some (g, m)) (hbad : s.badInput m = none) (hrouted : s.routed)
    (mem : Image) (k : State → Group → Member → Inputs → State) :
    s.withInputs q op mem k = k (s.readInputs mem m).1 g m (s.inputsNow mem m) := by
  simp only [withInputs, dueCaps_of_opReady hready, hready, hbad, learnRoutes_of_routed hrouted]
  rfl

/-- A member along one position begins no exchange. -/
theorem startExch_of_not_wide (h : s.wide m.bytes = false) (inp : Inputs) (n : Nat) : s.startExch g m inp n = s := by
  simp [startExch, h]

/-- An elementwise member along one position has its tile, and its contexts end. -/
theorem runElem_of_not_wide (h : s.wide m.bytes = false) (inp : Inputs) :
    let v := s.elemEnv g m inp
    let tile := buildTile v.x.o m v.pred v.row
    s.runElem g m inp = (s.finishOp m.seq ⟨some tile.1, [], [], none, []⟩ (if m.zeroShape then [] else tile.2)
      (if m.zeroShape then 0 else v.ieee)).dropContexts m.seq := by
  intro v tile
  have hwide : ∀ r cns i, ((s.finishOp m.seq r cns i).dropContexts m.seq).wide m.bytes = false := fun _ _ _ => h
  unfold runElem
  exact startExch_of_not_wide (hwide _ _ _) inp 0

end State

namespace ReadsInputs
variable {s t : State} {mem : Image} {m : Member} {f : Member → Member}

/-- What elements are computed from is not seen to change by the reading. -/
theorem elemEnv_eq (h : ReadsInputs s t mem m f) (g : Group) (inp : Inputs) : t.elemEnv g m inp = s.elemEnv g m inp :=
  (congrArg (State.elemEnv · g m inp) h.frame :)

/-- Nor is the length of a span. -/
theorem wide_eq (h : ReadsInputs s t mem m f) (d : Desc) : t.wide d = s.wide d := (congrArg (State.wide · d) h.frame :)

/-- A member that has read its inputs has its result, its census and its flags, and its contexts end (R169, R259). -/
theorem finish (h : ReadsInputs s t mem m f) (res : Result) (cns : List Nat) (ieee : Nat) :
    let u := (t.finishOp m.seq res cns ieee).dropContexts m.seq
    ∃ m', u = { s with
        groups := u.groups, wb := u.wb, cw := u.cw, out := u.out, freeCtr := s.freeCtr + 1, staging := u.staging, ue := u.ue,
        rowCtx := s.rowCtx.filter (fun c => c.seq != m.seq), clusters := s.clusters.map (fun c => c.dropBook (· == m.seq)) } ∧
      s.Became u m m' ∧ s.TookInputs u mem m m' ∧
      m' = { m with
        digests := m'.digests, owed := m'.owed, resv := m'.resv, caps := m'.caps, capHeads := m'.capHeads,
        result := some res, census := Census.addAll Census.zero cns, ieee := ieee } := by
  intro u
  have hgroups : u.groups = (s.modMember m.seq (Member.finishing res cns ieee ∘ f)).groups :=
    (congrArg (List.map (Group.modMember m.seq _)) h.groups).trans (congrArg State.groups (State.modMember_modMember h.seq))
  refine ⟨_, ?_, ⟨_, hgroups, rfl⟩, h.took.step rfl rfl rfl rfl rfl, congrArg (Member.finishing res cns ieee) h.reads⟩
  exact congrArg (fun t => (t.finishOp m.seq res cns ieee).dropContexts m.seq) h.frame

end ReadsInputs

-- The statement ------------------------------------------------------------------------------------------------------

/-- Each elementwise command is the run of its operation, once its member is ready. -/
theorem exec_elementwise {seq : Nat} {mem : Image} {c : Instr} {op : Op} (s : State)
    (h : (c, op) ∈ [(Instr.convert seq mem, Op.convert), (.affine seq mem, .affine), (.func seq mem, .func), (.gate seq mem, .gate),
      (.clamp seq mem, .clamp)]) : exec c s = .next (s.withInputs seq op mem State.runElem) := by
  simp only [List.mem_cons, Prod.mk.injEq, List.not_mem_nil, or_false] at h
  obtain ⟨rfl, rfl⟩ | ⟨rfl, rfl⟩ | ⟨rfl, rfl⟩ | ⟨rfl, rfl⟩ | ⟨rfl, rfl⟩ := h <;> rfl

/-- Settles O35: the reading leaves what the elements are computed from, so the tile is that of the state before it. -/
theorem elementwiseOperationsProduceTheirTile : Obligations.ElementwiseOperationsProduceTheirTile := by
  intro s seq mem c op g m hop hready hbad hseen hrouted hwide v tile
  obtain ⟨hm, rfl⟩ := State.opReady_member hready
  have hreads := State.readInputs_reads hm hseen mem
  obtain ⟨m', hfinish⟩ := hreads.finish ⟨some tile.1, [], [], none, []⟩ (if m.zeroShape then [] else tile.2)
    (if m.zeroShape then 0 else v.ieee)
  refine ⟨_, m', ?_, hfinish⟩
  rw [exec_elementwise s hop, State.withInputs_of_ready hready hbad hrouted,
    State.runElem_of_not_wide ((hreads.wide_eq m.bytes).trans hwide), hreads.elemEnv_eq]

end Sys2Proof.Machine
end

section
/-!
The row operations along one position (R169, R287, R455, R470, R502): the result and the counts that a member's rows come to, and a SCAN
that waits for its segment totals.
-/
namespace Sys2Proof.Machine
open Sys2Proof

/-- The accepted total of each row of a member along one position, and the row's outputs from it (R287). -/
def RowEnv.own (v : RowEnv) (r : Nat) : RowRes := v.finish r (v.total (v.chunks r)).1 (v.total (v.chunks r)).2 true .empty

namespace State
variable {s : State} {e : RowEnv} {done : Nat → RowRes} {g : Group} {m : Member}

/-- The result of a row member and the counts of its elements; a zero shape counts nothing, and only a padded tile then has rows
(R470). -/
def rowOutcome (s : State) (e : RowEnv) (done : Nat → RowRes) : Result × List Nat :=
  if e.m.zeroShape && (e.m.bytes.perRowOut || !e.m.bytes.padEn) then
    (if e.m.bytes.perRowOut then ⟨none, [], [], none, []⟩ else noResult e.rc.x.o, [])
  else ((s.rowResult e done).1, if e.m.zeroShape then [] else (s.rowResult e done).2)

theorem rowOutcome_of_shape (h : e.m.zeroShape = false) : s.rowOutcome e done = s.rowResult e done := by
  simp [rowOutcome, h]

theorem rowOutcome_counts_of_zeroShape (h : e.m.zeroShape = true) : (s.rowOutcome e done).2 = [] := by
  simp only [rowOutcome, h, Bool.true_and, if_true]
  split <;> rfl

/-- A member's rows are its outcome, with which its contexts end. -/
theorem putRows_eq (s : State) (e : RowEnv) (done : Nat → RowRes) :
    s.putRows e done = (s.finishOp e.m.seq (s.rowOutcome e done).1 (s.rowOutcome e done).2 0).dropContexts e.m.seq := by
  unfold putRows rowOutcome
  dsimp only
  split <;> rfl

/-- A row member along one position finishes with its own totals. -/
theorem runRows_of_not_wide (h : s.wide m.bytes = false) (inp : Inputs) :
    let v := s.rowEnv g m inp
    s.runRows g m inp = (s.finishOp m.seq (s.rowOutcome v v.own).1 (s.rowOutcome v v.own).2 0).dropContexts m.seq := by
  intro v
  have hown : s.runRows g m inp = s.putRows v v.own := if_neg (by simp [h])
  exact hown.trans (s.putRows_eq v v.own)

end State

namespace ReadsInputs
variable {s t : State} {mem : Image} {m : Member} {f : Member → Member}

/-- What rows are computed from is not seen to change by the reading. -/
theorem rowEnv_eq (h : ReadsInputs s t mem m f) (g : Group) (inp : Inputs) : t.rowEnv g m inp = s.rowEnv g m inp :=
  (congrArg (State.rowEnv · g m inp) h.frame :)

/-- Nor is what they come to. -/
theorem rowOutcome_eq (h : ReadsInputs s t mem m f) (e : RowEnv) (done : Nat → RowRes) : t.rowOutcome e done = s.rowOutcome e done :=
  (congrArg (State.rowOutcome · e done) h.frame :)

end ReadsInputs

-- The commands --------------------------------------------------------------------------------------------------------

/-- A SCAN whose row contexts wait for segment totals waits (R502). -/
theorem exec_scan_of_held {s : State} {seq : Nat} {m : Member} (hm : s.member? seq = some m) (hheld : s.scanHeld m = true)
    (mem : Image) : exec (.scan seq mem) s = .next s :=
  if_pos (by simpa [hm] using hheld)

/-- A SCAN that waits for none runs. -/
theorem exec_scan_of_not_held {s : State} {seq : Nat} {m : Member} (hm : s.member? seq = some m) (hheld : s.scanHeld m = false)
    (mem : Image) : exec (.scan seq mem) s = .next (s.withInputs seq .scan mem State.runRows) :=
  if_neg (by simpa [hm] using hheld)

section Commands
variable {s : State} {seq : Nat} {mem : Image} {c : Instr} {op : Op} {m : Member}
  (hop : (c, op) ∈ [(Instr.rmsn seq mem, Op.rmsn), (.smax seq mem, .smax), (.lsmax seq mem, .lsmax), (.rowred seq mem, .rowred),
    (.rowstat seq mem, .rowstat), (.scan seq mem, .scan)])
include hop

/-- Of the row commands only SCAN runs SCAN. -/
theorem eq_scan_of_row_command (h : op = .scan) : c = .scan seq mem := by
  subst h
  simpa using hop

/-- Each row command is the run of its operation, once its member is ready; a SCAN once no segment total is waited for. -/
theorem exec_row (hm : s.member? seq = some m) (hfree : op ≠ .scan ∨ s.scanHeld m = false) :
    exec c s = .next (s.withInputs seq op mem State.runRows) := by
  simp only [List.mem_cons, Prod.mk.injEq, List.not_mem_nil, or_false] at hop
  obtain ⟨rfl, rfl⟩ | ⟨rfl, rfl⟩ | ⟨rfl, rfl⟩ | ⟨rfl, rfl⟩ | ⟨rfl, rfl⟩ | ⟨rfl, rfl⟩ := hop
  case inr.inr.inr.inr.inr => exact exec_scan_of_not_held hm (hfree.resolve_left (· rfl)) mem
  all_goals rfl

end Commands

-- The statement -------------------------------------------------------------------------------------------------------

/-- Settles O36: the reading leaves what the rows are computed from, so the outcome is that of the state before it. -/
theorem rowOperationsProduceTheirRows : Obligations.RowOperationsProduceTheirRows := by
  intro s seq mem c op g m hop hready hbad hseen hrouted hwide
  obtain ⟨hm, rfl⟩ := State.opReady_member hready
  refine ⟨fun hscan hheld => eq_scan_of_row_command hop hscan ▸ exec_scan_of_held hm hheld mem, ?_⟩
  intro hfree v rows
  have hreads := State.readInputs_reads hm hseen mem
  obtain ⟨m', hframe, hbecame, htook, hkept⟩ := hreads.finish (s.rowOutcome v v.own).1 (s.rowOutcome v v.own).2 0
  have hresult : m'.result = some (s.rowOutcome v v.own).1 := congrArg Member.result hkept
  have hcensus : m'.census = Census.addAll Census.zero (s.rowOutcome v v.own).2 := congrArg Member.census hkept
  refine ⟨_, m', ?_, hframe, hbecame, htook, ?_, fun hshape => ?_, fun hzero => ?_⟩
  · rw [exec_row hop hm hfree, State.withInputs_of_ready hready hbad hrouted,
      State.runRows_of_not_wide ((hreads.wide_eq m.bytes).trans hwide), hreads.rowEnv_eq, hreads.rowOutcome_eq]
  · rwa [hresult, hcensus]
  · have hrows : s.rowOutcome v v.own = rows := State.rowOutcome_of_shape hshape
    exact hrows ▸ ⟨hresult, hcensus⟩
  · refine ⟨by rw [hresult]; rfl, ?_⟩
    rw [hcensus, State.rowOutcome_counts_of_zeroShape hzero]

end Sys2Proof.Machine
end

section
/-!
Loads and switches of banks (R205, R210, R213): what the commands do where their occasion is there, and how a descriptor that stands
alone in its block ends, its table-switch record before its PUBLISHED entry (R361, R608, R621).
-/
namespace Sys2Proof.Machine
open Sys2Proof

-- Before and after what is recorded ------------------------------------------------------------------------------------

/-- What is done before an entry is written, while the journal, what it goes by and what has left stand. -/
theorem State.Wrote.of_prepared {s t u : State} {es : List Entry} (h : t.Wrote u es) (hwb : t.wb = s.wb := by rfl)
    (hst : t.staging = s.staging := by rfl) (hue : t.ue = s.ue := by rfl) (hout : t.out = s.out := by rfl)
    (hregs : t.regs = s.regs := by rfl) (hseals : t.seals = s.seals := by rfl) : s.Wrote u es :=
  (State.Wrote.of_same hwb hst hue hout).trans hregs hseals h

/-- What an operation leaves that puts other groups in place of a recorded state's and uses one free value. -/
theorem Recorded.frame_of_end {s t u : State} {q : Nat} {f : Member → Member} {es : List Entry} {gs : List Group}
    (h : Recorded s t q f es)
    (hend : u = { t with groups := gs, wb := u.wb, cw := u.cw, out := u.out, staging := u.staging, ue := u.ue, freeCtr := t.freeCtr + 1 }) :
    u = { s with groups := gs, wb := u.wb, cw := u.cw, out := u.out, staging := u.staging, ue := u.ue, freeCtr := s.freeCtr + 1 } := by
  rw [h.frame] at hend
  exact hend

-- A descriptor alone in its block -------------------------------------------------------------------------------------

/-- A group whose outputs are done, if it has any. -/
def Group.finished : Group → Group := fun g => { g with outDone := true }

/-- A member whose milepost has been made. -/
def Member.withMilepost (b : List Byte) : Member → Member := fun m => { m with milepost := some b }

namespace State
variable {s t : State} {g : Group} {m : Member}

theorem group?_of_only (h : s.only g m) : s.group? m.seq = some g := by
  obtain ⟨hs, hg⟩ := h
  simp [group?, hs, hg]

theorem member?_of_only (h : s.only g m) : s.member? m.seq = some m := by
  obtain ⟨hs, hg⟩ := h
  simp [member?, members, hs, hg]

/-- It stays alone when it or its group is updated. -/
theorem only_modMember (h : s.only g m) (f : Member → Member) : (s.modMember m.seq f).only { g with members := [f m] } (f m) := by
  obtain ⟨hs, hg⟩ := h
  exact ⟨by simp [modMember, hs, hg], rfl⟩

theorem only_modGroup_finished (h : s.only g m) : (s.modGroup m.seq Group.finished).only g.finished m := by
  obtain ⟨hs, hg⟩ := h
  exact ⟨by simp [modGroup, hs, hg], hg⟩

/-- What a fingerprint names of a member is not what is left of its reservation (R594, R596). -/
theorem memberFp_spend (hg : g.members = [m]) (j : Nat) :
    s.memberFp { g with members := [m.spend j] } (m.spend j) = s.memberFp g m := by
  simp [memberFp, hg, Member.spend, ingotIds, Member.nonzero, List.filterMap_cons]

/-- A milepost goes by its member and by what its hallmark names, and not by the journal (R359, R365). -/
theorem milepostBytes_spend (hg : g.members = [m])
    (hframe : t = { s with groups := t.groups, wb := t.wb, cw := t.cw, out := t.out, staging := t.staging, ue := t.ue }) (j : Nat) :
    t.milepostBytes { g with members := [m.spend j] } (m.spend j) = s.milepostBytes g m := by
  have hhall : s.hallmark { g with members := [m.spend j] } (m.spend j) = s.hallmark g m := by
    simp only [hallmark, hallHeader, memberFp_spend hg]
    rfl
  rw [hframe, milepostBytes, milepostBytes, ← hhall]
  rfl

/-- Its group is the next of its ring to complete, and the only one (R361). -/
theorem tryFinish_of_only (h : s.only g m) (hpub : g.published = false) (hmile : m.milepost = none) (hready : s.finishable g = true) :
    s.tryFinish m.seq = s.finishGroup g := by
  have hentered : entered g = false := by simp [entered, hpub, h.2, hmile]
  simp only [tryFinish, group?_of_only h]
  simp [h.1, finishGo, hentered, hready]

/-- Its PUBLISHED entry is the last of its group (R621). -/
theorem finishGroup_of_members (hg : g.members = [m]) (hseen : m.pubSeen = false) :
    let b := s.milepostBytes g m
    s.finishGroup g = ((s.modMember m.seq (Member.withMilepost b)).wbWriteFor m.seq Ty.published (publishedParts b m.idx.toNat)
      (.published m.seq)).bump := by
  simp [finishGroup, hg, hseen, Group.firstSeq, Member.withMilepost.eq_unfold]

/-- A control operation that is done publishes at once (R361). -/
theorem controlDone_of_only (h : s.only g m) (hfresh : g.fresh m) (hdead : g.dead = false) (hfence : s.inc.fenced = false) :
    let b := s.milepostBytes g m
    s.controlDone m.seq = (((s.modGroup m.seq Group.finished).modMember m.seq (Member.withMilepost b)).wbWriteFor m.seq Ty.published
      (publishedParts b m.idx.toNat) (.published m.seq)).bump := by
  intro b
  obtain ⟨hended, hpub, -, htaken, hmile, hseen, hmirror⟩ := hfresh
  have hdone := only_modGroup_finished h
  have hready : (s.modGroup m.seq Group.finished).finishable g.finished = true := by
    simp [finishable, Group.finished, Group.allTaken, h.2, *]
  exact (tryFinish_of_only hdone hpub hmile hready).trans (finishGroup_of_members hdone.2 hseen)

/-- The journal then holds its PUBLISHED entry, and one free value has been used. -/
theorem controlDone_publishes (h : s.only g m) (hfresh : g.fresh m) (hdead : g.dead = false) (hfence : s.inc.fenced = false) :
    let b := s.milepostBytes g m
    let t := s.controlDone m.seq
    t = { s with groups := [{ g.finished with members := [(m.withMilepost b).spend 2] }], wb := t.wb, cw := t.cw, out := t.out,
                 staging := t.staging, ue := t.ue, freeCtr := s.freeCtr + 1 } ∧
      s.Wrote t [⟨Ty.published, publishedParts b m.idx.toNat, .published m.seq⟩] := by
  intro b t
  have hdone := only_modGroup_finished h
  have hrec := (Recorded.modMember (s.modGroup m.seq Group.finished) m.seq (f := Member.withMilepost b) fun _ => rfl).trans
    (Recorded.wbWriteFor _ m.seq Ty.published (publishedParts b m.idx.toNat) (.published m.seq))
  have hgroups := hrec.groups.trans (only_modMember hdone _).1
  have ht : t = _ := controlDone_of_only h hfresh hdead hfence
  generalize wbWriteFor _ _ _ _ _ = v at hrec hgroups ht
  have hframe := hrec.frame
  rw [hgroups] at hframe
  have hwrote : s.Wrote v _ := hrec.wrote.of_prepared
  have hbump : v.Wrote v.bump [] := .of_same rfl rfl rfl rfl
  rw [ht]
  exact ⟨congrArg bump hframe, hwrote.trans (congrArg State.regs hframe :) (congrArg State.seals hframe :) hbump⟩

-- The table-switch record ---------------------------------------------------------------------------------------------

/-- With no walk behind a descriptor its table-switch record is written (R210, R213, R635). -/
theorem writeSwitch_recorded {l : Load} (hm : s.member? l.seq = some m) (hseen : m.seen = []) (sw : Bool) (newGen ingot : Nat) :
    Recorded s (s.writeSwitch l sw newGen ingot) l.seq (Member.spend 1)
      [⟨Ty.tableSwitch, [tableSwitchPart l.slot (b2n l.bank) l.oldEmpty sw l.oldGen newGen ingot l.seq], .tableSwitch l.seq⟩] := by
  have hwrite : s.writeSwitch l sw newGen ingot = s.wbWriteFor l.seq Ty.tableSwitch
      [tableSwitchPart l.slot (b2n l.bank) l.oldEmpty sw l.oldGen newGen ingot l.seq] (.tableSwitch l.seq) := by
    simp [writeSwitch, hm, hseen]
  exact hwrite ▸ Recorded.wbWriteFor s l.seq _ _ _

/-- A load or a switch that is done writes its table-switch record, then its PUBLISHED entry (R361, R608). -/
theorem writeSwitch_controlDone_publishes {l : Load} (h : s.only g m) (hfresh : g.fresh m) (hseen : m.seen = [])
    (hdead : g.dead = false) (hfence : s.inc.fenced = false) (hl : l.seq = m.seq) (sw : Bool) (newGen ingot : Nat) :
    let b := s.milepostBytes g m
    let t := (s.writeSwitch l sw newGen ingot).controlDone m.seq
    t = { s with groups := [{ g with outDone := true, members := [{ m with milepost := some b, resv := m.resv - 3 }] }],
                 wb := t.wb, cw := t.cw, out := t.out, staging := t.staging, ue := t.ue, freeCtr := s.freeCtr + 1 } ∧
      s.Wrote t [⟨Ty.tableSwitch, [tableSwitchPart l.slot (b2n l.bank) l.oldEmpty sw l.oldGen newGen ingot m.seq], .tableSwitch m.seq⟩,
        ⟨Ty.published, publishedParts b m.idx.toNat, .published m.seq⟩] := by
  intro b t
  have hrec := writeSwitch_recorded (hl ▸ member?_of_only h) hseen sw newGen ingot
  rw [hl] at hrec
  have honly := only_modMember h (Member.spend 1)
  rw [only, ← hrec.groups] at honly
  have hfenced : (s.writeSwitch l sw newGen ingot).inc.fenced = false := by rwa [hrec.frame]
  have hb := milepostBytes_spend h.2 hrec.frame 1
  obtain ⟨hframe, hwrote⟩ := controlDone_publishes honly hfresh hdead hfenced
  rw [hb] at hframe hwrote
  exact ⟨hrec.frame_of_end hframe, hrec.wrote.trans (congrArg State.regs hrec.frame :) (congrArg State.seals hrec.frame :) hwrote⟩

-- The commands --------------------------------------------------------------------------------------------------------

/-- The group of a control operation that is due is alive, and the block not fenced. -/
theorem alive_of_due {q : Nat} {o : Op} {order : Bool} (h : s.due q o order = some (g, m)) :
    g.dead = false ∧ s.inc.fenced = false := by
  unfold due at h
  split at h
  · obtain ⟨hcond, hsame⟩ := Option.ite_none_right_eq_some.1 h
    cases hsame
    simp only [Bool.and_eq_true, Bool.not_eq_true'] at hcond
    obtain ⟨⟨⟨⟨⟨-, hdead⟩, -⟩, -⟩, hfence⟩, -⟩ := hcond
    exact ⟨hdead, hfence⟩
  · cases h

theorem seq_of_load? {q : Nat} {l : Load} (h : s.load? q = some l) : l.seq = q := by
  simpa using List.find?_some h

/-- A bank of a slot is filled, and no bank of it closes any more. -/
def fillBank (s : State) (q : Nat) (l : Load) (b : Bank) : State :=
  { s with slots := s.slots.modify l.slot (fun t => { t.setBank l.bank b with closing := false }),
           loads := s.loads.map (fun k => if k.seq == q then { k with phase := .done } else k) }

/-- What is noted of a switch: the bank that becomes active, and what the one before it holds (R213). -/
def switchNote (s : State) (m : Member) (b : Bool) : Load :=
  let old := (s.slot m.bytes.slotOf).activeBank
  ⟨m.seq, m.bytes.slotOf, b, old.gen, old.img.isNone, .done, []⟩

/-- A bank of a slot has become active, and the switch is noted. -/
def switchBank (s : State) (m : Member) (b : Bool) : State :=
  { s with slots := s.slots.modify m.bytes.slotOf (fun t => { t with active := b }),
           loads := s.loads.filter (fun l => (s.member? l.seq).isSome) ++ [s.switchNote m b] }

end State

section Commands
variable {s : State} {q : Nat} {g : Group} {m : Member} {l : Load} {resp : Resp}

theorem exec_loadIngot (hdue : s.due q .loadIngot false = some (g, m)) (hnew : s.load? q = none) :
    let t := s.slot m.bytes.slotOf
    exec (.loadIngot q) s = .next { s with
      slots := s.slots.modify m.bytes.slotOf (fun t => { t with closing := true }),
      loads := s.loads.filter (fun l => (s.member? l.seq).isSome) ++
        [⟨q, m.bytes.slotOf, !t.active, (t.bank (!t.active)).gen, (t.bank (!t.active)).img.isNone, .accepted, []⟩] } := by
  change execLoadIngot q s = _
  simp only [execLoadIngot, hdue, hnew, Option.isSome_none, if_neg Bool.false_ne_true]
  rfl

theorem exec_ingotPinsReleased {hdr : List Byte} (hdue : s.due q .loadIngot true = some (g, m)) (hload : s.load? q = some l)
    (hphase : l.phase = .accepted) (hpins : l.oldEmpty = true ∨ s.pinned l.slot l.oldGen = false)
    (hgood : m.bytes.romFlag = true ∨ (resp = .okay ∧ ingotHeaderOk m.bytes hdr = true ∧ s.ingotSigned hdr = true)) :
    exec (.ingotPinsReleased q resp hdr) s = .next { s with
      slots := s.slots.modify l.slot (fun t => t.setBank l.bank ⟨0, 0, none⟩),
      loads := s.loads.map (fun l => if l.seq == q then { l with phase := .reading, hdr := hdr } else l) } := by
  have hgo : (l.phase != .accepted || (!l.oldEmpty && s.pinned l.slot l.oldGen)) = false := by
    rcases hpins with h | h <;> simp [hphase, h]
  change execIngotPinsReleased q resp hdr s = _
  simp only [execIngotPinsReleased, hdue, hload, hgo, if_neg Bool.false_ne_true]
  rcases hgood with hrom | ⟨rfl, hheader, hsigned⟩
  · rw [if_pos hrom]
    rfl
  · have hsame : (s.modSlot l.slot fun t => t.setBank l.bank State.emptyBank).ingotSigned hdr = true := hsigned
    simp only [hheader, hsame]
    split <;> rfl

/-- A payload that has been read and is good, or one from ROM, fills its bank. -/
theorem exec_ingotLoadDone {payload : List Byte} {b : Bank} (hdue : s.due q .loadIngot true = some (g, m)) (hload : s.load? q = some l)
    (hphase : l.phase = .reading)
    (hbank : (m.bytes.romFlag = true ∧ b = ⟨0, 0, some (.rom l.slot)⟩) ∨
      (m.bytes.romFlag = false ∧ resp = .okay ∧ s.ingotPayloadOk m.bytes l.hdr payload = true ∧
        b = ⟨m.bytes.generation, ingotId l.hdr payload, some (.img payload)⟩)) :
    exec (.ingotLoadDone q resp payload) s = .next (((s.fillBank q l b).writeSwitch l false b.gen b.ingot).controlDone q) := by
  have hgo : (l.phase != .reading) = false := by simp [hphase]
  change execIngotLoadDone q resp payload s = _
  simp only [execIngotLoadDone, hdue, hload, hgo, if_neg Bool.false_ne_true]
  rcases hbank with ⟨hrom, rfl⟩ | ⟨hrom, rfl, hpayload, rfl⟩
  · rw [if_pos hrom]
    rfl
  · simp only [hrom, hpayload]
    rfl

theorem exec_switch {b : Bool} (hdue : s.due m.seq .switch false = some (g, m)) (hnew : s.load? m.seq = none)
    (hholds : (s.slot m.bytes.slotOf).holds m.bytes.generation = some b) :
    let u := s.switchBank m b
    exec (.switch m.seq) s = .next ((u.writeSwitch (s.switchNote m b) true m.bytes.generation
      (u.ingotOf m.bytes.slotOf m.bytes.generation)).controlDone m.seq) := by
  change execSwitch m.seq s = _
  simp only [execSwitch, hdue, hnew, hholds]
  rfl

end Commands

-- The statement -------------------------------------------------------------------------------------------------------

/-- Settles O39: a load and a switch end alike, once the bank is filled or active. -/
theorem loadsAndSwitchesActOnBanks : Obligations.LoadsAndSwitchesActOnBanks := by
  refine ⟨fun s q g m hdue hnew => exec_loadIngot hdue hnew,
    fun s q hdr resp g m l hdue hload hphase hpins hgood => exec_ingotPinsReleased hdue hload hphase hpins hgood, ?_⟩
  rintro s u c g m record honly hfresh hseen
    (⟨payload, resp, l, b, rfl, hdue, hload, hphase, -, hbank, rfl, rfl⟩ | ⟨b, rfl, hdue, hnew, hholds, rfl, rfl⟩)
  · obtain ⟨hdead, hfence⟩ := State.alive_of_due hdue
    obtain ⟨hframe, hwrote⟩ := State.writeSwitch_controlDone_publishes (s := s.fillBank m.seq l b) honly hfresh hseen hdead hfence
      (State.seq_of_load? hload) false b.gen b.ingot
    exact ⟨_, exec_ingotLoadDone hdue hload hphase hbank, hframe, hwrote.of_prepared⟩
  · obtain ⟨hdead, hfence⟩ := State.alive_of_due hdue
    obtain ⟨hframe, hwrote⟩ := State.writeSwitch_controlDone_publishes (s := s.switchBank m b) (l := s.switchNote m b) honly hfresh
      hseen hdead hfence rfl true m.bytes.generation ((s.switchBank m b).ingotOf m.bytes.slotOf m.bytes.generation)
    exact ⟨_, exec_switch hdue hnew hholds, hframe, hwrote.of_prepared⟩

end Sys2Proof.Machine
end

section
/-!
The staging store along a run (R272, R484, R485): what a step can be, and the form of the store that it keeps (log 6).
-/
namespace Sys2Proof.Machine
open Sys2Proof

/-- A step idles, or runs the command at the front of the queue. -/
theorem step_cases {s t : State} (h : step s = .next t) :
    t = s ∨ ∃ c rest, s.pending = c :: rest ∧ exec c { s with pending := rest } = .next t := by
  unfold step at h
  split at h
  · cases h
    exact .inl rfl
  · rename_i c rest hpending
    exact .inr ⟨c, rest, hpending, h⟩

/-- Settles O5: an idle step leaves the store as it is, a command keeps its form, and the form does not go by the queue. -/
theorem stepKeepsStagingCanonical : Obligations.StepKeepsStagingCanonical := by
  intro s t hs h
  obtain rfl | ⟨c, rest, -, hexec⟩ := step_cases h
  · exact hs
  · exact (Preserves.of_exec hexec).staging hs

end Sys2Proof.Machine
end

section
/-!
MCOMBINE of a tile from the streams that waits for no beat (R271, R470, R602, R815): its stream has not been digested when it closes.
-/
namespace Sys2Proof.Machine
open Sys2Proof

/-- An MCOMBINE of two partials from the streams, the only one of its group, whose header gives it no row: ROWS 0, PLAN 32 × 256,
COLS 32, an FP32 output. -/
def noRowCombine : Desc :=
  [0x30, 2, 1] ++ zeroBytes 23 ++ toBytes 2 32 ++ toBytes 4 32 ++ toBytes 4 256 ++ zeroBytes 12 ++
    toBytes 5 0x10000 ++ [2] ++ zeroBytes 18 ++ toBytes 4 0x1000 ++ zeroBytes 4 ++ toBytes 4 0x3F800000 ++ toBytes 4 0x200 ++ zeroBytes 39 ++ [0x2C]

/-- Its member, as it stands once its waymark has been reported and its group has been issued: the bounds of its header are known
(R465), and nothing of it has been read or has arrived. -/
def noRowMember : Member := State.boundAtIssue {
  seq := 1, ring := 0, idx := 0, bytes := noRowCombine, status := 0, compat := 6, reads := [], progGen := 0, fgen := 0, agen := 0,
  padVal := 0, rnum := 0, resv := 16, taken := true, fault := 0, shape := none, tabs := [], param := none, inputs := none, beats := [],
  run := [], retries := 0, result := none, census := Census.zero, ieee := 0, digests := [], owed := [], seen := [], mirrorDone := true,
  capSet := false, caps := [], capHeads := [], milepost := none, pubSeen := false, respReturned := false }

/-- The issued group of that member. -/
def noRowGroup : Group where
  ring := 0
  members := [noRowMember]
  ended := true
  dead := false
  issued := true
  waited := false
  gran := []
  closeWritten := false
  closeReported := false
  wrote := false
  outDone := false
  published := false
  posted := false
  replay := false
  openSeen := false
  closeSeen := false

/-- A block with that group alone. -/
def noRowState : State := { State.reset with groups := [noRowGroup] }

/-- That block once the member has its inputs and its chunks have gone on. -/
def noRowCombining : State :=
  let q := noRowState.readInputs [] noRowMember
  q.1.modMember 1 fun x =>
    State.runChunks (noRowMember.compat == 5) (noRowState.convOf noRowMember) noRowGroup { x with inputs := some q.2 }

/-- The descriptor passes every check of R344: no rule refuses ROWS 0. -/
theorem check_noRowCombine : noRowState.check 0 noRowCombine = 0 := by decide +kernel

/-- It reads no item, so its reading of inputs owes the journal nothing. -/
theorem readList_noRowMember : noRowState.readList [] noRowMember = [] := by decide +kernel

/-- Its MCOMBINE writes one record all the same: the STREAM_DIGEST (R602). -/
theorem exec_mcombine_noRow {t : State} (h : exec (.mcombine 1 []) noRowState = .next t) : t.wb.tail = noRowState.wb.tail + 1 := by
  have hrun : (match exec (.mcombine 1 []) noRowState with | .next t => t.wb.tail | _ => 0) = noRowState.wb.tail + 1 := by decide +kernel
  rwa [h] at hrun

/-- A member that reads no item and owes nothing writes no INPUT_DIGEST. -/
theorem State.TookInputs.tail_of_no_item {s t : State} {mem : Image} {m m' : Member} (h : s.TookInputs t mem m m')
    (hread : s.readList mem m = []) (howed : m.owed = []) : t.wb.tail = s.wb.tail := by
  have hwb := h.items.wrote.journal.wb
  have howing : m.owing [] = [] := by simp [Member.owing, Member.newDigests, howed]
  rw [hread, List.map_nil, howing] at hwb
  exact (congrArg Wb.tail hwb).trans rfl

/-- Refutes O37: where all beats of a tile are here and its stream has not been digested, MCOMBINE writes the STREAM_DIGEST beside the
INPUT_DIGEST entries that the statement allows. An accepted tile without a row (`check_noRowCombine`) is such a one: no beat has brought
it to its digest. -/
theorem not_combineClosesItsTile : ¬ Obligations.CombineClosesItsTile := by
  intro h
  have hready : noRowState.opReady 1 .mcombine = some (noRowGroup, noRowMember) := by decide +kernel
  have hbad : noRowState.badInput noRowMember = none := by decide +kernel
  have hholds := h noRowState 1 [] noRowGroup noRowMember hready hbad rfl (fun l hl => nomatch hl)
  obtain ⟨g1, hg1⟩ := Option.isSome_iff_exists.1 (show (noRowCombining.group? 1).isSome = true by decide +kernel)
  obtain ⟨m1, hm1⟩ := Option.isSome_iff_exists.1 (show (noRowCombining.member? 1).isSome = true by decide +kernel)
  obtain ⟨t, m', hexec, -, -, htook, -⟩ := hholds g1 m1 hg1 hm1
  have htail := htook.tail_of_no_item readList_noRowMember rfl
  rw [exec_mcombine_noRow hexec] at htail
  omega

end Sys2Proof.Machine
end

section
/-!
An S2 that only sets statuses (R642, R651, R663): in a calm block it takes the lowest free position of the log, ends at once (log 52) and
stands there as DONE; beside the log, its interrupt bits and the journal nothing has changed.
-/
namespace Sys2Proof.Machine
open Sys2Proof

-- Records of entries --------------------------------------------------------------------------------------------------

/-- An entry of the log, whether or not its record has been written. -/
def IncEntry.core (e : IncEntry) : IncEntry := { e with written := false }

/-- From `s` to `t` records of entries have been written, and nothing else has happened. -/
structure Flushed (s t : State) : Prop where
  frame : t = { s with wb := t.wb, cw := t.cw, out := t.out, staging := t.staging, ue := t.ue, inc := { s.inc with log := t.inc.log } }
  log : t.inc.log.map (Option.map IncEntry.core) = s.inc.log.map (Option.map IncEntry.core)

namespace Flushed
variable {s t u : State}

theorem refl (s : State) : Flushed s s := ⟨rfl, rfl⟩

theorem trans (h : Flushed s t) (k : Flushed t u) : Flushed s u where
  frame := by rw [k.frame, h.frame]
  log := k.log.trans h.log

theorem wbWrite (s : State) (ty : Nat) (ps : List (List Byte)) (a : Act) : Flushed s (s.wbWrite ty ps a) := by
  have hframe := (s.wbWrite_wrote ty ps a).2
  have hinc : (s.wbWrite ty ps a).inc = s.inc := (congrArg State.inc hframe :)
  exact ⟨by rw [hinc]; exact hframe, by rw [hinc]⟩

/-- A mark on an entry that its record has been written. -/
theorem modEntry (s : State) (p : Nat) {f : IncEntry → IncEntry} (hf : ∀ e, (f e).core = e.core) : Flushed s (s.modEntry p f) where
  frame := rfl
  log := by
    refine List.ext_getElem? fun i => ?_
    by_cases hi : p = i
    · simp [State.modEntry, State.modInc, hi, Function.comp_def, hf]
    · simp [State.modEntry, State.modInc, hi]

theorem writeEntry (s : State) (p : Nat) : Flushed s (s.writeEntry p) := by
  unfold State.writeEntry
  split
  · split
    · exact (wbWrite ..).trans (modEntry _ _ fun _ => rfl)
    · exact refl s
  · exact refl s

theorem flushInc (s : State) : Flushed s s.flushInc :=
  List.foldlRecOn (motive := Flushed s) _ _ (refl s) fun t h _ _ => h.trans (writeEntry t _)

/-- What a position of the log holds, its record apart. -/
theorem getElem?_log (h : Flushed s t) {p : Nat} {e : IncEntry} (he : s.inc.log[p]? = some (some e)) :
    ∃ e', t.inc.log[p]? = some (some e') ∧ e'.core = e.core := by
  have hp := congrArg (·[p]?) h.log
  simp only [List.getElem?_map, he, Option.map_some, Option.map_eq_some_iff] at hp
  obtain ⟨o, ho, e', rfl, hcore⟩ := hp
  exact ⟨e', ho, hcore⟩

/-- No entry waits that did not wait before. -/
theorem idle (h : Flushed s t) (hs : ∀ e ∈ s.inc.log, e.map (·.state) ≠ some 0) :
    ∀ e ∈ t.inc.log, e.map (·.state) ≠ some 0 := by
  intro e he
  have hcore : e.map IncEntry.core ∈ s.inc.log.map (Option.map IncEntry.core) := h.log ▸ List.mem_map_of_mem he
  obtain ⟨x, hx, hxe⟩ := List.mem_map.1 hcore
  have hstate : ∀ o : Option IncEntry, o.map (·.state) = (o.map IncEntry.core).map (·.state) := fun o => by cases o <;> rfl
  rw [hstate, ← hxe, ← hstate]
  exact hs x hx

end Flushed

-- The recovery --------------------------------------------------------------------------------------------------------

namespace State
variable {s : State} {p : Nat} {e : IncEntry} {f : Finding} {img : Image}

/-- A block whose log has taken an S2 at a position (R663, R665). -/
def loggedS2 (s : State) (p : Nat) (e : IncEntry) : State :=
  (s.modInc fun i => { i with log := i.log.set p (some e), nextId := i.nextId + 1 }).bump.irqInc 0

/-- And has made it the current recovery (R651). -/
def recovering (s : State) (p : Nat) (e : IncEntry) : State := (s.loggedS2 p e).modInc fun i => { i with cur := some p }

/-- What becomes of the entry becomes of what has been taken. -/
theorem recovering_modEntry (s : State) (p : Nat) (e : IncEntry) (k : IncEntry → IncEntry) :
    (s.recovering p e).modEntry p k = s.recovering p (k e) := by
  have hlog : (s.inc.log.set p (some e)).modify p (Option.map k) = s.inc.log.set p (some (k e)) := by
    refine List.ext_getElem? fun i => ?_
    by_cases hi : p = i
    · simp [List.getElem?_set, hi, apply_ite]
    · simp [hi]
  exact congrArg (fun l => { s.recovering p e with inc := { (s.recovering p e).inc with log := l } }) hlog

theorem lt_of_freePos (h : s.freePos = some p) : p < s.inc.log.length :=
  (List.findIdx?_eq_some_iff_getElem.1 h).1

theorem getElem?_recovering (h : p < s.inc.log.length) : (s.recovering p e).inc.log[p]? = some (some e) := by
  simp [recovering, loggedS2, modInc, bump, irqInc, h]

theorem entry?_recovering (h : p < s.inc.log.length) : (s.recovering p e).entry? p = some e := by
  rw [entry?, getElem?_recovering h]
  rfl

/-- Without an entry that waits none becomes active (R668). -/
theorem nextQueued_of_idle (h : ∀ e ∈ s.inc.log, e.map (·.state) ≠ some 0) : s.nextQueued = none := by
  unfold nextQueued
  rw [List.filterMap_eq_nil_iff.2]
  · rfl
  · rintro ⟨o, i⟩ ho
    have hmem := h o (List.fst_mem_of_mem_zipIdx ho)
    cases o with
    | none => rfl
    | some e => exact if_neg fun he => hmem (congrArg some he)

/-- Without a current recovery there is none to end. -/
theorem settleS2_of_idle (h : s.inc.cur = none) (n : Nat) : settleS2 img n s = s := by
  cases n with
  | zero => rfl
  | succ n => simp [settleS2, statusOnly, h]

/-- The sources whose recoveries repeat groups or empty banks (R643 to R646, R656, R657). -/
def repeating : List Nat := [Src.stageUe, Src.tableUe, Src.progUe, Src.laneAssay, Src.clusterFail]

/-- In a calm block an S2 of another source becomes the current recovery, with its statuses set (R651). -/
theorem incidentHigh_of_calm (hcalm : s.calm) (hp : s.freePos = some p) (hsource : f.source ∉ repeating) (act : Nat) :
    s.incidentHigh f 2 act = s.recovering p { s.newEntry f 2 act with state := 1, action := 7 } := by
  obtain ⟨-, hfenced, hcur, -⟩ := hcalm
  have hactive : s.incidentHigh f 2 act = (s.loggedS2 p (s.newEntry f 2 act)).activate p f.mem := by
    simp [incidentHigh, hp, hfenced, hcur, loggedS2]
  have hbegun : ((s.loggedS2 p (s.newEntry f 2 act)).modEntry p fun e => { e with state := 1 }).modInc (fun i => { i with cur := some p }) =
      s.recovering p { s.newEntry f 2 act with state := 1 } := recovering_modEntry s p (s.newEntry f 2 act) fun e => { e with state := 1 }
  have hstatus : ∀ u : State, u.actS2 { s.newEntry f 2 act with state := 1 } = some (u, 7) := fun u => by
    simp only [repeating, List.mem_cons, List.not_mem_nil, or_false, not_or] at hsource
    obtain ⟨h1, h2, h3, h4, h5⟩ := hsource
    simp [actS2, newEntry, h1, h2, h3, h4, h5]
  rw [hactive]
  unfold activate
  rw [hbegun]
  simp only [entry?_recovering (lt_of_freePos hp), hstatus]
  exact (if_pos rfl).trans (recovering_modEntry ..)

/-- A recovery whose statuses are set ends at once, and no other is waiting (R651, R668). -/
theorem settleS2_recovering (hidle : ∀ x ∈ s.inc.log, x.map (·.state) ≠ some 0) (hlt : p < s.inc.log.length) (hsev : e.sevFinal = 2)
    (hact : e.action = 7) (n : Nat) : ∃ v, Flushed (s.recovering p { e with state := 2 }) v ∧
      settleS2 img (n + 1) (s.recovering p e) = (v.modInc fun i => { i with cur := none }).irqInc 4 := by
  have hclose : (s.recovering p e).closeEntry p 2 0xFF = (s.recovering p { e with state := 2 }).writeEntry p :=
    congrArg (·.writeEntry p) (recovering_modEntry ..)
  have hflushed := (Flushed.writeEntry (s.recovering p { e with state := 2 }) p).trans (Flushed.flushInc _)
  generalize hv : ((s.recovering p { e with state := 2 }).writeEntry p).flushInc = v at hflushed
  have hidle' := hflushed.idle fun x hx => by
    obtain hx | rfl := List.mem_or_eq_of_mem_set hx
    · exact hidle x hx
    · simp
  have hnone : ((v.modInc fun i => { i with cur := none }).irqInc 4).nextQueued = none := nextQueued_of_idle hidle'
  have hcur : (s.recovering p e).inc.cur = some p := rfl
  have honly : (s.recovering p e).statusOnly = true := by simp [statusOnly, hcur, entry?_recovering hlt, hsev, hact]
  have hend : (s.recovering p e).endRecovery img = (v.modInc fun i => { i with cur := none }).irqInc 4 := by
    simp only [endRecovery, hcur, hclose, hv, hnone]
  refine ⟨v, hflushed, ?_⟩
  rw [settleS2, if_pos honly, hend]
  exact settleS2_of_idle rfl n

/-- In a calm block an S2 that only sets statuses is logged as DONE, and beside the log, its interrupt bits and the journal nothing
changes (R642, R651, R663). -/
theorem incident_of_calm (hcalm : s.calm) (hp : s.freePos = some p) (hsev : severity s.resident f = 2) (hsource : f.source ∉ repeating)
    (act : Nat) :
    let t := s.incident f act
    t = { s with
        wb := t.wb, cw := t.cw, out := t.out, staging := t.staging, ue := t.ue, inc := t.inc, setup := t.setup, freeCtr := t.freeCtr } ∧
      t.logged p f.source f.unit f.seq f.addr := by
  intro t
  have ⟨_, _, _, hidle⟩ := hcalm
  obtain ⟨v, hflushed, hsettled⟩ := settleS2_recovering (img := f.mem) (e := { s.newEntry f 2 act with state := 1, action := 7 })
    hidle (lt_of_freePos hp) rfl rfl 32
  have ht : t = (v.modInc fun i => { i with cur := none }).irqInc 4 := by
    rw [← hsettled, ← incidentHigh_of_calm hcalm hp hsource]
    simp only [t, incident, hsev]
    rfl
  obtain ⟨e, he, hcore⟩ := hflushed.getElem?_log (getElem?_recovering (lt_of_freePos hp))
  refine ⟨?_, e, by rw [ht]; exact he, ?_⟩
  · rw [ht, hflushed.frame]
    rfl
  · simp only [IncEntry.core, newEntry, IncEntry.mk.injEq] at hcore
    simp [hcore]

end State
end Sys2Proof.Machine
end

section
/-!
The accumulator-stream ports and the bands (R270, R277 to R283, R602, R755, R756): what a beat does on its port and at its tile, and how
a drained band makes room.
-/
namespace Sys2Proof.Machine
open Sys2Proof

-- A chunk that goes on -----------------------------------------------------------------------------------------------

/-- A chunk that goes on is seen at the running values alone. -/
theorem State.runChunk_eq (c5 : Bool) (cv : Conv) (g : Group) (r k : Nat) (m : Member) :
    State.runChunk c5 cv g r k m = { m with run := (State.runChunk c5 cv g r k m).run } := by
  unfold runChunk
  dsimp only
  split <;> rfl

/-- A beat as a tile keeps it. -/
def Beat'.part (b : Beat) : TBeat := ⟨Beat'.split b, Beat'.row b, Beat'.chunk b, b.data⟩

/-- A member takes a beat, and its chunk goes on (R277). -/
def Member.withBeat (c5 : Bool) (cv : Conv) (g : Group) (t : TBeat) (m : Member) : Member :=
  State.runChunk c5 cv g t.row t.chunk { m with beats := m.beats ++ [t] }

theorem Member.withBeat_eq (c5 : Bool) (cv : Conv) (g : Group) (t : TBeat) (m : Member) :
    m.withBeat c5 cv g t = { m with beats := m.beats ++ [t], run := (m.withBeat c5 cv g t).run } := State.runChunk_eq ..

/-- A member with the digest of its stream. -/
def Member.streamed (d : Digest) (m : Member) : Member := { m with digests := m.digests ++ [d] }

theorem Member.streamed_spend {k m : Member} (hresv : k.resv = m.resv) (hdigests : k.digests = m.digests) (d : Digest) :
    (k.spend 1).streamed d = { k with resv := m.resv - 1, digests := m.digests ++ [d] } := by
  rw [← hresv, ← hdigests]
  rfl

/-- A member whose parked beats and running values are gone (R283). -/
def Member.unparked (m : Member) : Member := { m with beats := [], run := [] }

namespace State
variable {s : State} {q : Nat} {g : Group} {m k : Member}

/-- A tile that a tag names is open, and takes beats (R434, R436). -/
theorem open_of_tagged {tag : Nat} (h : s.tagged tag = some m) :
    m.bytes.is .mcombine = true ∧ m.result = none ∧ m.bytes.srcMem = false := by
  have hopen := List.mem_of_find?_eq_some h
  have hstream := List.find?_some h
  simp only [Bool.and_eq_true, Bool.not_eq_true', beq_iff_eq] at hstream
  obtain ⟨g, -, hg⟩ := List.mem_flatMap.1 hopen
  split at hg
  · have htile := (List.mem_filter.1 hg).2
    simp only [tileOpen, Bool.and_eq_true, Option.isNone_iff_eq_none] at htile
    exact ⟨htile.1, htile.2, hstream.1⟩
  · cases hg

-- The digest of a stream ---------------------------------------------------------------------------------------------

/-- The digest of the stream of a tile that has all its beats (R602). -/
def tileDigest (m : Member) : Digest :=
  ⟨Ty.streamDigest, 0, 0, streamDigest (boundBeats m m.beats), (boundBeats m m.beats).length⟩

/-- Without a capture area a stream is not captured (R457). -/
theorem captureFlow_of_no_area (hcap : (s.ring m.ring).cap = none) (bs : List Byte) : s.captureFlow m bs = s := by
  unfold captureFlow
  split
  · rename_i hc
    rw [hcap] at hc
    cases hc
  · rfl

/-- Without a walk behind it and without a capture area the stream is digested in one record (R602, R619). -/
theorem writeStream_recorded (hm : s.member? m.seq = some m) (hseen : m.seen = [])
    (hnew : m.digests.any (fun d => d.ty == Ty.streamDigest) = false) (hcap : (s.ring m.ring).cap = none) :
    Recorded s (s.writeStream m) m.seq (Member.streamed (tileDigest m) ∘ Member.spend 1)
      [⟨Ty.streamDigest, [streamDigestPart m.seq (tileDigest m).digest (tileDigest m).count], .none⟩] := by
  have hentry := Recorded.wbWriteFor s m.seq Ty.streamDigest [streamDigestPart m.seq (tileDigest m).digest (tileDigest m).count] .none
  have hflow := captureFlow_of_no_area (m := m) ((congrArg (fun t : State => (t.ring m.ring).cap) hentry.frame).trans hcap)
  have hfound : ∀ d, m.found d = false := fun d => by simp [Member.found, hseen]
  have hwritten : s.writeStream m = (s.wbWriteFor m.seq Ty.streamDigest
      [streamDigestPart m.seq (tileDigest m).digest (tileDigest m).count] .none).modMember m.seq (Member.streamed (tileDigest m)) := by
    simp only [writeStream, hnew, checkDigests_of_unseen hm hseen, hfound]
    exact congrArg (State.modMember · m.seq (Member.streamed (tileDigest m))) (hflow _)
  rw [hwritten]
  exact hentry.trans (Recorded.modMember _ m.seq fun _ => rfl)

/-- A stream that is complete before the inputs of its tile are here is digested, and the tile stays open (R271, R619, R815). -/
theorem tryClose_of_stream (hg : s.group? q = some g) (hm : s.member? q = some m) (hop : m.bytes.is .mcombine = true)
    (hstream : m.bytes.srcMem = false) (hdead : g.dead = false) (hopen : m.result = none) (hshape : m.shape ≠ none)
    (hall : allBeats m = true) (hinputs : m.inputs = none) : s.tryClose q = s.writeStream m := by
  have hnone : m.shape.isNone = false := Option.isNone_eq_false_iff.2 (Option.isSome_iff_ne_none.2 hshape)
  simp [tryClose, hg, hm, hop, hstream, hdead, hopen, hnone, hall, hinputs]

/-- A tile whose bounds are not known yet does not close (R815). -/
theorem tryClose_of_unbound (hm : s.member? q = some m) (hshape : m.shape = none) : s.tryClose q = s := by
  unfold tryClose
  split
  · rename_i g' m' _ hm'
    cases hm.symm.trans hm'
    simp [hshape]
  · rfl

end State

-- A beat at its tile -------------------------------------------------------------------------------------------------

section Tile
variable {s : State} {port : Nat} {b : Beat} {g : Group} {m : Member}

/-- A beat inside the plan and the bounds, the first of its place, is kept (R277, R281, R815). -/
theorem State.takeBeat_new (hg : s.group? m.seq = some g) (hsplit : Beat'.split b < m.bytes.nSplit)
    (hrow : Beat'.row b < m.bytes.planRows) (hchunk : Beat'.chunk b < m.bytes.planCols / 32)
    (hbounds : m.shape = none ∨ (Beat'.row b < m.rows ∧ Beat'.chunk b < m.cols / 32))
    (hnew : m.beats.any (fun o => o.split == Beat'.split b && o.row == Beat'.row b && o.chunk == Beat'.chunk b) = false) :
    s.takeBeat port m b =
      (s.modMember m.seq (Member.withBeat (m.compat == 5) (s.convOf m) g (Beat'.part b))).tryClose m.seq := by
  have hplan : ¬(m.bytes.nSplit ≤ Beat'.split b ∨ m.bytes.planRows ≤ Beat'.row b ∨ m.bytes.planCols / 32 ≤ Beat'.chunk b) := by
    omega
  have hinside : (m.shape.isSome && (boundBeats m [Beat'.part b]).isEmpty) = false := by
    rcases hbounds with h | ⟨hr, hc⟩
    · simp [h]
    · simp [boundBeats, Beat'.part, hr, hc]
  have hfirst : m.beats.find? (fun o => o.split == Beat'.split b && o.row == Beat'.row b && o.chunk == Beat'.chunk b) = none :=
    List.find?_eq_none.2 (by simpa using hnew)
  unfold takeBeat
  rw [if_neg hplan]
  refine (if_neg (Bool.eq_false_iff.1 hinside)).trans ?_
  rw [hfirst, hg]
  rfl

variable (hm : s.member? m.seq = some m)
include hm

/-- The tile stays open while its bounds are not known or a beat is missing (R815). -/
theorem State.tryClose_withBeat_open {c5 : Bool} {cv : Conv} {t : TBeat}
    (hopen : m.shape = none ∨ State.allBeats (m.withBeat c5 cv g t) = false) :
    (s.modMember m.seq (Member.withBeat c5 cv g t)).tryClose m.seq = s.modMember m.seq (Member.withBeat c5 cv g t) := by
  have hkept : (s.modMember m.seq (Member.withBeat c5 cv g t)).member? m.seq = some (m.withBeat c5 cv g t) :=
    (member?_modMember fun x => by rw [Member.withBeat_eq]).trans (congrArg _ hm)
  rcases hopen with h | h
  · exact tryClose_of_unbound hkept (by rw [Member.withBeat_eq]; exact h)
  · exact tryClose_of_waiting hkept fun _ => h

/-- With its last beat a tile that waits for inputs digests its stream (R602, R619). -/
theorem State.tryClose_withBeat_last {c5 : Bool} {cv : Conv} {t : TBeat} (hg : s.group? m.seq = some g)
    (htile : m.bytes.is .mcombine = true ∧ m.result = none ∧ m.bytes.srcMem = false) (hshape : m.shape ≠ none)
    (hall : State.allBeats (m.withBeat c5 cv g t) = true) (hinputs : m.inputs = none) (hseen : m.seen = []) (hdead : g.dead = false)
    (hnew : m.digests.any (fun d => d.ty == Ty.streamDigest) = false) (hcap : (s.ring m.ring).cap = none) :
    let k := m.withBeat c5 cv g t
    Recorded s ((s.modMember m.seq (Member.withBeat c5 cv g t)).tryClose m.seq) m.seq
      (Member.streamed (tileDigest k) ∘ Member.spend 1 ∘ Member.withBeat c5 cv g t)
      [⟨Ty.streamDigest, [streamDigestPart m.seq (tileDigest k).digest (tileDigest k).count], .none⟩] := by
  intro k
  have hseq : ∀ x : Member, (x.withBeat c5 cv g t).seq = x.seq := fun x => by rw [Member.withBeat_eq]
  have hk : k = { m with beats := m.beats ++ [t], run := k.run } := Member.withBeat_eq ..
  have hkept : (s.modMember m.seq (Member.withBeat c5 cv g t)).member? m.seq = some k := (member?_modMember hseq).trans (congrArg _ hm)
  obtain ⟨hop, hres, hstream⟩ := htile
  have hclose := tryClose_of_stream ((group?_modMember hseq m.seq m.seq).trans (congrArg _ hg)) hkept (by rw [hk]; exact hop)
    (by rw [hk]; exact hstream) hdead (by rw [hk]; exact hres) (by rw [hk]; exact hshape) hall (by rw [hk]; exact hinputs)
  have hwritten := writeStream_recorded (s := s.modMember m.seq (Member.withBeat c5 cv g t)) (m := k) (by rw [hseq m]; exact hkept)
    (by rw [hk]; exact hseen) (by rw [hk]; exact hnew) (by rw [hk]; exact hcap)
  rw [hclose]
  rw [show k.seq = m.seq from hseq m] at hwritten
  exact (Recorded.modMember s m.seq hseq).trans hwritten

end Tile

-- A beat on its port -------------------------------------------------------------------------------------------------

section Port
variable {s : State} {port : Nat} {b : Beat} (hreset : s.inReset = false) (hfenced : s.inc.fenced = false)
  (hparked : s.start.parked = false) (hport : (s.asHeld[port]?).join = none)
include hreset hfenced hparked hport

/-- A good beat whose tag names an open tile reaches it (R277, R755). -/
theorem exec_asBeat_tile {m : Member} (hok : Beat'.ok b = true) (htag : s.tagged (Beat'.tag b) = some m) :
    exec (.asBeat port b) s = .next (s.takeBeat port m b) := by
  change execAsBeat port b s = _
  simp [execAsBeat, hreset, hfenced, hparked, hport, hok, htag]

/-- One whose tag names none is held on its port (R756). -/
theorem exec_asBeat_stray (hok : Beat'.ok b = true) (htag : s.tagged (Beat'.tag b) = none) :
    exec (.asBeat port b) s = .next { s with asHeld := s.asHeld.set port (some b) } := by
  change execAsBeat port b s = _
  simp [execAsBeat, hreset, hfenced, hparked, hport, hok, htag]

/-- A beat that fails its check and names no open tile is counted, and an incident (R755). -/
theorem exec_asBeat_bad (hok : Beat'.ok b = false) (htag : s.tagged (Beat'.tag b) = none) :
    exec (.asBeat port b) s = .next (State.incident { s with asCheckFail := satInc s.asCheckFail } (finding Src.asCheck port 0 0) 7) := by
  have htag' : State.tagged { s with asCheckFail := satInc s.asCheckFail } (Beat'.tag b) = none := htag
  change execAsBeat port b s = _
  simp [execAsBeat, hreset, hfenced, hparked, hport, hok, State.failBeat, htag']

end Port

/-- A held beat is discarded at the end of STRAY_WAIT (R756). -/
theorem exec_strayWaitExpire {s : State} {port : Nat} {b : Beat} (h : (s.asHeld[port]?).join = some b) :
    exec (.strayWaitExpire port) s = .next { s with asHeld := s.asHeld.set port none, asStray := satInc s.asStray } := by
  change execStrayWaitExpire port s = _
  simp [execStrayWaitExpire, h]

/-- At ARRIVE_LIMIT an open tile loses what is parked for it, and faults (R283). -/
theorem exec_arriveLimitExpire {s : State} {seq : Nat} (hlimit : bits s.regs.asCtl.toNat 15 0 ≠ 0) (hfenced : s.inc.fenced = false)
    (hopen : s.openTiles.any (fun m => m.seq == seq && !m.bytes.srcMem) = true) :
    exec (.arriveLimitExpire seq) s =
      .next ((s.modMember seq Member.unparked).faultMember seq St.partialMissing) := by
  change execArriveLimitExpire seq s = _
  exact if_pos (by simp only [bne_iff_ne.2 hlimit, hfenced, hopen]; rfl)

-- Bands --------------------------------------------------------------------------------------------------------------

/-- A cluster with a band in a slot. -/
def Cluster.withA (x : Band) (k : Cluster) : Cluster := { k with slotA := x }
def Cluster.withB (x : Band) (k : Cluster) : Cluster := { k with slotB := x }

namespace State
variable {s : State} {c d : Nat} {f : Cluster → Cluster}

/-- An updated cluster is found, and no other has changed. -/
theorem cluster_modCluster (hc : c < s.clusters.length) :
    (s.modCluster c f).cluster d = if c = d then f (s.cluster d) else s.cluster d := by
  by_cases h : c = d
  · subst h
    simp [cluster, modCluster, List.getD_eq_getElem?_getD, hc]
  · simp [cluster, modCluster, List.getD_eq_getElem?_getD, h]

/-- The bands of a cluster are not what says whether it takes work (R658). -/
theorem takesWork_modCluster (hf : ∀ k, (f k).retired = k.retired) (hc : c < s.clusters.length) :
    (s.modCluster c f).takesWork d = s.takesWork d := by
  have hret : ∀ d, ((s.modCluster c f).cluster d).retired = (s.cluster d).retired := fun d => by
    rw [cluster_modCluster hc, apply_ite Cluster.retired, hf, ite_self]
  have hservice : ∀ d, (s.modCluster c f).inService d = s.inService d := fun d => by
    unfold inService
    rw [hret]
    rfl
  unfold takesWork
  simp only [hret, hservice]
  rfl

/-- Without an open tile no band opens (R270). -/
theorem openBand_of_no_tile (h : s.openTiles = []) : s.openBand c = s := by
  simp [openBand, h]

/-- Where slot A is empty and no slot fills, a cluster that takes work opens a band there for the earliest open tile (R270). -/
theorem openBand_slotA {m : Member} {r : List Member} (hopen : s.openTiles = m :: r) (hwork : s.takesWork c = true)
    (hA : (s.cluster c).slotA = .empty) (hB : ∀ q, (s.cluster c).slotB ≠ .filling q) :
    s.openBand c = s.modCluster c (Cluster.withA (.filling m.seq)) := by
  unfold openBand
  cases hslot : (s.cluster c).slotB with
  | filling q => exact absurd hslot (hB q)
  | empty =>
    simp [hopen, hwork, hA, hslot]
    rfl
  | draining q =>
    simp [hopen, hwork, hA, hslot]
    rfl

/-- Two updates of a cluster are one. -/
theorem modCluster_modCluster (k : Cluster → Cluster) : (s.modCluster c f).modCluster c k = s.modCluster c (k ∘ f) := by
  refine congrArg (fun l => { s with clusters := l }) (List.ext_getElem? fun i => ?_)
  by_cases hi : c = i
  · simp [hi, Function.comp_def]
  · simp [hi]

end State

section Drained
variable {s : State} {c q : Nat}

/-- A drained band in slot A frees it (R270). -/
theorem exec_bandDrainDone_slotA (h : (s.cluster c).slotA = .draining q) :
    exec (.bandDrainDone c) s = .next ((s.modCluster c (Cluster.withA .empty)).openBand c) := by
  change execBandDrainDone c s = _
  simp [execBandDrainDone, h]
  rfl

/-- One in slot B frees that, where slot A does not drain. -/
theorem exec_bandDrainDone_slotB (hA : ∀ q, (s.cluster c).slotA ≠ .draining q) (h : (s.cluster c).slotB = .draining q) :
    exec (.bandDrainDone c) s = .next ((s.modCluster c (Cluster.withB .empty)).openBand c) := by
  change execBandDrainDone c s = _
  cases hslot : (s.cluster c).slotA with
  | draining q => exact absurd hslot (hA q)
  | empty =>
    simp [execBandDrainDone, hslot, h]
    rfl
  | filling q =>
    simp [execBandDrainDone, hslot, h]
    rfl

end Drained

-- The statement ------------------------------------------------------------------------------------------------------

/-- Settles O41: beats on their ports and at their tiles, the two time limits, and the slots of the bands. -/
theorem beatsReachTheirTiles : Obligations.BeatsReachTheirTiles := by
  refine ⟨fun s port b hreset hfenced hparked hport =>
      ⟨fun hok htag => exec_asBeat_stray hreset hfenced hparked hport hok htag, ?_, ?_⟩,
    fun s port b h => exec_strayWaitExpire h, ?_, fun s c hc => ⟨?_, ?_, ?_⟩⟩
  · intro g m hok htag hg hm hsplit hrow hchunk hbounds hnew keep
    have hexec := exec_asBeat_tile hreset hfenced hparked hport hok htag
    rw [State.takeBeat_new hg hsplit hrow hchunk hbounds hnew] at hexec
    refine ⟨fun hopen => hexec.trans (congrArg _ (State.tryClose_withBeat_open (t := Beat'.part b) hm hopen)), ?_⟩
    intro hshape hall hinputs _ hseen hdead hundigested hcap bs
    have hlast := State.tryClose_withBeat_last (c5 := m.compat == 5) (cv := s.convOf m) (t := Beat'.part b) hm hg
      (State.open_of_tagged htag) hshape hall hinputs hseen hdead hundigested hcap
    have hkeep := Member.withBeat_eq (m.compat == 5) (s.convOf m) g (Beat'.part b) m
    refine ⟨_, _, hexec, hlast.frame, ⟨_, hlast.groups, rfl⟩, ?_, hlast.wrote⟩
    exact Member.streamed_spend (congrArg Member.resv hkeep) (congrArg Member.digests hkeep) _
  · intro p hok htag hcalm hp
    obtain ⟨hframe, hlogged⟩ := State.incident_of_calm (s := { s with asCheckFail := satInc s.asCheckFail })
      (f := finding Src.asCheck port 0 0) hcalm hp rfl (show Src.asCheck ∉ State.repeating by decide) 7
    refine ⟨_, exec_asBeat_bad hreset hfenced hparked hport hok htag, ?_, ?_, ?_, hlogged⟩
    · rw [hframe]
    · rw [hframe]
    · rw [hframe]
  · intro s seq g hlimit hfenced hopen hg hlive
    have hg' : (s.modMember seq Member.unparked).group? seq = some (g.modMember seq Member.unparked) :=
      (State.group?_modMember (f := Member.unparked) (fun _ => rfl) seq seq).trans (congrArg _ hg)
    exact ⟨_, exec_arriveLimitExpire hlimit hfenced hopen,
      State.faulted_faultMember hg' (Group.live_modMember (fun _ => rfl) hlive)⟩
  · rintro ⟨q, hA⟩ hnone
    rw [exec_bandDrainDone_slotA hA]
    exact congrArg _ (State.openBand_of_no_tile hnone)
  · rintro hA ⟨q, hB⟩ hnone
    rw [exec_bandDrainDone_slotB hA hB]
    exact congrArg _ (State.openBand_of_no_tile hnone)
  · rintro m r ⟨q, hA⟩ hB hopen hwork
    have hcluster : (s.modCluster c (Cluster.withA .empty)).cluster c = (s.cluster c).withA .empty :=
      (State.cluster_modCluster hc).trans (if_pos rfl)
    have hworks : (s.modCluster c (Cluster.withA .empty)).takesWork c = true :=
      (State.takesWork_modCluster (f := Cluster.withA .empty) (fun _ => rfl) hc).trans hwork
    rw [exec_bandDrainDone_slotA hA, State.openBand_slotA (s := s.modCluster c (Cluster.withA .empty)) hopen hworks
      (by rw [hcluster]; rfl) (by rw [hcluster]; exact hB), State.modCluster_modCluster]
    rfl

end Sys2Proof.Machine
end

section
/-!
The store window (R271 to R274, R484, R749): what a write stores and which marks it takes away, and what a read finds in a byte of
staging that no group holds and in one of an accumulator tile.
-/
namespace Sys2Proof.Machine
open Sys2Proof

-- Bytes of the store -------------------------------------------------------------------------------------------------

/-- Bytes with their strobes, as the store takes them: a byte whose strobe is low is absent. -/
def strobed (data : List Byte) (strb : List Bool) : List (Option Byte) := (data.zip strb).map fun p => if p.2 then some p.1 else none

@[simp] theorem length_strobed (data : List Byte) (strb : List Bool) : (strobed data strb).length = min data.length strb.length := by
  simp [strobed]

/-- A byte is stored where its strobe is set. -/
theorem getElem?_strobed_eq_some {data : List Byte} {strb : List Bool} {i : Nat} {b : Byte} :
    (strobed data strb)[i]? = some (some b) ↔ data[i]? = some b ∧ strb[i]? = some true := by
  simp [strobed, List.getElem?_zip_eq_some]

/-- A store finds its bytes. -/
theorem Memory.get_write_present {m : Memory} {a i : Nat} {b : Byte} {bs : List (Option Byte)} (h : bs[i]? = some (some b))
    (hsize : a + i < size) : get (a + i) (m.write a bs) = some b := by
  obtain ⟨hi, hb⟩ := List.getElem?_eq_some_iff.1 h
  rw [get_write_inside bs hi hsize, hb]

/-- A word keeps its mark where nothing of it is written (R644). -/
theorem State.mem_ue_stageWrite {s : State} {a w : Nat} {bs : List (Option Byte)} :
    w ∈ (s.stageWrite a bs).ue ↔ w ∈ s.ue ∧ ∀ i b, bs[i]? = some (some b) → (a + i) / 32 ≠ w := by
  have hhit : (bs.zipIdx.any fun p => p.1.isSome && decide ((a + p.2) / 32 = w)) = false ↔
      ∀ i b, bs[i]? = some (some b) → (a + i) / 32 ≠ w := by
    simp only [List.any_eq_false, Bool.and_eq_true, decide_eq_true_eq, not_and, Prod.forall, List.mem_zipIdx_iff_getElem?]
    refine ⟨fun h i b hb => h (some b) i hb rfl, fun h o i ho hsome => ?_⟩
    obtain ⟨b, rfl⟩ := Option.isSome_iff_exists.1 hsome
    exact h i b ho
  rw [← hhit]
  simp [State.stageWrite, List.mem_filter]

namespace State
variable {s : State} {a n i : Nat}

@[simp] theorem length_stageBytes (s : State) (a n : Nat) : (s.stageBytes a n).length = n := by simp [stageBytes]

theorem getElem?_stageBytes (hi : i < n) : (s.stageBytes a n)[i]? =
    some (if s.heldGran.contains ((a + i) / 65536) then s.heldByte (a + i) else s.staging.read s.freeCtr (a + i)) := by
  simp [stageBytes, hi]

/-- Of a granule that nobody holds a read finds the known bytes (R749). -/
theorem getElem?_stageBytes_known {b : Byte} (hi : i < n) (hheld : s.heldGran.contains ((a + i) / 65536) = false)
    (hb : s.stageByte (a + i) = some b) : (s.stageBytes a n)[i]? = some b := by
  have hread : s.staging.read s.freeCtr (a + i) = b := by rw [Memory.read, ← stageByte, hb]; rfl
  rw [getElem?_stageBytes hi, hheld, hread]
  rfl

end State

namespace State
variable {s : State} {a k : Nat} {g : Group} {m : Member} {v : Fv × Nat}

/-- A byte of an accumulator tile is that of the FP32 value at its place, row by row (R271, R273). -/
theorem heldByte_of_accAt (hacc : s.accAt (a / 65536) = some (g, m, k)) :
    let o := k * 65536 + a % 65536
    ((accRow (m.compat == 5) (s.convOf m) g m (o / (4 * m.bytes.planCols)))[o % (4 * m.bytes.planCols) / 4]?).join = some v →
      (toBytes 4 (Fv.to32 v.1))[o % 4]? = some (s.heldByte a) := by
  intro o hv
  have hbyte : s.heldByte a = (toBytes 4 (Fv.to32 v.1)).getD (o % 4) 0 := by
    simp only [heldByte, hacc]
    rw [show k * 65536 + a % 65536 = o from rfl, hv]
  have hlt : o % 4 < (toBytes 4 (Fv.to32 v.1)).length := Nat.mod_lt o (Nat.zero_lt_succ 3)
  rw [hbyte, List.getD_eq_getElem _ _ hlt]
  exact List.getElem?_eq_getElem hlt

end State

-- The commands -------------------------------------------------------------------------------------------------------

section Commands
variable {s : State} {req : WinReq} (hreset : s.inReset = false) (htoll : WinReq'.inToll req = false)
  (hbell : WinReq'.inBell req = false) (hshut : s.shut = false) (hincr : req.incr = true) (hatomic : req.atomic = false)
include hreset htoll hbell hshut hincr hatomic

/-- A write outside the apertures is refused beyond the decoded regions and where it touches a held granule, and else stored (R484,
R749). -/
theorem exec_windowWrite (data : List Byte) (strb : List Bool) : exec (.windowWrite req data strb) s =
    if WinReq'.inStage req = false then .next (s.emit (.winWrite req .decerr))
    else if State.touches req s.heldGran then .next (s.emit (.winWrite req .slverr))
    else .next ((s.stageWrite req.off ((strobed data strb).take req.len)).emit (.winWrite req .okay)) := by
  change execWindowWrite req data strb s = _
  simp [execWindowWrite, hreset, htoll, hbell, hshut, hincr, hatomic, strobed]

/-- A read beyond the decoded regions is refused (R749). -/
theorem exec_windowRead_outside (hstage : WinReq'.inStage req = false) :
    exec (.windowRead req) s = .next (s.emit (.winRead req (zeroBytes req.len) .decerr)) := by
  change execWindowRead req s = _
  simp [execWindowRead, hreset, htoll, hbell, hshut, hincr, hatomic, hstage]

section Staging
variable (hstage : WinReq'.inStage req = true)
include hstage

/-- So is one of an open tile without OPEN_READ (R272, R273). -/
theorem exec_windowRead_closed (hopen : State.touches req s.openGran = true) (hread : s.regs.debugCtl.getLsbD 0 = false) :
    exec (.windowRead req) s = .next (s.emit (.winRead req (zeroBytes req.len) .slverr)) := by
  change execWindowRead req s = _
  simp [execWindowRead, hreset, htoll, hbell, hshut, hincr, hatomic, hstage, hopen, hread, -BitVec.getLsbD_eq_getElem]

/-- Every other read of staging finds what stands there now. -/
theorem exec_windowRead_bytes (hfree : State.touches req s.openGran = false ∨ s.regs.debugCtl.getLsbD 0 = true)
    (hue : s.ueIn req.off req.len = none) :
    exec (.windowRead req) s = .next (s.emit (.winRead req (s.stageBytes req.off req.len) .okay)).bump := by
  change execWindowRead req s = _
  rcases hfree with h | h <;>
    simp [execWindowRead, hreset, htoll, hbell, hshut, hincr, hatomic, hstage, h, hue, -BitVec.getLsbD_eq_getElem]

end Staging
end Commands

section Written
variable {s : State} {req : WinReq} {data : List Byte} {strb : List Bool}

/-- A burst carries as many bytes as its length says. -/
theorem take_strobed (hdata : data.length = req.len) : (strobed data strb).take req.len = strobed data strb :=
  List.take_of_length_le (by simp [hdata])

/-- A write leaves what lies outside it, and where a strobe is low (R484). -/
theorem stageByte_unwritten {a : Nat} (hstrb : strb.length = req.len)
    (ha : a < req.off ∨ req.off + req.len ≤ a ∨ strb[a - req.off]? = some false) :
    (s.stageWrite req.off (strobed data strb)).stageByte a = s.stageByte a := by
  refine Memory.get_write_absent _ fun i hi => ?_
  cases hb : (strobed data strb)[i]? with
  | none => exact .inl rfl
  | some o =>
    cases o with
    | none => exact .inr rfl
    | some b =>
      have hset := (getElem?_strobed_eq_some.1 hb).2
      have hlt := (List.getElem?_eq_some_iff.1 hset).1
      rcases ha with h | h | h
      · omega
      · omega
      · rw [← hi, Nat.add_sub_cancel_left, hset] at h
        cases h

/-- A word loses its mark where a byte of it is written. -/
theorem mem_ue_strobed {w : Nat} (hlength : data.length = strb.length) : w ∈ (s.stageWrite req.off (strobed data strb)).ue ↔
    w ∈ s.ue ∧ ∀ i, strb[i]? = some true → (req.off + i) / 32 ≠ w := by
  rw [State.mem_ue_stageWrite]
  refine and_congr_right fun _ => ⟨fun h i hset => ?_, fun h i b hb => h i (getElem?_strobed_eq_some.1 hb).2⟩
  have hlt : i < data.length := hlength ▸ (List.getElem?_eq_some_iff.1 hset).1
  exact h i data[i] (getElem?_strobed_eq_some.2 ⟨List.getElem?_eq_getElem hlt, hset⟩)

end Written

-- The statement ------------------------------------------------------------------------------------------------------

/-- Settles O45: the strobes say which bytes a write stores, and the granule of a byte says what a read finds there. -/
theorem windowReadsAndWritesStaging : Obligations.WindowReadsAndWritesStaging := by
  intro s req hreset htoll hbell hshut hincr hatomic
  refine ⟨fun data strb hdata hstrb => ?_, fun hstage hfree hue => ?_,
    fun hstage hopen hread => exec_windowRead_closed hreset htoll hbell hshut hincr hatomic hstage hopen hread,
    fun hstage => exec_windowRead_outside hreset htoll hbell hshut hincr hatomic hstage⟩
  · have hexec := exec_windowWrite hreset htoll hbell hshut hincr hatomic data strb
    rw [take_strobed hdata] at hexec
    refine ⟨fun hstage hheld => ?_, fun hstage hheld => by rw [hexec, hstage, hheld]; rfl, fun hstage => by rw [hexec, hstage]; rfl⟩
    refine ⟨(s.stageWrite req.off (strobed data strb)).emit (.winWrite req .okay), by rw [hexec, hstage, hheld]; rfl, rfl,
      fun i b hb hset => ?_, fun a ha => stageByte_unwritten hstrb ha, fun w => mem_ue_strobed (hdata.trans hstrb.symm)⟩
    have hi : i < req.len := hdata ▸ (List.getElem?_eq_some_iff.1 hb).1
    have hend : req.off + req.len ≤ Memory.size := of_decide_eq_true hstage
    exact Memory.get_write_present (getElem?_strobed_eq_some.2 ⟨hb, hset⟩) (by omega)
  · refine ⟨_, exec_windowRead_bytes hreset htoll hbell hshut hincr hatomic hstage hfree hue, State.length_stageBytes ..,
      fun i b hi hheld hb => State.getElem?_stageBytes_known hi hheld hb, ?_⟩
    intro i k g m v n hi hheld hacc o hv
    rw [State.getElem?_stageBytes hi, if_pos hheld]
    exact (State.heldByte_of_accAt hacc hv).symm

end Sys2Proof.Machine
end

section
/-!
Every command answers (log 11): a command whose occasion is not there leaves the block as it is.
-/
namespace Sys2Proof.Machine

/-- Settles O3: what a command answers is a state that has kept what it must. -/
theorem everyCommandAnswersNext : Obligations.EveryCommandAnswersNext := fun c s => (Preserves.command c s).imp fun _ h => h.1

end Sys2Proof.Machine
end

section
/-!
Tolls (R369 to R382): what a request and a control write do in each of their cases, and the answer that goes out once its record has been
reported.
-/
namespace Sys2Proof.Machine
open Sys2Proof

namespace State
variable {s : State} {req : WinReq} {m : Memo}

/-- A toll access that prepares its tolls and then writes its entry: everything but the tolls and the journal's effects stands. -/
theorem wbWrite_modTolls (s : State) (f : Tolls → Tolls) (ty : Nat) (parts : List (List Byte)) (act : Act) :
    let t := (s.modTolls f).wbWrite ty parts act
    t = { s with tolls := f s.tolls, wb := t.wb, cw := t.cw, out := t.out, staging := t.staging, ue := t.ue } ∧
      s.Wrote t [⟨ty, parts, act⟩] := by
  obtain ⟨hwrote, hframe⟩ := (s.modTolls f).wbWrite_wrote ty parts act
  exact ⟨hframe, hwrote.of_prepared⟩

-- Requests -----------------------------------------------------------------------------------------------------------

/-- A toll request of the right form is served (R369, R750). -/
theorem exec_tollRequest (hreset : s.inReset = false) (htoll : WinReq'.inToll req = true) (hshut : s.shut = false)
    (hform : WinReq'.isRequest req = true) : exec (.tollRequest req) s = .next (s.serveRequest req) := by
  change execTollRequest req s = _
  simp [execTollRequest, hreset, htoll, hshut, hform]

/-- Under STRICT nothing is granted (R379). -/
theorem serveRequest_strict (h : s.strictRepro = true) : s.serveRequest req = s.emit (.winRead req (zeroBytes 8) .slverr) :=
  if_pos h

section Served
variable (hstrict : s.strictRepro = false) (hqueue : s.tollQueued req = false)
include hstrict hqueue

/-- A repeat whose record has been reported gets the stored answer at once (R372). -/
theorem serveRequest_memo (hmemo : s.memo? (WinReq'.issuer req) (WinReq'.counter req) (WinReq'.tollSeq req) = some m)
    (howed : s.owedToll m = none) : s.serveRequest req = s.emit (.winRead req (tollAnswer m true) .okay) := by
  simp [serveRequest, hstrict, hqueue, hmemo, howed]

/-- One whose record has not waits for it (R381). -/
theorem serveRequest_owed {n : Nat} (hmemo : s.memo? (WinReq'.issuer req) (WinReq'.counter req) (WinReq'.tollSeq req) = some m)
    (howed : s.owedToll m = some n) :
    s.serveRequest req = s.modTolls fun t => { t with waits := t.waits ++ [⟨req, m, true, n⟩] } := by
  simp [serveRequest, hstrict, hqueue, hmemo, howed]

/-- A new request is granted where the waybook has room and no change of REPRO_CLASS waits (R371, R612, R701). -/
theorem serveRequest_new (hmemo : s.memo? (WinReq'.issuer req) (WinReq'.counter req) (WinReq'.tollSeq req) = none)
    (hrepro : s.reproPending = false) (hroom : s.tollRoom = true) : s.serveRequest req = s.grantToll req := by
  simp [serveRequest, hstrict, hqueue, hmemo, hrepro, hroom]

end Served

/-- The grant of a new request: its ticket, its memo and its wait stand, and its entry is written (R371, R381). -/
theorem grantToll_wrote (s : State) (req : WinReq) :
    let c := WinReq'.counter req
    let count := (s.tolls.count.getD c 0).toNat
    let limit := (s.tolls.limit.getD c 0).toNat
    let m : Memo := ⟨WinReq'.issuer req, c, WinReq'.tollSeq req, if count < limit then count else limit, decide (count < limit)⟩
    let t := s.grantToll req
    t = { s with
      tolls := { s.tolls with
        count := if count < limit then s.tolls.count.set c (BitVec.ofNat 32 (count + 1)) else s.tolls.count,
        memos := keepMemo s.tolls.memos m, waits := s.tolls.waits ++ [⟨req, m, false, s.wb.tail⟩] },
      wb := t.wb, cw := t.cw, out := t.out, staging := t.staging, ue := t.ue } ∧
    s.Wrote t [⟨Ty.toll, [tollPart m], .toll⟩] := by
  simp only [grantToll, decide_eq_true_eq]
  exact wbWrite_modTolls ..

-- Answers ------------------------------------------------------------------------------------------------------------

/-- The earliest answer whose record has been reported goes out (R381). -/
theorem exec_tollGrantReported {i : Nat} {w : TollWait}
    (hfind : s.tolls.waits.findIdx? (fun w => !s.wb.recs.any (fun r => r.rnum == w.rnum)) = some i) (hw : s.tolls.waits[i]? = some w) :
    exec .tollGrantReported s = .next ((s.modTolls fun t => { t with waits := t.waits.eraseIdx i }).emit
      (.winRead w.req (tollAnswer w.memo w.isMemo) .okay)) := by
  change execTollGrantReported s = _
  simp only [execTollGrantReported, hfind, hw]

-- Control writes -----------------------------------------------------------------------------------------------------

/-- A write to the toll aperture that is no control write, or that a shut block gets (R377, R750). -/
theorem exec_tollSet_refused {data strb : Nat} (hreset : s.inReset = false) (htoll : WinReq'.inToll req = true)
    (h : s.shut = true ∨ WinReq'.isControl req = false ∨ strb % 256 ≠ 255) :
    exec (.tollSet req data strb) s = .next (s.emit (.winWrite req .slverr)) := by
  change execTollSet req data strb s = _
  rcases h with h | h | h <;> simp [execTollSet, hreset, htoll, h]

/-- A control write that can be journalled now (R377, R382). -/
theorem exec_tollSet_taken {data strb : Nat} (hreset : s.inReset = false) (htoll : WinReq'.inToll req = true) (hshut : s.shut = false)
    (hform : WinReq'.isControl req = true) (hstrb : strb % 256 = 255) (hqueue : s.tollQueued req = false) (hroom : s.tollRoom = true) :
    let c := WinReq'.counter req
    exec (.tollSet req data strb) s = .next ((s.modTolls fun t => { t with
      count := t.count.set c (BitVec.ofNat 32 (bits data 31 0)), limit := t.limit.set c (BitVec.ofNat 32 (bits data 63 32)),
      memos := t.memos.filter (fun m => m.counter != c), sets := t.sets ++ [(req, s.wb.tail)] }).wbWrite Ty.tollSet
        [tollSetPart c (bits data 31 0) (bits data 63 32) (s.tolls.count.getD c 0).toNat] (.tollSet c)) := by
  change execTollSet req data strb s = _
  simp [execTollSet, serveSet, hreset, htoll, hshut, hform, hstrb, hqueue, hroom]

end State

-- The statements -----------------------------------------------------------------------------------------------------

/-- Settles O43: the cases of a request, and the answer that a report lets go out. -/
theorem tollRequestsAreAnswered : Obligations.TollRequestsAreAnswered := by
  refine ⟨fun s req hreset htoll hshut hform => ?_, fun s i w hfind hw => State.exec_tollGrantReported hfind hw⟩
  have hexec := State.exec_tollRequest hreset htoll hshut hform
  refine ⟨fun hstrict => ?_, fun hstrict hqueue hmemo hrepro hroom => ?_, fun m hstrict hqueue hmemo => ⟨fun howed => ?_, fun n howed => ?_⟩⟩
  · rw [hexec, State.serveRequest_strict hstrict]
    rfl
  · rw [hexec, State.serveRequest_new hstrict hqueue hmemo hrepro hroom]
    exact ⟨_, rfl, s.grantToll_wrote req⟩
  · rw [hexec, State.serveRequest_memo hstrict hqueue hmemo howed]
    rfl
  · rw [hexec, State.serveRequest_owed hstrict hqueue hmemo howed]
    rfl

/-- Settles O44: a control write that can be journalled now, and a write that is none. -/
theorem tollControlWritesSetCounters : Obligations.TollControlWritesSetCounters := by
  intro s req data strb hreset htoll
  refine ⟨fun h => State.exec_tollSet_refused hreset htoll h, fun hshut hform hstrb hqueue hroom => ?_⟩
  exact ⟨_, State.exec_tollSet_taken hreset htoll hshut hform hstrb hqueue hroom, s.wbWrite_modTolls ..⟩

end Sys2Proof.Machine
end

section
/-!
Bells and waiting descriptors (R339 to R342, R352, R353): how a pending flag is served, and what the commands do where their occasion is
there.
-/
namespace Sys2Proof.Machine
open Sys2Proof

namespace State
variable {s : State} {r : Nat}

-- Head-record reads --------------------------------------------------------------------------------------------------

/-- The read of a head record: the flag is served, and the read leaves unless staging serves it (R40, R342). -/
theorem askHead_eq (s : State) (r : Nat) (why : HeadRead) : s.askHead r why = { s with
    rings := s.rings.modify r (fun g => { g with pending := false, reading := some why }),
    out := s.out ++ s.asks (s.ring r).head.toNat } :=
  ask_eq ..

/-- With no flag there is nothing to serve. -/
theorem serveBell_of_not_pending (h : (s.ring r).pending = false) : s.serveBell r = s := by
  simp [serveBell, h]

/-- A flag waits while a read is outstanding, and until the waybook is ready (R342, R693). -/
theorem serveBell_of_waiting (h : (s.ring r).reading ≠ none ∨ s.isReady 9 = false) : s.serveBell r = s := by
  rcases h with h | h
  · obtain ⟨why, hwhy⟩ := Option.ne_none_iff_exists'.1 h
    simp [serveBell, hwhy]
  · simp [serveBell, h]

/-- Else it is served by a read (R342). -/
theorem serveBell_of_pending (hpending : (s.ring r).pending = true) (henabled : (s.ring r).enabled = true) (hreading : (s.ring r).reading = none)
    (hready : s.isReady 9 = true) (hfenced : s.inc.fenced = false) : s.serveBell r = s.askHead r .bell := by
  simp [serveBell, hpending, henabled, hreading, hready, hfenced]

-- Bells --------------------------------------------------------------------------------------------------------------

/-- The state after a bell's answer, its ring's flag set. -/
def rung (s : State) (req : WinReq) (r : Nat) : State :=
  (({ s with setup := { s.setup with bellReceived := satInc s.setup.bellReceived } } : State).modRing r
    (fun g => { g with pending := true })).emit (.winWrite req .okay)

section Bell
variable {req : WinReq} {word strb : Nat} (hreset : s.inReset = false) (hbell : WinReq'.inBell req = true)
include hreset hbell

/-- A shut block refuses a write to the bell aperture, and so is a burst refused that is not served (R654, R686, R750). -/
theorem exec_bell_refused (h : s.shut = true ∨ req.incr = false ∨ req.atomic = true) :
    exec (.bell req word strb) s = .next (s.emit (.winWrite req .slverr)) := by
  change execBell req word strb s = _
  rcases h with h | h | h <;> simp [execBell, hreset, hbell, h]

variable (hshut : s.shut = false) (hincr : req.incr = true) (hatomic : req.atomic = false)
include hshut hincr hatomic

/-- A write that is no bell of an enabled ring is counted (R341). -/
theorem exec_bell_ignored (h : ¬ (bits word 31 6 = 0 ∧ bits strb 3 0 = 0xF ∧ (s.ring (bits word 5 0)).enabled = true)) :
    exec (.bell req word strb) s = .next (({ s with setup := { s.setup with bellIgnored := satInc s.setup.bellIgnored } } : State).emit
      (.winWrite req .okay)) := by
  have hbad : (bits word 31 6 != 0 || bits strb 3 0 != 0xF || !(s.ring (bits word 5 0)).enabled) = true := by
    simpa [or_iff_not_imp_left] using h
  change execBell req word strb s = _
  simp [execBell, hreset, hbell, hshut, hincr, hatomic, hbad]

/-- A bell sets its ring's flag, which is served where it can be (R340, R342). -/
theorem exec_bell_received (hbits : bits word 31 6 = 0) (hstrb : bits strb 3 0 = 0xF) (henabled : (s.ring (bits word 5 0)).enabled = true) :
    exec (.bell req word strb) s = .next ((s.rung req (bits word 5 0)).serveBell (bits word 5 0)) := by
  change execBell req word strb s = _
  simp [execBell, hreset, hbell, hshut, hincr, hatomic, hbits, hstrb, henabled]
  rfl

end Bell

theorem ring_rung (req : WinReq) (h : r < s.rings.length) : (s.rung req r).ring r = { s.ring r with pending := true } :=
  ring_modRing (s := { s with setup := _ }) _ h

-- Waiting descriptors ------------------------------------------------------------------------------------------------

section Waiting
variable {h : Head} (hhead : (s.ring r).atHead = some h) (hwaiting : h.waiting = true)
include hhead hwaiting

/-- A waiting descriptor whose functions are ready is checked again (R352). -/
theorem exec_readyRecheck (hready : s.needsReady h.bytes = true) :
    exec (.readyRecheck r) s = .next (s.modRing r fun g => { g with
      atHead := some { h with status := s.check r h.bytes, waiting := false } }) := by
  change execReadyRecheck r s = _
  simp [execReadyRecheck, hhead, hwaiting, hready]

/-- One whose WAIT_LIMIT has passed is settled with NOT_READY (R353, R693). -/
theorem exec_notReadyTimeout (hlimit : (s.ring r).waitLimit ≠ 0) (hready : s.isReady 9 = true) :
    exec (.notReadyTimeout r) s = .next (s.modRing r fun g => { g with
      atHead := some { h with status := St.notReady, waiting := false, settled := true } }) := by
  change execNotReadyTimeout r s = _
  simp [execNotReadyTimeout, hhead, hwaiting, hlimit, hready]

end Waiting
end State

-- The statements -----------------------------------------------------------------------------------------------------

/-- Settles O23: a bell's flag waits or is served; any other write to the aperture is counted or refused. -/
theorem bellsSetFlagsAndAreCounted : Obligations.BellsSetFlagsAndAreCounted := by
  intro s req word strb hreset hbell hlen r valid answered received
  have hr : r < s.rings.length := hlen ▸ Nat.mod_lt _ (by decide)
  have hring := s.ring_rung req hr
  refine ⟨fun h => State.exec_bell_refused hreset hbell h,
    fun hshut hincr hatomic h => State.exec_bell_ignored hreset hbell hshut hincr hatomic h,
    fun hshut hincr hatomic ⟨hbits, hstrb, henabled⟩ hwait => ?_,
    fun hshut hincr hatomic ⟨hbits, hstrb, henabled⟩ hreading hready => ?_⟩
  · rw [State.exec_bell_received hreset hbell hshut hincr hatomic hbits hstrb henabled,
      State.serveBell_of_waiting (hwait.imp_left fun h => (congrArg Ring.reading hring).trans_ne h)]
    rfl
  · have hfenced : s.inc.fenced = false := (Bool.or_eq_false_iff.1 hshut).1
    rw [State.exec_bell_received hreset hbell hshut hincr hatomic hbits hstrb henabled,
      State.serveBell_of_pending (congrArg Ring.pending hring) ((congrArg Ring.enabled hring).trans henabled)
        ((congrArg Ring.reading hring).trans hreading) hready hfenced, State.askHead_eq, hring]
    refine congrArg _ (congrArg (fun l => ({ s with setup := _, out := _, rings := l } : State)) ?_)
    exact List.modify_modify_eq ..

/-- Settles O27: the two ends of a wait. -/
theorem waitingDescriptorsAreSettled : Obligations.WaitingDescriptorsAreSettled := fun _ _ _ hhead hwaiting =>
  ⟨State.exec_readyRecheck hhead hwaiting, State.exec_notReadyTimeout hhead hwaiting⟩

end Sys2Proof.Machine
end

section
/-!
Resets (R677, R679, R743): what a warm reset leaves of rings, clusters and staging, how the fence and a parked start end, and what the three
reset commands do where their occasion is there.
-/
namespace Sys2Proof.Machine
open Sys2Proof

namespace State
variable {s : State}

-- What a warm reset leaves -------------------------------------------------------------------------------------------

/-- Every ring is as at reset but for its setup fields. -/
theorem rings_warmDrop {g : Ring} (h : g ∈ s.warmDrop.rings) : g.status = .disabled ∧ g.arrived = [] ∧ g.atHead = none := by
  obtain ⟨x, -, rfl⟩ := List.mem_map.1 h
  exact ⟨rfl, rfl, rfl⟩

theorem ctl_warmDrop (s : State) : s.warmDrop.rings.map (·.ctl) = s.rings.map (·.ctl) := by
  simp [warmDrop]

/-- Lanes that have been replaced and clusters that have retired stay so (R655). -/
theorem spare_retired_warmDrop (s : State) :
    s.warmDrop.clusters.map (fun c => (c.spare, c.retired)) = s.clusters.map (fun c => (c.spare, c.retired)) := by
  simp [warmDrop]

/-- The resident region stands. -/
theorem stageByte_warmDrop_resident {a : Nat} (h : a < s.resident * 65536) : s.warmDrop.stageByte a = s.stageByte a :=
  (Memory.get_forget ..).trans (if_neg (by omega))

/-- The working region is forgotten. -/
theorem stageByte_warmDrop_working {a : Nat} (h : s.resident * 65536 ≤ a) (hsize : a < Memory.size) : s.warmDrop.stageByte a = none :=
  (Memory.get_forget ..).trans (if_pos (by omega))

-- The fence and the park ---------------------------------------------------------------------------------------------

theorem fenced_fence (s : State) : s.fence.inc.fenced = true := by
  unfold fence
  split
  · assumption
  · rfl

/-- An S4 that the log takes becomes the current recovery, and fences the block (R654, R668). -/
theorem fenced_activate {p : Nat} {e : IncEntry} (he : s.entry? p = some e) (hsev : e.sevFinal = 4) (img : Image) :
    (s.activate p img).inc.fenced = true := by
  have hentry : (s.modEntry p fun e => { e with state := 1 }).entry? p = some { e with state := 1 } := by
    have hlog : s.inc.log[p]? = some (some e) := Option.join_eq_some_iff.1 he
    simp [entry?, modEntry, hlog]
  have hcur : ((s.modEntry p fun e => { e with state := 1 }).modInc fun i => { i with cur := some p }).entry? p =
      some { e with state := 1 } := hentry
  simp only [activate, hcur, hsev]
  exact fenced_fence _

/-- With no recovery under way an S4 fences the block, whether the log has room or not (R654, R663). -/
theorem fenced_incident {f : Finding} {act : Nat} (hsev : severity s.resident f = 4) (hfenced : s.inc.fenced = false)
    (hcur : s.inc.cur = none) : (s.incident f act).inc.fenced = true := by
  have hhigh : (s.incidentHigh f 4 act).inc.fenced = true := by
    cases hpos : s.freePos with
    | none =>
      simp only [incidentHigh, hpos, hfenced]
      exact fenced_fence _
    | some p =>
      have hlt : p < s.inc.log.length := (List.findIdx?_eq_some_iff_findIdx_eq.1 hpos).1
      simp only [incidentHigh, hpos, hfenced, hcur]
      refine fenced_activate (e := s.newEntry f 4 act) ?_ rfl _
      simp [entry?, irqInc, bump, modInc, hlt]
  have hincident : s.incident f act = settleS2 f.mem 33 (s.incidentHigh f 4 act) := by
    simp [incident, hsev]
  rw [hincident]
  exact ((Keeps.refl _).settleS2 _ 33).fenced hhigh

theorem start_wr (s : State) (a : Nat) (b : List Byte) : (s.wr a b).start = s.start :=
  (congrArg State.start (wr_wrought s a b).frame :)

theorem start_wbWrite (s : State) (ty : Nat) (parts : List (List Byte)) (act : Act) : (s.wbWrite ty parts act).start = s.start :=
  (congrArg State.start (wbWrite_wrote s ty parts act).2 :)

/-- The end of a start changes its record, and of the start nothing else but that it is over (R691). -/
theorem start_endStart (s : State) :
    s.endStart.start = { s.start with active := false, rec' := BitVec.ofNat 512 (ofBytes s.startRecord) } := by
  unfold endStart
  extract_lets b s1 s2
  have hstart : s2.start = s1.start := by
    simp only [s2]
    split
    · exact start_wr ..
    · rfl
  split
  · exact (start_wbWrite ..).trans hstart
  · exact hstart

/-- A parked block has setup and debug alone ready (R680, R686). -/
theorem start_park (s : State) (n : Nat) : (s.park n).start.parked = true ∧ (s.park n).start.stuck = s.start.stuck ∧
    (s.park n).start.parkStep = BitVec.ofNat 8 n ∧ (s.park n).start.ready = 3 := by
  unfold park
  rw [start_endStart]
  exact ⟨rfl, rfl, rfl, rfl⟩

-- The commands -------------------------------------------------------------------------------------------------------

theorem exec_coldResetRelease (h : s.rst.cold = true) : exec .coldResetRelease s = .next s.coldReset.giveRxCredits :=
  if_pos h

/-- During a cold reset a warm one has no effect but its own assertion. -/
theorem exec_resetAssert_within_cold (h : s.rst.cold = true) : exec (.resetAssert false) s = .next { s with rst := ⟨true, true⟩ } :=
  if_pos h

theorem exec_resetAssert_warm (h : s.rst.cold = false) : exec (.resetAssert false) s = .next { s.warmDrop with rst := ⟨false, true⟩ } :=
  if_neg (by simp [h])

/-- The block right after a warm reset is released, its start begun (R676, R679). -/
def released (s : State) : State := ({ s.warmDrop with rst := ⟨false, false⟩ } : State).giveRxCredits.beginStart true

section Release
variable (hcold : s.rst.cold = false) (hwarm : s.rst.warm = true)
include hcold hwarm

/-- A warm reset is released, with its retention intact. -/
theorem exec_warmResetRelease_intact (hstuck : s.start.stuck = false) : exec (.warmResetRelease none) s = .next s.released := by
  change execWarmResetRelease none s = _
  simp [execWarmResetRelease, hcold, hwarm, hstuck, released]

/-- One whose retention has failed its check is an S4, and parks (R680). -/
theorem exec_warmResetRelease_bad (n : Nat) : exec (.warmResetRelease (some n)) s =
    .next (((s.released.incident (finding Src.retention n 0 0) 6).modStart fun t => { t with stuck := true }).park 0xFF) := by
  change execWarmResetRelease (some n) s = _
  simp [execWarmResetRelease, hcold, hwarm, released]

end Release
end State

-- The statement ------------------------------------------------------------------------------------------------------

/-- Settles O57: a cold reset is the reset state, a warm one `warmDrop`; the releases begin a start, and a bad retention record is an S4. -/
theorem resetsKeepAndDrop : Obligations.ResetsKeepAndDrop := by
  intro s cold pulses
  refine ⟨rfl, fun h => State.exec_coldResetRelease h, fun h => State.exec_resetAssert_within_cold h, ?_⟩
  intro dropped
  have hdropped : ∀ (rst : Rst) (start : StartSt) (out : List Out), start.ready = 3 →
      dropped { s.warmDrop with rst := rst, start := start, out := out } := fun _ _ _ hready =>
    ⟨rfl, rfl, rfl, rfl, rfl, rfl, rfl, rfl, rfl, rfl, rfl, rfl, s.spare_retired_warmDrop, rfl, rfl, rfl, rfl, rfl, rfl, rfl,
      fun _ hg => State.rings_warmDrop hg, s.ctl_warmDrop, hready, fun _ ha => State.stageByte_warmDrop_resident ha,
      fun _ ha hsize => State.stageByte_warmDrop_working ha hsize⟩
  refine ⟨fun hcold => ⟨_, State.exec_resetAssert_warm hcold, hdropped _ _ _ rfl, rfl, rfl⟩, fun hcold hwarm => ⟨fun hstuck => ?_, fun n => ?_⟩⟩
  · exact ⟨_, State.exec_warmResetRelease_intact hcold hwarm hstuck, hdropped _ _ _ rfl, rfl, rfl, rfl, rfl, rfl, rfl⟩
  · obtain ⟨hparked, hstuck, hstep, hready⟩ :=
      ((s.released.incident (finding Src.retention n 0 0) 6).modStart fun t => { t with stuck := true }).start_park 0xFF
    have hfenced : (s.released.incident (finding Src.retention n 0 0) 6).inc.fenced = true := State.fenced_incident rfl rfl rfl
    exact ⟨_, State.exec_warmResetRelease_bad hcold hwarm n, hparked, hstuck, hstep, hready,
      ((Keeps.refl _).modStart.park).fenced hfenced⟩

end Sys2Proof.Machine
end

section
/-!
Head records (R331, R332, R335, R337): the bytes of the block's half, what its write and the reads of new descriptors do, and what an update
of a ring comes to.
-/
namespace Sys2Proof.Machine
open Sys2Proof

-- Bytes of a record --------------------------------------------------------------------------------------------------

@[simp] theorem length_toBytes (n x : Nat) : (toBytes n x).length = n := by
  induction n generalizing x with
  | zero => rfl
  | succ n ih => simp [toBytes, ih]

/-- A number is read back from the bytes that spell it (R4). -/
theorem ofBytes_toBytes {n x : Nat} (h : x < 256 ^ n) : ofBytes (toBytes n x) = x := by
  induction n generalizing x with
  | zero => exact (Nat.lt_one_iff.1 h).symm
  | succ n ih =>
    have hrest := ih (x := x / 256) (Nat.div_lt_of_lt_mul (by rwa [Nat.pow_succ, Nat.mul_comm] at h))
    simp only [toBytes, ofBytes, hrest, BitVec.toNat_ofNat]
    omega

/-- A field of a record is what its bytes spell. -/
theorem field_append {pre post : List Byte} {o n x : Nat} (ho : pre.length = o) (h : x < 256 ^ n) :
    field (pre ++ (toBytes n x ++ post)) o n = x := by
  subst ho
  simp [field, ofBytes_toBytes h]

namespace State
variable {s : State} {r : Nat}

/-- Bytes 35 to 32 of a head record: ACCEPT_IDX (R331). -/
theorem field_headHalf_acceptIdx (s : State) (r : Nat) : field (s.headHalf r) 0 4 = (s.acceptIdx r).toNat := by
  simp only [headHalf, List.append_assoc]
  exact field_append (pre := []) rfl (s.acceptIdx r).isLt

/-- Bytes 39 to 36: DONE_IDX. -/
theorem field_headHalf_done (s : State) (r : Nat) : field (s.headHalf r) 4 4 = (s.ring r).done.toNat := by
  simp only [headHalf, List.append_assoc]
  exact field_append (by simp) (s.ring r).done.isLt

/-- Bytes 41 and 40: RING_STATUS. -/
theorem field_headHalf_status (s : State) (r : Nat) : field (s.headHalf r) 8 2 = (s.ring r).status.code := by
  have hlt : (s.ring r).status.code < 256 ^ 2 := by cases (s.ring r).status <;> decide
  simp only [headHalf, List.append_assoc]
  rw [← List.append_assoc]
  exact field_append (by simp) hlt

-- Writes and reads ---------------------------------------------------------------------------------------------------

/-- The block's half is written where the ring's indices are known (R332, R337). -/
theorem writeHead_of_unfenced (hfenced : s.inc.fenced = false) :
    s.writeHead r = if (s.ring r).known then s.wr ((s.ring r).head.toNat + 32) (s.headHalf r) else s := by
  cases hknown : (s.ring r).known <;> simp [writeHead, hfenced, hknown]

/-- Its write changes nothing but what it stores and what leaves. -/
theorem writeHead_frame (s : State) (r : Nat) : s.writeHead r = { s with
    staging := (s.writeHead r).staging, ue := (s.writeHead r).ue, out := (s.writeHead r).out } := by
  unfold writeHead
  split
  · rfl
  · exact (wr_wrought ..).frame

theorem ring_writeHead (s : State) (q r : Nat) : (s.writeHead q).ring r = s.ring r :=
  (congrArg (fun t => State.ring t r) (writeHead_frame s q) :)

/-- Reads leave one after the other. -/
theorem foldl_ask (f : Nat → Nat) (l : List Nat) (s : State) :
    l.foldl (fun s k => s.ask (f k)) s = { s with out := s.out ++ l.flatMap fun k => s.asks (f k) } := by
  induction l generalizing s with
  | nil => simp
  | cons k l ih =>
    rw [List.foldl_cons, ih, ask_eq]
    simp only [List.flatMap_cons, ← List.append_assoc]
    rfl

-- Updates of a ring --------------------------------------------------------------------------------------------------

/-- An update of a ring is what it does to that ring. -/
theorem modRing_congr {f k : Ring → Ring} (h : f (s.ring r) = k (s.ring r)) (hr : r < s.rings.length) : s.modRing r f = s.modRing r k := by
  have hget : s.ring r = s.rings[r] := by simp [ring, List.getD_eq_getElem?_getD, hr]
  rw [hget] at h
  simp only [modRing, List.modify_eq_take_cons_drop hr, h]

/-- With no open group there is none to end (R497). -/
theorem endOpenGroup_of_none (h : s.openGroup r = none) : s.endOpenGroup r = s := by
  simp only [endOpenGroup, h]

end State
end Sys2Proof.Machine
end

section
/-!
Rings that start and stop (R337, R338): a write to DX_RING_CTL, and what `enableRing` and `disableRing` come to in each of their cases.
-/
namespace Sys2Proof.Machine
open Sys2Proof

/-- A ring as ENABLE finds it: nothing of it is known but what firmware has set. -/
def Ring.fresh (g : Ring) : Ring := { g with halted := false, resume := .running, known := false, arrived := [], atHead := none }

/-- A ring as the end of ENABLE leaves it: what it has fetched is dropped, and a read that serves no recovery with it (R338). -/
def Ring.stopped (ready : Bool) (g : Ring) : Ring := { g with
  arrived := [], atHead := none, reading := if g.reading = some .recovery then g.reading else none, resume := .running,
  status := if g.status = .disabled ∧ ready = false then .running else g.status }

/-- ENABLE in the value that DX_RING_CTL takes (R328). -/
theorem getLsbD_ringCtl (d : Nat) : (BitVec.ofNat 32 (d &&& 0xFFFF0F03)).getLsbD 0 = bit d 0 := by
  rw [BitVec.getLsbD_ofNat, Nat.testBit_and]
  simp [bit]

namespace State
variable {s : State} {r d : Nat}

-- DX_RING_CTL --------------------------------------------------------------------------------------------------------

/-- DX_RING_CTL of each ring is one word wide (R776). -/
theorem regAt_ringCtl : ∀ r < 64, regAt (0x2000 + 32 * r) = some (0x2000 + 32 * r, 1) := by decide +kernel

theorem writeReg_ringCtl (h : r < 64) : s.writeReg (0x2000 + 32 * r) d = s.writeRingCtl r d := by
  have hnumber : (0x2000 + 32 * r - 0x2000) / 32 = r := by omega
  have hplace : (0x2000 + 32 * r) % 32 = 0 := by omega
  unfold writeReg writeRings
  rw [if_neg (by omega), if_neg (by omega), if_neg (by omega), if_neg (by omega), if_pos (by omega), hnumber]
  simp only [hplace]

/-- A write to a ring's control register that the register takes. -/
theorem setupWrite_ringCtl {t : State} (hreset : s.inReset = false) (hr : r < 64) (hw : s.writeRingCtl r d = .ok t) :
    s.setupWrite .apb (0x2000 + 32 * r) d 0xF = t.respond .apb 0 false :=
  setupWrite_of_ok hreset (by omega) (regAt_ringCtl r hr) rfl (by rw [heldData_one, writeReg_ringCtl hr, hw])

/-- The ring whose control register has been written. -/
def withCtl (s : State) (r d : Nat) : State := s.modRing r fun g => { g with ctl := BitVec.ofNat 32 (d &&& 0xFFFF0F03) }

/-- ENABLE set on a ring that has its addresses and a legal size (R328, R337). -/
theorem writeRingCtl_enable (hoff : (s.ring r).enabled = false) (hset : bit d 0 = true) (hsize : bits d 11 8 ≤ 12)
    (hbase : (s.ring r).base ≠ 0) (hhead : (s.ring r).head ≠ 0) (hcpl : (s.ring r).cpl ≠ 0) :
    s.writeRingCtl r d = .ok ((s.withCtl r d).enableRing r) := by
  have hfields : Wr.iFields (s.ring r).enabled (decide (0xC < bits d 11 8)) 0xF00 (s.ring r).ctl.toNat d = none := by
    rw [hoff, decide_eq_false (by omega)]
    exact Wr.iFields_quiet ..
  have haddrs : ((s.ring r).base == 0 || (s.ring r).head == 0 || (s.ring r).cpl == 0) = false := by
    simpa only [Bool.or_eq_false_iff, beq_eq_false_iff_ne, and_assoc] using ⟨hbase, hhead, hcpl⟩
  simp only [writeRingCtl, hfields, haddrs]
  simp [hoff, hset, withCtl]

/-- ENABLE cleared, with the size as it stands (R338, R777). -/
theorem writeRingCtl_disable (hon : (s.ring r).enabled = true) (hclear : bit d 0 = false)
    (hsize : (s.ring r).ctl.toNat &&& 0xF00 = d &&& 0xF00) : s.writeRingCtl r d = .ok ((s.withCtl r d).disableRing r) := by
  simp [writeRingCtl, Wr.iFields_same hsize, hon, hclear, withCtl]

-- ENABLE set ---------------------------------------------------------------------------------------------------------

/-- Does a ring owe a replay (R637)? -/
def owesReplay (s : State) (r : Nat) : Bool := s.groups.any (fun g => g.ring == r && g.replay && g.ended && !g.published)

/-- A ring that owes a replay is in REPLAY (R637). -/
theorem enableRing_owing (h : s.owesReplay r = true) : s.enableRing r = s.modRing r fun g => { g with
    halted := false, resume := .running, status := .replay, arrived := [], atHead := none } := by
  unfold owesReplay at h
  simp [enableRing, h]

/-- One that owes none reads its head record at once where the waybook is ready (R337). -/
theorem enableRing_ready (h : s.owesReplay r = false) (hready : s.isReady 9 = true) (hfenced : s.inc.fenced = false) :
    s.enableRing r = (s.modRing r Ring.fresh).askHead r .enable := by
  have hnow : (s.isReady 9 && !s.inc.fenced) = true := by simp [hready, hfenced]
  unfold owesReplay at h
  simp only [enableRing, h, Bool.and_false, Bool.false_eq_true, if_false]
  exact if_pos hnow

/-- And else once it is: it shows DISABLED until then (R693). -/
theorem enableRing_waiting (h : s.owesReplay r = false) (hwait : s.isReady 9 = false ∨ s.inc.fenced = true) :
    s.enableRing r = (s.modRing r Ring.fresh).modRing r fun g => { g with
      pending := true, reading := none, rebuilt := false, status := .disabled } := by
  have hnow : ¬ (s.isReady 9 && !s.inc.fenced) = true := by rcases hwait with h | h <;> simp [h]
  unfold owesReplay at h
  simp only [enableRing, h, Bool.and_false, Bool.false_eq_true, if_false]
  exact if_neg hnow

-- ENABLE cleared -----------------------------------------------------------------------------------------------------

theorem disableRing_eq (hopen : s.openGroup r = none) : s.disableRing r = (s.modRing r (Ring.stopped (s.isReady 9))).settleRing r := by
  have hnone : (s.modRing r (Ring.stopped (s.isReady 9))).openGroup r = none := hopen
  rw [← endOpenGroup_of_none hnone]
  simp only [disableRing, Ring.stopped.eq_unfold, beq_iff_eq, Bool.and_eq_true, Bool.not_eq_true']

/-- A ring with a descriptor under way, or without known indices, does not show DISABLED yet (R338). -/
theorem settleRing_of_waiting (h : s.groups.any (fun g => g.ring == r) = true ∨ (s.ring r).known = false) : s.settleRing r = s := by
  rcases h with h | h <;> simp [settleRing, h]

/-- An idle one does (R338). -/
theorem settleRing_of_idle (hoff : (s.ring r).enabled = false) (hknown : (s.ring r).known = true) (hdisabled : (s.ring r).status ≠ .disabled)
    (hreplay : (s.ring r).status ≠ .replay) (hgroups : s.groups.any (fun g => g.ring == r) = false) :
    s.settleRing r = (s.modRing r fun g => { g with status := .disabled }).writeHead r := by
  simp [settleRing, hoff, hknown, hdisabled, hreplay, hgroups]

end State

-- The statement ------------------------------------------------------------------------------------------------------

/-- Settles O18: the three ways of a ring that starts, and the two of one that stops. -/
theorem ringsStartAndStop : Obligations.RingsStartAndStop := by
  intro s ring data hreset hring hlen ctl
  have hr : ring < s.rings.length := hlen ▸ hring
  have hwritten : (s.withCtl ring data).ring ring = { s.ring ring with ctl := ctl } := State.ring_modRing _ hr
  constructor
  · intro hoff hset hsize hbase hhead hcpl
    have hwrite := State.writeRingCtl_enable hoff hset hsize hbase hhead hcpl
    have hexec : exec (.ringEnable ring data) s = .next (((s.withCtl ring data).enableRing ring).respond .apb 0 false) :=
      congrArg _ (State.setupWrite_ringCtl hreset hring hwrite)
    refine ⟨fun howes => ⟨fun hready hfenced => ?_, fun hwait => ?_⟩, fun howes => ?_⟩
    · have henable := State.enableRing_ready (s := s.withCtl ring data) (r := ring) howes hready hfenced
      rw [hexec, henable, State.askHead_eq, State.ring_modRing _ (by simpa [State.withCtl] using hr), hwritten]
      refine congrArg _ (congrArg (fun t => State.respond t .apb 0 false) ?_)
      exact congrArg (fun l => ({ s with rings := l, out := _ } : State)) ((List.modify_modify_eq ..).trans (List.modify_modify_eq ..))
    · have henable := State.enableRing_waiting (s := s.withCtl ring data) (r := ring) howes hwait
      rw [hexec, henable, State.withCtl, State.modRing_modRing, State.modRing_modRing]
      rfl
    · have henable := State.enableRing_owing (s := s.withCtl ring data) (r := ring) howes
      rw [hexec, henable, State.withCtl, State.modRing_modRing]
      rfl
  · intro hon hclear hsize hopen off
    have hdisable := State.disableRing_eq (s := s.withCtl ring data) (r := ring) hopen
    have hexec : exec (.ringDisable ring data) s = .next (((s.modRing ring off).settleRing ring).respond .apb 0 false) := by
      rw [State.withCtl, State.modRing_modRing, ← State.withCtl] at hdisable
      exact (congrArg _ (State.setupWrite_ringCtl hreset hring (State.writeRingCtl_disable hon hclear hsize))).trans
        (congrArg (fun t => Host.Outcome.next (State.respond t .apb 0 false)) hdisable)
    have hoff : (s.modRing ring off).ring ring = off (s.ring ring) := State.ring_modRing off hr
    rw [hexec]
    refine ⟨fun hwait => ?_, fun hgroups hknown hdisabled hreplay hfenced => ?_⟩
    · rw [State.settleRing_of_waiting (s := s.modRing ring off) (hwait.imp_right fun h => (congrArg Ring.known hoff).trans h)]
      rfl
    · have hstatus : ((s.modRing ring off).ring ring).status = (s.ring ring).status := by
        rw [hoff]
        exact if_neg fun h => hdisabled h.1
      have hclosed : ((s.modRing ring off).ring ring).enabled = false :=
        (congrArg Ring.enabled hoff).trans ((getLsbD_ringCtl data).trans hclear)
      rw [State.settleRing_of_idle hclosed ((congrArg Ring.known hoff).trans hknown) (hstatus.trans_ne hdisabled)
        (hstatus.trans_ne hreplay) hgroups, State.modRing_modRing]
      intro u
      have hu : u.ring ring = _ := State.ring_modRing (fun g => { off g with status := .disabled }) hr
      refine ⟨?_, ?_⟩
      · have hshown : u.writeHead ring = u.wr ((s.ring ring).head.toNat + 32) (u.headHalf ring) := by
          rw [State.writeHead_of_unfenced (s := u) hfenced, hu]
          exact if_pos hknown
        exact congrArg (fun t => Host.Outcome.next (State.respond t .apb 0 false)) hshown
      · rw [State.field_headHalf_status, hu]
        rfl

end Sys2Proof.Machine
end

section
/-!
Head records as they arrive (R335, R337, R342, R343 step 1): what a PROD_IDX shows, and a ring that is enabled.
-/
namespace Sys2Proof.Machine
open Sys2Proof

/-- A ring whose read is over. -/
def Ring.readDone (g : Ring) : Ring := { g with reading := none }

/-- A ring that has overrun: it has halted, and what it had fetched is dropped (R335). -/
def Ring.overrun (g : Ring) : Ring := { g with halted := true, status := .overrun, resume := .overrun, arrived := [], atHead := none }

/-- A ring that has seen a PROD_IDX, `want` beyond its ACCEPT_IDX where it had fetched `had`. -/
def Ring.seen (had want : Nat) (p : BitVec 32) (g : Ring) : Ring := { g with prod := if had < want then p else g.prod }

/-- A ring whose enabling has read its head record: the record's indices are its own, and what it has fetched ends at `p` (R337). -/
def Ring.started (b : List Byte) (p : BitVec 32) (g : Ring) : Ring := { g with
  reading := none, next := BitVec.ofNat 32 (field b 32 4), prod := p, done := BitVec.ofNat 32 (field b 36 4), known := true,
  lastSeq := if g.seqKnown then g.lastSeq else field b 48 8, seqKnown := true, rebuilt := false, status := .running, halted := false }

/-- Such a ring has fetched nothing, and then takes any PROD_IDX. -/
theorem Ring.seen_started (b : List Byte) (p : BitVec 32) : Ring.seen 0 (p - BitVec.ofNat 32 (field b 32 4)).toNat p ∘
    Ring.started b (BitVec.ofNat 32 (field b 32 4)) = Ring.started b p := by
  generalize hacc : BitVec.ofNat 32 (field b 32 4) = acc
  funext g
  by_cases hsame : p = acc
  · simp [Ring.seen, Ring.started, hsame]
  · have hpos : 0 < (p - acc).toNat := BitVec.toNat_pos_of_ne_zero (sub_ne_zero.2 hsame)
    simp only [Function.comp, Ring.seen, Ring.started, if_pos hpos]

namespace State
variable {s : State} {r : Nat} {prod : BitVec 32}

/-- A PROD_IDX within the ring: it is taken where it lies beyond what has been fetched, and the new descriptors are asked for (R343). -/
theorem seeProd_within {g : Ring} {base : BitVec 32} {had want : Nat} (hr : r < s.rings.length) (hg : s.ring r = g)
    (hbase : s.acceptIdx r = base) (hhad : (g.prod - base).toNat = had) (hwant : (prod - base).toNat = want)
    (htaking : g.taking = true) (hfits : want ≤ g.slots) :
    s.seeProd r prod = { s with
      rings := s.rings.modify r (Ring.seen had want prod),
      out := s.out ++ (List.range (want - had)).flatMap fun k => s.asks (g.descAddr (g.prod + BitVec.ofNat 32 k)) } := by
  subst hg hbase hhad hwant
  have hring : (s.modRing r fun x => { x with
      prod := if (x.prod - s.acceptIdx r).toNat < (prod - s.acceptIdx r).toNat then prod else x.prod }) =
      s.modRing r (Ring.seen ((s.ring r).prod - s.acceptIdx r).toNat (prod - s.acceptIdx r).toNat prod) := modRing_congr rfl hr
  simp only [seeProd, htaking, Bool.not_true, Bool.false_eq_true, if_false, if_neg (Nat.not_lt.2 hfits)]
  exact (congrArg (fun t => List.foldl _ t _) hring).trans (foldl_ask ..)

/-- A PROD_IDX beyond the ring's size takes nothing: with no open group the ring halts, and shows OVERRUN (R335). -/
theorem seeProd_beyond {g : Ring} {base : BitVec 32} (hg : s.ring r = g) (hbase : s.acceptIdx r = base) (htaking : g.taking = true)
    (hopen : s.openGroup r = none) (hbeyond : g.slots < (prod - base).toNat) :
    s.seeProd r prod = (s.modRing r Ring.overrun).writeHead r := by
  subst hg hbase
  simp only [seeProd, htaking, Bool.not_true, Bool.false_eq_true, if_false, if_pos hbeyond]
  exact congrArg (State.writeHead · r) (endOpenGroup_of_none (s := s.modRing r Ring.overrun) hopen)

/-- A ring whose members all have their waymarks reported accepts next what it takes next (R331). -/
theorem acceptIdx_of_taken (h : s.untaken r = []) : s.acceptIdx r = (s.ring r).next := by
  simp [acceptIdx, h]

/-- The end of a read leaves ACCEPT_IDX. -/
theorem acceptIdx_readDone (hr : r < s.rings.length) : (s.modRing r Ring.readDone).acceptIdx r = s.acceptIdx r := by
  have huntaken : (s.modRing r Ring.readDone).untaken r = s.untaken r := rfl
  rw [acceptIdx, acceptIdx, huntaken, ring_modRing _ hr]
  rfl

-- The command --------------------------------------------------------------------------------------------------------

/-- The 64 bytes of a ring's head record, those of the resident range from staging (R40). -/
def headBytes (s : State) (r : Nat) (data : List Byte) : List Byte := s.rd [⟨(s.ring r).head.toNat, data⟩] (s.ring r).head.toNat 64

section Arrives
variable {data b : List Byte} (hfenced : s.inc.fenced = false) (hb : s.headBytes r data = b)
include hfenced hb

/-- A head record that a bell asked for. -/
theorem exec_headRecordData_bell (hreading : (s.ring r).reading = some .bell) : exec (.headRecordData r .okay data) s =
    .next (((s.modRing r Ring.readDone).seeProd r (BitVec.ofNat 32 (field b 0 4))).serveBell r) := by
  subst hb
  change execHeadRecordData r .okay data s = _
  simp only [execHeadRecordData, hreading, hfenced]
  rfl

/-- A head record that an enabling asked for. -/
theorem exec_headRecordData_enable (hreading : (s.ring r).reading = some .enable) : exec (.headRecordData r .okay data) s =
    .next ((((s.modRing r (Ring.started b (BitVec.ofNat 32 (field b 32 4)))).writeHead r).seeProd r
      (BitVec.ofNat 32 (field b 0 4))).serveBell r) := by
  subst hb
  change execHeadRecordData r .okay data s = _
  simp only [execHeadRecordData, hreading, hfenced, Bool.false_eq_true, if_false, bne_self_eq_false]
  rw [modRing_modRing]
  rfl

variable (hr : r < s.rings.length) (hpending : (s.ring r).pending = false)
include hr hpending

/-- A bell's head record within the ring. -/
theorem exec_headRecordData_within {base : BitVec 32} {had want : Nat} (hreading : (s.ring r).reading = some .bell)
    (htaking : (s.ring r).taking = true) (hbase : s.acceptIdx r = base) (hhad : ((s.ring r).prod - base).toNat = had)
    (hwant : (BitVec.ofNat 32 (field b 0 4) - base).toNat = want) (hfits : want ≤ (s.ring r).slots) :
    exec (.headRecordData r .okay data) s = .next { s with
      rings := s.rings.modify r (Ring.seen had want (BitVec.ofNat 32 (field b 0 4)) ∘ Ring.readDone),
      out := s.out ++ (List.range (want - had)).flatMap fun k =>
        s.asks ((s.ring r).descAddr ((s.ring r).prod + BitVec.ofNat 32 k)) } := by
  have hsee := seeProd_within (s := s.modRing r Ring.readDone) (by simpa using hr) (ring_modRing _ hr)
    ((acceptIdx_readDone hr).trans hbase) hhad hwant htaking hfits
  have hkept := ring_modRing (Ring.seen had want (BitVec.ofNat 32 (field b 0 4)) ∘ Ring.readDone) hr
  have hrings := List.modify_modify_eq Ring.readDone (Ring.seen had want (BitVec.ofNat 32 (field b 0 4))) r s.rings
  simp only [modRing_fields, hrings] at hsee
  rw [exec_headRecordData_bell hfenced hb hreading, hsee]
  exact congrArg _ (serveBell_of_not_pending ((congrArg Ring.pending hkept).trans hpending))

/-- A bell's head record beyond the ring. -/
theorem exec_headRecordData_beyond (hreading : (s.ring r).reading = some .bell) (htaking : (s.ring r).taking = true)
    (hopen : s.openGroup r = none) (hbeyond : (s.ring r).slots < (BitVec.ofNat 32 (field b 0 4) - s.acceptIdx r).toNat) :
    exec (.headRecordData r .okay data) s = .next ((s.modRing r (Ring.overrun ∘ Ring.readDone)).writeHead r) := by
  have hkept := ring_modRing (Ring.overrun ∘ Ring.readDone) hr
  rw [exec_headRecordData_bell hfenced hb hreading, seeProd_beyond (ring_modRing _ hr) (acceptIdx_readDone hr) htaking hopen
    hbeyond, modRing_modRing, serveBell_of_not_pending]
  rw [ring_writeHead, hkept]
  exact hpending

/-- The head record of an enabling, within the ring: the ring runs and shows it, and then is served as after a bell. -/
theorem exec_headRecordData_started {acc prod : BitVec 32} (hacc : BitVec.ofNat 32 (field b 32 4) = acc)
    (hprod : BitVec.ofNat 32 (field b 0 4) = prod) (hreading : (s.ring r).reading = some .enable) (henabled : (s.ring r).enabled = true)
    (huntaken : s.untaken r = []) (hfits : (prod - acc).toNat ≤ (s.ring r).slots) :
    let v := (s.modRing r (Ring.started b acc)).writeHead r
    exec (.headRecordData r .okay data) s = .next { v with
      rings := s.rings.modify r (Ring.started b prod),
      out := v.out ++ (List.range (prod - acc).toNat).flatMap fun k => s.asks ((s.ring r).descAddr (acc + BitVec.ofNat 32 k)) } := by
  intro v
  have hring := ring_modRing (Ring.started b acc) hr
  have hv : v = { s with rings := s.rings.modify r (Ring.started b acc), staging := v.staging, ue := v.ue, out := v.out } :=
    writeHead_frame ..
  have hvring : v.ring r = Ring.started b acc (s.ring r) := (ring_writeHead ..).trans hring
  have haccept : v.acceptIdx r = acc := by
    have huntaken' : v.untaken r = [] := (congrArg (State.untaken · r) hv).trans huntaken
    rw [acceptIdx_of_taken huntaken', hvring]
    exact hacc
  have htaking : (Ring.started b acc (s.ring r)).taking = true := by
    have henabled' : (Ring.started b acc (s.ring r)).enabled = true := henabled
    rw [Ring.taking, henabled']
    rfl
  have hzero : ((Ring.started b acc (s.ring r)).prod - acc).toNat = 0 := by simp [Ring.started]
  have hsee := seeProd_within (by rw [hv]; simpa using hr) hvring haccept hzero rfl htaking hfits
  have hrings : v.rings.modify r (Ring.seen 0 (prod - acc).toNat prod) = s.rings.modify r (Ring.started b prod) := by
    have hseen := Ring.seen_started b prod
    rw [hacc] at hseen
    rw [hv, ← hseen]
    exact List.modify_modify_eq ..
  have hasks : ∀ a, v.asks a = s.asks a := fun a => (congrArg (State.asks · a) hv :)
  simp only [hrings, hasks, Nat.sub_zero] at hsee
  have hkept := ring_modRing (Ring.started b prod) hr
  rw [exec_headRecordData_enable hfenced hb hreading, hacc, hprod, hsee]
  exact congrArg _ (serveBell_of_not_pending ((congrArg Ring.pending hkept).trans hpending))

end Arrives
end State

-- The statement ------------------------------------------------------------------------------------------------------

/-- Settles O24: a bell's head record within the ring and beyond it, and that of an enabling. -/
theorem headRecordIsTaken : Obligations.HeadRecordIsTaken := by
  intro s ring data hring hlen hfenced hpending henabled g bs prod base had want
  have hr : ring < s.rings.length := hlen ▸ hring
  refine ⟨fun hreading htaking hfits => State.exec_headRecordData_within hfenced rfl hr hpending hreading htaking rfl rfl rfl hfits,
    fun hreading htaking hbeyond hopen => ?_, fun hreading huntaken => ?_⟩
  · intro u
    have hring' : u.ring ring = (Ring.overrun ∘ Ring.readDone) g := State.ring_modRing _ hr
    have hhead := State.writeHead_of_unfenced (s := u) (r := ring) hfenced
    rw [hring'] at hhead
    exact ⟨(State.exec_headRecordData_beyond hfenced rfl hr hpending hreading htaking hopen hbeyond).trans (congrArg _ hhead),
      by rw [State.field_headHalf_status, hring']; rfl⟩
  · intro acc hfits taken u v
    have hring' : u.ring ring = Ring.started bs acc g := State.ring_modRing _ hr
    have haccept : u.acceptIdx ring = acc := (State.acceptIdx_of_taken (s := u) huntaken).trans (congrArg Ring.next hring')
    have hhead := State.writeHead_of_unfenced (s := u) (r := ring) hfenced
    rw [hring'] at hhead
    have hexec := State.exec_headRecordData_started hfenced rfl hr hpending rfl rfl hreading henabled huntaken hfits
    refine ⟨hexec.trans (congrArg _ ?_), by rw [State.field_headHalf_status, hring']; rfl, by rw [State.field_headHalf_acceptIdx, haccept]⟩
    exact congrArg (fun v : State => { v with
      rings := s.rings.modify ring (Ring.started bs prod),
      out := v.out ++ (List.range (prod - acc).toNat).flatMap fun k => s.asks (g.descAddr (acc + BitVec.ofNat 32 k)) }) hhead

end Sys2Proof.Machine
end

section
/-!
Mileposts whose write responses have returned (R338, R362, R363, R489), for a descriptor alone in its block.
-/
namespace Sys2Proof.Machine
open Sys2Proof

/-- A member whose milepost's response has returned. -/
def Member.returned (m : Member) : Member := { m with respReturned := true }

/-- A ring whose next descriptor is done (R362). -/
def Ring.doneNext (g : Ring) : Ring := { g with done := g.done + 1 }

namespace State
variable {s : State} {g : Group} {m : Member}

/-- The state once a milepost's response has returned, and the interrupt has been asked for where it is wanted (R362, R363). -/
def milepostBack (s : State) (m : Member) : State :=
  { s.modMember m.seq Member.returned with
    setup := { s.setup with irqDone := if m.bytes.irq && (s.ring m.ring).irqEn then s.setup.irqDone ||| (1#64 <<< m.ring) else s.setup.irqDone } }

/-- DONE_IDX passes one milepost whose response has returned (R362). -/
theorem advanceDone_one {r : Nat} (h : s.groups.any (fun q => q.ring == r && q.posted && q.members.any (fun m =>
    m.idx == (s.ring r).done && m.respReturned)) = true) : s.advanceDone 1 r = s.modRing r Ring.doneNext := by
  simp only [advanceDone, h, if_true]
  rfl

/-- A group of one, posted and returned, that DONE_IDX has passed leaves the block (R489). -/
theorem removeDone_of_only {r : Nat} (h : s.only g m) (hring : g.ring = r) (hposted : g.posted = true) (hback : m.respReturned = true)
    (hpast : (s.ring r).done = m.idx + 1) : s.removeDone r = { s with groups := [] } := by
  obtain ⟨hs, hg⟩ := h
  have hnext : ((s.ring r).done - m.idx).toNat = 1 := by rw [hpast, add_sub_cancel_left]; rfl
  simp [removeDone, hs, hg, hring, hposted, hback, hnext, -BitVec.toNat_sub]

/-- An enabled ring does not become DISABLED (R338). -/
theorem settleRing_of_enabled {r : Nat} (h : (s.ring r).enabled = true) : s.settleRing r = s := by
  simp [settleRing, h]

/-- The response of a milepost that is the next of its ring: DONE_IDX passes it, and its group leaves. -/
theorem exec_milepostWriteResponse (h : s.only g m) (hring : g.ring = m.ring) (hposted : g.posted = true) (hback : m.respReturned = false)
    (hr : m.ring < s.rings.length) (hidx : m.idx = (s.ring m.ring).done) (henabled : (s.ring m.ring).enabled = true)
    (hfenced : s.inc.fenced = false) (mem : Image) :
    exec (.milepostWriteResponse m.seq .okay mem) s =
      .next { ((s.milepostBack m).modRing m.ring Ring.doneNext).writeHead m.ring with groups := [] } := by
  have hone : (s.milepostBack m).only { g with members := [m.returned] } m.returned := only_modMember h Member.returned
  have hsum : ((s.milepostBack m).groups.map fun q => q.members.length).sum = 1 := by simp [hone.1]
  have hback' : (if m.bytes.irq && (s.ring m.ring).irqEn then { s.modMember m.seq Member.returned with
      setup := { s.setup with irqDone := s.setup.irqDone ||| (1#64 <<< m.ring) } } else s.modMember m.seq Member.returned) =
      s.milepostBack m := by
    unfold milepostBack
    split <;> rfl
  have hnext : (s.milepostBack m).advanceDone 1 m.ring = (s.milepostBack m).modRing m.ring Ring.doneNext := by
    refine advanceDone_one ?_
    have hsame : (s.milepostBack m).ring m.ring = s.ring m.ring := rfl
    simp [hone.1, hring, hposted, hsame, ← hidx, Member.returned]
  have hdone : ((s.milepostBack m).modRing m.ring Ring.doneNext).ring m.ring = Ring.doneNext (s.ring m.ring) :=
    ring_modRing (s := s.milepostBack m) _ hr
  generalize hw : ((s.milepostBack m).modRing m.ring Ring.doneNext).writeHead m.ring = w
  have hmoved : ((Ring.doneNext (s.ring m.ring)).done != (s.ring m.ring).done) = true := by simp [Ring.doneNext]
  have honly : w.only { g with members := [m.returned] } m.returned := by
    have hgroups : w.groups = (s.milepostBack m).groups := by rw [← hw, writeHead_frame]; rfl
    exact ⟨hgroups.trans hone.1, rfl⟩
  have hwring : w.ring m.ring = Ring.doneNext (s.ring m.ring) := by rw [← hw, ring_writeHead, hdone]
  have hgone := removeDone_of_only honly hring hposted rfl ((congrArg Ring.done hwring).trans (congrArg (· + 1) hidx.symm))
  change execMilepostWriteResponse m.seq .okay mem s = _
  simp -zeta only [execMilepostWriteResponse, group?_of_only h, member?_of_only h, hposted, hback, Bool.not_true, Bool.or_self,
    Bool.false_eq_true, if_false, if_true]
  extract_lets r s1 x s2 s3 s4
  have h2 : s2 = s.milepostBack m := hback'
  have h3 : s3 = (s.milepostBack m).modRing m.ring Ring.doneNext := by simp only [s3, h2, hsum]; exact hnext
  have h4 : s4 = w := by
    simp only [s4, h3, r, hdone, hmoved, hfenced, ← hw]
    rfl
  rw [h4, hgone]
  exact congrArg _ (settleRing_of_enabled (s := { w with groups := [] }) ((congrArg Ring.enabled hwring).trans henabled))

end State

-- The statement ------------------------------------------------------------------------------------------------------

/-- Settles O29: the response of a milepost that is the next of its ring. -/
theorem milepostResponseMovesDone : Obligations.MilepostResponseMovesDone := by
  intro s g m mem honly hring hposted hback hlt hlen hidx henabled hfenced u
  have hr : m.ring < s.rings.length := hlen ▸ hlt
  have hu : (s.milepostBack m).modRing m.ring Ring.doneNext = u := by
    exact congrArg (fun gs : List Group => { u with groups := gs }) (State.only_modMember honly Member.returned).1
  have hdone : u.ring m.ring = Ring.doneNext (s.ring m.ring) := State.ring_modRing (s := s) _ hr
  have hhead := State.writeHead_of_unfenced (s := u) (r := m.ring) hfenced
  rw [hdone] at hhead
  refine ⟨?_, by rw [State.field_headHalf_done, hdone]; rfl⟩
  rw [State.exec_milepostWriteResponse honly hring hposted hback hr hidx henabled hfenced, hu, hhead]
  rfl

end Sys2Proof.Machine
end

section
/-!
Reports of journal records (R343, R362, R382, R494, R606, R615, R620, R663, R702): they follow RNUM order, and what each kind lets happen.
-/
namespace Sys2Proof.Machine
open Sys2Proof

-- What is written and sent -------------------------------------------------------------------------------------------

/-- A member whose waymark has been reported (R343 step 7). -/
def Member.reported (m : Member) : Member := { m with taken := true }

/-- A ring that knows its last sequence number (R331). -/
def Ring.lastTaken (q : Nat) (g : Ring) : Ring := { g with lastSeq := q, seqKnown := true }

/-- A group whose GROUP_CLOSE has been reported (R494). -/
def Group.closed (g : Group) : Group := { g with closeReported := true }

/-- A group whose output writes have left (R620). -/
def Group.written (g : Group) : Group := { g with wrote := true }

/-- A group whose mileposts have left (R621). -/
def Group.mailed (g : Group) : Group := { g with posted := true }

/-- A group the last of whose PUBLISHED entries has been reported: nothing is reserved for it any more (R613). -/
def Group.reported (g : Group) : Group := { g with published := true, members := g.members.map fun m => { m with resv := 0 } }

/-- From `s` to `t` something has left and the causeway has moved, and nothing else has happened. -/
def State.Moved (s t : State) : Prop := t = { s with cw := t.cw, out := t.out } ∧ ∃ l, t.out = s.out ++ l

theorem Sent.moved {s t : State} (h : Sent s t) : s.Moved t := by
  obtain ⟨l, hl, -⟩ := h.out
  exact ⟨h.frame, l, hl⟩

namespace State
variable {s t : State} {g : Group} {m : Member} {a : Nat} {v mask : Byte}

/-- Flits that are queued leave as their links let them. -/
theorem queueAll_pump_moved (s : State) (fs : List TxFlit) : s.Moved (s.queueAll fs).pump := by
  obtain ⟨c, hc⟩ := s.queueAll_frame fs
  rw [hc]
  obtain ⟨hframe, hout⟩ := (Sent.pump { s with cw := c }).moved
  exact ⟨hframe, hout⟩

/-- With no exchange there is none to end (R544). -/
theorem endExchanges_moved (h : s.cw.exchs = []) (g : Group) : s.Moved (s.endExchanges g) := by
  have hends : s.endExchanges g = (s.modCw fun c => { c with exchs := [] }).pump := by
    simp only [endExchanges, h, List.filter_nil, List.foldl_nil]
    rw [modCw, modCw, h]
    rfl
  obtain ⟨hframe, hout⟩ := (Sent.pump (s.modCw fun c => { c with exchs := [] })).moved
  exact hends ▸ ⟨hframe, hout⟩

/-- Writes leave one after the other. -/
theorem foldl_wr_wrought (ws : List (Nat × List Byte)) (s : State) :
    let t := ws.foldl (fun s w => s.wr w.1 w.2) s
    Wrought s t (ws.map fun w => (w.1, w.2.length)) ∧ ∀ w ∈ ws, s.Left t w.1 w.2 := by
  induction ws generalizing s with
  | nil => exact ⟨.refl s, fun _ h => nomatch h⟩
  | cons w ws ih =>
    have hfirst := s.wr_wrought w.1 w.2
    obtain ⟨hrest, hleft⟩ := ih (s.wr w.1 w.2)
    exact ⟨hfirst.trans hrest, List.forall_mem_cons.2 ⟨(Left.of_wr s _ _).mono hrest.out, fun x hx =>
      (hleft x hx).of_regs (congrArg State.regs hfirst.frame :)⟩⟩

/-- A write of some bits of a byte leaves where staging does not serve the byte. -/
theorem wrBits_outside (h : s.stageAddr a = none) : s.wrBits a v mask = s.emit (.mpWriteBits a v mask) := by
  simp only [wrBits, h]

theorem wrBits_wrought (s : State) (a : Nat) (v mask : Byte) : Wrought s (s.wrBits a v mask) [(a, 1)] := by
  cases haddr : s.stageAddr a with
  | none => exact wrBits_outside haddr ▸ .emit s _
  | some p =>
    simp only [wrBits, haddr]
    refine ⟨rfl, stageWrite_kept fun i b hb => ⟨_, List.mem_singleton_self _, 0, Nat.zero_lt_one, ?_⟩, [], (List.append_nil _).symm⟩
    have hi : i = 0 := by
      obtain ⟨hlt, -⟩ := List.getElem?_eq_some_iff.1 hb
      exact Nat.lt_one_iff.1 hlt
    rw [hi]
    exact haddr

/-- Writes of bits leave one after the other. -/
theorem foldl_wrBits_wrought (ws : List (Nat × Byte × Byte)) (s : State) :
    let t := ws.foldl (fun s w => s.wrBits w.1 w.2.1 w.2.2) s
    Wrought s t (ws.map fun w => (w.1, 1)) ∧
      ∀ w ∈ ws, s.stageAddr w.1 = none → Out.mpWriteBits w.1 w.2.1 w.2.2 ∈ t.out := by
  induction ws generalizing s with
  | nil => exact ⟨.refl s, fun _ h => nomatch h⟩
  | cons w ws ih =>
    have hfirst := s.wrBits_wrought w.1 w.2.1 w.2.2
    obtain ⟨hrest, hleft⟩ := ih (s.wrBits w.1 w.2.1 w.2.2)
    refine ⟨hfirst.trans hrest, List.forall_mem_cons.2 ⟨fun haddr => ?_, fun x hx haddr => ?_⟩⟩
    · obtain ⟨l, hl⟩ := hrest.out
      rw [List.foldl_cons, hl, wrBits_outside haddr]
      exact List.mem_append_left _ (List.mem_append_right _ (List.mem_singleton_self _))
    · exact hleft x hx ((stageAddr_regs (congrArg State.regs hfirst.frame :) _).trans haddr)

-- The order of reports -----------------------------------------------------------------------------------------------

/-- A record has its write response. -/
def answered (rnum : Nat) (r : Rec) : Rec := if r.rnum = rnum then { r with ok := true } else r

/-- The response of a record: the records that it completes are reported (R606). -/
theorem exec_waybookWriteResponse {rnum : Nat} (hrouted : s.routed) (hfenced : s.inc.fenced = false)
    (hany : s.wb.recs.any (fun r => r.rnum == rnum && !r.ok) = true) (mem : Image) :
    exec (.waybookWriteResponse rnum .okay mem) s =
      .next (s.modWb fun w => { w with recs := w.recs.map (answered rnum) }).report := by
  change execWaybookWriteResponse rnum .okay mem s = _
  rw [execWaybookWriteResponse, if_pos hany, if_neg (by simp [hfenced]), if_pos rfl, learnRoutes_of_routed hrouted]
  rfl

/-- Nothing is reported past a record without a response. -/
theorem report_of_unanswered {a : Rec} {rest : List Rec} (h : s.wb.recs = a :: rest) (hok : a.ok = false) : s.report = s := by
  simp [report, h, reportGo, reportable, hok]

/-- The last record to report: what follows from it happens in a journal that holds none (R606). -/
theorem report_of_last {r : Rec} (h : s.wb.recs = [r]) (hrep : s.reportable r = true) :
    s.report = (s.modWb fun w => { w with recs := [] }).runAct r := by
  simp [report, h, reportGo, hrep]

/-- The response of the only record. -/
theorem exec_waybookWriteResponse_only {r : Rec} (hrouted : s.routed) (hfenced : s.inc.fenced = false) (h : s.wb.recs = [r])
    (hok : r.ok = false) (hacked : r.acked = true ∨ s.mirrorEn = false ∨ s.wb.mirrorLost = true) (mem : Image) :
    exec (.waybookWriteResponse r.rnum .okay mem) s = .next ((s.modWb fun w => { w with recs := [] }).runAct { r with ok := true }) := by
  rw [exec_waybookWriteResponse hrouted hfenced (by simp [h, hok])]
  have hrecs : (s.modWb fun w => { w with recs := w.recs.map (answered r.rnum) }).wb.recs = [{ r with ok := true }] := by
    simp [modWb, h, answered]
  have hrep : (true && (r.acked || !s.mirrorEn || s.wb.mirrorLost)) = true := by simpa [or_assoc] using hacked
  rw [report_of_last hrecs hrep]
  rfl

-- What reports let happen --------------------------------------------------------------------------------------------

theorem retryTolls_of_none (h : s.tolls.asks = []) : s.retryTolls = s := by
  simp [retryTolls, h]

/-- A SEAL entry puts its value in force and counts the change (R702). -/
theorem reportSeal_of_pending {f : SealField} {p : SealPend} (h : s.seals.pending.find? (fun p => p.field == f && p.written) = some p)
    (hasks : s.tolls.asks = []) : s.reportSeal f =
      { s with seals := { s.seals.apply f p.value with pending := s.seals.pending.filter (fun q => q.field != f) } } := by
  simp only [reportSeal, h]
  exact retryTolls_of_none hasks

/-- A CHECKPOINT that no MARK waits for moves DX_WB_CKPT and the trim point (R614, R615). -/
theorem reportCheckpoint_zero (h : s.tolls.asks = []) (rnum walk : Nat) :
    s.reportCheckpoint rnum walk 0 = s.modWb fun w => { w with ckpt := rnum, trim := walk } :=
  retryTolls_of_none (s := s.modWb _) h

/-- A TOLL_SET answers its control write (R382). -/
theorem reportSet_of_waiting {rnum : Nat} {w : WinReq × Nat} (h : s.tolls.sets.find? (fun w => w.2 == rnum) = some w) :
    s.reportSet rnum = (s.modTolls fun t => { t with sets := t.sets.filter (fun w => w.2 != rnum) }).emit (.winWrite w.1 .okay) := by
  simp only [reportSet, h]

/-- An incident that is no S4 leaves the log (R663). -/
theorem entryReported_of_recoverable {pos : Nat} {e : IncEntry} (h : s.entry? pos = some e) (hsev : e.sevFinal ≠ 4) :
    s.entryReported pos = s.modInc fun i => { i with log := i.log.set pos none } := by
  simp [entryReported, h, hsev]

/-- An update that keeps what the head record's place goes by keeps it for every ring. -/
theorem ring_modRing_keep {β : Type} (k : Ring → β) {f : Ring → Ring} (hf : ∀ g, k (f g) = k g) (q r : Nat) :
    k ((s.modRing q f).ring r) = k (s.ring r) := by
  simp only [ring, modRing, List.getD_eq_getElem?_getD, List.getElem?_modify]
  cases s.rings[r]? with
  | none => rfl
  | some g =>
    by_cases h : q = r
    · simpa [h] using hf g
    · simp [h]

/-- A group that has not ended does not complete (R361). -/
theorem tryFinish_of_unended (h : s.only g m) (hended : g.ended = false) : s.tryFinish m.seq = s := by
  have hopen : s.finishable g = false := by simp [finishable, hended]
  simp only [tryFinish, group?_of_only h]
  by_cases hentered : entered g = true <;> simp [h.1, finishGo, hentered, hopen]

/-- A waymark takes its descriptor, and the head record of its ring shows it (R332, R343 step 7). -/
theorem reportWaymark_of_only (h : s.only g m) (hended : g.ended = false) :
    s.reportWaymark m.seq = ((s.modMember m.seq Member.reported).modRing m.ring (Ring.lastTaken m.seq)).writeHead m.ring := by
  have hmember := only_modMember h Member.reported
  have hgroups : (((s.modMember m.seq Member.reported).modRing m.ring (Ring.lastTaken m.seq)).writeHead m.ring).groups =
      [{ g with members := [m.reported] }] := by
    rw [writeHead_frame]
    exact hmember.1
  simp only [reportWaymark, member?_of_only h]
  exact tryFinish_of_unended (g := { g with members := [m.reported] }) (m := m.reported) ⟨hgroups, rfl⟩ hended

theorem reportWaymark_wr (h : s.only g m) (hended : g.ended = false) (hfenced : s.inc.fenced = false) :
    let u := { s with
      groups := [{ g with members := [m.reported] }],
      rings := s.rings.modify m.ring (Ring.lastTaken m.seq) }
    s.reportWaymark m.seq =
      if (s.ring m.ring).known then u.wr ((s.ring m.ring).head.toNat + 32) (u.headHalf m.ring) else u := by
  intro u
  have hu : (s.modMember m.seq Member.reported).modRing m.ring (Ring.lastTaken m.seq) = u :=
    congrArg (fun gs : List Group => { u with groups := gs }) (only_modMember h Member.reported).1
  have hknown : (u.ring m.ring).known = (s.ring m.ring).known :=
    ring_modRing_keep (s := s) Ring.known (f := Ring.lastTaken m.seq) (fun _ => rfl) m.ring m.ring
  have hhead : (u.ring m.ring).head = (s.ring m.ring).head :=
    ring_modRing_keep (s := s) Ring.head (f := Ring.lastTaken m.seq) (fun _ => rfl) m.ring m.ring
  rw [reportWaymark_of_only h hended, hu, writeHead_of_unfenced (s := u) hfenced, hknown, hhead]

/-- What an update of a group alone in its block makes of it. -/
theorem groups_modGroup_of_only (h : s.only g m) (f : Group → Group) : (s.modGroup m.seq f).groups = [f g] := by
  obtain ⟨hs, hg⟩ := h
  simp [modGroup, hs, hg]

/-- A group alone in its block waits for no other to finish writing (R500). -/
theorem startWrites_of_only (h : s.only g m) (hclose : g.closeReported = true) (hwrote : g.wrote = false) (hdead : g.dead = false)
    (hfenced : s.inc.fenced = false) : s.startWrites g =
      ((((outBits m).foldl (fun s w => s.wrBits w.1 w.2.1 w.2.2) ((s.outWrites g m).foldl (fun s w => s.wr w.1 w.2) s)).modGroup m.seq
        Group.written).queueAll (s.protMsg m)).pump := by
  have hwait : s.writesWait g = false := by simp [writesWait, h.1]
  have hfirst : g.firstSeq = m.seq := by simp [Group.firstSeq, h.2]
  simp [startWrites, hclose, hwrote, hdead, hfenced, hwait, hfirst, h.2, Group.written.eq_unfold]

/-- Its output writes leave, and with them what protects a written set (R490, R494). -/
theorem startWrites_leave (h : s.only g m) (hclose : g.closeReported = true) (hwrote : g.wrote = false) (hdead : g.dead = false)
    (hfenced : s.inc.fenced = false) :
    let t := s.startWrites g
    t = { s with groups := [g.written], cw := t.cw, out := t.out, staging := t.staging, ue := t.ue } ∧
      s.StageKept t ((s.outWrites g m).map (fun w => (w.1, w.2.length)) ++ (outBits m).map (fun w => (w.1, 1))) ∧
      (∀ w ∈ s.outWrites g m, s.Left t w.1 w.2) ∧
      (∀ w ∈ outBits m, s.stageAddr w.1 = none → Out.mpWriteBits w.1 w.2.1 w.2.2 ∈ t.out) := by
  intro t
  have ht : t = _ := startWrites_of_only h hclose hwrote hdead hfenced
  obtain ⟨hrows, hleft⟩ := foldl_wr_wrought (s.outWrites g m) s
  generalize (s.outWrites g m).foldl _ s = u at hrows hleft ht
  obtain ⟨hbits, hbleft⟩ := foldl_wrBits_wrought (outBits m) u
  generalize (outBits m).foldl _ u = v at hbits hbleft ht
  have hwrought := hrows.trans hbits
  have hregs : u.regs = s.regs := (congrArg State.regs hrows.frame :)
  have hgroups : v.groups = s.groups := (congrArg State.groups hwrought.frame :)
  obtain ⟨hframe, l, hl⟩ := queueAll_pump_moved (v.modGroup m.seq Group.written) (s.protMsg m)
  rw [← ht] at hframe hl
  have hlater : ∃ l, t.out = v.out ++ l := ⟨l, hl⟩
  have hone : (v.modGroup m.seq Group.written).groups = [g.written] := groups_modGroup_of_only ⟨hgroups.trans h.1, h.2⟩ _
  refine ⟨?_, ?_, fun w hw => ((hleft w hw).mono hbits.out).mono hlater, fun w hw haddr => ?_⟩
  · rw [hframe, hone, modGroup, hwrought.frame]
  · have hsame : v.StageKept t [] := .same (congrArg State.staging hframe :) (congrArg State.ue hframe :)
    exact (hwrought.stage.trans (congrArg State.regs hwrought.frame :) hsame).mono fun w hw => by simpa using hw
  · rw [hl]
    exact List.mem_append_left _ (hbleft w hw ((stageAddr_regs hregs _).trans haddr))

/-- GROUP_CLOSE lets the output writes of a group leave (R494, R620). -/
theorem runAct_groupClose_of_only {r : Rec} (hact : r.act = .groupClose m.seq) (h : s.only g m) (hwrote : g.wrote = false)
    (hdead : g.dead = false) (hfenced : s.inc.fenced = false) :
    let t := s.runAct r
    t = { s with groups := [g.closed.written], cw := t.cw, out := t.out, staging := t.staging, ue := t.ue } ∧
      s.StageKept t ((s.outWrites g m).map (fun w => (w.1, w.2.length)) ++ (outBits m).map (fun w => (w.1, 1))) ∧
      (∀ w ∈ s.outWrites g m, s.Left t w.1 w.2) ∧
      (∀ w ∈ outBits m, s.stageAddr w.1 = none → Out.mpWriteBits w.1 w.2.1 w.2.2 ∈ t.out) := by
  have hclosed : (s.modGroup m.seq Group.closed).only g.closed m := ⟨groups_modGroup_of_only h _, h.2⟩
  have hrun : s.runAct r = (s.modGroup m.seq Group.closed).startWrites g.closed := by
    simp only [runAct, hact, ← Group.closed.eq_unfold, group?_of_only hclosed]
  obtain ⟨hframe, hkept, hleft⟩ := startWrites_leave hclosed rfl hwrote hdead hfenced
  exact hrun ▸ ⟨hframe, ⟨hkept.bytes, hkept.marks, hkept.others⟩, hleft⟩

-- Mileposts that leave -----------------------------------------------------------------------------------------------

/-- The milepost of a descriptor alone in its block leaves once its PUBLISHED entry has been reported (R621). -/
theorem post_of_only {b : List Byte} (h : s.only g m) (hpub : g.published = true) (hposted : g.posted = false) (hmile : m.milepost = some b)
    (hfenced : s.inc.fenced = false) : s.post g.ring =
      ((s.wr ((s.ring g.ring).cplAddr m.idx) b).modGroup m.seq Group.mailed).endExchanges g := by
  have hfirst : g.firstSeq = m.seq := by simp [Group.firstSeq, h.2]
  simp [post, h.1, postGo, hpub, hposted, hfenced, h.2, hmile, hfirst, Group.mailed.eq_unfold]

theorem post_leaves {b : List Byte} (h : s.only g m) (hpub : g.published = true) (hposted : g.posted = false) (hmile : m.milepost = some b)
    (hfenced : s.inc.fenced = false) (hexchs : s.cw.exchs = []) :
    let t := s.post g.ring
    t = { s with groups := [g.mailed], cw := t.cw, out := t.out, staging := t.staging, ue := t.ue } ∧
      s.StageKept t [((s.ring g.ring).cplAddr m.idx, b.length)] ∧ s.Left t ((s.ring g.ring).cplAddr m.idx) b := by
  intro t
  have ht : t = _ := post_of_only h hpub hposted hmile hfenced
  have hwrought := s.wr_wrought ((s.ring g.ring).cplAddr m.idx) b
  have hleft := Left.of_wr s ((s.ring g.ring).cplAddr m.idx) b
  generalize s.wr _ b = v at hwrought hleft ht
  have hgroups : v.groups = s.groups := (congrArg State.groups hwrought.frame :)
  have hnone : v.cw.exchs = [] := (congrArg (·.cw.exchs) hwrought.frame).trans hexchs
  obtain ⟨hframe, l, hl⟩ := endExchanges_moved (s := v.modGroup m.seq Group.mailed) hnone g
  rw [← ht] at hframe hl
  have hone : (v.modGroup m.seq Group.mailed).groups = [g.mailed] := groups_modGroup_of_only ⟨hgroups.trans h.1, h.2⟩ _
  refine ⟨?_, ?_, hleft.mono ⟨l, hl⟩⟩
  · rw [hframe, hone, modGroup, hwrought.frame]
  · have hsame : v.StageKept t [] := .same (congrArg State.staging hframe :) (congrArg State.ue hframe :)
    exact hwrought.stage.trans (congrArg State.regs hwrought.frame :) hsame

/-- A ring that owes no replay stays as it is (R637). -/
theorem endReplay_of_status {r : Nat} (h : (s.ring r).status ≠ .replay) : s.endReplay r = s := by
  simp [endReplay, h]

/-- A group whose writes have left, or may not leave yet, is left alone. -/
theorem retryWrites_of_only (h : s.only g m) (hwrote : g.closeReported = true → g.wrote = true) : s.retryWrites = s := by
  have hfirst : g.firstSeq = m.seq := by simp [Group.firstSeq, h.2]
  have hidle : s.startWrites g = s := by
    cases hclose : g.closeReported <;> simp [startWrites, hclose, hwrote]
  simp only [retryWrites, h.1, List.foldl_cons, List.foldl_nil, hfirst, group?_of_only h, hidle]

/-- What the work of a group publishes counts for the clusters that were suspected before it (R660). -/
def workPublished (s : State) (g : Group) (q : Nat) : State := { s with clusters := s.clusters.map fun c =>
  if g.issued = true ∧ c.suspectFrom ≠ 0 ∧ c.suspectFrom ≤ q then { c with workedPub := max c.workedPub q } else c }

/-- The last PUBLISHED entry of a group lets its milepost leave (R621). -/
theorem reportPublished_of_only {b : List Byte} (h : s.only g m) (hposted : g.posted = false) (hring : g.ring = m.ring)
    (hmile : m.milepost = some b) (hwrote : g.closeReported = true → g.wrote = true) (hfenced : s.inc.fenced = false)
    (hexchs : s.cw.exchs = []) (hreplay : (s.ring m.ring).status ≠ .replay) (hasks : s.tolls.asks = []) :
    let t := s.reportPublished m.seq
    t = { s.workPublished g m.seq with groups := [g.reported.mailed], cw := t.cw, out := t.out, staging := t.staging, ue := t.ue } ∧
      s.StageKept t [((s.ring m.ring).cplAddr m.idx, b.length)] ∧ s.Left t ((s.ring m.ring).cplAddr m.idx) b := by
  have hlast : g.lastSeq = m.seq := by simp [Group.lastSeq, h.2]
  have hone : ((s.workPublished g m.seq).modGroup m.seq Group.reported).only g.reported { m with resv := 0 } :=
    ⟨groups_modGroup_of_only (s := s.workPublished g m.seq) h _, by simp [Group.reported, h.2]⟩
  obtain ⟨hframe, hkept, hleft⟩ := post_leaves hone rfl hposted hmile hfenced hexchs
  have hrun : s.reportPublished m.seq = ((s.workPublished g m.seq).modGroup m.seq Group.reported).post g.reported.ring := by
    have hposts : s.reportPublished m.seq =
        ((((s.workPublished g m.seq).modGroup m.seq Group.reported).post g.reported.ring |>.endReplay g.ring).retryWrites).retryTolls := by
      simp only [reportPublished, group?_of_only h, hlast]
      simp [workPublished, Group.reported.eq_unfold, and_assoc]
    rw [hposts]
    generalize State.post _ _ = t at hframe ⊢
    have hstatus : (t.ring g.ring).status ≠ .replay := by rw [hframe, hring]; exact hreplay
    have htolls : t.tolls.asks = [] := by rw [hframe]; exact hasks
    have hgroup : t.only g.reported.mailed { m with resv := 0 } := ⟨(congrArg State.groups hframe :), hone.2⟩
    rw [endReplay_of_status hstatus, retryWrites_of_only hgroup hwrote, retryTolls_of_none htolls]
  rw [← hrun] at hframe hkept hleft
  rw [hring.symm]
  exact ⟨hframe, ⟨hkept.bytes, hkept.marks, hkept.others⟩, hleft⟩

end State

-- The statement ------------------------------------------------------------------------------------------------------

/-- Settles O28: no report goes past a record without a response, and that of the only record lets happen what its kind says. -/
theorem reportsFollowRnumOrder : Obligations.ReportsFollowRnumOrder := by
  intro s rnum mem hrouted hfenced
  refine ⟨fun a rest hrecs hok hother hany => ?_, fun r hrecs hrnum hok hacked => ?_⟩
  · rw [State.exec_waybookWriteResponse hrouted hfenced (by simp [hrecs, hany])]
    rw [State.report_of_unanswered (a := a) (rest := rest.map (State.answered rnum)) (by simp [State.modWb, hrecs, State.answered, hother]) hok]
    rfl
  · subst hrnum
    intro reported
    rw [State.exec_waybookWriteResponse_only hrouted hfenced hrecs hok hacked]
    have hreported : (s.modWb fun w => { w with recs := [] }) = { s with wb := reported } := rfl
    rw [hreported]
    refine ⟨fun hact => ?_, fun f p hact hpend hasks => ?_, fun g m hact honly hended _ _ => ?_, fun g m hact honly hwrote hdead => ?_,
      fun g m b hact honly hposted hring hmile hwrote hexchs hreplay hasks => ?_, fun walk hact hasks => ?_, fun c w hact hwait => ?_,
      fun pos e hact hentry hsev => ?_⟩
    · rcases List.mem_pair.1 hact with hact | hact <;> simp only [State.runAct, hact]
    · simp only [State.runAct, hact]
      exact congrArg _ (State.reportSeal_of_pending (s := { s with wb := reported }) hpend hasks)
    · simp only [State.runAct, hact]
      exact congrArg _ (State.reportWaymark_wr (s := { s with wb := reported }) honly hended hfenced)
    · obtain ⟨hframe, hkept, hleft⟩ := State.runAct_groupClose_of_only (s := { s with wb := reported }) (r := { r with ok := true }) hact
        honly hwrote hdead hfenced
      exact ⟨_, rfl, hframe, ⟨hkept.bytes, hkept.marks, hkept.others⟩, hleft⟩
    · simp only [State.runAct, hact]
      obtain ⟨hframe, hkept, hleft⟩ := State.reportPublished_of_only (s := { s with wb := reported }) honly hposted hring hmile hwrote hfenced
        hexchs hreplay hasks
      rw [show g.reported.mailed = { g with published := true, posted := true, members := [{ m with resv := 0 }] } by
        simp [Group.reported, Group.mailed, honly.2]] at hframe
      exact ⟨_, rfl, hframe, ⟨hkept.bytes, hkept.marks, hkept.others⟩, hleft⟩
    · simp only [State.runAct, hact]
      exact congrArg _ (State.reportCheckpoint_zero (s := { s with wb := reported }) hasks r.rnum walk)
    · simp only [State.runAct, hact]
      exact congrArg _ (State.reportSet_of_waiting (s := { s with wb := reported }) hwait)
    · simp only [State.runAct, hact]
      exact congrArg _ (State.entryReported_of_recoverable (s := { s with wb := reported }) hentry hsev)

end Sys2Proof.Machine
end

section
/-!
The acceptance stage (R343, R356, R605, R608, R612, R811, R812): the waymark of the descriptor at a ring's head, and the group that it begins
or joins.
-/
namespace Sys2Proof.Machine
open Sys2Proof

-- Rings stand where groups end ---------------------------------------------------------------------------------------

namespace State
variable {s : State} {r : Nat}

@[simp] theorem rings_wr (s : State) (a : Nat) (bs : List Byte) : (s.wr a bs).rings = s.rings :=
  (congrArg State.rings (s.wr_wrought a bs).frame :)

@[simp] theorem rings_wbWriteFor (s : State) (q ty : Nat) (parts : List (List Byte)) (act : Act) :
    (s.wbWriteFor q ty parts act).rings = s.rings :=
  (congrArg State.rings (s.wbWrite_wrote ty parts act).2 :)

@[simp] theorem rings_queueAll (s : State) (fs : List TxFlit) : (s.queueAll fs).rings = s.rings := by
  obtain ⟨c, hc⟩ := s.queueAll_frame fs
  rw [hc]

@[simp] theorem rings_pump (s : State) : s.pump.rings = s.rings := (congrArg State.rings (Sent.pump s).frame :)

/-- What keeps the rings at every step keeps them. -/
theorem rings_foldl {α : Type} {f : State → α → State} (hf : ∀ u a, (f u a).rings = u.rings) (l : List α) (s : State) :
    (l.foldl f s).rings = s.rings :=
  List.foldlRecOn (motive := fun t => t.rings = s.rings) l f rfl fun u hu a _ => (hf u a).trans hu

@[simp] theorem rings_endExchanges (s : State) (g : Group) : (s.endExchanges g).rings = s.rings := by
  simp only [endExchanges, rings_pump]
  exact rings_foldl (fun u _ => rings_queueAll u _) _ s

theorem rings_postGo (n r : Nat) (s : State) : (postGo n r s).rings = s.rings := by
  induction n generalizing s with
  | zero => rfl
  | succ n ih =>
    unfold postGo
    split
    · split
      · rw [ih, rings_endExchanges]
        exact rings_foldl (fun u _ => rings_wr u _ _) _ s
      · rfl
    · rfl

theorem rings_finishGroup (s : State) (g : Group) : (s.finishGroup g).rings = s.rings := by
  unfold finishGroup
  extract_lets todo last s1
  have hentries : s1.rings = s.rings := by
    refine rings_foldl (fun u m => ?_) todo s
    simp only [bump, rings_wbWriteFor]
    rfl
  split
  · exact (rings_postGo _ _ _).trans hentries
  · exact hentries

theorem rings_finishGo (n r : Nat) (s : State) : (finishGo n r s).rings = s.rings := by
  induction n generalizing s with
  | zero => rfl
  | succ n ih =>
    unfold finishGo
    split
    · split
      · rw [ih, rings_finishGroup]
      · rfl
    · rfl

theorem rings_tryFinish (s : State) (q : Nat) : (s.tryFinish q).rings = s.rings := by
  unfold tryFinish
  split
  · exact rings_finishGo _ _ s
  · rfl

/-- An open group that ends changes no ring (R497). -/
theorem rings_endOpenGroup (s : State) (r : Nat) : (s.endOpenGroup r).rings = s.rings := by
  unfold endOpenGroup
  split
  · exact rings_tryFinish _ _
  · rfl

end State

-- The group of a new descriptor --------------------------------------------------------------------------------------

/-- A group that another descriptor joins (R356). -/
def Group.enlist (m : Member) (last : Bool) (g : Group) : Group := { g with members := g.members ++ [m], ended := last }

/-- A group that a rejected member has ended for all of them (R812). -/
def Group.kill (g : Group) : Group :=
  { g with dead := true, members := g.members.map fun m => { m with fault := if m.accepted then St.groupFault else 0 } }

/-- A ring whose head has been served (R343). -/
def Ring.served (g : Ring) : Ring := { g with next := g.next + 1, atHead := none }

/-- A ring whose first arrived descriptor has come to its head. -/
def Ring.advanced (rest : List Desc) (h : Head) (g : Ring) : Ring := { g with arrived := rest, atHead := some h }

namespace State
variable {s : State} {r : Nat} {m : Member} {last : Bool}

/-- A descriptor joins its ring's open group, or begins a group (R356). -/
def enlist (s : State) (r : Nat) (m : Member) (last joins : Bool) : State :=
  if joins then { s with groups := s.groups.map fun q => if q.ring == r && !q.ended then q.enlist m last else q }
  else { s with groups := s.groups ++ [{ newGroup r m with ended := last }] }

/-- A rejected member ends its group, and one that joins a dead group dies with it (R812). -/
def rejectGroup (s : State) (seq : Nat) (ok : Bool) : State :=
  match s.group? seq with
  | some q => if q.dead || !ok then s.killGroup q else s
  | none => s

theorem enlist_frame (s : State) (r : Nat) (m : Member) (last joins : Bool) :
    s.enlist r m last joins = { s with groups := (s.enlist r m last joins).groups } := by
  cases joins <;> rfl

theorem rejectGroup_frame (s : State) (seq : Nat) (ok : Bool) : s.rejectGroup seq ok = { s with groups := (s.rejectGroup seq ok).groups } := by
  unfold rejectGroup
  split
  · split <;> rfl
  · rfl

/-- The groups of a block once a descriptor has begun or joined one (R356, R812). -/
def enrolled (s : State) (r : Nat) (m : Member) (last joins ok : Bool) : List Group := ((s.enlist r m last joins).rejectGroup m.seq ok).groups

theorem enrol_frame (s : State) (r : Nat) (m : Member) (last joins ok : Bool) :
    (s.enlist r m last joins).rejectGroup m.seq ok = { s with groups := s.enrolled r m last joins ok } := by
  rw [enrolled, rejectGroup_frame, enlist_frame]

/-- A number that no member has is in no group. -/
theorem any_seq_of_member?_none {q : Nat} (h : s.member? q = none) {g : Group} (hg : g ∈ s.groups) : g.members.any (·.seq == q) = false := by
  simp only [member?, members, List.find?_eq_none, List.mem_flatMap] at h
  exact List.any_eq_false.2 fun m hm => h m ⟨g, hg, hm⟩

/-- Only the group of the new member can end with it. -/
theorem groups_rejectGroup {pre post : List Group} {y : Group} {seq : Nat} (hs : s.groups = pre ++ y :: post)
    (hseq : y.members.any (·.seq == seq) = true) (hfirst : y.members.any (·.seq == y.firstSeq) = true)
    (hpre : ∀ x ∈ pre, x.members.any (·.seq == seq) = false) (hothers : ∀ x ∈ pre ++ post, x.members.any (·.seq == y.firstSeq) = false)
    (ok : Bool) : (s.rejectGroup seq ok).groups = pre ++ (if y.dead || !ok then y.kill else y) :: post := by
  have hfound : s.group? seq = some y := by
    have hskip : pre.find? (fun g => g.members.any (·.seq == seq)) = none := List.find?_eq_none.2 fun x hx => by simp [hpre x hx]
    simp only [group?, hs, List.find?_append, hskip, Option.none_or]
    exact List.find?_cons_of_pos hseq
  have hkeep : ∀ l ⊆ pre ++ post, l.map (fun g => if g.members.any (·.seq == y.firstSeq) then g.kill else g) = l := fun l hl =>
    (List.map_congr_left fun g hg => if_neg (by simp [hothers g (hl hg)])).trans (List.map_id l)
  have hkill : (s.killGroup y).groups = pre ++ y.kill :: post := by
    change (s.modGroup y.firstSeq Group.kill).groups = _
    simp only [modGroup, hs, List.map_append, List.map_cons, hfirst, if_true]
    rw [hkeep pre (List.subset_append_left _ _), hkeep post (List.subset_append_right _ _)]
  simp only [rejectGroup, hfound]
  split
  · exact hkill
  · exact hs

/-- A descriptor that joins none begins a group, dead where it is rejected. -/
theorem enrolled_new (hnew : s.member? m.seq = none) :
    let g : Group := { newGroup r m with ended := last }
    s.enrolled r m last false (m.status == 0) = s.groups ++ [if m.status = 0 then g else g.kill] := by
  intro g
  have hold : ∀ x ∈ s.groups, x.members.any (·.seq == m.seq) = false := fun x hx => any_seq_of_member?_none hnew hx
  have hgroups := groups_rejectGroup (s := s.enlist r m last false) (y := g) (post := []) rfl (by simp [g, newGroup])
    (by simp [g, newGroup, Group.firstSeq]) hold (by simpa [g, newGroup, Group.firstSeq] using hold) (m.status == 0)
  have hdead : g.dead = (m.status != 0) := rfl
  refine hgroups.trans ?_
  by_cases h0 : m.status = 0 <;> simp [hdead, h0]

/-- One that joins its ring's open group stands behind its members. -/
theorem enrolled_join {pre post : List Group} {g : Group} (hnew : s.member? m.seq = none) (hs : s.groups = pre ++ g :: post)
    (hring : g.ring = r) (hopen : g.ended = false) (hmembers : g.members ≠ [])
    (hothers : ∀ x ∈ pre ++ post, (x.ring ≠ r ∨ x.ended = true) ∧ x.members.any (·.seq == g.firstSeq) = false) :
    s.enrolled r m last true (m.status == 0) =
      pre ++ (if m.status = 0 ∧ g.dead = false then g.enlist m last else (g.enlist m last).kill) :: post := by
  have hkeep : ∀ l ⊆ pre ++ post, l.map (fun q => if q.ring == r && !q.ended then q.enlist m last else q) = l := fun l hl =>
    (List.map_congr_left fun q hq => if_neg (by
      obtain ⟨hclosed, -⟩ := hothers q (hl hq)
      simpa [← not_or, or_iff_not_imp_left] using hclosed)).trans (List.map_id l)
  have henlist : (s.enlist r m last true).groups = pre ++ g.enlist m last :: post := by
    simp only [enlist, if_true, hs, List.map_append, List.map_cons, hring, hopen]
    rw [hkeep pre (List.subset_append_left _ _), hkeep post (List.subset_append_right _ _)]
    simp
  obtain ⟨a, rest, hg⟩ := List.exists_cons_of_ne_nil hmembers
  have hfirst : (g.enlist m last).firstSeq = g.firstSeq := by simp [Group.firstSeq, Group.enlist, hg]
  have hgroups := groups_rejectGroup henlist (seq := m.seq) (by simp [Group.enlist]) (by simp [Group.enlist, Group.firstSeq, hg])
    (fun x hx => any_seq_of_member?_none hnew (by simp [hs, hx])) (fun x hx => hfirst ▸ (hothers x hx).2) (m.status == 0)
  have hdead : (g.enlist m last).dead = g.dead := rfl
  refine hgroups.trans ?_
  by_cases h0 : m.status = 0 <;> cases hg : g.dead <;> simp [hdead, h0, hg]

-- What comes to a free head ------------------------------------------------------------------------------------------

/-- What comes to a free head changes its own ring alone, in its head and in what has arrived (R343). -/
theorem promote_eq (s : State) (r : Nat) : s.promote r = s ∨ ∃ rest h, s.promote r = s.modRing r (Ring.advanced rest h) := by
  unfold promote
  dsimp only
  split
  · split
    · exact .inr ⟨_, _, rfl⟩
    · exact .inl rfl
  · exact .inl rfl

theorem promote_frame (s : State) (r : Nat) : s.promote r = { s with rings := (s.promote r).rings } := by
  rcases s.promote_eq r with h | ⟨rest, x, h⟩ <;> rw [h]
  rfl

theorem next_promote (s : State) (r q : Nat) : ((s.promote r).ring q).next = (s.ring q).next := by
  rcases s.promote_eq r with h | ⟨rest, x, h⟩ <;> rw [h]
  exact ring_modRing_keep Ring.next (f := Ring.advanced rest x) (fun _ => rfl) r q

/-- An update of a ring leaves the others. -/
theorem ring_modRing_other {q : Nat} (f : Ring → Ring) (h : q ≠ r) : (s.modRing r f).ring q = s.ring q := by
  simp [ring, modRing, List.getD_eq_getElem?_getD, h.symm]

theorem ring_promote_other {q : Nat} (h : q ≠ r) : (s.promote r).ring q = s.ring q := by
  rcases s.promote_eq r with hp | ⟨rest, x, hp⟩ <;> rw [hp]
  exact ring_modRing_other _ h

/-- Where nothing has arrived nothing comes to the head. -/
theorem promote_of_none (h : (s.ring r).arrived = []) : s.promote r = s := by
  cases hhead : (s.ring r).atHead with
  | none => simp [promote, hhead, h]
  | some x => exact promote_of_atHead (by simp [hhead])

-- The waymark --------------------------------------------------------------------------------------------------------

/-- The payloads of a waymark's records (R608). -/
def waymarkPayload (s : State) (r : Nat) (d : Desc) (status : Nat) (q : Resolved) : List (List Byte) :=
  let pads := status == 0 && d.padEn
  waymarkParts s.wb.nextSeq (s.ring r).next.toNat r s.seals.compatGen.toNat status (q.reads.filter fun p => p.2 != 0)
    (if pads then d.padCh else 0xFF) (if pads then (s.pad.active.getD d.padCh 0).toNat else 0) q.progGen d

/-- The member that a waymark makes of its descriptor (R343, R476, R613). -/
def entering (s : State) (r : Nat) (d : Desc) (status : Nat) (q : Resolved) (joins : Bool) : Member :=
  let padVal := if status == 0 && d.padEn then (s.pad.active.getD d.padCh 0).toNat else 0
  let resv := State.reserve d (status == 0) (!joins) (q.reads.filter fun p => p.2 != 0).length
  { newMember s.wb.nextSeq r (s.ring r).next d status s.seals.compatGen.toNat q padVal s.wb.tail
      (resv - (s.waymarkPayload r d status q).length) with mirrorDone := !(s.needsDone d) }

/-- A block that has spent a sequence number and an index (R343 step 4). -/
def spent (s : State) (r : Nat) (seq : Nat) (groups : List Group) : State :=
  ({ s with groups := groups }.modRing r Ring.served).modWb fun w => { w with nextSeq := seq + 1 }

/-- What the acceptance stage does before and after it writes the waymark. -/
theorem writeWaymark_eq (s : State) (r : Nat) (d : Desc) (status : Nat) (q : Resolved) :
    let joins := d.fuse && (s.openGroup r).isSome
    let s1 := if joins then s else s.endOpenGroup r
    s.writeWaymark r d status q =
      (((s1.spent r s.wb.nextSeq (s1.enrolled r (s.entering r d status q joins) d.last joins (status == 0))).wbWrite Ty.waymark
        (s.waymarkPayload r d status q) (.waymark s.wb.nextSeq)).promote r) := by
  intro joins s1
  have henrol := enrol_frame s1 r (s.entering r d status q joins) d.last joins (status == 0)
  rw [spent, ← henrol]
  rfl

/-- The next index of a ring is spent once, whatever group ends (R343). -/
theorem next_spent (hr : r < s.rings.length) {u : State} (hu : u.rings = s.rings) (seq : Nat) (gs : List Group) (ty : Nat)
    (parts : List (List Byte)) (act : Act) :
    ((((u.spent r seq gs).wbWrite ty parts act).promote r).ring r).next = (s.ring r).next + 1 := by
  have hsame : ((u.spent r seq gs).wbWrite ty parts act).ring r = (u.spent r seq gs).ring r :=
    (congrArg (fun t => State.ring t r) (wbWrite_wrote _ ty parts act).2 :)
  have hring : u.ring r = s.ring r := congrArg (fun l : List Ring => l.getD r resetRing) hu
  rw [next_promote, hsame]
  change (((u.modRing r Ring.served).ring r).next) = _
  rw [ring_modRing _ (hu ▸ hr), hring]
  rfl

/-- So is the next sequence number. -/
theorem nextSeq_spent (u : State) (r seq ty : Nat) (gs : List Group) (parts : List (List Byte)) (act : Act) :
    (((u.spent r seq gs).wbWrite ty parts act).promote r).wb.nextSeq = seq + 1 := by
  rw [promote_frame]
  exact (congrArg Wb.nextSeq (wbWrite_wrote (u.spent r seq gs) ty parts act).1.journal.wb :)

/-- Where no group has ended, the waymark's records and what its descriptor has become are all that has happened. -/
theorem spent_wbWrite_promote (s : State) (r seq ty : Nat) (gs : List Group) (parts : List (List Byte)) (act : Act) (hr : r < s.rings.length) :
    let t := ((s.spent r seq gs).wbWrite ty parts act).promote r
    t = { s with rings := t.rings, groups := gs, wb := t.wb, cw := t.cw, out := t.out, staging := t.staging, ue := t.ue } ∧
      State.Wrote { s with wb := { s.wb with nextSeq := seq + 1 } } t [⟨ty, parts, act⟩] ∧
      (∀ q, q ≠ r → t.ring q = s.ring q) ∧
      ((s.ring r).arrived = [] → t.rings = s.rings.modify r Ring.served) := by
  intro t
  obtain ⟨hwrote, hframe⟩ := (s.spent r seq gs).wbWrite_wrote ty parts act
  have hpromote : t = _ := promote_frame _ r
  have hothers : ∀ q, q ≠ r → t.ring q = ((s.spent r seq gs).wbWrite ty parts act).ring q := fun q hq => ring_promote_other hq
  have hfree : (((s.spent r seq gs).wbWrite ty parts act).ring r).arrived = [] → t = _ := promote_of_none
  generalize (s.spent r seq gs).wbWrite ty parts act = v at hwrote hframe hpromote hothers hfree
  have hrings : v.rings = s.rings.modify r Ring.served := (congrArg State.rings hframe :)
  have hring (q : Nat) : v.ring q = (s.modRing r Ring.served).ring q := congrArg (fun l : List Ring => l.getD q resetRing) hrings
  refine ⟨?_, ?_, fun q hq => ?_, fun harrived => ?_⟩
  · rw [hpromote, hframe]
    rfl
  · have hprepared : State.Wrote { s with wb := { s.wb with nextSeq := seq + 1 } } v [⟨ty, parts, act⟩] := hwrote.of_prepared
    refine hprepared.trans (congrArg State.regs hframe :) (congrArg State.seals hframe :) ?_
    rw [hpromote]
    exact .of_same rfl rfl rfl rfl
  · rw [hothers q hq, hring, ring_modRing_other _ hq]
  · rw [hfree (by rw [hring, ring_modRing _ hr]; exact harrived), hrings]

/-- The acceptance stage serves the head of a ring where nothing holds it and the waybook has room (R343, R612). -/
theorem exec_waymarkWrite {x : Head} (hhead : (s.ring r).atHead = some x) (hwaiting : x.waiting = false) (htaking : (s.ring r).taking = true)
    (hstopped : s.wb.stopped = false) (hsettled : s.unsettled = false) (hready : s.isReady 9 = true) (hfenced : s.inc.fenced = false)
    (hseal : s.sealHolds x.bytes = false) {st : Nat} (hst : (if x.settled then x.status else s.check r x.bytes) = st)
    (hneeds : st = 0 → s.needsReady x.bytes = true) {q : Resolved}
    (hq : (if st == 0 then (s.resolve x.bytes).getD ⟨[], 0, 0, 0⟩ else ⟨[], 0, 0, 0⟩) = q)
    (hroom : s.wbRoom (State.reserve x.bytes (st == 0) (!(x.bytes.fuse && (s.openGroup r).isSome))
      (q.reads.filter fun p => p.2 != 0).length) = true) :
    exec (.waymarkWrite r) s = .next (s.writeWaymark r x.bytes st q) := by
  have hgo : (st == 0 && !s.needsReady x.bytes) = false := by
    by_cases h0 : st = 0 <;> simp [h0, hneeds]
  change execWaymarkWrite r s = _
  simp only [execWaymarkWrite, hhead, hwaiting, htaking, hstopped, hsettled, hready, hfenced, hseal, hst, hgo, hq, hroom, Bool.not_true,
    Bool.or_self, Bool.false_eq_true, if_false, if_true]

end State

-- The statement ------------------------------------------------------------------------------------------------------

/-- Settles O26: the waymark of a descriptor that the acceptance stage serves. -/
theorem waymarkIsWritten : Obligations.WaymarkIsWritten := by
  intro s ring x hr64 hlen hhead hwaiting htaking hstopped hsettled hready hfenced hseal hnew st hneeds q nz joins resv hroom pads padVal parts m
    killed
  have hr : ring < s.rings.length := hlen ▸ hr64
  have hexec := State.exec_waymarkWrite hhead hwaiting htaking hstopped hsettled hready hfenced hseal rfl hneeds rfl hroom
  generalize ht : s.writeWaymark ring x.bytes st q = t at hexec
  let s1 := if joins then s else s.endOpenGroup ring
  have hshape : t = ((s1.spent ring s.wb.nextSeq (s1.enrolled ring m x.bytes.last joins (st == 0))).wbWrite Ty.waymark parts
      (.waymark s.wb.nextSeq)).promote ring := ht.symm.trans (State.writeWaymark_eq s ring x.bytes st q)
  have hs1 : joins = true ∨ s.openGroup ring = none → s1 = s := by
    rintro (hjoins | hnone)
    · exact if_pos hjoins
    · simp only [s1, State.endOpenGroup_of_none hnone, ite_self]
  have hrings : s1.rings = s.rings := by
    cases hjoins : joins
    · simpa [s1, hjoins] using State.rings_endOpenGroup s ring
    · simp [s1, hjoins]
  have hwritten : joins = true ∨ s.openGroup ring = none →
      t = { s with rings := t.rings, groups := s.enrolled ring m x.bytes.last joins (st == 0), wb := t.wb, cw := t.cw, out := t.out,
                   staging := t.staging, ue := t.ue } ∧
        State.Wrote { s with wb := { s.wb with nextSeq := s.wb.nextSeq + 1 } } t [⟨Ty.waymark, parts, .waymark s.wb.nextSeq⟩] ∧
        (∀ r, r ≠ ring → t.ring r = s.ring r) ∧
        ((s.ring ring).arrived = [] → t.rings = s.rings.modify ring Ring.served) := fun hstart => by
    rw [hs1 hstart] at hshape
    exact hshape ▸ State.spent_wbWrite_promote s ring s.wb.nextSeq Ty.waymark _ parts (.waymark s.wb.nextSeq) hr
  refine ⟨t, hexec, hshape ▸ State.nextSeq_spent .., ?_, fun hstart => ?_, fun hjoins hnone => ?_,
    fun pre g post hjoins hs hring hopen hmembers hothers => ?_⟩
  · rw [hshape]
    exact State.next_spent hr hrings _ _ _ _ _
  · obtain ⟨hframe, hrest⟩ := hwritten hstart
    refine ⟨?_, hrest⟩
    have hgroups : t.groups = s.enrolled ring m x.bytes.last joins (st == 0) := (congrArg State.groups hframe :)
    rw [hgroups]
    exact hframe
  · obtain ⟨hframe, -⟩ := hwritten (.inr hnone)
    rw [(congrArg State.groups hframe :), hjoins]
    exact State.enrolled_new (m := m) hnew
  · obtain ⟨hframe, -⟩ := hwritten (.inl hjoins)
    rw [(congrArg State.groups hframe :), hjoins]
    exact State.enrolled_join (m := m) hnew hs hring hopen hmembers hothers

end Sys2Proof.Machine
end

section
/-!
Groups that close and control operations that are due (R361, R451 to R455, R458, R494, R608, R614, R620, R621): the entries that DRAIN_POINT,
OUTPUT_WRITES_COMPLETE, FENCE, MARK, CAPTURE and PEEK write, and what they make of their group.
-/
namespace Sys2Proof.Machine
open Sys2Proof

-- A group, once updated ----------------------------------------------------------------------------------------------

/-- A group whose GROUP_CLOSE has been written (R494). -/
def Group.closing (g : Group) : Group := { g with closeWritten := true }

/-- A group whose work has been given out (R486). -/
def Group.issuing (g : Group) : Group := { g with issued := true }

/-- A member with its result. -/
def Member.withResult (r : Result) (m : Member) : Member := { m with result := some r }

/-- A member whose capture headers have left (R455). -/
def Member.headless (m : Member) : Member := { m with capHeads := [] }

/-- The numbers of a group's members. -/
def Group.seqs (g : Group) : List Nat := g.members.map (·.seq)

namespace Group
variable {g : Group} {q : Nat}

/-- An update of members that keeps their numbers keeps the group's. -/
theorem seqs_modMember {f : Member → Member} (hf : ∀ m, (f m).seq = m.seq) (q : Nat) (g : Group) : (g.modMember q f).seqs = g.seqs := by
  simp only [seqs, modMember, List.map_map]
  refine List.map_congr_left fun m _ => ?_
  simp only [Function.comp]
  split
  · exact hf m
  · rfl

/-- A group with a member is named by a number of its own. -/
theorem firstSeq_mem_seqs (h : q ∈ g.seqs) : g.firstSeq ∈ g.seqs := by
  unfold seqs firstSeq at *
  split
  · simp [*]
  · simp [*] at h

theorem any_seq_iff : g.members.any (·.seq == q) = true ↔ q ∈ g.seqs := by simp [seqs]

end Group

/-- The group that a number names holds it. -/
theorem State.mem_seqs_of_group? {s : State} {q : Nat} {g : Group} (h : s.group? q = some g) : q ∈ g.seqs :=
  Group.any_seq_iff.1 (List.find?_some (p := fun g : Group => g.members.any (·.seq == q)) h)

namespace State.GroupBecame
variable {s t u : State} {g g' g'' : Group} {q : Nat}

/-- An operation that does not see the groups. -/
theorem of_groups (h : s.GroupBecame t g g') (hu : u.groups = t.groups) : s.GroupBecame u g g' := by
  obtain ⟨f, hgroups, hrest⟩ := h
  exact ⟨f, hu.trans hgroups, hrest⟩

theorem trans (h : s.GroupBecame t g g') (k : t.GroupBecame u g' g'') (hseqs : g'.seqs = g.seqs) : s.GroupBecame u g g'' := by
  obtain ⟨f, hf, rfl, hother⟩ := h
  obtain ⟨f', hf', rfl, hother'⟩ := k
  refine ⟨f' ∘ f, by rw [hf', hf, List.map_map], rfl, fun x hx => ?_⟩
  rw [Function.comp, hother x hx]
  refine hother' x fun m hm => ?_
  have hmem : m.seq ∈ g.seqs := hseqs ▸ List.mem_map_of_mem hm
  obtain ⟨m₀, hm₀, hseq⟩ := List.mem_map.1 hmem
  exact hseq ▸ hx m₀ hm₀

/-- Groups that share no number with one that holds `q` do not hold it. -/
theorem not_mem_seqs {x : Group} (hq : q ∈ g.seqs) (hx : ∀ m ∈ g.members, x.members.any (·.seq == m.seq) = false) : q ∉ x.seqs := by
  obtain ⟨m, hm, rfl⟩ := List.mem_map.1 hq
  exact fun h => Bool.false_ne_true ((hx m hm).symm.trans (Group.any_seq_iff.2 h))

theorem modGroup (hq : q ∈ g.seqs) (f : Group → Group) : s.GroupBecame (s.modGroup q f) g (f g) :=
  ⟨_, rfl, if_pos (Group.any_seq_iff.2 hq), fun _ hx => if_neg fun h => not_mem_seqs hq hx (Group.any_seq_iff.1 h)⟩

theorem modMember (hq : q ∈ g.seqs) (f : Member → Member) : s.GroupBecame (s.modMember q f) g (g.modMember q f) := by
  refine ⟨_, State.groups_modMember s q f, rfl, fun x hx => ?_⟩
  have hsame : x.members.map (fun m => if m.seq == q then f m else m) = x.members := by
    refine (List.map_congr_left fun m hm => if_neg fun h => not_mem_seqs hq hx ?_).trans (List.map_id _)
    exact List.mem_map.2 ⟨m, hm, by simpa using h⟩
  exact congrArg (fun ms : List Member => { x with members := ms }) hsame

end State.GroupBecame

-- The drain point ----------------------------------------------------------------------------------------------------

section Close
variable {s : State} {q : Nat} {g : Group}

/-- DRAIN_POINT of a group that has drained, with no walk behind it (R494, R620). -/
theorem exec_drainPoint (hg : s.group? q = some g) (hdrained : s.drained g = true) (hseen : g.closeSeen = false) :
    exec (.drainPoint q) s = .next ((s.modGroup q Group.closing).wbWriteFor g.firstSeq Ty.groupClose
      [groupClosePart g.firstSeq g.members.length g.ring] (.groupClose g.firstSeq)) := by
  change execDrainPoint q s = _
  simp only [execDrainPoint, hg, hdrained, hseen, if_true, if_neg Bool.false_ne_true]
  rfl

/-- GROUP_CLOSE stands in the journal, written from the reservation of the group's first member (R612, R620). -/
theorem exec_drainPoint_closes (hg : s.group? q = some g) (hdrained : s.drained g = true) (hseen : g.closeSeen = false) :
    ∃ t, exec (.drainPoint q) s = .next t ∧
      t = { s with groups := t.groups, wb := t.wb, cw := t.cw, out := t.out, staging := t.staging, ue := t.ue } ∧
      s.Wrote t [⟨Ty.groupClose, [groupClosePart g.firstSeq g.members.length g.ring], .groupClose g.firstSeq⟩] ∧
      s.GroupBecame t g (g.closing.modMember g.firstSeq (Member.spend 1)) := by
  have hq := State.mem_seqs_of_group? hg
  have hrec := Recorded.wbWriteFor (s.modGroup q Group.closing) g.firstSeq Ty.groupClose
    [groupClosePart g.firstSeq g.members.length g.ring] (.groupClose g.firstSeq)
  refine ⟨_, exec_drainPoint hg hdrained hseen, hrec.frame, hrec.wrote.of_prepared, ?_⟩
  have hspent := State.GroupBecame.modMember (s := s.modGroup q Group.closing) (g := g.closing) (Group.firstSeq_mem_seqs hq) (Member.spend 1)
  exact (State.GroupBecame.modGroup hq Group.closing).trans (hspent.of_groups hrec.groups) rfl

end Close

-- The last output response -------------------------------------------------------------------------------------------

namespace State
variable {s t u : State} {g : Group} {m : Member}

/-- Entries after writes. -/
theorem Wrote.of_writes {es : List Entry} {ws : List (Nat × Nat)} (h : s.Wrote t [] ws) (k : t.Wrote u es)
    (hregs : t.regs = s.regs) (hseals : t.seals = s.seals) : s.Wrote u es ws := by
  have hboth := h.trans hregs hseals k
  rwa [List.append_nil] at hboth

/-- The capture headers of a descriptor alone in its block leave, and wait no more (R455). -/
theorem writeHeads_of_only (h : s.only g m) :
    s.writeHeads g = (m.capHeads.foldl (fun s w => s.wr w.1 w.2) s).modMember m.seq Member.headless := by
  simp only [writeHeads, h.2, List.foldl_cons, List.foldl_nil]
  by_cases hnone : m.capHeads = []
  · have hsame : m.headless = m := by
      rw [Member.headless, ← hnone]
    have hgroups : (s.modMember m.seq Member.headless).groups = s.groups := by
      rw [(only_modMember h _).1, hsame, ← h.2, h.1]
    simp only [hnone, List.isEmpty_nil, if_true, List.foldl_nil]
    exact (congrArg (fun gs : List Group => { s with groups := gs }) hgroups).symm
  · exact if_neg (by simpa using hnone)

/-- What a fingerprint names of a member is not its capture headers (R594, R596). -/
theorem memberFp_headless (hg : g.members = [m]) : s.memberFp { g with members := [m.headless] } m.headless = s.memberFp g m := by
  simp [memberFp, hg, Member.headless, ingotIds, Member.nonzero, List.filterMap_cons]

/-- Nor are they in its milepost, and what has left or has been stored is not either (R359, R365). -/
theorem milepostBytes_headless (hg : g.members = [m])
    (hframe : t = { s with groups := t.groups, out := t.out, staging := t.staging, ue := t.ue }) :
    t.milepostBytes { g with members := [m.headless] } m.headless = s.milepostBytes g m := by
  have hhall : s.hallmark { g with members := [m.headless] } m.headless = s.hallmark g m := by
    simp only [hallmark, hallHeader, memberFp_headless hg]
    rfl
  rw [hframe, milepostBytes, milepostBytes, ← hhall]
  rfl

/-- OUTPUT_WRITES_COMPLETE of a group whose writes have left (R35, R621). -/
theorem exec_outputWritesComplete {q : Nat} (hg : s.group? q = some g) (hwrote : g.wrote = true) (hout : g.outDone = false) :
    exec (.outputWritesComplete q) s = .next ((s.writeHeads g).controlDone q).retryWrites := by
  change execOutputWritesComplete q s = _
  simp only [execOutputWritesComplete, hg, hwrote, hout]
  rfl

/-- The headers leave, and beside them only their member has changed (R455). -/
theorem writeHeads_leave (h : s.only g m) :
    let u := s.writeHeads g
    u = { s with groups := [{ g with members := [m.headless] }], out := u.out, staging := u.staging, ue := u.ue } ∧
      s.Wrote u [] (m.capHeads.map fun h => (h.1, h.2.length)) ∧ ∀ h ∈ m.capHeads, s.Left u h.1 h.2 := by
  intro u
  have hu : u = _ := writeHeads_of_only h
  obtain ⟨hwrought, hleft⟩ := foldl_wr_wrought m.capHeads s
  generalize m.capHeads.foldl (fun s w => s.wr w.1 w.2) s = v at hu hwrought hleft
  have hgroups := (only_modMember (s := v) ⟨(congrArg State.groups hwrought.frame).trans h.1, h.2⟩ Member.headless).1
  have hframe : v.modMember m.seq Member.headless =
      { v with groups := [{ g with members := [m.headless] }] } := congrArg (fun gs : List Group => { v with groups := gs }) hgroups
  have hwrites : s.Wrote v [] _ := .of_wrought hwrought
  rw [hu, hframe]
  refine ⟨?_, hwrites.of_writes (.of_same rfl rfl rfl rfl) (congrArg State.regs hwrought.frame :) (congrArg State.seals hwrought.frame :), hleft⟩
  rw [hwrought.frame]

/-- Entries take nothing back that has left. -/
theorem Wrote.out_extends {es : List Entry} {ws : List (Nat × Nat)} (h : s.Wrote t es ws) : ∃ l, t.out = s.out ++ l := by
  obtain ⟨l, hl, -⟩ := h.journal.out
  exact ⟨l, hl⟩

/-- The headers of a descriptor alone in its block are written, then its PUBLISHED entry (R455, R621). -/
theorem exec_outputWritesComplete_publishes (h : s.only g m) (hfresh : g.fresh m) (hfenced : s.inc.fenced = false) (hdead : g.dead = false)
    (hwrote : g.wrote = true) (hout : g.outDone = false) :
    let b := s.milepostBytes g m
    ∃ t, exec (.outputWritesComplete m.seq) s = .next t ∧
      t = { s with groups := [{ g with outDone := true, members := [{ m with capHeads := [], milepost := some b, resv := m.resv - 2 }] }],
                   wb := t.wb, cw := t.cw, out := t.out, staging := t.staging, ue := t.ue, freeCtr := s.freeCtr + 1 } ∧
      s.Wrote t [⟨Ty.published, publishedParts b m.idx.toNat, .published m.seq⟩] (m.capHeads.map (fun h => (h.1, h.2.length))) ∧
      ∀ h ∈ m.capHeads, s.Left t h.1 h.2 := by
  intro b
  rw [exec_outputWritesComplete (group?_of_only h) hwrote hout]
  obtain ⟨hheads, hwrites, hleft⟩ := writeHeads_leave h
  generalize s.writeHeads g = u at hheads hwrites hleft
  have honly : u.only { g with members := [m.headless] } m.headless := ⟨(congrArg State.groups hheads :), rfl⟩
  have hgroups := honly.1
  have hb : u.milepostBytes { g with members := [m.headless] } m.headless = b :=
    milepostBytes_headless h.2 (by rw [hgroups]; exact hheads)
  obtain ⟨hframe, hentry⟩ := controlDone_publishes honly hfresh hdead ((congrArg (·.inc.fenced) hheads).trans hfenced)
  rw [hb] at hframe hentry
  have hidle := retryWrites_of_only (s := u.controlDone m.seq) ⟨(congrArg State.groups hframe :), rfl⟩ fun _ => hwrote
  refine ⟨u.controlDone m.seq, congrArg _ hidle, ?_,
    hwrites.of_writes hentry (congrArg State.regs hheads :) (congrArg State.seals hheads :), fun x hx => (hleft x hx).mono hentry.out_extends⟩
  rw [hheads] at hframe ⊢
  exact hframe

end State

-- Control operations that are due ------------------------------------------------------------------------------------

/-- A ring with a capture area, or without one (R453). -/
def Ring.withCap (c : Option CapArea) (r : Ring) : Ring := { r with cap := c }

namespace State
variable {s u : State} {g : Group} {m : Member}

/-- Nothing comes before a descriptor that stands alone in its block: no FENCE, no group, and nothing that its own FENCE waits for
(R451, R454). -/
theorem fenceBlocks_of_only (h : s.only g m) : s.fenceBlocks g = false := by
  simp [fenceBlocks, h.1]

theorem ringInOrder_of_only (h : s.only g m) : s.ringInOrder g = true := by
  simp [ringInOrder, h.1]

theorem fenceDone_of_only (h : s.only g m) : s.fenceDone m = true := by
  simp [fenceDone, h.1, h.2]

/-- An accepted control operation alone in its block is due. -/
theorem due_of_only {o : Op} (h : s.only g m) (hfresh : g.fresh m) (haccepted : m.accepted = true) (hdead : g.dead = false)
    (hout : g.outDone = false) (hfenced : s.inc.fenced = false) (hop : m.bytes.is o = true) (order : Bool) :
    s.due m.seq o order = some (g, m) := by
  obtain ⟨-, hpub, -, htaken, -⟩ := hfresh
  simp [due, group?_of_only h, member?_of_only h, fenceBlocks_of_only h, hop, haccepted, htaken, hdead, hout, hpub, hfenced]

/-- It is the oldest descriptor (R615). -/
theorem oldest_of_only (h : s.only g m) (hpub : g.published = false) : s.oldest = some m := by
  simp [oldest, h.1, h.2, hpub]

/-- A milepost goes by nothing of its ring but the size (R359). -/
theorem milepostBytes_withCap (s : State) (q : Nat) (c : Option CapArea) (g : Group) (m : Member) :
    (s.modRing q (Ring.withCap c)).milepostBytes g m = s.milepostBytes g m := by
  have hphase : (s.modRing q (Ring.withCap c)).phase m.ring m.idx = s.phase m.ring m.idx := by
    simp only [phase, ring_modRing_keep Ring.sizeLog2 (f := Ring.withCap c) fun _ => rfl]
  simp only [milepostBytes, hphase]
  rfl

/-- What the end of a control operation alone in its block comes to, once its rings have been updated and bytes written (R361, R621). -/
def Ended (s t : State) (g : Group) (m : Member) (rings : List Ring) (ws : List (Nat × Nat)) : Prop :=
  let b := s.milepostBytes g m
  t = { s with groups := [{ g with outDone := true, members := [{ m with milepost := some b, resv := m.resv - 2 }] }],
               rings := rings, wb := t.wb, cw := t.cw, out := t.out, staging := t.staging, ue := t.ue, freeCtr := s.freeCtr + 1 } ∧
    s.Wrote t [⟨Ty.published, publishedParts b m.idx.toNat, .published m.seq⟩] ws

section Alone
variable {rings : List Ring} {ws : List (Nat × Nat)}
  (h : s.only g m) (hfresh : g.fresh m) (hdead : g.dead = false) (hfenced : s.inc.fenced = false)
include h hfresh hdead hfenced

/-- The end of an operation goes by the state before it where its milepost does. -/
theorem controlDone_ended (hu : u = { s with rings := rings, out := u.out, staging := u.staging, ue := u.ue })
    (hwrites : s.Wrote u [] ws) (hb : u.milepostBytes g m = s.milepostBytes g m) :
    s.Ended (u.controlDone m.seq) g m rings ws ∧ ∃ l, (u.controlDone m.seq).out = u.out ++ l := by
  have honly : u.only g m := ⟨(congrArg State.groups hu).trans h.1, h.2⟩
  obtain ⟨hframe, hwrote⟩ := controlDone_publishes honly hfresh hdead ((congrArg (·.inc.fenced) hu).trans hfenced)
  rw [hb] at hframe hwrote
  refine ⟨⟨?_, hwrites.of_writes hwrote (congrArg State.regs hu :) (congrArg State.seals hu :)⟩, hwrote.out_extends⟩
  generalize u.controlDone m.seq = t at hframe
  rw [hu] at hframe
  exact hframe

/-- An operation that only ends. -/
theorem controlDone_ended_self : s.Ended (s.controlDone m.seq) g m s.rings [] :=
  (controlDone_ended h hfresh hdead hfenced rfl (.of_same rfl rfl rfl rfl) rfl).1

/-- An area that closes is no entry and no write (R453). -/
theorem modRing_controlDone_ended (c : Option CapArea) :
    s.Ended ((s.modRing m.ring (Ring.withCap c)).controlDone m.seq) g m (s.rings.modify m.ring (Ring.withCap c)) [] :=
  (controlDone_ended (u := s.modRing m.ring (Ring.withCap c)) h hfresh hdead hfenced rfl (.of_same rfl rfl rfl rfl)
    (milepostBytes_withCap s m.ring c g m)).1

/-- Of an area that opens the head is written (R453). -/
theorem modRing_wr_controlDone_ended (c : Option CapArea) (a : Nat) (bs : List Byte) :
    let t := ((s.modRing m.ring (Ring.withCap c)).wr a bs).controlDone m.seq
    s.Ended t g m (s.rings.modify m.ring (Ring.withCap c)) [(a, bs.length)] ∧ s.Left t a bs := by
  have hwrought := (s.modRing m.ring (Ring.withCap c)).wr_wrought a bs
  have hleft := (Left.of_wr (s.modRing m.ring (Ring.withCap c)) a bs).of_regs (s := s) rfl
  generalize (s.modRing m.ring (Ring.withCap c)).wr a bs = u at hwrought hleft
  have hsame : s.Wrote (s.modRing m.ring (Ring.withCap c)) [] := .of_same rfl rfl rfl rfl
  have hwrites : s.Wrote u [] [(a, bs.length)] := hsame.trans rfl rfl (.of_wrought hwrought)
  have hb : u.milepostBytes g m = s.milepostBytes g m := by
    rw [hwrought.frame]
    exact milepostBytes_withCap s m.ring c g m
  obtain ⟨hended, hout⟩ := controlDone_ended h hfresh hdead hfenced hwrought.frame hwrites hb
  exact ⟨hended, hleft.mono hout⟩

end Alone

/-- The head of an area that opens: NEXT 64, nothing dropped (R453). -/
theorem capHead_new (a len : Nat) : capHead ⟨a, len, 64, 0⟩ = toBytes 8 64 ++ zeroBytes 56 := by
  simp only [capHead]
  decide

-- The commands -------------------------------------------------------------------------------------------------------

section Commands
variable {q : Nat}

theorem exec_fence (hdue : s.due q .fence false = some (g, m)) (hdone : s.fenceDone m = true) :
    exec (.fence q) s = .next (s.controlDone q) := by
  change execFence q s = _
  simp only [execFence, hdue, hdone, if_true]

/-- A MARK without CKPT (R452). -/
theorem exec_mark_plain (hdue : s.due q .mark true = some (g, m)) (hckpt : m.bytes.ckpt = false) :
    exec (.mark q) s = .next (s.controlDone q) := by
  change execMark q s = _
  simp only [execMark, hdue, hckpt, Bool.not_false, Bool.true_or, if_true]

/-- A MARK with CKPT whose CHECKPOINT has not been written, with no walk behind it (R452, R614). -/
theorem exec_mark_ckpt (hdue : s.due q .mark true = some (g, m)) (hckpt : m.bytes.ckpt = true) (hseen : m.seen = [])
    (hresult : m.result = none) (hstopped : s.wb.stopped = false) :
    exec (.mark q) s = .next ((s.modMember q (Member.withResult emptyResult)).writeCheckpoint q) := by
  change execMark q s = _
  simp only [execMark, hdue, hckpt, hseen, hresult, hstopped]
  rfl

/-- A CAPTURE that opens no area (R453). -/
theorem exec_capture_off (hdue : s.due q .capture true = some (g, m)) (horder : s.ringInOrder g = true) (hlen : m.bytes.capLen = 0) :
    exec (.capture q) s = .next ((s.modRing m.ring (Ring.withCap none)).controlDone q) := by
  change execCapture q s = _
  simp only [execCapture, hdue, horder, hlen]
  rfl

/-- A CAPTURE that opens one (R453). -/
theorem exec_capture_on (hdue : s.due q .capture true = some (g, m)) (horder : s.ringInOrder g = true) (hlen : m.bytes.capLen ≠ 0) :
    exec (.capture q) s = .next (((s.modRing m.ring (Ring.withCap (some ⟨m.bytes.capAddr, m.bytes.capLen, 64, 0⟩))).wr m.bytes.capAddr
      (toBytes 8 64 ++ zeroBytes 56)).controlDone q) := by
  change execCapture q s = _
  simp only [execCapture, hdue, horder, hlen, Bool.not_true, if_neg Bool.false_ne_true, if_false, capHead_new]
  rfl

/-- The CHECKPOINT of a MARK alone in its block names its own waymark (R614, R615). -/
theorem writeCheckpoint_of_only (h : s.only g m) (hpub : g.published = false) (hseq : 0 < m.seq) :
    s.writeCheckpoint m.seq = (s.wbWriteFor m.seq Ty.checkpoint [checkpointPart m.rnum m.seq s.wb.nextSeq s.fpSettings 1 m.seq]
      (.checkpoint m.rnum m.seq)).modWb fun w => { w with since := 0 } := by
  have hmark : m.seq ≠ 0 := Nat.pos_iff_ne_zero.1 hseq
  simp only [writeCheckpoint, oldest_of_only h hpub, hmark, if_false]

end Commands
end State

-- PEEK ---------------------------------------------------------------------------------------------------------------

section Peek
variable {s : State} {q : Nat} {g : Group} {m : Member}

/-- The granules that a PEEK copies, as a read finds them (R458). -/
def State.peeked (s : State) (d : Desc) : List (List Byte) :=
  (List.range d.peekCount).map fun i => s.stageBytes (65536 * (d.peekGran + i)) 65536

theorem State.group?_of_due {o : Op} {order : Bool} (h : s.due q o order = some (g, m)) : s.group? q = some g := by
  unfold State.due at h
  split at h
  · rename_i hg _
    obtain ⟨-, hsame⟩ := Option.ite_none_right_eq_some.1 h
    cases hsame
    exact hg
  · cases h

/-- PEEK where no word of its granules is in error (R458, R644). -/
theorem exec_peek (hdue : s.due q .peek true = some (g, m)) (hresult : m.result = none) (hopen : g.openSeen = false)
    (hgood : s.ueIn (65536 * m.bytes.peekGran) (65536 * m.bytes.peekCount) = none) :
    exec (.peek q) s = .next (((s.wbWriteFor g.firstSeq Ty.groupOpen [groupOpenPart g.firstSeq g.members.length g.ring 0] .none).modGroup q
      Group.issuing).modMember q (Member.withResult ⟨none, s.peeked m.bytes, [], none, []⟩)).bump := by
  change execPeek q s = _
  simp only [execPeek, hdue, hresult, hgood, State.writeOpen, hopen]
  rfl

/-- A group whose first member has spent a record is given out, and a member of it has its result. -/
theorem Recorded.groupBecame_withResult {u : State} {es : List Entry} (h : Recorded s u g.firstSeq (Member.spend 1) es) (hq : q ∈ g.seqs)
    (r : Result) :
    s.GroupBecame ((u.modGroup q Group.issuing).modMember q (Member.withResult r)).bump g { g with
      issued := true,
      members := g.members.map (fun x =>
        let y := if x.seq = g.firstSeq then { x with resv := x.resv - 1 } else x
        if x.seq = q then { y with result := some r } else y) } := by
  have hspent := (State.GroupBecame.modMember (s := s) (Group.firstSeq_mem_seqs hq) (Member.spend 1)).of_groups h.groups
  have hseqs := Group.seqs_modMember (f := Member.spend 1) (fun _ => rfl) g.firstSeq g
  have hq' : q ∈ (g.modMember g.firstSeq (Member.spend 1)).seqs := hseqs ▸ hq
  have hissued := hspent.trans (State.GroupBecame.modGroup hq' Group.issuing) hseqs
  have hcopied := hissued.trans (State.GroupBecame.modMember (g := (g.modMember g.firstSeq (Member.spend 1)).issuing) hq'
    (Member.withResult r)) hseqs
  refine Eq.mp (congrArg (s.GroupBecame _ g) ?_) (hcopied.of_groups rfl)
  simp only [Group.modMember, Group.issuing, Group.mk.injEq, true_and, and_true, List.map_map]
  refine List.map_congr_left fun x _ => ?_
  by_cases hfirst : x.seq = g.firstSeq
  · simp only [Function.comp, beq_iff_eq, if_pos hfirst]
    rfl
  · simp only [Function.comp, beq_iff_eq, if_neg hfirst]
    rfl

end Peek

-- The statements -----------------------------------------------------------------------------------------------------

/-- Settles O32: the entry of the drain point, and the headers and the entry of the last output response. -/
theorem groupsCloseAndPublish : Obligations.GroupsCloseAndPublish := by
  refine ⟨fun s q g hg hdrained hseen => ?_, fun s g m honly hfresh hfenced hdead hwrote hout =>
    State.exec_outputWritesComplete_publishes honly hfresh hfenced hdead hwrote hout⟩
  obtain ⟨t, hexec, hframe, hentry, hbecame⟩ := exec_drainPoint_closes hg hdrained hseen
  exact ⟨t, _, hexec, hframe, hentry, hbecame, by simp [Group.modMember, Group.closing, Member.spend]⟩

/-- Settles O34: alone in its block each operation is due, and what it does comes before its PUBLISHED entry or its CHECKPOINT. -/
theorem controlOperationsPublish : Obligations.ControlOperationsPublish := by
  intro s g m honly hfresh haccepted hdead hout hfenced ends
  have hdue := fun o => State.due_of_only (o := o) honly hfresh haccepted hdead hout hfenced
  have horder := State.ringInOrder_of_only honly
  have hended := State.controlDone_ended_self honly hfresh hdead hfenced
  refine ⟨fun hop => ?_, fun hop hckpt => ?_, fun hop hckpt hseen hresult hstopped hseq => ?_, fun hop hlen => ?_, fun hop hlen => ?_⟩
  · exact ⟨_, State.exec_fence (hdue .fence hop false) (State.fenceDone_of_only honly), hended⟩
  · exact ⟨_, State.exec_mark_plain (hdue .mark hop true) hckpt, hended⟩
  · obtain ⟨-, hpub, -⟩ := hfresh
    have hone := State.only_modMember honly (Member.withResult emptyResult)
    have hmark := State.exec_mark_ckpt (hdue .mark hop true) hckpt hseen hresult hstopped
    have hrec := (Recorded.modMember s m.seq (f := Member.withResult emptyResult) fun _ => rfl).trans
      (Recorded.wbWriteFor _ m.seq Ty.checkpoint [checkpointPart m.rnum m.seq s.wb.nextSeq s.fpSettings 1 m.seq] (.checkpoint m.rnum m.seq))
    have hwrite := State.writeCheckpoint_of_only hone hpub hseq
    refine ⟨_, hmark.trans (congrArg _ hwrite), ?_, hrec.wrote⟩
    have hframe := hrec.frame
    rw [hrec.groups, (State.only_modMember honly _).1] at hframe
    exact hframe
  · exact ⟨_, State.exec_capture_off (hdue .capture hop true) horder hlen, State.modRing_controlDone_ended honly hfresh hdead hfenced none⟩
  · obtain ⟨hcap, hleft⟩ := State.modRing_wr_controlDone_ended honly hfresh hdead hfenced (some ⟨m.bytes.capAddr, m.bytes.capLen, 64, 0⟩)
      m.bytes.capAddr (toBytes 8 64 ++ zeroBytes 56)
    exact ⟨_, State.exec_capture_on (hdue .capture hop true) horder hlen, hcap, hleft⟩

/-- Settles O40: GROUP_OPEN is written first, and neither it nor the group's issue changes what the granules hold. -/
theorem peekCopiesGranules : Obligations.PeekCopiesGranules := by
  intro s q g m hdue hresult hopen hgood data
  have hrec := Recorded.wbWriteFor s g.firstSeq Ty.groupOpen [groupOpenPart g.firstSeq g.members.length g.ring 0] .none
  have hexec := exec_peek hdue hresult hopen hgood
  generalize s.wbWriteFor _ _ _ _ = u at hrec hexec
  refine ⟨_, hexec, ?_, ?_, hrec.groupBecame_withResult (State.mem_seqs_of_group? (State.group?_of_due hdue)) _⟩
  · exact congrArg (fun u : State => ((u.modGroup q Group.issuing).modMember q (Member.withResult ⟨none, data, [], none, []⟩)).bump) hrec.frame
  · exact hrec.wrote.trans (congrArg State.regs hrec.frame :) (congrArg State.seals hrec.frame :) (.of_same rfl rfl rfl rfl)

end Sys2Proof.Machine
end

section
/-!
CHAIN, HALO and UPD on one position (R437, R442, R470, R541, R557, R601): what each makes of the inputs that it has read, with nothing from
elsewhere, and under a zero shape.
-/
namespace Sys2Proof.Machine
open Sys2Proof

/-- A member has its result and its census, and no flags; its written set may be protected with it (R575). -/
def Member.ending (safe : Bool) (r : Result) (cns : List Nat) (m : Member) : Member :=
  { m.finishing r cns 0 with mirrorDone := safe || m.mirrorDone }

/-- A command reads a member's inputs and ends the member: the values that this uses, and what it makes of the member. -/
def State.Yields (s : State) (mem : Image) (m : Member) (c : Instr) (free : Nat) (safe : Bool) (r : Result) (cns : List Nat) : Prop :=
  ∃ t m', exec c s = .next t ∧
    t = { s with groups := t.groups, wb := t.wb, cw := t.cw, out := t.out, freeCtr := s.freeCtr + free, staging := t.staging, ue := t.ue } ∧
    s.Became t m m' ∧ s.TookInputs t mem m m' ∧
    m' = { m with
      digests := m'.digests, owed := m'.owed, resv := m'.resv, caps := m'.caps, capHeads := m'.capHeads,
      result := some r, census := Census.addAll Census.zero cns, ieee := 0, mirrorDone := safe || m.mirrorDone }

/-- The end of a member that has read its inputs: `n` values have been used beside that of the reading. -/
theorem ReadsInputs.yields {s t : State} {mem : Image} {m : Member} {f : Member → Member} {c : Instr} (h : ReadsInputs s t mem m f)
    (n : Nat) (safe : Bool) (r : Result) (cns : List Nat)
    (hexec : exec c s = .next { t.modMember m.seq (Member.ending safe r cns) with freeCtr := t.freeCtr + n }) :
    s.Yields mem m c (n + 1) safe r cns := by
  have hgroups : (t.modMember m.seq (Member.ending safe r cns)).groups = (s.modMember m.seq (Member.ending safe r cns ∘ f)).groups :=
    (congrArg (List.map (Group.modMember m.seq _)) h.groups).trans (congrArg State.groups (State.modMember_modMember h.seq))
  refine ⟨_, _, hexec, ?_, ⟨_, hgroups, rfl⟩, h.took.step rfl rfl rfl rfl rfl, congrArg (Member.ending safe r cns) h.reads⟩
  have hfree : t.freeCtr + n = s.freeCtr + (n + 1) := by
    rw [show t.freeCtr = s.freeCtr + 1 from (congrArg State.freeCtr h.frame :)]
    omega
  rw [hfree]
  exact congrArg (fun t => { t.modMember m.seq (Member.ending safe r cns) with freeCtr := s.freeCtr + (n + 1) }) h.frame

-- CHAIN --------------------------------------------------------------------------------------------------------------

/-- The value of a CHAIN's item (R439). -/
def Item.value (t : Item) : Fv := match t.v with | .num x => x | _ => Fv.zero

namespace State
variable {s : State} {g : Group} {m : Member} {inp : Inputs}

/-- A CHAIN along one position combines its own values with nothing (R32, R437). -/
theorem runChain_of_not_wide (h : s.wide m.bytes = false) (inp : Inputs) :
    s.runChain g m inp = s.putChain m inp fun i =>
      Item.fold m.bytes.accOp (s.spanEnv g m inp).soft Item.empty (SpanEnv.contrib { s.spanEnv g m inp with count := m.rows * m.cols } i 0) := by
  simp only [runChain, h, if_neg Bool.false_ne_true]

/-- Under a zero shape nothing comes of it (R470). -/
theorem putChain_of_zeroShape (h : m.zeroShape = true) (done : Nat → Item) :
    s.putChain m inp done = s.finishOp m.seq ⟨none, [], [], none, []⟩ [] 0 := if_pos h

/-- The values of a CHAIN and their counts (R127, R439). -/
theorem putChain_of_shape (h : m.zeroShape = false) (done : Nat → Item) :
    let own := fun i : Nat => Fv.of32 ((inp.vals.getD (i / max 1 m.cols) []).getD (i % max 1 m.cols) 0)
    let all := List.range (m.rows * m.cols)
    s.putChain m inp done = s.finishOp m.seq
      ⟨none, (cut (max 1 m.cols) (all.map fun i => Fv.to32 (done i).value)).map (fun r => r.flatMap (toBytes 4)), [], none, []⟩
      (all.map fun i => (if (done i).value.isNan || (own i).isNan then cNAN else 0) ||| (done i).cns) 0 := by
  simp only [putChain, h, if_neg Bool.false_ne_true, List.map_map]
  rfl

-- HALO ---------------------------------------------------------------------------------------------------------------

/-- With no exchange nothing is missing of a HALO's tile: both regions take the fill (R445, R541). -/
theorem haloTile_none_isSome (s : State) (m : Member) : (s.haloTile m none).isSome = true := by
  simp [haloTile]

/-- A HALO along one position has that tile. -/
theorem runHalo_of_shape {tl : Tile} (hwide : s.wide m.bytes = false) (hshape : m.zeroShape = false) (htile : s.haloTile m none = some tl) :
    s.runHalo g m inp = s.finishOp m.seq ⟨some tl, [], [], none, []⟩ [] 0 := by
  simp only [runHalo, hwide, hshape, if_neg Bool.false_ne_true, htile, putHalo]

/-- Under a zero shape it produces no position (R470). -/
theorem runHalo_of_zeroShape (hwide : s.wide m.bytes = false) (hshape : m.zeroShape = true) :
    s.runHalo g m inp = s.finishOp m.seq (noResult (s.orefOf m (m.bytes.tref 72) [])) [] 0 := by
  simp only [runHalo, hwide, hshape, if_neg Bool.false_ne_true, if_true]

-- UPD ----------------------------------------------------------------------------------------------------------------

/-- A UPD along one position updates its records (R557). -/
theorem runUpd_of_not_wide (hwide : s.wide m.bytes = false) : s.runUpd g m inp = s.putUpd g m inp := by
  simp only [runUpd, hwide, if_neg Bool.false_ne_true]

theorem putUpd_of_shape (hshape : m.zeroShape = false) :
    s.putUpd g m inp = (s.finishOp m.seq (s.updResult g m inp).1 (s.updResult g m inp).2 0).bump := by
  simp only [putUpd, hshape, if_neg Bool.false_ne_true]

/-- Under a zero shape there is nothing to protect (R470, R575). -/
theorem putUpd_of_zeroShape (hshape : m.zeroShape = true) :
    s.putUpd g m inp = s.modMember m.seq (Member.ending true ⟨none, [], [], none, []⟩ []) :=
  (if_pos hshape).trans (modMember_modMember fun _ => rfl)

end State

-- The commands -------------------------------------------------------------------------------------------------------

section Commands
variable {s t : State} {mem : Image} {g : Group} {m : Member} {f : Member → Member}

namespace ReadsInputs

/-- What a span is computed from, and the tile of a HALO, are not seen to change by the reading. -/
theorem spanEnv_eq (h : ReadsInputs s t mem m f) (g : Group) (inp : Inputs) : t.spanEnv g m inp = s.spanEnv g m inp :=
  (congrArg (State.spanEnv · g m inp) h.frame :)

theorem haloTile_eq (h : ReadsInputs s t mem m f) (e : Option Exch) : t.haloTile m e = s.haloTile m e :=
  (congrArg (State.haloTile · m e) h.frame :)

end ReadsInputs

/-- HALO of a member that is ready. -/
theorem exec_halo_of_ready (hrouted : s.routed) (hbad : s.badInput m = none) (hready : s.opReady m.seq .halo = some (g, m)) :
    exec (.halo m.seq mem) s = .next ((s.readInputs mem m).1.runHalo g m (s.inputsNow mem m)) := by
  change Host.Outcome.next (s.withInputs m.seq .halo mem State.runHalo) = _
  rw [State.withInputs_of_ready hready hbad hrouted]

variable (hseen : m.seen = []) (hrouted : s.routed) (hbad : s.badInput m = none) (hwide : s.wide m.bytes = false)
include hseen hrouted hbad hwide

/-- CHAIN of a member that is ready: its items are folded from nothing (R437). -/
theorem exec_chain_of_ready (hready : s.opReady m.seq .chain = some (g, m)) :
    let inp := s.inputsNow mem m
    let v := { s.spanEnv g m inp with count := m.rows * m.cols }
    exec (.chain m.seq mem) s = .next ((s.readInputs mem m).1.putChain m inp fun i =>
      Item.fold m.bytes.accOp v.soft Item.empty (v.contrib i 0)) := by
  intro inp v
  have hreads := State.readInputs_reads (State.opReady_member hready).1 hseen mem
  change Host.Outcome.next (s.withInputs m.seq .chain mem State.runChain) = _
  rw [State.withInputs_of_ready hready hbad hrouted, State.runChain_of_not_wide ((hreads.wide_eq m.bytes).trans hwide), hreads.spanEnv_eq]

/-- UPD of a member that is ready: beside its inputs it reads its records, none under a zero shape (R470, R560). -/
theorem exec_upd_of_ready (hready : s.opReady m.seq .upd = some (g, m)) {parts : List (Nat × Nat)}
    (hparts : (if m.zeroShape then [] else State.recParts m) = parts) (hgood : (s.readInputs mem m).1.badPart parts = none) :
    let t := (s.readInputs mem m).1
    exec (.upd m.seq mem) s =
      .next (t.putUpd g m { s.inputsNow mem m with recs := parts.map fun p => cut 16 (t.rd mem p.1 p.2) }) := by
  intro t
  have hreads := State.readInputs_reads (State.opReady_member hready).1 hseen mem
  change Host.Outcome.next (s.withInputs m.seq .upd mem _) = _
  rw [State.withInputs_of_ready hready hbad hrouted]
  simp only [hparts, hgood, State.runUpd_of_not_wide ((hreads.wide_eq m.bytes).trans hwide)]
  rfl

end Commands

-- The statement ------------------------------------------------------------------------------------------------------

/-- Settles O38: the reading leaves what the values, the tile and the records' step are computed from, or they are computed after it. -/
theorem spanOperationsOnOnePosition : Obligations.SpanOperationsOnOnePosition := by
  intro s seq mem g m hseen hrouted hbad hwide q ends
  refine ⟨fun hready => ?_, fun hready => ?_, fun hready => ?_⟩
  all_goals
    obtain ⟨hm, rfl⟩ := State.opReady_member hready
    have hreads := State.readInputs_reads hm hseen mem
  case refine_1 =>
    have hexec := exec_chain_of_ready (mem := mem) hseen hrouted hbad hwide hready
    intro v item num own all
    refine ⟨fun hshape => hreads.yields 0 false _ _ ?_, fun hshape => hreads.yields 0 false _ _ ?_⟩
    · exact hexec.trans (congrArg _ (State.putChain_of_shape hshape _))
    · exact hexec.trans (congrArg _ (State.putChain_of_zeroShape hshape _))
  case refine_2 =>
    have hexec := exec_halo_of_ready (mem := mem) hrouted hbad hready
    have hwide' := (hreads.wide_eq m.bytes).trans hwide
    refine ⟨fun hshape => ?_, fun hshape => hreads.yields 0 false _ _ ?_⟩
    · obtain ⟨tl, htile⟩ := Option.isSome_iff_exists.1 (s.haloTile_none_isSome m)
      refine ⟨tl, htile, hreads.yields 0 false _ _ ?_⟩
      exact hexec.trans (congrArg _ (State.runHalo_of_shape hwide' hshape ((hreads.haloTile_eq none).trans htile)))
    · exact hexec.trans (congrArg _ (State.runHalo_of_zeroShape hwide' hshape))
  case refine_3 =>
    refine ⟨fun hshape hgood => hreads.yields 1 false _ _ ?_, fun hshape => hreads.yields 0 true _ _ ?_⟩
    · have hexec := exec_upd_of_ready hseen hrouted hbad hwide hready (if_neg (by simp [hshape])) hgood
      exact hexec.trans (congrArg _ (State.putUpd_of_shape hshape))
    · have hexec := exec_upd_of_ready (mem := mem) hseen hrouted hbad hwide hready (if_pos hshape) rfl
      exact hexec.trans (congrArg _ (State.putUpd_of_zeroShape hshape))

end Sys2Proof.Machine
end

section
/-!
Memory errors of a group (R496, R642, R647, R648, R651, R691): the group fails as one, which leaves the incident log alone, and the S2
that follows ends at once.
-/
namespace Sys2Proof.Machine
open Sys2Proof

/-- From `s` to `t` groups have gone on, with what they hold, write and send, and nothing else has happened. -/
def GroupsMoved (s t : State) : Prop :=
  t = { s with
    groups := t.groups, wb := t.wb, cw := t.cw, out := t.out, staging := t.staging, ue := t.ue, freeCtr := t.freeCtr,
    rowCtx := t.rowCtx, clusters := t.clusters }

namespace GroupsMoved
variable {s t u : State} {q : Nat}

theorem refl (s : State) : GroupsMoved s s := rfl

theorem trans (h : GroupsMoved s t) (k : GroupsMoved t u) : GroupsMoved s u := by
  unfold GroupsMoved at *
  rw [k, h]

theorem ite {c : Prop} [Decidable c] (h : GroupsMoved s t) (k : GroupsMoved s u) : GroupsMoved s (if c then t else u) := by
  split
  · exact h
  · exact k

theorem foldl {α : Type} (h : GroupsMoved s t) (l : List α) (f : State → α → State) (hf : ∀ u a, GroupsMoved u (f u a)) :
    GroupsMoved s (l.foldl f t) :=
  List.foldlRecOn l f h fun u hu a _ => hu.trans (hf u a)

theorem modGroup (s : State) (q : Nat) (f : Group → Group) : GroupsMoved s (s.modGroup q f) := rfl

theorem modMember (s : State) (q : Nat) (f : Member → Member) : GroupsMoved s (s.modMember q f) := rfl

theorem dropWork (s : State) (g : Group) : GroupsMoved s (s.dropWork g) := rfl

theorem wr (s : State) (a : Nat) (bs : List Byte) : GroupsMoved s (s.wr a bs) := by
  unfold GroupsMoved
  rw [(s.wr_wrought a bs).frame]

theorem queueAll (s : State) (fs : List TxFlit) : GroupsMoved s (s.queueAll fs) := by
  obtain ⟨c, hc⟩ := s.queueAll_frame fs
  rw [hc]
  rfl

theorem pump (s : State) : GroupsMoved s s.pump := by
  unfold GroupsMoved
  rw [(Sent.pump s).frame]

theorem wbWriteFor (s : State) (q ty : Nat) (ps : List (List Byte)) (a : Act) : GroupsMoved s (s.wbWriteFor q ty ps a) := by
  unfold GroupsMoved
  rw [(Recorded.wbWriteFor s q ty ps a).frame]

theorem writeDigests (s : State) (q : Nat) (all : Bool) : GroupsMoved s (s.writeDigests q all) := by
  unfold State.writeDigests
  split
  · exact ((refl s).foldl _ _ fun u _ => wbWriteFor u ..).trans (modMember ..)
  · exact refl s

theorem endExchanges (s : State) (g : Group) : GroupsMoved s (s.endExchanges g) := by
  unfold State.endExchanges
  extract_lets mine s1 close
  have hsent : GroupsMoved s s1 := (refl s).foldl _ _ fun u _ => queueAll u _
  exact (hsent.trans (u := s1.modCw _) rfl).trans (pump _)

theorem postGo (n r : Nat) (s : State) : GroupsMoved s (State.postGo n r s) := by
  induction n generalizing s with
  | zero => exact refl s
  | succ n ih =>
    unfold State.postGo
    split
    · refine ite ?_ (refl s)
      exact ((((refl s).foldl _ _ fun u _ => wr u ..).trans (modGroup ..)).trans (endExchanges ..)).trans (ih _)
    · exact refl s

theorem finishGroup (s : State) (g : Group) : GroupsMoved s (s.finishGroup g) := by
  unfold State.finishGroup
  extract_lets todo last s1
  have hentries : GroupsMoved s s1 := (refl s).foldl _ _ fun u m =>
    ((modMember u ..).trans (wbWriteFor ..)).trans (u := State.bump _) rfl
  exact ((hentries.trans (modGroup ..)).trans (postGo ..)).ite hentries

theorem finishGo (n r : Nat) (s : State) : GroupsMoved s (State.finishGo n r s) := by
  induction n generalizing s with
  | zero => exact refl s
  | succ n ih =>
    unfold State.finishGo
    split
    · exact ((finishGroup ..).trans (ih _)).ite (refl s)
    · exact refl s

theorem tryFinish (s : State) (q : Nat) : GroupsMoved s (s.tryFinish q) := by
  unfold State.tryFinish
  split
  · exact finishGo ..
  · exact refl s

/-- A group that fails writes its digests, drops its work and completes where nothing of its ring is ahead (R496, R648, R816). -/
theorem faultMember (s : State) (q code : Nat) : GroupsMoved s (s.faultMember q code) := by
  unfold State.faultMember State.faultGroup
  split
  · refine (refl s).ite ?_
    extract_lets s0 s1
    have hdigests : GroupsMoved s s0 := ((refl s).foldl _ _ fun u _ => writeDigests u ..).ite (refl s)
    have hfailed : GroupsMoved s s1 := hdigests.trans (modGroup ..)
    exact (hfailed.trans (dropWork ..)).trans (tryFinish ..)
  · exact refl s

/-- Groups that go on leave a calm block calm. -/
theorem calm (h : GroupsMoved s t) (hs : s.calm) : t.calm := by
  unfold GroupsMoved at h
  rw [h]
  exact hs

theorem freePos (h : GroupsMoved s t) : t.freePos = s.freePos := (congrArg State.freePos h :)

end GroupsMoved

namespace State
variable {s : State} {q p port addr code source : Nat} {g : Group} {f : Finding}

/-- An S2 that only sets statuses leaves no recovery behind (R651). -/
theorem cur_incident_of_calm (hcalm : s.calm) (hp : s.freePos = some p) (hsev : severity s.resident f = 2) (hsource : f.source ∉ repeating)
    (act : Nat) : (s.incident f act).inc.cur = none := by
  have ⟨_, _, _, hidle⟩ := hcalm
  obtain ⟨v, -, hsettled⟩ := settleS2_recovering (img := f.mem) (e := { s.newEntry f 2 act with state := 1, action := 7 })
    hidle (lt_of_freePos hp) rfl rfl 32
  have hend : s.incident f act = (v.modInc fun i => { i with cur := none }).irqInc 4 := by
    rw [← hsettled, ← incidentHigh_of_calm hcalm hp hsource]
    simp only [incident, hsev]
    rfl
  rw [hend]
  rfl

/-- The sources of a memory error of a group (R642). -/
def memErrors : List Nat := [Src.memRead, Src.memPoison, Src.memWrite]

theorem severity_memErrors (h : source ∈ memErrors) (resident : Nat) : severity resident (finding source port q addr) = 2 := by
  simp only [memErrors, List.mem_cons, List.not_mem_nil, or_false] at h
  obtain rfl | rfl | rfl := h <;> rfl

theorem memErrors_not_repeating (h : source ∈ memErrors) : source ∉ repeating := by
  have hall : ∀ n ∈ memErrors, n ∉ repeating := by decide
  exact hall source h

/-- A memory error in a calm block: its group fails, and the incident has ended (R496, R647, R648, R651). -/
theorem faulted_incident_of_memError (hcalm : s.calm) (hp : s.freePos = some p) (hg : s.group? q = some g) (hlive : g.live)
    (hsource : source ∈ memErrors) :
    let t := (s.faultMember q code).incident (finding source port q addr) 7
    t.faulted q code ∧ t.logged p source port q addr ∧ t.inc.cur = none := by
  have hmoved := GroupsMoved.faultMember s q code
  have hfaulted := faulted_faultMember (code := code) hg hlive
  generalize s.faultMember q code = u at hmoved hfaulted ⊢
  have hcalm' := hmoved.calm hcalm
  have hp' := hmoved.freePos.trans hp
  have hsev := severity_memErrors (port := port) (q := q) (addr := addr) hsource u.resident
  obtain ⟨hframe, hlogged⟩ := incident_of_calm hcalm' hp' hsev (memErrors_not_repeating hsource) 7
  exact ⟨((SameFaults.refl u).step (congrArg State.groups hframe :)).faulted hfaulted, hlogged,
    cur_incident_of_calm hcalm' hp' hsev (memErrors_not_repeating hsource) 7⟩

-- The commands -------------------------------------------------------------------------------------------------------

/-- A read of a group that is under way finds an error response or poisoned data (R647, R648). -/
theorem exec_memReadError (hg : s.group? q = some g) (hissued : g.issued = true) (hlive : g.live) (hfenced : s.inc.fenced = false)
    (poisoned : Bool) :
    exec (.memReadError q port addr poisoned) s = .next ((s.faultMember q (if poisoned then St.dataError else St.busError)).incident
      (finding (if poisoned then Src.memPoison else Src.memRead) port q addr) 7) := by
  obtain ⟨hdead, hpub, -⟩ := hlive
  change execMemReadError q port addr poisoned s = _
  simp only [execMemReadError, hg, hissued, hdead, hpub, hfenced]
  rfl

/-- An output write of a group gets an error response (R648). -/
theorem exec_memWriteError (hg : s.group? q = some g) (hwrote : g.wrote = true) (hout : g.outDone = false) (hdead : g.dead = false) :
    exec (.memWriteError q port addr) s =
      .next ((s.faultMember q St.busError).incident (finding Src.memWrite port q addr) 7) := by
  change execMemWriteError q port addr s = _
  simp only [execMemWriteError, hg, hwrote, hout, hdead]
  rfl

/-- The copy of the start record gets one (R691). -/
theorem exec_memWriteError_startRecord (hg : s.group? q = none) (hne : addr ≠ 0) (haddr : addr = s.regs.startAddr.toNat)
    (hactive : s.start.active = false) :
    exec (.memWriteError q port addr) s = .next { s with start := { s.start with copyFailed := true } } := by
  change execMemWriteError q port addr s = _
  simp only [execMemWriteError, hg]
  exact if_pos (by simp [hne, ← haddr, hactive])

end State

-- The statement ------------------------------------------------------------------------------------------------------

/-- Settles O33: an error of a read, of an output write, and of the copy of the start record. -/
theorem memoryErrorsFaultTheGroup : Obligations.MemoryErrorsFaultTheGroup := by
  refine ⟨fun s q port addr p g hcalm hp hg hlive => ⟨fun poisoned hissued => ?_, fun hwrote hout => ?_⟩,
    fun s q port addr hg hne haddr hactive => State.exec_memWriteError_startRecord hg hne haddr hactive⟩
  · have ⟨_, hfenced, _⟩ := hcalm
    have hsource : (if poisoned then Src.memPoison else Src.memRead) ∈ State.memErrors := by cases poisoned <;> decide
    exact ⟨_, State.exec_memReadError hg hissued hlive hfenced poisoned, State.faulted_incident_of_memError hcalm hp hg hlive hsource⟩
  · have ⟨hdead, _⟩ := hlive
    exact ⟨_, State.exec_memWriteError hg hwrote hout hdead, State.faulted_incident_of_memError hcalm hp hg hlive (by decide)⟩

end Sys2Proof.Machine
end

section
/-!
The issue of a group (R270, R454, R465, R485, R486, R488, R489, R518, R619): what GROUP_ISSUE does where nothing holds the group, and what
it leaves of staging, of the groups and of the journal.
-/
namespace Sys2Proof.Machine
open Sys2Proof

/-- A group that has taken its granules, the bounds that stand in its headers known (R465, R486). -/
def Group.holding (gs : List Nat) (g : Group) : Group :=
  { g with issued := true, waited := false, gran := gs, members := g.members.map State.boundAtIssue }

namespace State
variable {s u : State} {q : Nat} {g : Group}

/-- What a header's bounds make of a member is its shape (R465). -/
theorem boundAtIssue_eq (m : Member) : boundAtIssue m = { m with shape := (boundAtIssue m).shape } := by
  unfold boundAtIssue
  split <;> rfl

@[simp] theorem seq_boundAtIssue (m : Member) : (boundAtIssue m).seq = m.seq := (congrArg Member.seq (boundAtIssue_eq m) :)

theorem seqs_holding (gs : List Nat) (g : Group) : (g.holding gs).seqs = g.seqs := by
  simp [Group.seqs, Group.holding]

-- Granules -----------------------------------------------------------------------------------------------------------

/-- Nothing is known of the bytes of forgotten granules, and what is known of the others stands. -/
theorem get_forget_granules (x : Nat) (gs : List Nat) (m : Memory) :
    Memory.get x (gs.foldl (fun m g => m.forget (g * 65536) 65536) m) = if gs.contains (x / 65536) then none else Memory.get x m := by
  induction gs generalizing m with
  | nil => rfl
  | cons g gs ih =>
    have hin : (g * 65536 ≤ x ∧ x < g * 65536 + 65536) ↔ x / 65536 = g := by omega
    rw [List.foldl_cons, ih, Memory.get_forget]
    by_cases hx : x / 65536 = g <;> simp [hin, hx]

theorem stageByte_forgetGran (s : State) (gs : List Nat) (a : Nat) :
    (s.forgetGran gs).stageByte a = if gs.contains (a / 65536) then none else s.stageByte a :=
  get_forget_granules a gs s.staging

-- What an issue does beside --------------------------------------------------------------------------------------------

/-- Replica positions change slots (R216). -/
theorem assignReplicas_frame (h : s.assignReplicas g = some u) : ∃ sl, u = { s with slots := sl } := by
  unfold assignReplicas at h
  extract_lets want missing ps at h
  obtain ⟨-, hsame⟩ := Option.ite_none_right_eq_some.1 h
  cases hsame
  refine List.foldlRecOn (motive := fun t : State => ∃ sl, t = { s with slots := sl }) _ _ ⟨s.slots, rfl⟩ fun t ht p _ => ?_
  obtain ⟨sl, rfl⟩ := ht
  exact ⟨_, rfl⟩

/-- What changes clusters alone at every step changes clusters alone. -/
theorem clusters_foldl {α : Type} {f : State → α → State} (hf : ∀ u a, ∃ cl, f u a = { u with clusters := cl }) (l : List α) (s : State) :
    ∃ cl, l.foldl f s = { s with clusters := cl } := by
  refine List.foldlRecOn (motive := fun t : State => ∃ cl, t = { s with clusters := cl }) l f ⟨s.clusters, rfl⟩ fun t ht a _ => ?_
  obtain ⟨cl, rfl⟩ := ht
  exact hf _ a

/-- Work that is offered changes clusters (R660, R708). -/
theorem offerWork_frame (s : State) (q : Nat) : ∃ cl, s.offerWork q = { s with clusters := cl } :=
  clusters_foldl (fun _ _ => ⟨_, rfl⟩) _ s

/-- So do bands that open (R270). -/
theorem openBand_frame (s : State) (c : Nat) : ∃ cl, s.openBand c = { s with clusters := cl } := by
  unfold openBand
  extract_lets k filling
  split
  · split
    · exact ⟨s.clusters, rfl⟩
    · split
      · exact ⟨_, rfl⟩
      · split
        · exact ⟨_, rfl⟩
        · exact ⟨s.clusters, rfl⟩
  · exact ⟨s.clusters, rfl⟩

theorem openBands_frame (s : State) : ∃ cl, s.openBands = { s with clusters := cl } :=
  clusters_foldl openBand_frame _ s

/-- Members along one position open no exchange (R518). -/
theorem openExch_of_not_wide (ms : List Member) (h : ∀ m ∈ ms, s.wide m.bytes = false) : ms.foldl openExch s = s :=
  List.foldlRecOn (motive := (· = s)) ms _ rfl fun t ht m hm => by
    rw [ht, openExch, h m hm, if_neg Bool.false_ne_true]

/-- Ports that hold no beat give none up (R756). -/
theorem takeHeld_of_none (h : ∀ b ∈ s.asHeld, b = none) : s.takeHeld = s :=
  List.foldlRecOn (motive := (· = s)) _ _ rfl fun t ht p _ => by
    have hport : (s.asHeld[p]?).join = none := by
      cases hp : s.asHeld[p]? with
      | none => rfl
      | some b => exact h b (List.mem_of_getElem? hp)
    simp only [ht, hport]

/-- The bounds of a group's members are not their capture space (R454). -/
theorem captures_holding (gs : List Nat) (h : ∀ m ∈ s.members, m.bytes.capture = true → m.capSet = true) :
    ∀ m ∈ (s.modGroup q (Group.holding gs)).members, m.bytes.capture = true → m.capSet = true := by
  intro m hm
  obtain ⟨y, hy, hmy⟩ := List.mem_flatMap.1 hm
  obtain ⟨x, hx, rfl⟩ := List.mem_map.1 hy
  split at hmy
  · obtain ⟨k, hk, rfl⟩ := List.mem_map.1 hmy
    rw [boundAtIssue_eq]
    exact h k (List.mem_flatMap.2 ⟨x, hx, hk⟩)
  · exact h m (List.mem_flatMap.2 ⟨x, hx, hmy⟩)

-- The issue ----------------------------------------------------------------------------------------------------------

/-- A group holds the lowest free granules, as many as it needs, and its GROUP_OPEN is written with their number (R485, R486, R619). -/
def allocated (s : State) (g : Group) : State :=
  let gs := s.freeGran.take (s.need g)
  ((s.forgetGran gs).modGroup g.firstSeq (Group.holding gs)).wbWriteFor g.firstSeq Ty.groupOpen
    [groupOpenPart g.firstSeq g.members.length g.ring (s.need g)] .none

/-- What the entry makes of the groups that hold their granules. -/
theorem allocated_recorded (s : State) (g : Group) :
    Recorded ((s.forgetGran (s.freeGran.take (s.need g))).modGroup g.firstSeq (Group.holding (s.freeGran.take (s.need g)))) (s.allocated g)
      g.firstSeq (Member.spend 1) [⟨Ty.groupOpen, [groupOpenPart g.firstSeq g.members.length g.ring (s.need g)], .none⟩] :=
  Recorded.wbWriteFor ..

/-- With no exchange to open, no capture space to reserve and no beat held, the group's work is offered, and nothing else happens. -/
theorem issueGroup_eq (hopen : g.openSeen = false) (hwide : ∀ m ∈ g.members, s.wide m.bytes = false)
    (hset : ∀ m ∈ s.members, m.bytes.capture = true → m.capSet = true) (hheld : ∀ b ∈ s.asHeld, b = none) :
    s.issueGroup g = ((s.allocated g).offerWork g.firstSeq).openBands := by
  have hrec := allocated_recorded s g
  have hexch : g.members.foldl openExch (s.allocated g) = s.allocated g :=
    openExch_of_not_wide _ fun m hm => (congrArg (wide · m.bytes) hrec.frame).trans (hwide m hm)
  have hallocated : ∀ m ∈ (s.allocated g).members, m.bytes.capture = true → m.capSet = true := by
    rw [members, hrec.groups]
    exact captures_modMember (fun _ => ⟨rfl, rfl⟩) (captures_holding _ hset)
  obtain ⟨cl, hoffer⟩ := offerWork_frame (s.allocated g) g.firstSeq
  have hcaps : ((s.allocated g).offerWork g.firstSeq).reserveCaps g.ring = (s.allocated g).offerWork g.firstSeq :=
    reserveCaps_of_set (by rw [hoffer]; exact hallocated)
  obtain ⟨cl', hbands⟩ := openBands_frame ((s.allocated g).offerWork g.firstSeq)
  have hports : (((s.allocated g).offerWork g.firstSeq).openBands).asHeld = s.asHeld := by
    rw [hbands, hoffer]
    exact (congrArg State.asHeld hrec.frame :)
  have htaken := takeHeld_of_none (s := ((s.allocated g).offerWork g.firstSeq).openBands) (by rw [hports]; exact hheld)
  have hissue : s.issueGroup g =
      (((g.members.foldl openExch (s.allocated g)).offerWork g.firstSeq).reserveCaps g.ring).openBands.takeHeld := by
    simp only [issueGroup, writeOpen, hopen, if_neg Bool.false_ne_true]
    rfl
  rw [hissue, hexch, hcaps, htaken]

/-- The issue of a group: staging without the contents of its granules, its entry, and what has become of it. -/
theorem issueGroup_allocates (hq : q ∈ g.seqs) (hopen : g.openSeen = false) (hwide : ∀ m ∈ g.members, s.wide m.bytes = false)
    (hset : ∀ m ∈ s.members, m.bytes.capture = true → m.capSet = true) (hheld : ∀ b ∈ s.asHeld, b = none) :
    let gs := s.freeGran.take (s.need g)
    let t := s.issueGroup g
    t = { s with groups := t.groups, wb := t.wb, cw := t.cw, out := t.out, staging := t.staging, ue := t.ue, clusters := t.clusters } ∧
      (s.forgetGran gs).Wrote t [⟨Ty.groupOpen, [groupOpenPart g.firstSeq g.members.length g.ring (s.need g)], .none⟩] ∧
      s.GroupBecame t g ((g.holding gs).modMember g.firstSeq (Member.spend 1)) := by
  intro gs t
  have hrec := allocated_recorded s g
  obtain ⟨cl, hoffer⟩ := offerWork_frame (s.allocated g) g.firstSeq
  obtain ⟨cl', hbands⟩ := openBands_frame ((s.allocated g).offerWork g.firstSeq)
  have ht : t = { s.allocated g with clusters := cl' } := by
    rw [← issueGroup_eq hopen hwide hset hheld, hoffer] at hbands
    exact hbands
  rw [ht]
  generalize s.allocated g = w at hrec
  refine ⟨?_, ?_, ?_⟩
  · exact congrArg (fun w : State => { w with clusters := cl' }) hrec.frame
  · have hentry : (s.forgetGran gs).Wrote w _ := hrec.wrote.of_prepared
    exact hentry.trans (congrArg State.regs hrec.frame :) (congrArg State.seals hrec.frame :) (.of_same rfl rfl rfl rfl)
  · have hfirst := Group.firstSeq_mem_seqs hq
    have hholds : s.GroupBecame ((s.forgetGran gs).modGroup g.firstSeq (Group.holding gs)) g (g.holding gs) :=
      GroupBecame.modGroup (s := s.forgetGran gs) hfirst _
    have hspent := (GroupBecame.modMember (s := (s.forgetGran gs).modGroup g.firstSeq (Group.holding gs)) (g := g.holding gs)
      (seqs_holding gs g ▸ hfirst) (Member.spend 1)).of_groups hrec.groups
    exact (hholds.trans hspent (seqs_holding gs g)).of_groups rfl

/-- The members of a group that has issued: their numbers, and the bounds that stand in their headers (R465). -/
theorem shapes_holding (gs : List Nat) (g : Group) :
    ((g.holding gs).modMember g.firstSeq (Member.spend 1)).members.map (fun m => (m.seq, m.shape)) =
      g.members.map fun m => (m.seq, (boundAtIssue m).shape) := by
  simp only [Group.modMember, Group.holding, List.map_map]
  refine List.map_congr_left fun m _ => ?_
  simp only [Function.comp, apply_ite Member.seq, apply_ite Member.shape, Member.spend, ite_self, seq_boundAtIssue]

/-- GROUP_ISSUE of a group that nothing holds: with no peer to ask for a link and enough granules it issues once its slots have their
replica positions (R216, R486, R488). -/
theorem exec_groupIssue (hrouted : s.routed) (hg : s.group? q = some g) (hissue : s.atIssue g = true) (hheld : s.heldAtIssue g = false)
    (horder : s.outOfOrder g = false) (hfenced : s.inc.fenced = false) (hparked : s.start.parked = false) (hreset : s.inReset = false)
    (hfits : s.overflows g = none) (hnarrow : ∀ m ∈ g.members, s.wide m.bytes = false ∧ s.needsDone m.bytes = false)
    (hroom : s.need g ≤ s.freeGran.length) (hqueue : 0 < s.need g → s.stagingQueue g = false) (hrep : s.assignReplicas g = some u)
    (mem : Image) : exec (.groupIssue q mem) s = .next (u.issueGroup g) := by
  have hwides : g.members.filter (fun m => s.wide m.bytes || (m.bytes.is .upd && s.needsDone m.bytes)) = [] :=
    List.filter_eq_nil_iff.2 fun m hm => by simp [hnarrow m hm]
  have hfree : (decide (s.freeGran.length < s.need g) || (decide (0 < s.need g) && s.stagingQueue g)) = false := by
    simpa using ⟨hroom, hqueue⟩
  change execGroupIssue q mem s = _
  simp only [execGroupIssue, learnRoutes_of_routed hrouted, hg, hissue, hheld, horder, hfenced, hparked, hreset, hfits, hwides,
    List.foldl_nil, List.all_nil, if_true, hfree, hrep, Bool.not_true, Bool.or_self, if_neg Bool.false_ne_true]

end State

-- The statement ------------------------------------------------------------------------------------------------------

/-- Settles O30: replica positions change slots alone, so the group issues with the granules that are free before them. -/
theorem groupIssueTakesItsAllocation : Obligations.GroupIssueTakesItsAllocation := by
  intro s u q mem g hrouted hg hissue hheld horder hfenced hparked hreset hfits hnarrow hroom hqueue hrep ⟨_, hset⟩ hports hopen gs
  have hexec := State.exec_groupIssue hrouted hg hissue hheld horder hfenced hparked hreset hfits hnarrow hroom hqueue hrep mem
  obtain ⟨sl, rfl⟩ := State.assignReplicas_frame hrep
  obtain ⟨hframe, hentry, hbecame⟩ := State.issueGroup_allocates (s := { s with slots := sl }) (State.mem_seqs_of_group? hg) hopen
    (fun m hm => (hnarrow m hm).1) hset hports
  refine ⟨s.forgetGran gs, _, _, hexec, rfl, s.stageByte_forgetGran gs, hframe, ?_, hbecame, rfl, State.shapes_holding gs g⟩
  exact State.Wrote.of_prepared hentry

end Sys2Proof.Machine
end
section
/-!
Links through the block's other work (R542, R547): what queues and sends flits, writes the journal, ends a group or logs an incident
leaves every link context where it stands in the order of LSEQ.
-/
namespace Sys2Proof.Machine
open Sys2Proof

/-- From `s` to `t` no link context has gone, and each has kept what sending keeps. -/
def LinksKept (s t : State) : Prop := ∀ p l, s.link? p = some l → ∃ l', t.link? p = some l' ∧ l'.kept = l.kept

/-- An entry leaves the causeway as it is, or queues flits on it that leave as they can (R623). -/
theorem State.cw_wbWrite (s : State) (ty : Nat) (parts : List (List Byte)) (act : Act) :
    (s.wbWrite ty parts act).cw = s.cw ∨ ∃ (u : State) (fs : List TxFlit), u.cw = s.cw ∧ (s.wbWrite ty parts act).cw = (u.queueAll fs).pump.cw := by
  unfold State.wbWrite
  extract_lets n recs s1 s2 sent run
  have h2 : s2.cw = s.cw := (congrArg State.cw (State.wrRecs_wrought recs s1).1.frame :)
  split
  · exact .inr ⟨s2.modWb _, _, h2, rfl⟩
  · exact .inl h2

/-- It takes no grant that waits for its exchange. -/
theorem State.wbWrite_early (s : State) (ty : Nat) (parts : List (List Byte)) (act : Act) : (s.wbWrite ty parts act).cw.early = s.cw.early := by
  have hqueued : ∀ (u : State) (fs : List TxFlit), (u.queueAll fs).cw.early = u.cw.early := fun u fs =>
    List.foldlRecOn (motive := fun t : State => t.cw.early = u.cw.early) fs _ rfl fun t ht f _ => ht ▸ by
      unfold State.queueFlit State.needLink
      split
      · rfl
      · split <;> rfl
  obtain h | ⟨u, fs, hu, h⟩ := s.cw_wbWrite ty parts act
  · rw [h]
  · rw [h, (Sent.pump _).early, hqueued, hu]

namespace LinksKept
variable {s t u : State}

theorem refl (s : State) : LinksKept s s := fun _ l hl => ⟨l, hl, rfl⟩

theorem trans (h : LinksKept s t) (k : LinksKept t u) : LinksKept s u := fun p l hl => by
  obtain ⟨l1, hl1, hk1⟩ := h p l hl
  obtain ⟨l2, hl2, hk2⟩ := k p l1 hl1
  exact ⟨l2, hl2, hk2.trans hk1⟩

/-- An operation that does not see the links. -/
theorem step (h : LinksKept s t) (hlinks : u.cw.links = t.cw.links := by rfl) : LinksKept s u :=
  h.trans fun _ l hl => ⟨l, by rwa [State.link?, hlinks], rfl⟩

theorem ite {c : Prop} [Decidable c] (h : LinksKept s t) (k : LinksKept s u) : LinksKept s (if c then t else u) := by
  split
  · exact h
  · exact k

theorem foldl {α : Type} (h : LinksKept s t) (l : List α) (f : State → α → State) (hf : ∀ u a, LinksKept s u → LinksKept s (f u a)) :
    LinksKept s (l.foldl f t) :=
  List.foldlRecOn l f h fun u hu a _ => hf u a hu

theorem of_sent (h : Sent s t) : LinksKept s t := fun p l hl => by
  have hsame := h.links p
  rw [hl] at hsame
  obtain ⟨l', hl', hk⟩ := Option.map_eq_some_iff.1 hsame
  exact ⟨l', hl', hk⟩

/-- Links updated one by one. -/
theorem mapLinks (h : LinksKept s t) {f : Link → Link} (hlinks : u.cw.links = t.cw.links.map f) (hf : ∀ l, (f l).kept = l.kept) :
    LinksKept s u :=
  h.trans fun p l hl => by
    have hpeer : (fun l : Link => l.peer == p) ∘ f = fun l => l.peer == p := by
      funext l
      rw [Function.comp, show (f l).peer = l.peer from congrArg Prod.fst (hf l)]
    refine ⟨f l, ?_, hf l⟩
    rw [State.link?, hlinks, List.find?_map, hpeer, ← State.link?, hl]
    rfl

theorem modLink (h : LinksKept s t) {q : Nat} {f : Link → Link} (hf : ∀ l, (f l).kept = l.kept := by exact fun _ => rfl) :
    LinksKept s (t.modLink q f) :=
  h.mapLinks rfl fun l => by
    split
    · exact hf l
    · rfl

theorem pump (h : LinksKept s t) : LinksKept s t.pump := h.trans (of_sent (Sent.pump t))

theorem needLink (h : LinksKept s t) {q : Nat} : LinksKept s (t.needLink q) := by
  have hnew : LinksKept t (t.modCw fun c => { c with links := c.links ++ [Link.fresh q false 0 1] }) := fun p l hl =>
    ⟨l, by simpa [State.link?, State.modCw] using .inl hl, rfl⟩
  unfold State.needLink
  exact h.ite ((h.trans hnew).ite h)

theorem queueAll (h : LinksKept s t) {fs : List TxFlit} : LinksKept s (t.queueAll fs) := h.foldl _ _ fun _ _ k => k.needLink.modLink

theorem wr (h : LinksKept s t) {a : Nat} {bs : List Byte} : LinksKept s (t.wr a bs) :=
  h.step (congrArg (·.cw.links) (t.wr_wrought a bs).frame :)

-- The journal and the groups -----------------------------------------------------------------------------------------

theorem modGroup (h : LinksKept s t) {q : Nat} {f : Group → Group} : LinksKept s (t.modGroup q f) := h.step
theorem modMember (h : LinksKept s t) {q : Nat} {f : Member → Member} : LinksKept s (t.modMember q f) := h.step
theorem bump (h : LinksKept s t) : LinksKept s t.bump := h.step

theorem wbWrite (h : LinksKept s t) {ty : Nat} {ps : List (List Byte)} {a : Act} : LinksKept s (t.wbWrite ty ps a) := by
  obtain hcw | ⟨u, fs, hu, hcw⟩ := t.cw_wbWrite ty ps a
  · exact h.step (congrArg Cw.links hcw)
  · exact ((h.step (congrArg Cw.links hu)).queueAll (fs := fs)).pump.step (congrArg Cw.links hcw)

theorem wbWriteFor (h : LinksKept s t) {q ty : Nat} {ps : List (List Byte)} {a : Act} : LinksKept s (t.wbWriteFor q ty ps a) :=
  h.wbWrite.modMember

theorem writeDigests (h : LinksKept s t) {q : Nat} {all : Bool} : LinksKept s (t.writeDigests q all) := by
  unfold State.writeDigests
  split
  · exact (h.foldl _ _ fun _ _ k => k.wbWriteFor).modMember
  · exact h

theorem endExchanges (h : LinksKept s t) {g : Group} : LinksKept s (t.endExchanges g) := by
  unfold State.endExchanges
  extract_lets mine s1 close
  have hpubs : LinksKept s s1 := h.foldl _ _ fun _ _ k => k.queueAll
  exact (hpubs.step (u := s1.modCw _)).pump

theorem postGo (n r : Nat) (h : LinksKept s t) : LinksKept s (State.postGo n r t) := by
  induction n generalizing t with
  | zero => exact h
  | succ n ih =>
    unfold State.postGo
    split
    · exact (ih (h.foldl _ _ fun _ _ k => k.wr).modGroup.endExchanges).ite h
    · exact h

theorem finishGroup (h : LinksKept s t) {g : Group} : LinksKept s (t.finishGroup g) := by
  unfold State.finishGroup
  extract_lets todo last s1
  have hentries : LinksKept s s1 := h.foldl _ _ fun _ _ k => k.modMember.wbWriteFor.bump
  exact (postGo _ _ hentries.modGroup).ite hentries

theorem finishGo (n r : Nat) (h : LinksKept s t) : LinksKept s (State.finishGo n r t) := by
  induction n generalizing t with
  | zero => exact h
  | succ n ih =>
    unfold State.finishGo
    split
    · exact (ih h.finishGroup).ite h
    · exact h

theorem tryFinish (h : LinksKept s t) {q : Nat} : LinksKept s (t.tryFinish q) := by
  unfold State.tryFinish
  split
  · exact finishGo _ _ h
  · exact h

/-- What a group that fails has queued goes from the queues alone. -/
theorem dropWork (h : LinksKept s t) {g : Group} : LinksKept s (t.dropWork g) := h.mapLinks rfl fun _ => rfl

theorem faultMember (h : LinksKept s t) {q code : Nat} : LinksKept s (t.faultMember q code) := by
  unfold State.faultMember State.faultGroup
  split
  · refine h.ite ?_
    extract_lets s0 s1
    have hdigests : LinksKept s s0 := (h.foldl _ _ fun _ _ k => k.writeDigests).ite h
    exact hdigests.modGroup.dropWork.tryFinish
  · exact h

/-- The peers of an exchange that is aborted hear of it, and its group fails (R521, R525). -/
theorem abortExch (h : LinksKept s t) {e : Exch} {code : Nat} {from' : List Nat} : LinksKept s (t.abortExch e code from') := by
  unfold State.abortExch
  split
  · exact h.queueAll.pump.faultMember
  · exact h

-- Incidents ----------------------------------------------------------------------------------------------------------

theorem writeEntry (h : LinksKept s t) {p : Nat} : LinksKept s (t.writeEntry p) := by
  unfold State.writeEntry
  split
  · exact h.wbWrite.step.ite h
  · exact h

theorem flushInc (h : LinksKept s t) : LinksKept s t.flushInc := h.foldl _ _ fun _ _ k => k.writeEntry

end LinksKept

end Sys2Proof.Machine
end
section
/-!
A flit as it comes in (R544, R546, R547, R767): the lane's credit is pulsed, its link heeds it, and a flit in its turn goes to what it is
for; then it is acknowledged. `land_delivered` says so once for every kind that stands in the order of LSEQ.
-/
namespace Sys2Proof.Machine
open Sys2Proof

theorem State.Moved.trans {s t u : State} (h : s.Moved t) (k : t.Moved u) : s.Moved u := by
  obtain ⟨hframe, l, hl⟩ := h
  obtain ⟨hframe', m, hm⟩ := k
  exact ⟨by rw [hframe', hframe], l ++ m, by rw [hm, hl, List.append_assoc]⟩

/-- An update of the causeway alone. -/
theorem State.modCw_moved (s : State) (f : Cw → Cw) : s.Moved (s.modCw f) := ⟨rfl, [], by simp⟩

namespace Sent
variable {s : State} {p : Nat}

/-- A link is updated in what sending changes. -/
theorem modLink (s : State) (p : Nat) {f : Link → Link} (hf : ∀ l, (f l).kept = l.kept) : Sent s (s.modLink p f) := by
  refine ⟨rfl, rfl, rfl, rfl, rfl, fun q => ?_, [], by simp, by simp⟩
  rw [State.link?_modLink _ _ _ _ fun l hl => (congrArg Prod.fst (hf l)).trans hl, Option.map_map]
  congr 1
  funext l
  simp only [Function.comp]
  split
  · exact hf l
  · rfl

/-- An acknowledgement changes nothing but what sending changes (R544). -/
theorem sendAck (s : State) (p : Nat) (nak : Bool) : Sent s (s.sendAck p nak) := by
  unfold State.sendAck
  split
  · extract_lets had a
    exact (modLink s p (f := fun l => { l with queue := a :: l.queue.filter fun f => f.kind != Kind.ack }) fun _ => rfl).trans (pump _)
  · exact refl s

end Sent

namespace State
variable {s v : State} {f : Flit} {l : Link} {kind : Nat} {cd : Bool} {lane p : Nat}

/-- The link that an update names. -/
theorem link?_modLink_same {k : Link → Link} (hlink : s.link? p = some l) (hk : ∀ l, l.peer = p → (k l).peer = p := by exact fun _ h => h) :
    (s.modLink p k).link? p = some (k l) := by
  rw [link?_modLink s p p k hk, hlink]
  exact congrArg some (if_pos (beq_iff_eq.2 (link?_some hlink).2))

-- On its lane --------------------------------------------------------------------------------------------------------

/-- A flit has been taken out of its lane's buffer, and the lane's credit is pulsed (R767). -/
def pulsed (s : State) (cd : Bool) (lane : Nat) : State := s.emit (.rxCredit cd lane 1)

/-- What a lane that is up says of the block and of the lane (R767, R769). -/
theorem of_laneUp (h : s.laneUp cd lane = true) : s.inReset = false ∧ s.rxCredit cd lane = true ∧ s.takeRx cd lane = s.pulsed cd lane := by
  simp only [laneUp, portUp, Bool.and_eq_true, Bool.not_eq_true'] at h
  obtain ⟨⟨⟨⟨⟨hreset, -⟩, -⟩, -⟩, hcredit⟩, hused⟩ := h
  exact ⟨hreset, hcredit, if_pos hused⟩

/-- A peer that has a context and a route needs neither (R513, R542). -/
theorem meet_known (hlink : s.link? p = some l) (hroute : (s.route? p).isSome = true) (mem : Image) : s.meet p mem = s := by
  simp [meet, needLink, needRoute, hlink, hroute]

/-- A flit on a lane that is up, of a peer that is known: its link heeds it. -/
theorem land_heed (hup : s.laneUp f.cd f.lane = true) (hroute : (s.route? f.src).isSome = true) (hlink : s.link? f.src = some l)
    (kind : Nat) (mem : Image) : s.land kind f mem = (s.pulsed f.cd f.lane).heed kind f l := by
  obtain ⟨hreset, hcredit, htake⟩ := of_laneUp hup
  have hlink' : (s.pulsed f.cd f.lane).link? f.src = some l := hlink
  simp [land, hreset, hcredit, htake, hup, meet_known hlink' hroute, hlink']

-- In its turn --------------------------------------------------------------------------------------------------------

/-- A link whose flit has come in its turn expects the next one (R547). -/
def turnLink (kind : Nat) (f : Flit) (l : Link) : Link :=
  { l with rxSeq := (l.rxSeq + 1) % 2 ^ 32, landing := (l.landing ++ [(kind, f)]).filter fun y => y.2.lseq != f.lseq }

/-- A block that has taken a flit in its turn, before the flit does what it is for. -/
def turned (s : State) (kind : Nat) (f : Flit) : State := (s.pulsed f.cd f.lane).modLink f.src (turnLink kind f)

theorem turned_moved (s : State) (kind : Nat) (f : Flit) : s.Moved (s.turned kind f) := ⟨rfl, [.rxCredit f.cd f.lane 1], rfl⟩

/-- The link of a flit in its turn. -/
theorem link?_turned (h : s.inTurn f l) (kind : Nat) :
    (s.turned kind f).link? f.src = some { l with rxSeq := (f.lseq + 1) % 2 ^ 32, landing := [] } := by
  obtain ⟨-, -, hlink, -, hlanding, hseq, -⟩ := h
  have hfound : (s.turned kind f).link? f.src = some (turnLink kind f l) := link?_modLink_same (s := s.pulsed f.cd f.lane) hlink
  simpa [turnLink, hlanding, hseq] using hfound

/-- With nothing in the landing buffer nothing more is delivered. -/
theorem deliverGo_of_empty (hlink : s.link? p = some l) (hlanding : l.landing = []) (n : Nat) : deliverGo n p s = s := by
  cases n with
  | zero => rfl
  | succ n => simp [deliverGo, hlink, hlanding]

/-- A flit in its turn is delivered, and acknowledged once what it is for has left its link in its turn. -/
theorem land_inTurn (h : s.inTurn f l) (hkind : Kind.control kind = false) (hv : (s.turned kind f).deliver kind f = v)
    (hkept : LinksKept (s.turned kind f) v) (mem : Image) : s.land kind f mem = v.sendAck f.src false := by
  have ⟨hup, hroute, hlink, hsync, hlanding, hseq, hlt⟩ := h
  simp only [Kind.control, Bool.or_eq_false_iff, beq_eq_false_iff_ne] at hkind
  obtain ⟨hack, hsyn⟩ := hkind
  obtain ⟨l', hl', hk⟩ := hkept _ _ (link?_turned h kind)
  have hempty : l'.landing = [] := by
    simp only [Link.kept, Prod.mk.injEq] at hk
    exact hk.2.2.2.2.2.2
  let s1 := (s.pulsed f.cd f.lane).modLink f.src fun l => { l with landing := l.landing ++ [(kind, f)] }
  have hs1 : s1.link? f.src = some { l with landing := l.landing ++ [(kind, f)] } := link?_modLink_same (s := s.pulsed f.cd f.lane) hlink
  have hturned : s1.modLink f.src (fun l => { l with
      rxSeq := (l.rxSeq + 1) % 2 ^ 32, landing := l.landing.filter fun y => y.2.lseq != f.lseq }) = s.turned kind f := by
    simp only [s1, turned, modLink, modCw, List.map_map]
    congr 3
    funext l
    by_cases hl : l.peer = f.src <;> simp [Function.comp, hl, turnLink]
  have hgo : s1.deliverGo 64 f.src = v := by
    rw [deliverGo, hs1]
    simp only [hlanding, List.nil_append, List.find?_cons, hseq, beq_self_eq_true]
    rw [← hseq, hturned, hv]
    exact deliverGo_of_empty hl' hempty 63
  rw [land_heed hup hroute hlink, heed, if_neg hack, if_neg hsyn, if_neg hsync]
  simp only [hseq, hlanding]
  rw [show (l.rxSeq + 2 ^ 32 - l.rxSeq) % 2 ^ 32 = 0 by omega]
  exact congrArg (·.sendAck f.src false) hgo

/-- A flit in its turn does what it is for, and then flits leave; its credit has been pulsed, and its link expects the next one. -/
theorem land_delivered (h : s.inTurn f l) (hkind : Kind.control kind = false) (hv : (s.turned kind f).deliver kind f = v)
    (hkept : LinksKept (s.turned kind f) v) (hout : ∃ m, v.out = (s.turned kind f).out ++ m) (mem : Image) :
    Sent v (s.land kind f mem) ∧ s.TookFlit (s.land kind f mem) f := by
  have hsent : Sent v (s.land kind f mem) := land_inTurn h hkind hv hkept mem ▸ Sent.sendAck v f.src false
  refine ⟨hsent, ?_, ?_⟩
  · obtain ⟨m, hm⟩ := hout
    obtain ⟨n, hn, -⟩ := hsent.out
    exact ⟨m ++ n, by rw [hn, hm]; simp [turned, pulsed, modLink, modCw, emit]⟩
  · obtain ⟨l', hl', hk⟩ := (hkept.trans (.of_sent hsent)) _ _ (link?_turned h kind)
    simp only [Link.kept, Prod.mk.injEq] at hk
    obtain ⟨-, hseq, -, -, -, -, hlanding⟩ := hk
    exact ⟨l', hl', hseq, hlanding⟩

end State

-- A stray ------------------------------------------------------------------------------------------------------------

namespace State
variable {s : State} {f : Flit} {l : Link} {kind : Nat}

/-- An S1 is counted, and has at most its record written (R664). -/
theorem incidentS1_frame (s : State) (x : Finding) :
    let t := s.incidentS1 x
    t.inc.s1cnt = s.inc.s1cnt.modify x.source (fun c => if c = 0xFFFFFFFF then c else c + 1) ∧ t.cw.exchs = s.cw.exchs ∧
      t.cw.early = s.cw.early ∧ t.groups = s.groups ∧ LinksKept s t ∧ ∃ m, t.out = s.out ++ m := by
  unfold incidentS1
  extract_lets old n now due go e s1 t
  have hcounted : LinksKept s s1 := .step (.refl s)
  by_cases hgo : go = true
  · rw [show t = (s1.wbWrite Ty.incident [incBytes e] .none).bump from if_pos hgo]
    obtain ⟨hwrote, hframe⟩ := s1.wbWrite_wrote Ty.incident [incBytes e] .none
    obtain ⟨m, hm, -⟩ := hwrote.journal.out
    exact ⟨(congrArg (·.inc.s1cnt) hframe :), s1.wbWrite_exchs .., s1.wbWrite_early .., (congrArg State.groups hframe :), hcounted.wbWrite.bump, m, hm⟩
  · rw [show t = s1 from if_neg hgo]
    exact ⟨rfl, rfl, rfl, rfl, hcounted, [], by simp [s1]⟩

/-- A flit that nothing takes is counted, and taken in its turn all the same (R524, R526). -/
theorem land_stray (h : s.inTurn f l) (hkind : Kind.control kind = false)
    (hv : (s.turned kind f).deliver kind f = (s.turned kind f).stray f) (mem : Image) :
    let t := s.land kind f mem
    s.TookFlit t f ∧ s.countedStray t ∧ t.cw.early = s.cw.early := by
  intro t
  obtain ⟨hcount, hexchs, hearly, hgroups, hkept, hout⟩ := (s.turned kind f).incidentS1_frame (finding Src.cwStray f.src 0 f.chainId)
  have hstray : (s.turned kind f).stray f = (s.turned kind f).incidentS1 (finding Src.cwStray f.src 0 f.chainId) := rfl
  obtain ⟨hsent, htook⟩ := land_delivered h hkind (hv.trans hstray) hkept hout mem
  exact ⟨htook, ⟨(congrArg (·.inc.s1cnt) hsent.frame).trans hcount, hsent.exchs.trans hexchs, (congrArg State.groups hsent.frame :).trans hgroups⟩,
    hsent.early.trans hearly⟩

end State

end Sys2Proof.Machine
end
section
/-!
What ends an exchange (R496, R521, R525, R642, R651): its group fails, its peers hear of it, and an S2 that only sets statuses is logged
and ends at once, while links and the journal go on.
-/
namespace Sys2Proof.Machine
open Sys2Proof

/-- From `s` to `t` the journal has only taken records, and MIRROR_LOST stands as it was. -/
def JournalGrown (s t : State) : Prop := (∃ l, t.wb.recs = s.wb.recs ++ l) ∧ t.wb.mirrorLost = s.wb.mirrorLost

namespace JournalGrown
variable {s t u : State}

theorem refl (s : State) : JournalGrown s s := ⟨⟨[], by simp⟩, rfl⟩

theorem trans (h : JournalGrown s t) (k : JournalGrown t u) : JournalGrown s u := by
  obtain ⟨⟨l, hl⟩, hlost⟩ := h
  obtain ⟨⟨m, hm⟩, hlost'⟩ := k
  exact ⟨⟨l ++ m, by rw [hm, hl, List.append_assoc]⟩, hlost'.trans hlost⟩

theorem wbWrite (s : State) (ty : Nat) (parts : List (List Byte)) (act : Act) : JournalGrown s (s.wbWrite ty parts act) := by
  have hwb := (s.wbWrite_wrote ty parts act).1.journal.wb
  exact ⟨⟨_, congrArg Wb.recs hwb⟩, (congrArg Wb.mirrorLost hwb :)⟩

theorem writeEntry (s : State) (p : Nat) : JournalGrown s (s.writeEntry p) := by
  unfold State.writeEntry
  split
  · split
    · exact wbWrite ..
    · exact refl s
  · exact refl s

theorem flushInc (s : State) : JournalGrown s s.flushInc :=
  List.foldlRecOn (motive := JournalGrown s) _ _ (refl s) fun t h _ _ => h.trans (writeEntry t _)

end JournalGrown

namespace State
variable {s u : State} {e : Exch} {g : Group} {f : Finding} {p q code : Nat} {from' : List Nat}

-- An S2 that only sets statuses --------------------------------------------------------------------------------------

/-- A block whose recovery has ended, with DONE shown and none that follows it (R651, R665). -/
def settled (s : State) : State := (s.modInc fun i => { i with cur := none }).irqInc 4

/-- How such an incident runs in a calm block: its entry is the current recovery, is written as DONE, and none follows it (R651, R663). -/
theorem incident_of_calm_eq (hcalm : s.calm) (hp : s.freePos = some p) (hsev : severity s.resident f = 2) (hsource : f.source ∉ repeating)
    (act : Nat) : s.incident f act =
      ((s.recovering p { s.newEntry f 2 act with state := 2, action := 7 }).writeEntry p).flushInc.settled := by
  have ⟨_, _, _, hidle⟩ := hcalm
  have hlt := lt_of_freePos hp
  let e : IncEntry := { s.newEntry f 2 act with state := 1, action := 7 }
  have hclose : (s.recovering p e).closeEntry p 2 0xFF = (s.recovering p { e with state := 2 }).writeEntry p :=
    congrArg (·.writeEntry p) (recovering_modEntry ..)
  have hwaiting := ((Flushed.writeEntry (s.recovering p { e with state := 2 }) p).trans (Flushed.flushInc _)).idle fun x hx => by
    obtain hx | rfl := List.mem_or_eq_of_mem_set hx
    · exact hidle x hx
    · simp
  change _ = ((s.recovering p { e with state := 2 }).writeEntry p).flushInc.settled
  generalize hv : ((s.recovering p { e with state := 2 }).writeEntry p).flushInc = v at hwaiting ⊢
  have hnone : v.settled.nextQueued = none := nextQueued_of_idle hwaiting
  have hcur : (s.recovering p e).inc.cur = some p := rfl
  have honly : (s.recovering p e).statusOnly = true := by
    simp only [statusOnly, hcur, entry?_recovering hlt]
    rfl
  have hend : (s.recovering p e).endRecovery f.mem = v.settled := by
    simp only [endRecovery, hcur, hclose, hv]
    rw [settled] at hnone
    simp only [hnone, settled]
  have hstart : s.incident f act = settleS2 f.mem 33 (s.recovering p e) := by
    rw [incident, hsev, ← incidentHigh_of_calm hcalm hp hsource act]
    rfl
  rw [hstart, settleS2, if_pos honly, hend]
  exact settleS2_of_idle rfl 32

/-- It leaves the links in their turn and the journal's records where they are. -/
theorem kept_incident_of_calm (hcalm : s.calm) (hp : s.freePos = some p) (hsev : severity s.resident f = 2) (hsource : f.source ∉ repeating)
    (act : Nat) : LinksKept s (s.incident f act) ∧ JournalGrown s (s.incident f act) := by
  rw [incident_of_calm_eq hcalm hp hsev hsource act]
  generalize { s.newEntry f 2 act with state := 2, action := 7 } = e
  have hrecovering : LinksKept s (s.recovering p e) := (LinksKept.refl s).step
  have hflushed := (hrecovering.writeEntry (p := p)).flushInc
  have hgrown := (JournalGrown.writeEntry (s.recovering p e) p).trans (.flushInc _)
  generalize ((s.recovering p e).writeEntry p).flushInc = v at hflushed hgrown ⊢
  exact ⟨hflushed.step, hgrown⟩

/-- After a group has failed such an incident leaves it failed, and is logged (R648, R651). -/
theorem faulted_incident_of_calm (hmoved : GroupsMoved s u) (hfaulted : u.faulted q code) (hcalm : s.calm) (hp : s.freePos = some p)
    (hsev : severity u.resident f = 2) (hsource : f.source ∉ repeating) (act : Nat) :
    let t := u.incident f act
    t.faulted q code ∧ t.logged p f.source f.unit f.seq f.addr ∧ t.inc.cur = none ∧ LinksKept u t := by
  have hcalm' := hmoved.calm hcalm
  have hp' := hmoved.freePos.trans hp
  obtain ⟨hframe, hlogged⟩ := incident_of_calm hcalm' hp' hsev hsource act
  exact ⟨((SameFaults.refl u).step (congrArg State.groups hframe :)).faulted hfaulted, hlogged,
    cur_incident_of_calm hcalm' hp' hsev hsource act, (kept_incident_of_calm hcalm' hp' hsev hsource act).1⟩

/-- Flits that leave afterwards leave a fault and its entry in the log as they are. -/
theorem faulted_of_sent (h : Sent s u) (hs : s.faulted q code) : u.faulted q code :=
  ((SameFaults.refl s).step (congrArg State.groups h.frame :)).faulted hs

theorem logged_of_sent {pos source unit seq addr : Nat} (h : Sent s u) (hs : s.logged pos source unit seq addr) :
    u.logged pos source unit seq addr := by
  unfold logged
  rw [h.frame]
  exact hs

-- An exchange that is aborted ----------------------------------------------------------------------------------------

/-- Where there is a group with a number there is its member. -/
theorem member?_of_group? (hg : s.group? q = some g) : ∃ m, s.member? q = some m := by
  have hmem := List.mem_of_find?_eq_some hg
  have hany : g.members.any (·.seq == q) = true := List.find?_some (p := fun g : Group => g.members.any (·.seq == q)) hg
  obtain ⟨m, hm, hseq⟩ := List.any_eq_true.1 hany
  refine Option.isSome_iff_exists.1 (List.find?_isSome.2 ⟨m, ?_, hseq⟩)
  exact List.mem_flatMap.2 ⟨g, hmem, hm⟩

/-- The descriptor of an exchange that is aborted completes with the status, and beside the groups nothing has moved (R496, R521). -/
theorem faulted_abortExch (hg : s.group? e.seq = some g) (hlive : g.live) (code : Nat) (from' : List Nat) :
    GroupsMoved s (s.abortExch e code from') ∧ (s.abortExch e code from').faulted e.seq code := by
  obtain ⟨m, hm⟩ := member?_of_group? hg
  have hcode : s.abortExch e code from' =
      (s.sendAborts e ((s.peersOf m.bytes).filter fun p => !from'.contains p) code).faultMember e.seq code := by
    simp only [abortExch, hm]
  rw [hcode]
  generalize (s.peersOf m.bytes).filter _ = ps
  have hsent : GroupsMoved s (s.sendAborts e ps code) := (GroupsMoved.queueAll s _).trans (.pump _)
  have hgroups : (s.sendAborts e ps code).groups = s.groups := by
    obtain ⟨c, hc⟩ := s.queueAll_frame (ps.map fun p => mkFlit p Kind.abort e.chain 0 0 true (toBytes 2 code))
    rw [sendAborts, (Sent.pump _).frame, hc]
  exact ⟨hsent.trans (.faultMember ..), faulted_faultMember (by rw [group?, hgroups]; exact hg) hlive⟩

end State

end Sys2Proof.Machine
end
section
/-!
Flits of exchanges (R519 to R528, R544, R603): what a flit of data, a GRANT, a PUB and an ABORT do to the exchange that they name, and
when they are of none.
-/
namespace Sys2Proof.Machine
open Sys2Proof

/-- The kinds that carry data of an exchange (R544). -/
def exchangeKinds : List Nat := [Kind.run, Kind.offset, Kind.segtot, Kind.total, Kind.halo, Kind.sign, Kind.parity]

/-- The digest of an attempt with a flit more (R603). -/
def Exch.digestWith (kind : Nat) (f : Flit) (e : Exch) : Nat × Nat × Nat :=
  let old := (e.digest.find? (fun x => x.1 == f.attempt)).getD (f.attempt, 0, 0)
  (f.attempt, old.2.1 ^^^ State.flitDigest kind f, old.2.2 + 1)

/-- A flit of an exchange has arrived, which makes `new` of its attempt's digest (R520, R603). -/
def Exch.take (kind : Nat) (f : Flit) (new : Nat × Nat × Nat) (e : Exch) : Exch :=
  { e with
    rx := e.rx ++ [⟨kind, f.src, f.attempt, f.offset, f.last, f.payload⟩],
    digest := if Kind.digested kind then e.digest.filter (fun x => x.1 != f.attempt) ++ [new] else e.digest }

namespace State
variable {s : State} {f : Flit} {e : Exch} {x : RxItem} {kind q c : Nat}

/-- A PARITY flit under CHAIN_ID 0 is of an exchange (R583, R584). -/
def parityOfExch (s : State) (e : Exch) (f : Flit) : Prop :=
  f.offset < 0xFFFFFFFE ∧ (∃ m, s.member? e.seq = some m ∧ m.bytes.is .upd = true) ∧
    s.cw.rx.any (fun m => m.src == f.src && m.kind == 12 && !m.awaiting) = false

-- Delivery -----------------------------------------------------------------------------------------------------------

/-- A kind of an exchange goes to its exchange; PARITY under CHAIN_ID 0 where it is not link-only (R544, R583). -/
theorem deliver_data (hkind : kind ∈ exchangeKinds)
    (hparity : kind = Kind.parity → f.chainId = 0 → ∃ e, s.exch? f.chainId = some e ∧ e.senders.contains f.src = true ∧ s.parityOfExch e f) :
    s.deliver kind f = s.recvData kind f := by
  have hothers : kind ≠ Kind.grant ∧ kind ≠ Kind.pub ∧ kind ≠ Kind.abort ∧ kind ≠ Kind.waybook ∧ kind ≠ Kind.mirror := by
    have hall : ∀ k ∈ exchangeKinds, k ≠ Kind.grant ∧ k ≠ Kind.pub ∧ k ≠ Kind.abort ∧ k ≠ Kind.waybook ∧ k ≠ Kind.mirror := by decide
    exact hall kind hkind
  obtain ⟨hgrant, hpub, habort, hwaybook, hmirror⟩ := hothers
  unfold deliver
  extract_lets under inExch
  rw [if_neg hgrant, if_neg hpub, if_neg habort, if_neg hwaybook]
  refine if_neg ?_
  by_cases hp : kind = Kind.parity ∧ f.chainId = 0
  · obtain ⟨hpar, hchain⟩ := hp
    obtain ⟨e, he, hsends, hoffset, ⟨m, hm, hupd⟩, hrx⟩ := hparity hpar hchain
    have hunder : under = false := by simpa only [under, hpar] using hrx
    have hin : inExch = true := by simp [inExch, hunder, hoffset, he, hm, hupd, List.contains_iff_mem.1 hsends]
    simp [hmirror, hin]
  · simp only [Bool.or_eq_true, Bool.and_eq_true, decide_eq_true_eq]
    rintro (h | ⟨⟨hpar, -⟩, hchain⟩)
    · exact hmirror h
    · exact hp ⟨hpar, hchain⟩

/-- A member that has read nothing does not go on with its exchange. -/
theorem exchResume_of_unread (h : ∀ m, s.member? q = some m → m.inputs = none) : s.exchResume q = s := by
  unfold exchResume
  split
  · next g m hg hm => simp only [h m hm]
  · rfl

/-- Signatures wait until the run-time shape is known (R520). -/
theorem checkSigns_of_unshaped (h : ∀ m, s.member? q = some m → m.shape = none) : s.checkSigns q = s := by
  unfold checkSigns
  split
  · next m e hm he => exact if_pos (by simp [h m hm])
  · rfl

/-- The exchange that is found under its CHAIN_ID, updated. -/
theorem exch?_modExch {k : Exch → Exch} (he : s.exch? c = some e) (hk : ∀ x, (k x).isOpen = x.isOpen ∧ (k x).chain = x.chain) :
    (s.modExch e.seq k).exch? c = some (k e) := by
  have hsees : (fun x : Exch => x.isOpen && x.chain == c) ∘ (fun x => if x.isOpen && x.seq == e.seq then k x else x) =
      fun x => x.isOpen && x.chain == c := by
    funext x
    simp only [Function.comp]
    split
    · rw [(hk x).1, (hk x).2]
    · rfl
  have hopen : e.isOpen = true := by
    have hfound := List.find?_some he
    simp only [Bool.and_eq_true] at hfound
    exact hfound.1
  rw [exch?, modExch, modCw, List.find?_map, hsees, ← exch?, he]
  exact congrArg some (if_pos (by simp [hopen]))

/-- A flit of an exchange that has not come before, of a member that has not begun (R520, R603). -/
theorem recvData_new (he : s.exch? f.chainId = some e) (hsends : e.senders.contains f.src = true)
    (hnew : rxOf e kind f.src f.attempt f.offset = none) (hwaits : ∀ m, s.member? e.seq = some m → m.inputs = none ∧ m.shape = none) :
    s.recvData kind f = s.modExch e.seq (Exch.take kind f (e.digestWith kind f)) := by
  have hresume : (s.modExch e.seq (Exch.take kind f (e.digestWith kind f))).exchResume e.seq = s.modExch e.seq (Exch.take kind f (e.digestWith kind f)) :=
    exchResume_of_unread fun m hm => (hwaits m hm).1
  have hsigns : (s.modExch e.seq (Exch.take kind f (e.digestWith kind f))).checkSigns e.seq = s.modExch e.seq (Exch.take kind f (e.digestWith kind f)) :=
    checkSigns_of_unshaped fun m hm => (hwaits m hm).2
  simp only [recvData, he, hsends, Bool.not_true, if_neg Bool.false_ne_true, hnew]
  refine Eq.trans ?_ hresume
  refine congrArg (State.exchResume · e.seq) ?_
  split
  · exact hsigns
  · rfl

/-- The same flit again (R524). -/
theorem recvData_again (he : s.exch? f.chainId = some e) (hsends : e.senders.contains f.src = true)
    (hcame : rxOf e kind f.src f.attempt f.offset = some x) (hsame : x.payload = f.payload) : s.recvData kind f = s.stray f := by
  simp only [recvData, he, hsends, Bool.not_true, if_neg Bool.false_ne_true, hcame, if_pos hsame]

/-- Other bytes at a place that has been taken (R525). -/
theorem recvData_conflict (he : s.exch? f.chainId = some e) (hsends : e.senders.contains f.src = true)
    (hcame : rxOf e kind f.src f.attempt f.offset = some x) (hother : x.payload ≠ f.payload) :
    s.recvData kind f = (s.abortExch e St.dataError []).incident (finding Src.cwConflict f.src e.seq f.chainId) 7 := by
  simp only [recvData, he, hsends, Bool.not_true, if_neg Bool.false_ne_true, hcame, if_neg hother]

end State

-- The statement ------------------------------------------------------------------------------------------------------

/-- The commands of the kinds of an exchange land. -/
theorem exec_exchangeFlit {c : Instr} {kind : Nat} {f : Flit} {mem : Image} (s : State)
    (hc : (c, kind) ∈ [(Instr.run f mem, 3), (.offset f mem, 4), (.segtot f mem, 5), (.total f mem, 6), (.haloMessage f mem, 7), (.sign f mem, 8),
      (.parity f mem, 12)]) : exec c s = .next (s.land kind f mem) ∧ kind ∈ exchangeKinds ∧ Kind.control kind = false := by
  simp only [List.mem_cons, Prod.mk.injEq, List.not_mem_nil, or_false] at hc
  obtain ⟨rfl, rfl⟩ | ⟨rfl, rfl⟩ | ⟨rfl, rfl⟩ | ⟨rfl, rfl⟩ | ⟨rfl, rfl⟩ | ⟨rfl, rfl⟩ | ⟨rfl, rfl⟩ := hc
  all_goals exact ⟨rfl, by decide, rfl⟩

/-- Settles O46: a flit in its turn goes to its exchange, which takes it, counts it as a stray, or ends. -/
theorem exchangeFlitsAreTakenOnce : Obligations.ExchangeFlitsAreTakenOnce := by
  intro s f mem l c kind hc hturn
  obtain ⟨hexec, hkind, hcontrol⟩ := exec_exchangeFlit s hc
  rw [hexec]
  refine ⟨fun e he hsends hparity => ?_, fun hnone hparity => ?_⟩
  · have hdata : (s.turned kind f).deliver kind f = (s.turned kind f).recvData kind f :=
      State.deliver_data hkind fun hpar hchain => ⟨e, he, hsends, hparity hpar hchain⟩
    refine ⟨fun hnew hwaits => ?_, fun x hcame => ⟨fun hsame => ?_, fun p g hother hcalm hp hg hlive => ?_⟩⟩
    · have hv := hdata.trans (State.recvData_new he hsends hnew hwaits)
      obtain ⟨hsent, htook⟩ := State.land_delivered hturn hcontrol hv ((LinksKept.refl _).step) ⟨[], by simp⟩ mem
      have hfound : ((s.turned kind f).modExch e.seq (Exch.take kind f (e.digestWith kind f))).exch? f.chainId =
          some (Exch.take kind f (e.digestWith kind f) e) := State.exch?_modExch (s := s.turned kind f) he fun _ => ⟨rfl, rfl⟩
      have hmoved : s.Moved ((s.turned kind f).modExch e.seq (Exch.take kind f (e.digestWith kind f))) :=
        (s.turned_moved kind f).trans (State.modCw_moved ..)
      have ⟨hframe, _⟩ := hmoved.trans hsent.moved
      refine ⟨_, Exch.take kind f (e.digestWith kind f) e, rfl, hframe, htook, ?_, rfl, rfl, rfl, rfl⟩
      rw [State.exch?, hsent.exchs]
      exact hfound
    · obtain ⟨htook, hstray, -⟩ := State.land_stray hturn hcontrol (hdata.trans (State.recvData_again he hsends hcame hsame)) mem
      exact ⟨_, rfl, htook, hstray⟩
    · obtain ⟨hmoved, hfaulted⟩ := State.faulted_abortExch (s := s.turned kind f) hg hlive St.dataError []
      obtain ⟨hfails, hlogged, -, hkept⟩ := State.faulted_incident_of_calm (f := finding Src.cwConflict f.src e.seq f.chainId)
        hmoved hfaulted hcalm hp rfl (by decide : Src.cwConflict ∉ State.repeating) 7
      have hv := hdata.trans (State.recvData_conflict he hsends hcame hother)
      rw [State.land_inTurn hturn hcontrol hv ((LinksKept.refl _).abortExch.trans hkept)]
      exact ⟨_, rfl, State.faulted_of_sent (.sendAck ..) hfails, State.logged_of_sent (.sendAck ..) hlogged⟩
  · have hdata : (s.turned kind f).deliver kind f = (s.turned kind f).stray f := by
      rw [State.deliver_data hkind fun hpar hchain => absurd hchain (hparity hpar)]
      have hnone' : (s.turned kind f).exch? f.chainId = none := hnone
      simp only [State.recvData, hnone']
    obtain ⟨htook, hstray, -⟩ := State.land_stray hturn hcontrol hdata mem
    exact ⟨_, rfl, htook, hstray⟩

end Sys2Proof.Machine
end
section
/-!
What leaves a link when flits leave (R546, R548, R766): of its queue, of a resend under way and of its credits.
-/
namespace Sys2Proof.Machine
open Sys2Proof

/-- What holds of a link whatever of it has left: no flit has joined its queue or a resend, and without a flit of an exchange in its
queue its credits are unspent. -/
structure Link.Drained (l l' : Link) : Prop where
  again : l.again = [] → l'.again = []
  queue : ∀ f ∈ l'.queue, f ∈ l.queue
  credits : (∀ f ∈ l.queue, State.exchFlit f = false) → l'.credits = l.credits

namespace Link.Drained
variable {l l' l'' : Link}

theorem refl (l : Link) : l.Drained l := ⟨id, fun _ => id, fun _ => rfl⟩

theorem trans (h : l.Drained l') (k : l'.Drained l'') : l.Drained l'' where
  again := k.again ∘ h.again
  queue f hf := h.queue f (k.queue f hf)
  credits hall := (k.credits fun f hf => hall f (h.queue f hf)).trans (h.credits hall)

end Link.Drained

namespace State
variable {s t : State} {p q : Nat} {l k : Link} {cd : Bool} {lane : Nat}

/-- The one flit that leaves at a time: the first of a resend, or one of the queue (R546, R548). -/
theorem pumpLink_cases (h : s.pumpLink p = some t) : ∃ l r, s.link? p = some l ∧ s.route? p = some r ∧
    ((∃ f rest lane, l.again = f :: rest ∧ t = s.sendAgain l lane f) ∨
      (l.again = [] ∧ ∃ i lane f, l.queue[i]? = some f ∧ t = s.sendNew l r i lane f)) := by
  have hsent : ∀ {c : Bool} {u : State}, (if c then some u else none) = some t → t = u := by
    intro c u hu
    cases c
    · cases hu
    · exact (Option.some.inj hu).symm
  unfold pumpLink at h
  split at h
  · next l r hl hr =>
    refine ⟨l, r, hl, hr, ?_⟩
    split at h
    · cases h
    · split at h
      · next f rest hagain =>
        split at h
        · next lane _ => exact .inl ⟨f, rest, lane, hagain, hsent h⟩
        · cases h
      · next hagain =>
        split at h
        · next i lane _ _ =>
          split at h
          · next f hf => exact .inr ⟨hagain, i, lane, f, hf, hsent h⟩
          · cases h
        · cases h
  · cases h

/-- What every flit that leaves keeps is kept until no flit can leave. -/
theorem pump_induction {P : State → Prop} (h : ∀ s t p, P s → s.pumpLink p = some t → P t) (hs : P s) : P s.pump := by
  have hgo : ∀ (n : Nat) (s : State), P s → P (pumpN n s) := by
    intro n
    induction n with
    | zero => exact fun _ hs => hs
    | succ n ih =>
      intro s hs
      unfold pumpN
      split
      · next t ht =>
        obtain ⟨l, -, hl⟩ := List.exists_of_findSome?_eq_some ht
        exact ih t (h s t _ hs hl)
      · exact hs
  exact hgo _ s hs

/-- A link is replaced and a lane's credit is spent: what is found of a link then. -/
theorem link?_left {k' : Link} {o : Out} (hk : s.link? q = some k) (hpeer : k'.peer = k.peer) (hl : s.link? p = some l) :
    (((s.modLink k.peer fun _ => k').spendLane cd lane).emit o).link? p = some (if p = q then k' else l) := by
  have hlane : ∀ u : State, ((u.spendLane cd lane).emit o).link? p = u.link? p := fun u => by cases cd <;> rfl
  rw [hlane, link?_modLink _ _ _ _ fun _ _ => hpeer, hl, (link?_some hk).2]
  have hp := (link?_some hl).2
  by_cases hpq : p = q
  · simp [hpq, hp]
  · simp [hpq, hp]

/-- A flit that leaves drains its link. -/
theorem pumpLink_drains (h : s.pumpLink q = some t) (hl : s.link? p = some l) : ∃ l', t.link? p = some l' ∧ l.Drained l' := by
  obtain ⟨k, r, hk, -, ⟨f, rest, lane, hagain, rfl⟩ | ⟨hagain, i, lane, f, hf, rfl⟩⟩ := pumpLink_cases h
  · refine ⟨_, link?_left hk rfl hl, ?_⟩
    split
    · next hpq =>
      obtain rfl : k = l := Option.some.inj (hk.symm.trans (hpq ▸ hl))
      exact ⟨fun hnone => absurd hnone (by simp [hagain]), fun _ => id, fun _ => rfl⟩
    · exact .refl l
  · refine ⟨_, link?_left hk rfl hl, ?_⟩
    split
    · next hpq =>
      obtain rfl : k = l := Option.some.inj (hk.symm.trans (hpq ▸ hl))
      refine ⟨id, fun g hg => List.mem_of_mem_eraseIdx hg, fun hall => ?_⟩
      exact if_neg (by simpa [exchFlit] using hall f (List.mem_of_getElem? hf))
    · exact .refl l

/-- So does every flit that can leave. -/
theorem pump_drains (hl : s.link? p = some l) : ∃ l', s.pump.link? p = some l' ∧ l.Drained l' :=
  pump_induction (P := fun s => ∃ l', s.link? p = some l' ∧ l.Drained l') (fun _ _ _ ⟨_, hl, hd⟩ h => by
    obtain ⟨l', hl', hd'⟩ := pumpLink_drains h hl
    exact ⟨l', hl', hd.trans hd'⟩) ⟨l, hl, .refl l⟩

/-- An acknowledgement spends no credit of an exchange. -/
theorem credits_sendAck (hl : s.link? p = some l) (hqueue : ∀ f ∈ l.queue, exchFlit f = false) (nak : Bool) :
    ∃ l', (s.sendAck p nak).link? p = some l' ∧ l'.credits = l.credits := by
  simp only [sendAck, hl]
  generalize hf : mkFlit p Kind.ack 0 0 0 true _ = a
  obtain ⟨l', hl', hd⟩ := pump_drains (s := s.modLink p fun l => { l with queue := a :: l.queue.filter fun f => f.kind != Kind.ack })
    (link?_modLink_same hl)
  refine ⟨l', hl', hd.credits ?_⟩
  simp only [List.mem_cons, List.mem_filter, forall_eq_or_imp]
  exact ⟨by rw [← hf]; rfl, fun f hmem => hqueue f hmem.1⟩

end State

end Sys2Proof.Machine
end
section
/-!
GRANT, PUB and ABORT of an exchange (R519, R521, R526, R528, R546).
-/
namespace Sys2Proof.Machine
open Sys2Proof

namespace State
variable {s : State} {f : Flit} {e : Exch} {l : Link} {i : Nat}

/-- The credits that a GRANT brings (R546). -/
def credited (s : State) (f : Flit) : State := s.modLink f.src fun l => { l with credits := l.credits + field f.payload 0 2 }

/-- An exchange that a peer has granted (R519). -/
def grantExch (q peer : Nat) (c : Cw) : Cw :=
  { c with exchs := c.exchs.map fun x => if x.seq == q then { x with granted := x.granted ++ [peer] } else x }

/-- A GRANT of an exchange here lets it send. -/
theorem recvGrant_taken (h : s.cw.exchs.find? (s.takesGrant f) = some e) :
    s.recvGrant f = ((s.credited f).modCw (grantExch e.seq f.src)).pump := by
  unfold recvGrant
  extract_lets s1
  have hfound : s1.cw.exchs.find? (s1.takesGrant f) = some e := h
  rw [hfound]
  rfl

/-- One of an exchange that opens later is kept. -/
theorem recvGrant_early (hnone : s.cw.exchs.find? (s.takesGrant f) = none) (hpeer : s.grantPeer f = true) :
    s.recvGrant f = ((s.credited f).modCw (Cw.early' f.chainId f.src)).pump := by
  unfold recvGrant
  extract_lets s1
  have hnone' : s1.cw.exchs.find? (s1.takesGrant f) = none := hnone
  rw [hnone']
  exact if_pos hpeer

/-- One that can be of no exchange is a stray (R526). -/
theorem recvGrant_stray (hnone : s.cw.exchs.find? (s.takesGrant f) = none) (hpeer : s.grantPeer f = false) : s.recvGrant f = s.stray f := by
  unfold recvGrant
  extract_lets s1
  have hnone' : s1.cw.exchs.find? (s1.takesGrant f) = none := hnone
  rw [hnone']
  exact if_neg (by simp [hpeer])

-- What the turn leaves of an exchange's conditions ---------------------------------------------------------------------

/-- A flit in its turn changes no condition of a PUB: the queue of its link stands. -/
theorem takesPub_turned (h : s.inTurn f l) (kind : Nat) : (s.turned kind f).takesPub f = s.takesPub f := by
  obtain ⟨-, -, hlink, -⟩ := id h
  funext e
  simp only [takesPub, link?_turned h, hlink]

/-- A PUB lets go what was kept for its sender (R528). -/
def pubExchs (s : State) (f : Flit) (i : Nat) (c : Cw) : Cw :=
  { c with exchs := (c.exchs.modify i (fun e => { e with
      pubs := e.pubs ++ [f.src], kept := e.kept.filter (fun k => k.peer != f.src) })).filter s.keepExch }

theorem recvPub_taken (h : s.cw.exchs.findIdx? (s.takesPub f) = some i) : s.recvPub f = s.modCw (s.pubExchs f i) := by
  unfold recvPub
  rw [h]
  rfl

/-- An ABORT of a peer ends the exchange (R521). -/
theorem recvAbort_taken (he : s.exch? f.chainId = some e) (hpeer : (s.exchPeers e).contains f.src = true) :
    s.recvAbort f = s.abortExch e (field f.payload 0 2) [f.src] := by
  unfold recvAbort
  rw [he]
  exact if_pos hpeer

-- A GRANT as it lands ------------------------------------------------------------------------------------------------

/-- A GRANT that is taken brings its credits and updates exchanges as `k` says, and then flits leave (R519, R546). -/
theorem land_grant {k : Cw → Cw} (h : s.inTurn f l) (hlinks : ∀ c, (k c).links = c.links)
    (hv : (s.turned Kind.grant f).recvGrant f = (((s.turned Kind.grant f).credited f).modCw k).pump) (mem : Image) :
    let t := s.land Kind.grant f mem
    ∃ l', s.Moved t ∧ s.TookFlit t f ∧ t.link? f.src = some l' ∧ (l.queue = [] → l'.credits = l.credits + field f.payload 0 2) ∧
      t.cw.exchs = (k ((s.turned Kind.grant f).credited f).cw).exchs ∧ t.cw.early = (k ((s.turned Kind.grant f).credited f).cw).early := by
  intro t
  let u := ((s.turned Kind.grant f).credited f).modCw k
  have hu : (s.turned Kind.grant f).Moved u := (modCw_moved ..).trans (modCw_moved ..)
  have hkept : LinksKept (s.turned Kind.grant f) u.pump := (LinksKept.step (.modLink (.refl _)) (hlinks _)).pump
  have hv' : (s.turned Kind.grant f).deliver Kind.grant f = u.pump := hv
  obtain ⟨hsent, htook⟩ := land_delivered h rfl hv' hkept (hu.trans (Sent.pump u).moved).2 mem
  have hmoved : s.Moved t := (((s.turned_moved Kind.grant f).trans hu).trans (Sent.pump u).moved).trans hsent.moved
  have hlink : u.link? f.src = some { l with
      rxSeq := (f.lseq + 1) % 2 ^ 32, landing := [], credits := l.credits + field f.payload 0 2 } := by
    rw [link?, show u.cw.links = _ from hlinks _]
    exact link?_modLink_same (link?_turned h Kind.grant)
  obtain ⟨l1, hl1, hd⟩ := pump_drains hlink
  have ht : u.pump.sendAck f.src false = t := (land_inTurn h rfl hv' hkept mem).symm
  obtain ⟨l', hl', -⟩ := htook.turn
  refine ⟨l', hmoved, htook, hl', fun hqueue => ?_, hsent.exchs.trans (Sent.pump u).exchs, hsent.early.trans (Sent.pump u).early⟩
  have hnone : ∀ g ∈ l1.queue, exchFlit g = false := fun g hg => absurd (hd.queue g hg) (by simp [hqueue])
  obtain ⟨l2, hl2, hcredits⟩ := credits_sendAck hl1 hnone false
  rw [ht, hl'] at hl2
  obtain rfl := Option.some.inj hl2
  exact hcredits.trans (hd.credits (by simp [hqueue]))

end State

-- The statement ------------------------------------------------------------------------------------------------------

/-- Settles O47: a GRANT of an exchange here, of one to come and of none; a PUB; and an ABORT. -/
theorem grantsPublicationsAborts : Obligations.GrantsPublicationsAborts := by
  intro s f mem l hturn
  refine ⟨fun hgrant => ?_, fun hpeer hnone => ?_, fun i hpub => ?_, fun e g he hpeer hg hlive => ?_⟩
  · cases hfind : s.cw.exchs.find? (s.takesGrant f) with
    | some e =>
      obtain ⟨l', ⟨hframe, -⟩, htook, hlink, hcredits, hexchs, hearly⟩ :=
        State.land_grant (k := State.grantExch e.seq f.src) hturn (fun _ => rfl) (State.recvGrant_taken (s := s.turned Kind.grant f) hfind) mem
      refine ⟨_, l', rfl, hframe, htook, hlink, hcredits, fun e' he' => ?_, fun hnone => by cases hnone⟩
      cases he'
      exact ⟨hexchs, hearly⟩
    | none =>
      have hpeer : s.grantPeer f = true := hgrant.resolve_right (by simp [hfind])
      obtain ⟨l', ⟨hframe, -⟩, htook, hlink, hcredits, hexchs, hearly⟩ :=
        State.land_grant (k := Cw.early' f.chainId f.src) hturn (fun _ => rfl) (State.recvGrant_early (s := s.turned Kind.grant f) hfind hpeer) mem
      refine ⟨_, l', rfl, hframe, htook, hlink, hcredits, fun e' he' => (by cases he'), fun _ => ⟨hexchs, ?_⟩⟩
      rw [hearly]
      simp only [Cw.early']
      split
      · next hhas => exact List.contains_iff_mem.1 hhas
      · simp
  · obtain ⟨htook, hstray, hearly⟩ := State.land_stray (kind := Kind.grant) hturn rfl
      (State.recvGrant_stray (s := s.turned Kind.grant f) hnone hpeer) mem
    exact ⟨_, rfl, htook, hstray, hearly⟩
  · have hv : (s.turned Kind.pub f).deliver Kind.pub f = (s.turned Kind.pub f).modCw ((s.turned Kind.pub f).pubExchs f i) :=
      State.recvPub_taken (s := s.turned Kind.pub f) (by rw [State.takesPub_turned hturn]; exact hpub)
    obtain ⟨hsent, htook⟩ := State.land_delivered hturn rfl hv ((LinksKept.refl _).step) ⟨[], by simp⟩ mem
    have ⟨hframe, _⟩ := ((s.turned_moved Kind.pub f).trans (State.modCw_moved ..)).trans hsent.moved
    exact ⟨_, rfl, hframe, htook, hsent.exchs⟩
  · have hv : (s.turned Kind.abort f).deliver Kind.abort f = (s.turned Kind.abort f).abortExch e (field f.payload 0 2) [f.src] :=
      State.recvAbort_taken (s := s.turned Kind.abort f) he hpeer
    obtain ⟨-, hfaulted⟩ := State.faulted_abortExch (s := s.turned Kind.abort f) hg hlive (field f.payload 0 2) [f.src]
    have hland := State.land_inTurn hturn rfl hv (LinksKept.refl _).abortExch mem
    exact ⟨_, rfl, hland ▸ State.faulted_of_sent (.sendAck ..) hfaulted⟩

end Sys2Proof.Machine
end
section
/-!
Links and their peers (R546 to R548, R554, R766, R767): what an ACK and a SYNC do, a flit that fails its check, and a transport credit.
-/
namespace Sys2Proof.Machine
open Sys2Proof

namespace State
variable {s u : State} {f : Flit} {l : Link} {r : Route} {a : TxFlit} {cd : Bool} {epoch lane on p : Nat}

/-- Without a flit that waits nothing leaves. -/
theorem pump_of_idle (h : ∀ l ∈ s.cw.links, l.queue = [] ∧ l.again = []) : s.pump = s := by
  have hzero : (s.cw.links.map fun l => l.queue.length + l.again.length).sum = 0 := by
    refine List.sum_eq_zero fun n hn => ?_
    obtain ⟨l, hl, rfl⟩ := List.mem_map.1 hn
    simp [h l hl]
  rw [pump, hzero]
  rfl

/-- The only link, updated, while nothing on it waits. -/
theorem modLink_pump_of_only {k : Link → Link} (h : s.cw.links = [l]) (hpeer : l.peer = p) (hidle : (k l).queue = [] ∧ (k l).again = []) :
    (s.modLink p k).pump = { s with cw := { s.cw with links := [k l] } } := by
  have hlinks : (s.modLink p k) = { s with cw := { s.cw with links := [k l] } } := by simp [modLink, modCw, h, hpeer]
  rw [hlinks]
  exact pump_of_idle (by simpa using hidle)

-- ACK and SYNC -------------------------------------------------------------------------------------------------------

/-- An ACK without NAK of an LSEQ that has been sent (R548). -/
theorem recvAck_released (hlink : s.link? f.src = some l) (hnak : bit (field f.payload 4 1) 0 = false)
    (hsent : (l.txSeq + 2 ^ 32 - 1 - field f.payload 0 4) % 2 ^ 32 < 2 ^ 31) :
    s.recvAck f = (s.modLink f.src fun k => { k with
      unacked := k.unacked.filter fun x => !decide ((field f.payload 0 4 + 2 ^ 32 - x.lseq) % 2 ^ 32 < 2 ^ 31)
      again := k.again.filter fun x => !decide ((field f.payload 0 4 + 2 ^ 32 - x.lseq) % 2 ^ 32 < 2 ^ 31)
      credits := k.credits + (l.unacked.filter fun x => decide ((field f.payload 0 4 + 2 ^ 32 - x.lseq) % 2 ^ 32 < 2 ^ 31)).countP exchFlit }).pump := by
  simp only [recvAck, hlink, if_neg (Nat.not_le.2 hsent), hnak, if_neg Bool.false_ne_true]

/-- The answer to a SYNC of this end (R554). -/
theorem recvSync_answer (hlink : s.link? f.src = some l) (hwait : l.sync = 0) (hepoch : field f.payload 0 4 = l.epoch) :
    s.recvSync f = (s.modLink f.src fun l => { l with sync := 1, resent := 0 }).pump := by
  simp only [recvSync, hlink, hepoch, hwait, if_true]

/-- A SYNC of a newer epoch (R554). -/
theorem recvSync_newer (hlink : s.link? f.src = some l) (hne : field f.payload 0 4 ≠ l.epoch)
    (hnewer : (field f.payload 0 4 + 2 ^ 32 - l.epoch) % 2 ^ 32 < 2 ^ 31) : s.recvSync f = s.restartLinkTo f.src (field f.payload 0 4) 1 := by
  simp only [recvSync, hlink, if_neg hne, if_pos hnewer]

/-- What a peer has granted and begun goes with a restart of its link (R554); of PARTNER's the journal's records go again in the runs that
are unacknowledged (R626). -/
def forgotten (s : State) (p : Nat) : State :=
  { s with
    cw := { s.cw with
      exchs := s.cw.exchs.map fun x => { x with granted := x.granted.filter (· != p) }
      early := s.cw.early.filter fun x => x.2 != p
      rx := s.cw.rx.filter fun m => m.src != p || m.awaiting }
    wb := { s.wb with sent := if p = s.partner then s.mirrorRuns else s.wb.sent } }

/-- A link that restarts begins a new epoch in its place, with nothing of a resend, and then flits leave (R554). -/
theorem restartLinkTo_eq (hlink : s.link? p = some l) (epoch sync : Nat) :
    ∃ l', s.restartLinkTo p epoch sync = ((s.forgotten p).modLink p fun _ => l').pump ∧
      l'.kept = (Link.fresh p l.cd epoch sync).kept ∧ l'.again = [] := by
  unfold restartLinkTo
  rw [hlink]
  extract_lets owed messages again grants s1 w s2
  have hforgotten : s2 = s.forgotten p := by
    by_cases hp : p = s.partner
    · simp only [s2, w, s1, forgotten, modCw, if_pos hp]
    · simp only [s2, s1, forgotten, modCw, if_neg hp]
  rw [hforgotten]
  exact ⟨_, rfl, rfl, rfl⟩

/-- A SYNC that restarts its link here as it is heeded (R554). -/
theorem restartLinkTo_restarts (hlink : s.link? p = some l) (epoch sync : Nat) :
    let t := s.restartLinkTo p epoch sync
    (s.forgotten p).Moved t ∧ (∃ l', t.link? p = some l' ∧ l'.kept = (Link.fresh p l.cd epoch sync).kept ∧ l'.again = []) ∧
      t.cw.exchs = (s.forgotten p).cw.exchs ∧ t.cw.early = (s.forgotten p).cw.early := by
  obtain ⟨l', ht, hkept, hagain⟩ := restartLinkTo_eq hlink epoch sync
  rw [ht]
  have hpump := Sent.pump ((s.forgotten p).modLink p fun _ => l')
  have hnew : ((s.forgotten p).modLink p fun _ => l').link? p = some l' :=
    link?_modLink_same (s := s.forgotten p) hlink fun _ _ => congrArg Prod.fst hkept
  obtain ⟨l1, hl1, hk⟩ := LinksKept.of_sent hpump _ _ hnew
  obtain ⟨l2, hl2, hdrained⟩ := pump_drains hnew
  obtain rfl := Option.some.inj (hl1.symm.trans hl2)
  exact ⟨(modCw_moved ..).trans hpump.moved, ⟨l1, hl1, hk.trans hkept, hdrained.again hagain⟩, hpump.exchs, hpump.early⟩

-- A flit that fails its check ----------------------------------------------------------------------------------------

/-- A control flit is the next one of a link on which nothing else waits (R519, R554). -/
theorem nextFlit_of_control (hqueue : l.queue = [a]) (hcontrol : Kind.control a.kind = true) (hack : a.kind = Kind.ack) :
    s.nextFlit l = some 0 := by
  have heligible : s.eligible l a = true := by simp [eligible, hcontrol]
  simp [nextFlit, hqueue, heligible, hack, Kind.ack, Kind.mirror, Kind.parity]

/-- The one flit that waits on the only link leaves, where its lane and its port let it. -/
theorem pump_of_single (hlinks : s.cw.links = [l]) (hqueue : l.queue = [a]) (hagain : l.again = []) (hfailed : l.failed = false)
    (hroute : s.route? l.peer = some r) (hnext : s.nextFlit l = some 0) (hlane : s.freeLane (!r.cu) = some lane)
    (hsends : s.portSends (!r.cu) = true) : s.pump = s.sendNew l r 0 lane a := by
  have hlink : s.link? l.peer = some l := by simp [link?, hlinks]
  have hleaves : s.pumpLink l.peer = some (s.sendNew l r 0 lane a) := by
    simp [pumpLink, hlink, hroute, hfailed, hagain, hnext, hlane, hqueue, hsends]
  have hone : (s.cw.links.map fun l => l.queue.length + l.again.length).sum = 1 := by simp [hlinks, hqueue, hagain]
  rw [pump, hone, pumpN, hlinks, List.findSome?_singleton, hleaves]
  rfl

/-- What an ACK that leaves the only link changes: its port's credits and the link's port alone (R547, R548). -/
theorem sendNew_ack (hu : u = { s with cw := { s.cw with links := [{ l with queue := [a] }] } }) (hqueue : l.queue = [])
    (hack : a.kind = Kind.ack) (hown : a.own = 0) (hlseq : a.lseq = 0) :
    u.sendNew { l with queue := [a] } r 0 lane a = { s with
      cw := { s.cw with
        links := [{ l with cd := !r.cu }]
        credCd := if r.cu then s.cw.credCd else s.cw.credCd.modify lane (· - 1)
        credCu := if r.cu then s.cw.credCu.modify lane (· - 1) else s.cw.credCu }
      out := s.out ++ [.flit { a with cd := !r.cu, dest := r.dest }] } := by
  have hcontrol : Kind.control a.kind = true := by rw [hack]; rfl
  have hsame : { a with cd := !r.cu, dest := r.dest, lseq := 0 } = { a with cd := !r.cu, dest := r.dest } := by rw [← hlseq]
  have hlink : { l with queue := [], cd := !r.cu } = { l with cd := !r.cu } := by rw [← hqueue]
  subst hu
  cases hcu : r.cu <;> simp_all [sendNew, spendLane, modLink, modCw, emit, exchFlit]

/-- An acknowledgement on an idle link leaves at once (R547, R554). -/
theorem sendAck_of_clear (h : s.clearTo l r lane) (nak : Bool) :
    s.sendAck l.peer nak = { s with
      cw := { s.cw with
        links := [{ l with cd := !r.cu }]
        credCd := if r.cu then s.cw.credCd else s.cw.credCd.modify lane (· - 1)
        credCu := if r.cu then s.cw.credCu.modify lane (· - 1) else s.cw.credCu }
      out := s.out ++ [.flit { mkFlit l.peer Kind.ack 0 0 0 true
        (toBytes 4 ((l.rxSeq + 2 ^ 32 - 1) % 2 ^ 32) ++ toBytes 1 (b2n nak)) with cd := !r.cu, dest := r.dest }] } := by
  obtain ⟨hlinks, hqueue, hagain, hfailed, -, -, hroute, hlane, hready, hfenced, hparked⟩ := h
  have hlink : s.link? l.peer = some l := by simp [link?, hlinks]
  simp only [sendAck, hlink, hqueue, List.any_nil, Bool.or_false]
  generalize ha : mkFlit l.peer Kind.ack 0 0 0 true _ = a
  have hkind : a.kind = Kind.ack := by rw [← ha]; rfl
  have hown : a.own = 0 := by rw [← ha]; rfl
  have hlseq : a.lseq = 0 := by rw [← ha]; rfl
  generalize hu : s.modLink l.peer _ = u
  have hqueued : u = { s with cw := { s.cw with links := [{ l with queue := [a] }] } } := by
    simp [← hu, modLink, modCw, hlinks, hqueue]
  have hnext : u.nextFlit { l with queue := [a] } = some 0 := nextFlit_of_control rfl (by rw [hkind]; rfl) hkind
  have hsends : s.portSends (!r.cu) = true := by cases hcu : r.cu <;> simp_all [portSends]
  have hsent : u.pump = u.sendNew { l with queue := [a] } r 0 lane a :=
    pump_of_single (congrArg (fun u : State => u.cw.links) hqueued) rfl hagain hfailed (by rw [hqueued]; exact hroute) hnext
      (by rw [hqueued]; exact hlane) (by rw [hqueued]; exact hsends)
  rw [hsent, sendNew_ack hqueued hqueue hkind hown hlseq, hqueue]

/-- A flit that fails its check, of a peer that is known, is asked for again (R547). -/
theorem exec_flitCrcFailure (h : s.clearTo l r lane) (hup : s.laneUp cd on = true) (mem : Image) :
    exec (.flitCrcFailure ⟨cd, on⟩ l.peer mem) s = .next ((s.pulsed cd on).sendAck l.peer true) := by
  obtain ⟨hreset, hcredit, htake⟩ := of_laneUp hup
  obtain ⟨hlinks, -, -, -, -, -, hroute, -⟩ := h
  have hlink : (s.pulsed cd on).link? l.peer = some l := by simp [link?, pulsed, emit, hlinks]
  have hmeet := meet_known (s := s.pulsed cd on) hlink (Option.isSome_of_eq_some hroute) mem
  change execFlitCrcFailure ⟨cd, on⟩ l.peer mem s = _
  simp [execFlitCrcFailure, hreset, hcredit, htake, hup, hmeet]

/-- A transport credit while nothing waits for it (R766). -/
theorem exec_txCredit (hreset : s.inReset = false) (hidle : ∀ l ∈ s.cw.links, l.queue = [] ∧ l.again = []) (cd : Bool) (lane : Nat) :
    exec (.txCredit cd lane) s = .next (s.modCw fun c =>
      if cd then { c with credCd := c.credCd.modify lane (· + 1) } else { c with credCu := c.credCu.modify lane (· + 1) }) := by
  change execTxCredit cd lane s = _
  rw [execTxCredit, hreset, if_neg Bool.false_ne_true, pump_of_idle]
  cases cd <;> exact hidle

end State

-- The statement ------------------------------------------------------------------------------------------------------

/-- Settles O51: an idle link sends nothing more, so ACK and SYNC change their link alone; a restart ends where its new link has sent. -/
theorem linksAnswerTheirPeers : Obligations.LinksAnswerTheirPeers := by
  refine ⟨?_, fun s cd on mem l r lane hclear hup => ?_,
    fun s lane hreset hidle => ⟨State.exec_txCredit hreset hidle true lane, State.exec_txCredit hreset hidle false lane⟩⟩
  · intro s f mem l hup hroute hlink pulsed
    have hpeer := (State.link?_some hlink).2
    refine ⟨?_, ?_, ?_⟩
    · intro honly hqueue hagain hsync hnak high hsent has
      have hland : s.land Kind.ack f mem = (s.pulsed f.cd f.lane).recvAck f := (State.land_heed hup hroute hlink _ mem).trans (if_neg hsync)
      refine congrArg Host.Outcome.next (hland.trans ?_)
      rw [State.recvAck_released (s := s.pulsed f.cd f.lane) hlink hnak hsent,
        State.modLink_pump_of_only (s := s.pulsed f.cd f.lane) honly hpeer ⟨hqueue, by rw [hagain]; rfl⟩, hagain]
      rfl
    · intro honly hqueue hagain hwait hepoch
      have hland : s.land Kind.sync f mem = (s.pulsed f.cd f.lane).recvSync f := State.land_heed hup hroute hlink _ mem
      refine congrArg Host.Outcome.next (hland.trans ?_)
      rw [State.recvSync_answer (s := s.pulsed f.cd f.lane) hlink hwait hepoch,
        State.modLink_pump_of_only (s := s.pulsed f.cd f.lane) honly hpeer ⟨hqueue, hagain⟩]
      rfl
    · intro e hne hnewer
      have hland : s.land Kind.sync f mem = (s.pulsed f.cd f.lane).recvSync f := State.land_heed hup hroute hlink _ mem
      have hrestart := hland.trans (State.recvSync_newer (s := s.pulsed f.cd f.lane) hlink hne hnewer)
      obtain ⟨hmoved, ⟨l', hl', hkept, hagain⟩, hexchs, hearly⟩ := State.restartLinkTo_restarts (s := s.pulsed f.cd f.lane) hlink e 1
      simp only [Link.kept, Link.fresh, Prod.mk.injEq] at hkept
      obtain ⟨-, hrx, hepoch, hsync, hfailed, hresent, hlanding⟩ := hkept
      exact ⟨_, l', congrArg Host.Outcome.next hrestart, hmoved.1, hl', hrx, hepoch, hsync, hfailed, hresent, hlanding, hagain, hexchs, hearly⟩
  · rw [State.exec_flitCrcFailure hclear hup mem, State.sendAck_of_clear (s := s.pulsed cd on) hclear true]
    simp only [State.pulsed, State.emit, List.append_assoc]
    rfl

end Sys2Proof.Machine
end
section
/-!
Limits of exchanges and mirrored writes (R523, R580, R626, R648): what stays open past EXCH_LIMIT.
-/
namespace Sys2Proof.Machine
open Sys2Proof

namespace State
variable {s u : State} {e : Exch} {g : Group} {m : Member} {r : Rec} {chain p q : Nat}

/-- An exchange that stays open past EXCH_LIMIT (R523, R648). -/
theorem exec_exchTimeout (hcalm : s.calm) (hlimit : s.exchLimit ≠ 0) (he : s.exch? chain = some e) (hg : s.group? e.seq = some g)
    (hlive : g.live) : exec (.exchTimeout chain) s =
      .next ((s.abortExch e St.busError []).incident (finding Src.exchTimeout (s.silentPeer e) e.seq chain) 7) := by
  obtain ⟨hreset, hfenced, -⟩ := hcalm
  obtain ⟨hdead, hpub, -⟩ := hlive
  change execExchTimeout chain s = _
  simp [execExchTimeout, he, hg, hreset, hlimit, hdead, hpub, hfenced]

/-- A written set whose done does not come (R580, R648). -/
theorem exec_mirrorTimeout (hcalm : s.calm) (hlimit : s.exchLimit ≠ 0) (hg : s.group? q = some g) (hm : s.member? q = some m)
    (hlive : g.live) (hwrote : g.wrote = true) (hundone : m.mirrorDone = false) : exec (.mirrorTimeout q) s =
      .next ((s.faultMember q St.busError).incident (finding Src.mirror s.partner q q) 7) := by
  obtain ⟨hreset, hfenced, -⟩ := hcalm
  obtain ⟨hdead, hpub, -⟩ := hlive
  change execMirrorTimeout q s = _
  simp [execMirrorTimeout, hg, hm, hreset, hlimit, hwrote, hdead, hpub, hundone, hfenced]

/-- The first time that records stay without a done (R626). -/
theorem exec_mirrorLost (hcalm : s.calm) (hlimit : s.exchLimit ≠ 0) (hen : s.mirrorEn = true) (hfirst : s.wb.mirrorLost = false)
    (hr : s.wb.recs.find? (fun r => !r.acked) = some r) (hmirror : s.wb.mirror = []) : exec .mirrorLost s =
      .next (((s.modWb fun w => { w with mirrorLost := true }).incident (finding Src.mirror s.partner 0 r.rnum) 0).sendMirror.report) := by
  obtain ⟨hreset, hfenced, -⟩ := hcalm
  change execMirrorLost s = _
  simp [execMirrorLost, hr, hmirror, hreset, hfenced, hen, hlimit, hfirst]

/-- Records that go to PARTNER again stay in the journal, and the incidents stay as they are (R626). -/
theorem sendMirror_kept (s : State) :
    s.sendMirror.wb.recs = s.wb.recs ∧ s.sendMirror.wb.mirrorLost = s.wb.mirrorLost ∧ s.sendMirror.inc = s.inc := by
  have hframe := (queueAll_pump_moved (s.modWb fun w => { w with sent := w.sent ++ s.mirrorRuns }) s.mirrorMsgs).1
  have hwb := congrArg State.wb hframe
  exact ⟨(congrArg Wb.recs hwb :), (congrArg Wb.mirrorLost hwb :), (congrArg State.inc hframe :)⟩

/-- While no record is answered, records that go again let none be reported. -/
theorem report_sendMirror_of_unanswered {a : Rec} {rest : List Rec} (h : s.wb.recs = a :: rest) (hok : a.ok = false) :
    s.sendMirror.report = s.sendMirror :=
  report_of_unanswered (s.sendMirror_kept.1.trans h) hok

/-- An S2 that only sets statuses, in a block whose records are all unanswered, lets none be reported once they go again (R626, R651). -/
theorem mirrorLost_incident_sendMirror (hcalm : s.calm) (hp : s.freePos = some p) (hnone : ∀ r ∈ s.wb.recs, r.ok = false)
    (hsome : s.wb.recs ≠ []) (unit seq addr : Nat) :
    let t := (s.incident (finding Src.mirror unit seq addr) 0).sendMirror.report
    t.wb.mirrorLost = s.wb.mirrorLost ∧ t.logged p 0x18 unit seq addr ∧ t.inc.cur = none := by
  have hsource : Src.mirror ∉ repeating := by decide
  obtain ⟨-, hlogged⟩ := incident_of_calm (f := finding Src.mirror unit seq addr) hcalm hp rfl hsource 0
  have hcur := cur_incident_of_calm (f := finding Src.mirror unit seq addr) hcalm hp rfl hsource 0
  obtain ⟨-, ⟨new, hrecs⟩, hlost⟩ := kept_incident_of_calm (f := finding Src.mirror unit seq addr) hcalm hp rfl hsource 0
  obtain ⟨a, rest, hs⟩ := List.exists_cons_of_ne_nil hsome
  generalize s.incident (finding Src.mirror unit seq addr) 0 = u at hlogged hcur hrecs hlost
  have hu : u.wb.recs = a :: (rest ++ new) := by rw [hrecs, hs, List.cons_append]
  intro t
  have ht : t = u.sendMirror := report_sendMirror_of_unanswered hu (hnone a (by simp [hs]))
  obtain ⟨-, hkeptLost, hinc⟩ := u.sendMirror_kept
  rw [ht, hinc]
  refine ⟨hkeptLost.trans hlost, ?_, hcur⟩
  rw [logged, hinc]
  exact hlogged

end State

-- The statement ------------------------------------------------------------------------------------------------------

/-- Settles O53: the descriptor's group fails first, and the S2 that follows in a calm block is logged and ends at once; after MIRROR_LOST
an unanswered record still heads the journal, so none is reported. -/
theorem limitsOfExchangesAndMirrors : Obligations.LimitsOfExchangesAndMirrors := by
  intro s p hcalm hp hlimit
  refine ⟨?_, ?_, ?_⟩
  · intro chain e g _ he hg _ hlive
    obtain ⟨hmoved, hfaulted⟩ := State.faulted_abortExch hg hlive St.busError []
    obtain ⟨hfault, hlogged, hcur, -⟩ := State.faulted_incident_of_calm (f := finding Src.exchTimeout (s.silentPeer e) e.seq chain)
      hmoved hfaulted hcalm hp rfl (by decide : Src.exchTimeout ∉ State.repeating) 7
    exact ⟨_, State.exec_exchTimeout hcalm hlimit he hg hlive, hfault, hlogged, hcur⟩
  · intro q g m hg hm hlive hwrote hundone
    obtain ⟨hfault, hlogged, hcur, -⟩ := State.faulted_incident_of_calm (f := finding Src.mirror s.partner q q)
      (GroupsMoved.faultMember s q St.busError) (State.faulted_faultMember hg hlive) hcalm hp rfl (by decide : Src.mirror ∉ State.repeating) 7
    exact ⟨_, State.exec_mirrorTimeout hcalm hlimit hg hm hlive hwrote hundone, hfault, hlogged, hcur⟩
  · intro r hen hfirst hnone hr hmirror
    have hsome : s.wb.recs ≠ [] := List.ne_nil_of_mem (List.mem_of_find?_eq_some hr)
    obtain ⟨hlost, hlogged, hcur⟩ := State.mirrorLost_incident_sendMirror (s := s.modWb fun w => { w with mirrorLost := true })
      hcalm hp hnone hsome s.partner 0 r.rnum
    exact ⟨_, State.exec_mirrorLost hcalm hlimit hen hfirst hr hmirror, hlost, hlogged, hcur⟩

end Sys2Proof.Machine
end
section
/-!
Two statements that fail, each at a concrete state: a route invalidation that touches the journal (R514, R554, R626), and a SYNC that goes
again beside a resend (R548, R554).
-/
namespace Sys2Proof.Machine
open Sys2Proof

-- DX_CW_ROUTE_INV ----------------------------------------------------------------------------------------------------

/-- A block whose journal is mirrored to position 1 over an idle link: two records wait for their done, each sent in a message of its own. -/
def mirroringState : State := { State.reset with
  regs := { State.resetRegs with wbCtl := 0x0010002C }
  seals := { State.resetSeals with geometry := BitVec.ofNat 512 (0x0002 + (0x0002 <<< 16) + (0x0001 <<< 48) + (0x0001 <<< 64)) }
  wb := { State.resetWb with tail := 2, mirror := [(0, []), (1, [])], sent := [(0, 0), (1, 1)] }
  cw := { State.resetCw with links := [Link.fresh 1 false 0 1] } }

/-- The restart of PARTNER's link has both records go again in one message, which the journal notes. -/
theorem sent_routeInv_mirroringState : (mirroringState.setupWrite .apb 0x42C 1 0xF).wb.sent = [(0, 1)] := by decide +kernel

/-- Refutes O19: where the entry that goes is PARTNER's, its link restarts (R514, R554), the journal's unacknowledged records go again
(R626), and the waybook, which is outside the causeway, holds the messages that carry them. -/
theorem not_routeInvForgetsRoutes : ¬ Obligations.RouteInvForgetsRoutes := by
  intro h
  obtain ⟨t, hexec, hframe, -⟩ := h mirroringState 1 rfl
  have ht : mirroringState.setupWrite .apb 0x42C 1 0xF = t := Host.Outcome.next.inj hexec
  have hsame : t.wb.sent = [(0, 0), (1, 1)] := (congrArg (fun u : State => u.wb.sent) hframe :)
  rw [← ht, sent_routeInv_mirroringState] at hsame
  exact absurd hsame (by decide)

-- ACK_TIMEOUT --------------------------------------------------------------------------------------------------------

/-- A flit of a mirrored set on port CD, sent and not acknowledged. -/
def unackedFlit : TxFlit := { mkFlit 1 Kind.mirror 0 0 0 true [] with cd := true }

/-- A link whose SYNC waits for its answer, and on which the flit is about to go again. -/
def syncingLink : Link := { Link.fresh 1 true 0 0 with unacked := [unackedFlit], again := [unackedFlit] }

/-- A block with that link, its port ready and every lane with a credit. -/
def resendingState : State := { State.reset with
  start := { State.resetStart with ready := 0x0083 }
  cw := { State.resetCw with routes := [⟨1, 1, false, true⟩], credCd := List.replicate 8 1, links := [syncingLink] } }

/-- The pump after the SYNC lets the flit of the resend go too, and counts it. -/
theorem resends_ackTimeout_resendingState :
    ((resendingState.resendOrFail 1).link? 1).map (fun l => l.unacked.map TxFlit.resends) = some [1] := by decide +kernel

/-- Refutes O52: for a link that waits for the answer to its SYNC the statement has every unacknowledged flit stay as it is, and puts no
condition on a resend under way. Here the flit of one leaves with the SYNC and is counted. A restart itself leaves no resend under way
(`restartLinkTo_restarts`): the statement fails for want of that hypothesis, which its clause on a link in its epoch has. -/
theorem not_unacknowledgedFlitsGoAgain : ¬ Obligations.UnacknowledgedFlitsGoAgain := by
  intro h
  have hcalm : resendingState.calm := by decide +kernel
  have hlimits : syncingLink.resent < resendingState.retryMax ∧ ∀ x ∈ syncingLink.unacked, x.resends < resendingState.retryMax := by
    decide +kernel
  obtain ⟨hagain, -⟩ := h resendingState 1 syncingLink hcalm rfl rfl rfl
  obtain ⟨-, hsync⟩ := hagain hlimits.1 hlimits.2
  obtain ⟨t, l', hexec, -, hl', -, hunacked, -⟩ := hsync rfl
  have ht : resendingState.resendOrFail 1 = t := Host.Outcome.next.inj hexec
  have hresends := resends_ackTimeout_resendingState
  rw [ht, hl', Option.map_some, hunacked] at hresends
  exact absurd hresends (by decide)

end Sys2Proof.Machine
end
section
/-!
The machine: one step is one command of the queue, and what every step keeps of the journal's order (R605, R606, R613) and of the fence
(R654). `Keeps` says it for every command but a reset, `Preserves` for every command.
-/
namespace Sys2Proof.Machine
open Sys2Proof

/-- With a command at the front of the queue a step runs its meaning. -/
theorem step_of_front {c : Instr} {rest : List Instr} {s : State} (h : s.pending = c :: rest) : step s = exec c { s with pending := rest } := by
  simp [step, h]

/-- With an empty queue a step leaves the state as it is. -/
theorem step_of_empty {s : State} (h : s.pending = []) : step s = .next s := by
  simp [step, h]

-- The statements -----------------------------------------------------------------------------------------------------

/-- Settles O1: `step` looks at the queue's front and nothing else. -/
theorem stepRunsFrontCommand : Obligations.StepRunsFrontCommand := fun _ _ _ => step_of_front

/-- Settles O2: `step` answers the state that it was given. -/
theorem emptyQueueIdles : Obligations.EmptyQueueIdles := fun _ => step_of_empty

/-- Settles O7: an idle step leaves the journal as it is, and every command, a reset too, keeps its order. -/
theorem stepKeepsJournalOrder : Obligations.StepKeepsJournalOrder := by
  intro s t hs h
  cases hq : s.pending with
  | nil =>
    rw [step_of_empty hq] at h
    cases h
    exact hs
  | cons c rest =>
    rw [step_of_front hq] at h
    exact (Preserves.of_exec h).journal hs

/-- Settles O8: only a reset command ends the fence, and a flit leaves a port only while the block is not fenced. -/
theorem fencedBlockSendsNoFlit : Obligations.FencedBlockSendsNoFlit := by
  intro c s t hc hs h
  obtain ⟨u, hu, hk⟩ := Answers.command c s hc
  rw [h] at hu
  cases hu
  obtain ⟨l, hout, hflit⟩ := hk.out
  exact ⟨hk.fenced hs, l, hout, hflit hs⟩


end Sys2Proof.Machine
end
section
/-!
The state after reset: what each array of it holds, and the values of the manual (R215, R618, R675, R677, R692, R697, R785).
-/
namespace Sys2Proof.Machine
open Sys2Proof

namespace State

/-- The state after reset breaks nothing: staging and the journal are empty, and each array has the size that it was made with. -/
theorem safe_reset : reset.Safe where
  staging := rfl
  sized := {
    rings := rfl, slots := rfl, clusters := rfl, held := rfl, seen := rfl, codes := rfl, cals := rfl, changes := rfl,
    pad := ⟨rfl, rfl, fun _ h => nomatch h⟩, tolls := ⟨rfl, rfl⟩, cw := ⟨rfl, rfl, rfl, rfl⟩, inc := ⟨rfl, rfl, rfl⟩ }
  journal := ⟨.nil, fun _ h => nomatch h⟩

/-- Every ring has the reset values. -/
@[simp] theorem ring_reset (r : Nat) : reset.ring r = resetRing := by
  simp only [ring, reset, List.getD_eq_getElem?_getD, List.getElem?_getD_replicate_default_eq]

/-- Each slot has its own reset values (R185, R215). -/
theorem slot_reset {i : Nat} (hi : i < 65) : reset.slot i = resetSlot i := by
  simp [slot, reset, hi]

end State

-- The statement ------------------------------------------------------------------------------------------------------

/-- Settles O9: the scalars are those of the reset records; the rings are all alike, and slots 0 to 2 alone have a replica. -/
theorem resetStateHoldsTheSpecsValues : Obligations.ResetStateHoldsTheSpecsValues := by
  refine ⟨State.safe_reset, rfl, rfl, rfl, rfl, rfl, rfl, rfl, rfl, rfl, rfl, rfl, rfl, rfl, rfl, fun r _ => ?_,
    fun i hlow hhigh => ?_, fun i hi => ?_⟩
  · rw [State.ring_reset]
    exact ⟨rfl, rfl⟩
  · rw [State.slot_reset (by omega)]
    exact if_neg (by omega)
  · rw [State.slot_reset (by omega)]
    exact if_pos hi


end Sys2Proof.Machine
end
section
/-!
Transfers of the setup window that reach no register (R678, R761, R762), reads of wide registers (R765, R783), and the two access paths
(R773). The lemmas about `setupRead` hold for every register, as those about `setupWrite` do.
-/
namespace Sys2Proof.Machine
open Sys2Proof

namespace State

-- Transfers that are refused -----------------------------------------------------------------------------------------

/-- While a reset is asserted a write ends with PSLVERR (R678). -/
theorem setupWrite_of_reset {s : State} (hreset : s.inReset = true) (p : PathId) (off d strb : Nat) :
    s.setupWrite p off d strb = s.respond p 0 true := by
  simp [setupWrite, hreset]

/-- While a reset is asserted a read ends with PSLVERR (R678). -/
theorem setupRead_of_reset {s : State} (hreset : s.inReset = true) (p : PathId) (off : Nat) :
    s.setupRead p off = s.respond p 0 true := by
  simp [setupRead, hreset]

/-- A write that is not aligned, not wholly strobed or at no register is refused (R761, R762). -/
theorem setupWrite_of_invalid {s : State} {off strb : Nat} (hreset : s.inReset = false)
    (h : off % 4 ≠ 0 ∨ strb ≠ 0xF ∨ regAt off = none) (p : PathId) (d : Nat) :
    s.setupWrite p off d strb = s.refuse p off Wr.accessInvalid := by
  by_cases hplace : off % 4 ≠ 0 ∨ strb ≠ 0xF
  · simp [setupWrite, hreset, hplace]
  · have hreg : regAt off = none := by tauto
    simp [setupWrite, hreset, hplace, hreg]

/-- A read that is not aligned or at no register is refused (R761, R762). -/
theorem setupRead_of_invalid {s : State} {off : Nat} (hreset : s.inReset = false) (h : off % 4 ≠ 0 ∨ regAt off = none) (p : PathId) :
    s.setupRead p off = s.refuse p off 4 := by
  by_cases haligned : off % 4 = 0
  · have hreg : regAt off = none := h.resolve_left (not_not_intro haligned)
    simp [setupRead, hreset, haligned, hreg]
  · simp [setupRead, hreset, haligned]

-- Wide registers -----------------------------------------------------------------------------------------------------

/-- DX_DBG_DATA, whose reads act, is one word wide. -/
theorem regAt_dbgData : regAt 0x1C = some (0x1C, 1) := by decide

/-- So a wide register is not DX_DBG_DATA. -/
theorem ne_dbgData_of_wide {b n : Nat} (hreg : regAt b = some (b, n)) (hwide : 1 < n) : b ≠ 0x1C := by
  rintro rfl
  have hone : n = 1 := by simpa using (regAt_dbgData.symm.trans hreg).symm
  omega

section Wide
variable {s : State} {b n i : Nat}
  (hreset : s.inReset = false) (haligned : b % 4 = 0) (hreg : regAt b = some (b, n)) (hwide : 1 < n)
include hreset haligned hreg hwide

/-- A read of the lowest word gives it and keeps the whole value (R765). -/
theorem setupRead_lowest (p : PathId) :
    s.setupRead p b = (s.modPath p fun q => { q with snaps := putPair q.snaps b (s.regVal b) }).respond p (s.regVal b % 2 ^ 32) false := by
  simp [setupRead, hreset, haligned, hreg, ne_dbgData_of_wide hreg hwide, show n ≠ 1 by omega]

/-- A read of a higher word gives that word of the snapshot that is held (R765). -/
theorem setupRead_higher (p : PathId) {v : Nat} (hhigh : regAt (b + 4 * i) = some (b, n)) (hi : 0 < i)
    (hsnap : ((s.path p).snaps.find? (fun q => q.1 == b)).map (·.2) = some v) :
    s.setupRead p (b + 4 * i) = s.respond p (piece32 v i) false := by
  have hplace : (b + 4 * i) % 4 = 0 := by omega
  simp [setupRead, hreset, hplace, hhigh, ne_dbgData_of_wide hreg hwide, show n ≠ 1 by omega, show i ≠ 0 by omega, hsnap]

end Wide

-- The two access paths -----------------------------------------------------------------------------------------------

/-- A state with what tells the two paths apart replaced: their holding copies, snapshots and responses. -/
def withPaths (s : State) (a d : Path') : State := { s with setup := { s.setup with apb := a, dbg := d } }

theorem withPaths_respond (s : State) (p : PathId) (r : Nat) (e : Bool) (a d : Path') :
    (s.respond p r e).withPaths a d = s.withPaths a d := by
  cases p <;> rfl

theorem withPaths_modPath (s : State) (p : PathId) (f : Path' → Path') (a d : Path') :
    (s.modPath p f).withPaths a d = s.withPaths a d := by
  cases p <;> rfl

/-- From `s` to `t`, which a transfer on the debug path gives, and `u`, which one on the setup port gives, the answers are the same, and so is
all the rest but the paths themselves. -/
structure SameBut (t u : State) : Prop where
  rdata : t.setup.dbg.rdata = u.setup.apb.rdata
  slverr : t.setup.dbg.slverr = u.setup.apb.slverr
  rest : ∀ a d, t.withPaths a d = u.withPaths a d

/-- Transfers that end with the same answer in states that only the paths tell apart. -/
theorem SameBut.respond {t u : State} (h : ∀ a d, t.withPaths a d = u.withPaths a d) (r : Nat) (e : Bool) :
    SameBut (t.respond .dbg r e) (u.respond .apb r e) :=
  ⟨rfl, rfl, fun a d => by rw [withPaths_respond, withPaths_respond, h]⟩

/-- A refusal notes the transfer, whichever path it came on. -/
theorem SameBut.refuse (s : State) (off code : Nat) : SameBut (s.refuse .dbg off code) (s.refuse .apb off code) :=
  .respond (fun _ _ => rfl) 0 true

section Paths
variable {s : State} (hpaths : s.setup.dbg = s.setup.apb)
include hpaths

/-- Paths that hold the same copies make the same data of a wide register. -/
theorem heldData_dbg (b n d : Nat) : s.heldData .dbg b n d = s.heldData .apb b n d := by
  simp [heldData, path, hpaths]

/-- A write has the same effect on either path (R773). -/
theorem setupWrite_sameBut (off d strb : Nat) : SameBut (s.setupWrite .dbg off d strb) (s.setupWrite .apb off d strb) := by
  unfold setupWrite
  split
  · exact .respond (fun _ _ => rfl) 0 true
  · split
    · exact .refuse s off _
    · split
      · exact .refuse s off _
      · rw [heldData_dbg hpaths]
        split
        · split
          · exact .respond (fun _ _ => rfl) 0 false
          · exact .refuse s off _
        · exact .respond (fun a d => by rw [withPaths_modPath, withPaths_modPath]) 0 false

/-- A read has the same effect on either path (R773). -/
theorem setupRead_sameBut (off : Nat) : SameBut (s.setupRead .dbg off) (s.setupRead .apb off) := by
  unfold setupRead
  split
  · exact .respond (fun _ _ => rfl) 0 true
  · split
    · exact .refuse s off 4
    · split
      · exact .refuse s off 4
      · split
        · exact .respond (fun _ _ => rfl) _ false
        · split
          · exact .respond (fun _ _ => rfl) _ false
          · split
            · exact .respond (fun a d => by rw [withPaths_modPath, withPaths_modPath]) _ false
            · rw [show s.path .dbg = s.path .apb from hpaths]
              exact .respond (fun _ _ => rfl) _ false

end Paths
end State

-- The statements -----------------------------------------------------------------------------------------------------

/-- Settles O11: what is refused for its place or its strobes is refused before a register is looked at. -/
theorem invalidAccessesAreRefused : Obligations.InvalidAccessesAreRefused := by
  intro s off d strb ended refused
  refine ⟨fun hreset => ⟨?_, ?_⟩, fun hreset h => ?_, fun hreset h => ?_⟩
  · exact congrArg Host.Outcome.next (State.setupWrite_of_reset hreset .apb off d strb)
  · exact congrArg Host.Outcome.next (State.setupRead_of_reset hreset .apb off)
  · exact congrArg Host.Outcome.next (State.setupWrite_of_invalid hreset h .apb d)
  · exact congrArg Host.Outcome.next (State.setupRead_of_invalid hreset h .apb)

/-- Settles O13: the lowest word's read puts the value at the front of the snapshots, where a higher word's read finds it. -/
theorem wideReadsAreSnapshots : Obligations.WideReadsAreSnapshots := by
  intro s b n i hreset haligned hreg hwide hi _ hhigh
  refine ⟨_, congrArg Host.Outcome.next (State.setupRead_lowest hreset haligned hreg hwide .apb), ?_, rfl, rfl, fun u hu hsnaps => ?_⟩
  · exact Nat.mod_mod _ _
  · have hsnap : ((u.path .apb).snaps.find? (fun q => q.1 == b)).map (·.2) = some (s.regVal b) := by
      rw [show (u.path .apb).snaps = State.putPair s.setup.apb.snaps b (s.regVal b) from hsnaps]
      simp [State.putPair]
    exact ⟨_, congrArg Host.Outcome.next (State.setupRead_higher hu haligned hreg hwide .apb hhigh hi hsnap), Nat.mod_mod _ _, rfl, rfl⟩

/-- Settles O14: nothing but the path itself goes by the path that a transfer comes on. -/
theorem debugSegmentActsAsSetupPort : Obligations.DebugSegmentActsAsSetupPort := by
  intro s off d hpaths
  have hwrite := State.setupWrite_sameBut hpaths off d 0xF
  have hread := State.setupRead_sameBut hpaths off
  exact ⟨⟨_, _, rfl, rfl, hwrite.rdata, hwrite.slverr, hwrite.rest _ _⟩, ⟨_, _, rfl, rfl, hread.rdata, hread.slverr, hread.rest _ _⟩⟩


end Sys2Proof.Machine
end
section
/-!
A statement that fails at a concrete state: a read of DX_DBG_DATA whose four bytes lie in two granules (R484, R787).
-/
namespace Sys2Proof.Machine
open Sys2Proof

/-- A retained exchange that holds granule 1 and nothing else. -/
def holdingExch : Exch := ⟨0, 0, false, [], [], 0, [], [], [], [], [], [], [], [], [], [], false, [1]⟩

/-- A block with that exchange, D17 not gated, and WORD at the last byte of granule 0. Staging holds, at the first byte of granule 1,
another byte than the free value that a read of a held granule gives there. -/
def straddlingState : State := { State.reset with
  regs := { State.resetRegs with dbgAddr := 0xFFFF, clkCtl := 0x20000 }
  staging := [(0x10000, Config.freeByte 0x10000 + 1)]
  cw := { State.resetCw with exchs := [holdingExch] } }

/-- The four bytes that the read gives: the second is that of a held granule. -/
theorem stageBytes_straddlingState : straddlingState.stageBytes 0xFFFF 4 =
    [Config.stageByte 0 0xFFFF, Config.freeByte 0x10000, Config.freeByte 0x10001, Config.freeByte 0x10002] := rfl

/-- The four bytes that staging holds. -/
theorem readN_straddlingState : straddlingState.staging.readN 0 0xFFFF 4 =
    [Config.stageByte 0 0xFFFF, Config.freeByte 0x10000 + 1, Config.stageByte 0 0x10001, Config.stageByte 0 0x10002] := rfl

/-- Words of four bytes that are the same are the same byte by byte. -/
theorem second_eq_of_word_eq {a b c d b' c' d' : Byte}
    (h : BitVec.ofNat 32 (ofBytes [a, b, c, d]) = BitVec.ofNat 32 (ofBytes [a, b', c', d'])) : b = b' := by
  have hword := congrArg BitVec.toNat h
  simp only [ofBytes, BitVec.toNat_ofNat] at hword
  exact BitVec.eq_of_toNat_eq (by omega)

/-- Refutes O22: the statement looks at the granule of the first byte alone, and a state's WORD need not be a multiple of 4 (R787 keeps
it one). Here the second byte is of a granule that an exchange holds, and the read gives a free value for it, not staging's byte. -/
theorem not_debugDataReadReturnsStaging : ¬ Obligations.DebugDataReadReturnsStaging := by
  intro h
  obtain ⟨hread, -⟩ := h straddlingState rfl rfl
  have hexec := hread (by decide) (by decide) (by decide)
  have hdata : ((straddlingState.setupRead .apb 0x1C).setup.apb.rdata : BitVec 32) = _ :=
    congrArg (fun t : State => t.setup.apb.rdata) (Host.Outcome.next.inj hexec)
  have hbytes : BitVec.ofNat 32 (ofBytes (straddlingState.stageBytes 0xFFFF 4)) =
      BitVec.ofNat 32 (ofBytes (straddlingState.staging.readN 0 0xFFFF 4)) := hdata
  rw [stageBytes_straddlingState, readN_straddlingState] at hbytes
  have hbyte := congrArg BitVec.toNat (second_eq_of_word_eq hbytes)
  rw [BitVec.toNat_add] at hbyte
  simp at hbyte
  omega


end Sys2Proof.Machine
end
section
/-!
Sealed fields (R697 to R703) and checkpoints (R614, R615): a value that waits for its quiet point or is taken at once, the SEAL entry
of a change, and the CHECKPOINT that is due.
-/
namespace Sys2Proof.Machine
open Sys2Proof

-- Sealed fields ------------------------------------------------------------------------------------------------------

namespace Seals

/-- A new value leaves the changes that wait for their SEAL entry as they are (R703). -/
@[simp] theorem unjournalled_apply (x : Seals) (f : SealField) (v : Nat) : (x.apply f v).unjournalled = x.unjournalled := by
  cases f <;> rfl

/-- A new value is counted (R22): two bits hold the count of up to three changes. -/
theorem count_apply {x : Seals} {f : SealField} (hsize : x.changes.length = 4) (hcount : x.count f < 3) (v : Nat) :
    (x.apply f v).count f = x.count f + 1 := by
  have hplace : f.code < x.changes.length := by rw [hsize]; cases f <;> decide
  have hchanges : (x.apply f v).changes = x.changes.modify f.code (· + 1) := by cases f <;> rfl
  have hone : (1 : BitVec 2).toNat = 1 := rfl
  unfold count at hcount ⊢
  simp only [hchanges, List.getD_eq_getElem?_getD, List.getElem?_modify, List.getElem?_eq_getElem hplace, if_true, Option.map_eq_map,
    Option.map_some, Option.getD_some, BitVec.toNat_add, hone] at hcount ⊢
  omega

end Seals

namespace State
variable {s : State} {f : SealField} {v : Nat}

/-- The state once a sealed field has been given a value: it waits for its quiet point where the waybook is ready, else it is in force
and its SEAL entry owed (R702, R703). -/
def given (s : State) (f : SealField) (v : Nat) : State :=
  if s.isReady 9 then { s with seals := { s.seals with pending := s.seals.pending ++ [⟨f, v, false⟩] } }
  else { s with seals := { s.seals.apply f v with
    unjournalled := s.seals.unjournalled ++ [⟨f, s.seals.count f + 1, s.seals.value f, v⟩] } }

theorem given_of_ready (h : s.isReady 9 = true) (f : SealField) (v : Nat) :
    s.given f v = { s with seals := { s.seals with pending := s.seals.pending ++ [⟨f, v, false⟩] } } := if_pos h

theorem given_of_unready (h : s.isReady 9 = false) (f : SealField) (v : Nat) : s.given f v = { s with seals := { s.seals.apply f v with
    unjournalled := s.seals.unjournalled ++ [⟨f, s.seals.count f + 1, s.seals.value f, v⟩] } } := if_neg (by simp [h])

/-- A sealed field that has changes left takes its value as `given` says. -/
theorem sealSet_eq (hsize : s.seals.changes.length = 4) (hcount : s.seals.count f < 3) (v : Nat) : s.sealSet f v = s.given f v := by
  simp only [sealSet, given, Seals.count_apply hsize hcount, Seals.unjournalled_apply]

/-- A field with no change pending and changes left can change (R22, R700). -/
theorem sealCode_free (hfree : s.seals.pending.any (fun p => p.field == f) = false) (hcount : s.seals.count f < 3) : s.sealCode f = none := by
  simp [sealCode, hfree, hcount]

/-- APPLY of a staged record that may be applied and differs from the one in force (R505). -/
theorem applyStaged_new (hsize : s.seals.changes.length = 4) (hne : v ≠ s.seals.value f)
    (hfree : s.seals.pending.any (fun p => p.field == f) = false) (hcount : s.seals.count f < 3) :
    s.applyStaged f v true = .ok (s.given f v) := by
  simp [applyStaged, hne, sealCode_free hfree hcount, Wr.act, sealSet_eq hsize hcount]

/-- The fields of DX_SEAL_CTL's data (R697). -/
theorem bits_sealCtl {c r : Nat} (hc : c < 256) (hr : r < 256) : bits (c + r * 256) 7 0 = c ∧ bits (c + r * 256) 15 8 = r := by
  simp only [bits, Nat.shiftRight_eq_div_pow]
  omega

/-- DX_SEAL_CTL written with another COMPAT_GEN and the REPRO_CLASS in force (R595, R697). -/
theorem writeSealCtl_compat (hsize : s.seals.changes.length = 4) (hv : v = 5 ∨ v = 6) (hne : v ≠ s.seals.value .compat)
    (hfree : s.seals.pending.any (fun p => p.field == .compat) = false) (hcount : s.seals.count .compat < 3) :
    s.writeSealCtl (v + s.seals.reproClass.toNat * 256) = .ok (s.given .compat v) := by
  obtain ⟨hlow, hhigh⟩ := bits_sealCtl (c := v) (r := s.seals.reproClass.toNat) (by omega) s.seals.reproClass.isLt
  have hnew : (v != s.seals.compatGen.toNat) = true := bne_iff_ne.2 hne
  have hrange : (v != 5 && v != 6) = false := by obtain rfl | rfl := hv <;> rfl
  simp [writeSealCtl, hlow, hhigh, hnew, hrange, sealCode_free hfree hcount, sealSet_eq hsize hcount]

/-- DX_SEAL_CTL written with the COMPAT_GEN in force and another REPRO_CLASS (R595, R697). -/
theorem writeSealCtl_repro (hsize : s.seals.changes.length = 4) (hv : v < 2) (hne : v ≠ s.seals.value .repro)
    (hfree : s.seals.pending.any (fun p => p.field == .repro) = false) (hcount : s.seals.count .repro < 3) :
    s.writeSealCtl (s.seals.compatGen.toNat + v * 256) = .ok (s.given .repro v) := by
  obtain ⟨hlow, hhigh⟩ := bits_sealCtl (c := s.seals.compatGen.toNat) (r := v) s.seals.compatGen.isLt (by omega)
  have hnew : (v != s.seals.reproClass.toNat) = true := bne_iff_ne.2 hne
  have hrange : ¬ 1 < v := by omega
  simp [writeSealCtl, hlow, hhigh, hnew, hrange, sealCode_free hfree hcount, sealSet_eq hsize hcount]

/-- DX_DRAW_APPLY and DX_GEOM_APPLY written with APPLY (R505). -/
theorem writeReg_drawApply (s : State) : s.writeReg 0x104 1 = s.applyStaged .drawKey s.regs.drawStage.toNat true := rfl

theorem writeReg_geomApply (s : State) :
    s.writeReg 0x108 1 = s.applyStaged .geometry s.regs.geomStage.toNat (geomOk s.regs.geomStage.toNat) := rfl

/-- The quiet point of a pending change's governed set: the change is marked and its SEAL entry written (R702). -/
theorem exec_sealChangeApply {k : Nat} {p : SealPend} (hreset : s.inReset = false) (hopen : s.wbOpen = true)
    (hp : s.seals.pending.find? (fun p => p.field == SealField.ofCode k && !p.written) = some p)
    (hquiet : (governed (SealField.ofCode k)).all s.quiet = true) :
    exec (.sealChangeApply k) s = .next (State.wbWrite { s with seals := { s.seals with
        pending := s.seals.pending.map fun q => if q.field == SealField.ofCode k then { q with written := true } else q } } Ty.sealed
      (sealParts (SealField.ofCode k) (s.seals.count (SealField.ofCode k) + 1) (s.wb.nextSeq - 1) (s.seals.value (SealField.ofCode k)) p.value)
      (.seal (SealField.ofCode k))) := by
  change execSealChangeApply k s = _
  simp only [execSealChangeApply, hp, hreset, hopen, hquiet]
  rfl

-- Checkpoints --------------------------------------------------------------------------------------------------------

/-- A CHECKPOINT that no MARK has asked for (R614, R615). -/
theorem writeCheckpoint_zero (s : State) :
    let walk := (s.oldest.map (fun m => (m.rnum, m.seq))).getD (s.wb.tail, s.wb.nextSeq)
    s.writeCheckpoint 0 = (s.wbWrite Ty.checkpoint [checkpointPart walk.1 walk.2 s.wb.nextSeq s.fpSettings 0 0] (.checkpoint walk.1 0)).modWb
      fun w => { w with since := 0 } := by
  unfold writeCheckpoint
  cases s.oldest <;> rfl

/-- One is due after CKPT_INTERVAL times 64 records (R614). -/
theorem exec_checkpoint (hopen : s.wbOpen = true) (hset : s.ckptInterval ≠ 0) (hdue : s.ckptInterval * 64 ≤ s.wb.since) :
    exec .checkpoint s = .next (s.writeCheckpoint 0) :=
  if_pos (by simp [hopen, hset, hdue])

end State

-- The statements -----------------------------------------------------------------------------------------------------

/-- Settles O16: DX_SEAL_CTL, DX_DRAW_APPLY and DX_GEOM_APPLY are writes of registers one word wide that give the field its value. -/
theorem sealedFieldsChange : Obligations.SealedFieldsChange := by
  intro s f c v hreset hsize hfield hne hfree hcount
  have hexec : exec c s = .next ((s.given f v).respond .apb 0 false) := by
    obtain ⟨rfl, hv, rfl⟩ | ⟨rfl, hv, rfl⟩ | ⟨rfl, rfl, rfl⟩ | ⟨rfl, rfl, hok, rfl⟩ := hfield
    · exact State.exec_setupWrite_word hreset rfl (by decide) (State.writeSealCtl_compat hsize hv hne hfree hcount)
    · exact State.exec_setupWrite_word hreset rfl (by decide) (State.writeSealCtl_repro hsize hv hne hfree hcount)
    · exact State.exec_setupWrite_word hreset rfl (by decide) (s.writeReg_drawApply.trans (State.applyStaged_new hsize hne hfree hcount))
    · exact State.exec_setupWrite_word hreset rfl (by decide)
        (s.writeReg_geomApply.trans (hok ▸ State.applyStaged_new hsize hne hfree hcount))
  refine ⟨fun hready => ?_, fun hready => ?_⟩
  · rw [hexec, State.given_of_ready hready]
  · rw [hexec, State.given_of_unready hready]

/-- Settles O17: the mark changes the seals alone, and what the entry is written with does not go by the mark. -/
theorem sealChangeIsJournalledFirst : Obligations.SealChangeIsJournalledFirst := by
  intro s k p hreset hopen f hp hquiet
  obtain ⟨hwrote, hframe⟩ := State.wbWrite_wrote { s with seals := { s.seals with
      pending := s.seals.pending.map fun q => if q.field == f then { q with written := true } else q } } Ty.sealed
    (sealParts f (s.seals.count f + 1) (s.wb.nextSeq - 1) (s.seals.value f) p.value) (.seal f)
  refine ⟨_, State.exec_sealChangeApply hreset hopen hp hquiet, ?_, ?_⟩
  · rw [hframe]
    simp only [beq_iff_eq, f]
  · exact ⟨⟨hwrote.journal.wb, hwrote.journal.sent, hwrote.journal.out⟩, ⟨hwrote.stage.bytes, hwrote.stage.marks, hwrote.stage.others⟩⟩

/-- Settles O54: what a CHECKPOINT names is what `writeCheckpoint` finds; the count of records begins again after it. -/
theorem checkpointIsWritten : Obligations.CheckpointIsWritten := by
  intro s hopen hset hdue walk
  obtain ⟨hwrote, hframe⟩ := s.wbWrite_wrote Ty.checkpoint [checkpointPart walk.1 walk.2 s.wb.nextSeq s.fpSettings 0 0] (.checkpoint walk.1 0)
  exact ⟨_, by rw [State.exec_checkpoint hopen hset hdue, s.writeCheckpoint_zero]; rfl, hframe, hwrote⟩


end Sys2Proof.Machine
end
section
/-!
The load-step governor (R713 to R737): what its words, forecasts and steps do, and from that the commands, each in the cases that the
manual names.
-/
namespace Sys2Proof.Machine
open Sys2Proof

namespace State
variable {s : State}

-- Words and forecasts ------------------------------------------------------------------------------------------------

/-- Without PG_BYPASS a word leaves (R716, R727). -/
theorem sendPg_on (hon : s.pgBypass = false) (w : Nat) : s.sendPg w = s.emit (.pg w) := by
  simp [sendPg, hon]

/-- So does the word that reports the level and whether the clock is stretched (R724). -/
theorem sendLevel_on (hon : s.pgBypass = false) : s.sendLevel = s.emit (.pg (pgWord 3 s.gov.level.toNat (b2n s.gov.stretch) 0)) :=
  sendPg_on hon _

/-- Without PG_BYPASS a move is announced, with LEAD and the next token (R718, R720). -/
theorem forecastTo_on (hon : s.pgBypass = false) (l : Nat) : s.forecastTo l = { s with
    gov := { s.gov with token := s.nextToken, forecast := some ⟨l, s.lead, s.nextToken.toNat⟩ },
    out := s.out ++ [.pg (pgWord 1 l s.lead s.nextToken.toNat)] } := by
  unfold forecastTo
  exact (if_neg (by simp [hon])).trans (sendPg_on (s := s.modGov _) hon _)

/-- Without a forecast there is none to cancel. -/
theorem cancelForecast_of_none (h : s.gov.forecast = none) : s.cancelForecast = s := by
  simp [cancelForecast, h]

/-- A forecast that is cancelled is named by its token (R719). -/
theorem cancelForecast_of_some {f : Forecast} (h : s.gov.forecast = some f) (hon : s.pgBypass = false) :
    s.cancelForecast = { s with gov := { s.gov with forecast := none }, out := s.out ++ [.pg (pgWord 2 0 0 f.token)] } := by
  simp only [cancelForecast, h]
  exact sendPg_on (s := s.modGov _) hon _

/-- No rise is sought to a demand that the level meets. -/
theorem seekRise_of_met (h : s.gov.demand.toNat ≤ s.gov.level.toNat) : s.seekRise = s := by
  simp [seekRise, Nat.not_lt.2 h]

/-- A rise that is or could be granted is announced (R718). -/
theorem seekRise_of_grantable (hforecast : s.gov.forecast = none) (hramp : s.gov.ramp = none) (hon : s.pgBypass = false)
    (hbelow : s.gov.level.toNat < s.gov.demand.toNat) (hcap : s.gov.level.toNat < s.gov.cap.toNat) :
    s.seekRise = s.forecastTo s.gov.demand.toNat := by
  have hcapNow : s.capNow = s.gov.cap.toNat := by simp [capNow, hon]
  simp [seekRise, hforecast, hramp, hon, hbelow, hcap, hcapNow]

-- The demand ---------------------------------------------------------------------------------------------------------

/-- With no work, and no full-load point of S4, the demand is 0 (R713). -/
theorem demandNow_of_idle (hgroups : s.groups = []) (hstep : s.stepRunning 4 = false) : s.demandNow = 0 := by
  have hcal : s.calibrating = false := by
    unfold calibrating
    rw [show s.start.running.any (fun p => p.1 == 4) = false from hstep, Bool.false_and]
  simp [demandNow, hcal, hgroups]

/-- While S4 measures the full load it is 15 (R733). -/
theorem demandNow_of_calibrating (hfenced : s.inc.fenced = false) (hparked : s.start.parked = false) (hstep : s.stepRunning 4 = true)
    (halt : s.start.altUse.getLsbD 4 = false) : s.demandNow = 15 := by
  have hcal : s.calibrating = true := by
    unfold calibrating
    rw [show s.start.running.any (fun p => p.1 == 4) = true from hstep, halt]
    rfl
  simp [demandNow, hfenced, hparked, hcal]

/-- The state with the demand of this moment noted. -/
def demanding (s : State) (d : BitVec 4) : State := (s.modGov fun g => { g with demand := d }).bump

/-- DEMAND_UPDATE with no rise announced seeks one (R718). -/
theorem exec_demandUpdate_quiet {d : BitVec 4} (hreset : s.inReset = false) (hdemand : s.demandNow = d) (hforecast : s.gov.forecast = none) :
    exec .demandUpdate s = .next (s.demanding d).seekRise.settleGov := by
  change execDemandUpdate s = _
  simp [execDemandUpdate, hreset, hdemand, hforecast, demanding]

/-- A rise that is announced and no longer asked for is cancelled (R719). -/
theorem exec_demandUpdate_cancels {d : BitVec 4} {f : Forecast} (hreset : s.inReset = false) (hdemand : s.demandNow = d)
    (hforecast : s.gov.forecast = some f) (hrise : s.gov.level.toNat < f.level) (hlow : d.toNat < f.level) :
    exec .demandUpdate s = .next (s.demanding d).cancelForecast.seekRise.settleGov := by
  change execDemandUpdate s = _
  simp [execDemandUpdate, hreset, hdemand, hforecast, demanding, hrise, hlow]

-- Forecasts that are due ---------------------------------------------------------------------------------------------

/-- The announced cycle of a forecast whose level needs no budget or is covered by it (R719, R720). -/
theorem exec_forecastStart_moves {f : Forecast} (hreset : s.inReset = false) (hforecast : s.gov.forecast = some f)
    (h : f.level ≤ s.gov.level.toNat ∨ f.level ≤ s.budget) : exec .forecastStart s = .next { s with gov := { s.gov with
      forecast := none, ramp := some f.level, unforecast := false, filler := decide (s.gov.demand.toNat < s.gov.level.toNat) } } := by
  change execForecastStart s = _
  simp only [execForecastStart, hforecast, hreset]
  exact (if_neg (by simp)).trans (if_pos (by simpa using h))

/-- The announced cycle of a rise that the budget does not cover: it is announced anew (R719). -/
theorem exec_forecastStart_again {f : Forecast} (hreset : s.inReset = false) (hforecast : s.gov.forecast = some f)
    (hrise : s.gov.level.toNat < f.level) (hbudget : s.budget < f.level) :
    exec .forecastStart s = .next (s.cancelForecast.forecastTo s.gov.demand.toNat).settleGov := by
  change execForecastStart s = _
  simp only [execForecastStart, hforecast, hreset]
  exact (if_neg (by simp)).trans (if_neg (by simp [hrise, hbudget]))

-- Steps --------------------------------------------------------------------------------------------------------------

/-- The state one step on, at a level `n` on the way to `t`: the step is reported (R714, R724). -/
def stepped (s : State) (t n : Nat) : State := { s with
  gov := { s.gov with
    level := BitVec.ofNat 4 n, ramp := if n = t then none else some t, unforecast := s.gov.unforecast && n != t,
    recal := s.gov.recal && n == 15, filler := decide (s.gov.demand.toNat < n) }
  out := s.out ++ [.pg (pgWord 3 n (b2n s.gov.stretch) 0)] }

section Steps
variable {t : Nat} (hramp : s.gov.ramp = some t) (hon : s.pgBypass = false)
include hramp hon

/-- The level is set, reported, and the filler settled. -/
theorem step_eq {n : Nat} (hn : n < 16) : ((s.modGov fun g => { g with
      level := BitVec.ofNat 4 n, ramp := if n = t then none else g.ramp, unforecast := g.unforecast && n != t,
      recal := g.recal && n == 15 }).sendLevel).settleGov = s.stepped t n := by
  rw [sendLevel_on (s := s.modGov _) hon]
  simp [stepped, settleGov, modGov, emit, Nat.mod_eq_of_lt hn, hramp]

/-- A step up, within the limit and not while the clock is stretched (R717, R729). -/
theorem exec_levelStep_up (hreset : s.inReset = false) (hup : s.gov.level.toNat < t) (hstretch : s.gov.stretch = false)
    (hlimit : s.gov.level.toNat < s.limit) : exec .levelStep s = .next (s.stepped t (s.gov.level.toNat + 1)) := by
  have hcap : s.limit ≤ s.gov.cap.toNat := by simp [limit, capNow, hon]
  rw [← step_eq hramp hon (by have := s.gov.cap.isLt; omega)]
  change execLevelStep s = _
  simp only [execLevelStep, hramp, hreset, hup, hstretch, Nat.not_le.2 hlimit]
  rfl

/-- A step down (R720, R722). -/
theorem exec_levelStep_down (hreset : s.inReset = false) (hdown : t < s.gov.level.toNat) :
    exec .levelStep s = .next (s.stepped t (s.gov.level.toNat - 1)) := by
  rw [← step_eq hramp hon (by have := s.gov.level.isLt; omega)]
  change execLevelStep s = _
  simp only [execLevelStep, hramp, hreset, hdown, Nat.not_lt.2 (Nat.le_of_lt hdown)]
  rfl

end Steps

/-- After HOLD below the level the descent to the demand is announced (R720). -/
theorem exec_holdExpire (hreset : s.inReset = false) (hbelow : s.gov.demand.toNat < s.gov.level.toNat) (hforecast : s.gov.forecast = none)
    (hramp : s.gov.ramp = none) : exec .holdExpire s = .next (s.forecastTo s.gov.demand.toNat).settleGov := by
  change execHoldExpire s = _
  simp [execHoldExpire, hreset, hbelow, hforecast, hramp]

end State

-- The statement ------------------------------------------------------------------------------------------------------

/-- Settles O59: each case of a command is the word or the forecast that `sendPg_on` and `forecastTo_on` say it is. -/
theorem governorMovesTheLevel : Obligations.GovernorMovesTheLevel := by
  intro s hreset g lvl tok
  refine ⟨fun hgroups hstep => ⟨fun hforecast => ?_, fun f hforecast hrise hon => ?_⟩,
    fun hfenced hparked hstep halt hon hforecast hramp hlow hcap => ?_,
    fun f hforecast => ⟨fun h => ?_, fun hrise hbudget hon => ?_⟩,
    fun t hramp hon => ⟨fun hup hstretch hlimit => ?_, fun hdown => ?_⟩,
    fun hbelow hforecast hramp hon => ?_⟩
  · rw [State.exec_demandUpdate_quiet hreset (State.demandNow_of_idle hgroups hstep) hforecast, State.seekRise_of_met (Nat.zero_le _)]
    rfl
  · rw [State.exec_demandUpdate_cancels hreset (State.demandNow_of_idle hgroups hstep) hforecast hrise (Nat.zero_lt_of_lt hrise),
      State.cancelForecast_of_some (s := s.demanding 0) hforecast hon, State.seekRise_of_met (Nat.zero_le _)]
    rfl
  · rw [State.exec_demandUpdate_quiet hreset (State.demandNow_of_calibrating hfenced hparked hstep halt) hforecast,
      State.seekRise_of_grantable (s := s.demanding 15) hforecast hramp hon hlow hcap, State.forecastTo_on (s := s.demanding 15) hon]
    have hfiller : decide (15 < lvl) = false := decide_eq_false (by omega)
    rw [← hfiller]
    rfl
  · exact State.exec_forecastStart_moves hreset hforecast h
  · rw [State.exec_forecastStart_again hreset hforecast hrise hbudget, State.cancelForecast_of_some hforecast hon,
      State.forecastTo_on (s := { s with gov := { s.gov with forecast := none }, out := _ }) hon]
    simp only [State.settleGov, State.modGov, List.append_assoc]
    rfl
  · rw [State.exec_levelStep_up hramp hon hreset hup hstretch hlimit]
    have hword : b2n s.gov.stretch = 0 := congrArg b2n hstretch
    rw [State.stepped, hword]
  · exact State.exec_levelStep_down hramp hon hreset hdown
  · rw [State.exec_holdExpire hreset hbelow hforecast hramp, State.forecastTo_on hon]
    have hfiller : decide (g.demand.toNat < lvl) = true := decide_eq_true hbelow
    rw [← hfiller]
    rfl


end Sys2Proof.Machine
end
section
/-!
Words of the power manager, droop and calibration, and clock gating (R707, R716 to R737, R771).
-/
namespace Sys2Proof.Machine
open Sys2Proof

namespace State
variable {s : State}

-- The limit ----------------------------------------------------------------------------------------------------------

/-- Without PG_BYPASS, and while words come, the budget and the cap bound the level (R717, R725). -/
theorem limit_on (hon : s.pgBypass = false) (hlost : s.gov.pgLost = false) : s.limit = min s.gov.budget.toNat s.gov.cap.toNat := by
  simp [limit, budget, capNow, hon, hlost]

/-- Where no words come the budget is at most 3 (R725). -/
theorem budget_lost (hon : s.pgBypass = false) (hlost : s.gov.pgLost = true) : s.budget = min s.gov.budget.toNat 3 := by
  simp [budget, hon, hlost]

/-- A level above the limit falls to it without a forecast; a move under way goes no further than it (R722, R723). -/
theorem descend_eq {lim : Nat} (hlim : s.limit = lim) : s.descend = { s with gov := { s.gov with
    ramp := if lim < s.gov.level.toNat then some lim else s.gov.ramp.map (min lim),
    unforecast := s.gov.unforecast || decide (lim < s.gov.level.toNat) } } := by
  subst hlim
  unfold descend
  by_cases h : s.limit < s.gov.level.toNat
  · simp [h, modGov]
  · simp [h, modGov]

-- The manager's words ------------------------------------------------------------------------------------------------

section Words
variable (hreset : s.inReset = false) (hon : s.pgBypass = false)
include hreset hon

theorem exec_pgGrant (n token : Nat) : exec (.pgGrant n token) s =
    .next (s.modGov fun g => { g with budget := BitVec.ofNat 4 n, pgLost := false }).descend := by
  change execPgGrant n token s = _
  simp [execPgGrant, hreset, hon]

theorem exec_throttle (n : Nat) : exec (.throttle n) s = .next (s.modGov fun g => { g with
    cap := BitVec.ofNat 4 n, budget := BitVec.ofNat 4 (min g.budget.toNat (n % 16)), pgLost := false }).descend := by
  change execThrottle n s = _
  simp [execThrottle, hreset, hon]

theorem exec_pgReservedWord {w : Nat} (hw : bits w 3 0 ∉ [1, 2, 3, 8, 9, 10]) : exec (.pgReservedWord w) s = .next s.countPgBad := by
  have hreserved : [1, 2, 3, 8, 9, 10].contains (bits w 3 0) = false := by simpa using hw
  change execPgReservedWord w s = _
  simp only [execPgReservedWord, hreset, hon, hreserved]
  rfl

theorem exec_pgWordTruncated : exec .pgWordTruncated s = .next s.countPgBad := by
  change execPgWordTruncated s = _
  simp [execPgWordTruncated, hreset, hon]

/-- Without a word for 1 ms a level that the lower budget covers stays (R725). -/
theorem exec_pgLost_covered (hlost : s.gov.pgLost = false) (h : s.gov.level.toNat ≤ min s.gov.budget.toNat 3) :
    exec .pgLost s = .next { s with gov := { s.gov with pgLost := true } } := by
  have hbudget := budget_lost (s := s.modGov fun g => { g with pgLost := true }) hon rfl
  change execPgLost s = _
  simp only [execPgLost, hreset, hon, hlost, hbudget]
  exact (if_neg (by simp)).trans (if_neg (Nat.not_lt.2 h))

/-- Else the descent to it, or to a demand below it, is announced (R725). -/
theorem exec_pgLost_descends (hlost : s.gov.pgLost = false) (hforecast : s.gov.forecast = none)
    (h : min s.gov.budget.toNat 3 < s.gov.level.toNat) : exec .pgLost s =
      .next ((s.modGov fun g => { g with pgLost := true, ramp := none }).forecastTo
        (min (min s.gov.budget.toNat 3) s.gov.demand.toNat)).settleGov := by
  have hbudget := budget_lost (s := s.modGov fun g => { g with pgLost := true }) hon rfl
  have hnone := cancelForecast_of_none (s := s.modGov fun g => { g with pgLost := true }) hforecast
  change execPgLost s = _
  simp only [execPgLost, hreset, hon, hlost, hbudget, hnone]
  exact (if_neg (by simp)).trans (if_pos h)

end Words

-- Droop and calibration ----------------------------------------------------------------------------------------------

/-- The calibration entry in force by level: 10 % up to level 0, 50 % up to level 7, 100 % above (R732). -/
theorem trigger_eq (s : State) : s.trigger =
    (((s.gov.cals[if s.gov.level.toNat = 0 then 0 else if s.gov.level.toNat ≤ 7 then 1 else 2]?).map Cal.trig).getD 0).toNat := by
  have hplace : (calPoints.findIdx? (fun p => decide ((s.gov.level.toNat + 1) * 100 ≤ 16 * p))).getD 2 =
      if s.gov.level.toNat = 0 then 0 else if s.gov.level.toNat ≤ 7 then 1 else 2 := by
    have hall : ∀ l : Fin 16, (calPoints.findIdx? (fun p => decide ((l.val + 1) * 100 ≤ 16 * p))).getD 2 =
        if l.val = 0 then 0 else if l.val ≤ 7 then 1 else 2 := by decide
    exact hall s.gov.level.toFin
  rw [trigger, calInForce, hplace, List.getD_eq_getElem?_getD]
  cases s.gov.cals[if s.gov.level.toNat = 0 then 0 else if s.gov.level.toNat ≤ 7 then 1 else 2]? <;> rfl

/-- A slack below the trigger stretches the clock (R728, R730). -/
theorem exec_droopStretch (hreset : s.inReset = false) (hstretch : s.gov.stretch = false) (htrigger : s.trigger ≠ 0) :
    exec .droopStretch s = .next (s.modGov fun g => { g with stretch := true, stretchCnt := satInc g.stretchCnt }).sendLevel := by
  change execDroopStretch s = _
  simp [execDroopStretch, hreset, hstretch, htrigger]

theorem exec_droopStretch_untriggered (htrigger : s.trigger = 0) : exec .droopStretch s = .next s := by
  change execDroopStretch s = _
  simp [execDroopStretch, htrigger]

theorem exec_stretchEnd (hreset : s.inReset = false) (hstretch : s.gov.stretch = true) :
    exec .stretchEnd s = .next (s.modGov fun g => { g with stretch := false }).sendLevel := by
  change execStretchEnd s = _
  simp [execStretchEnd, hreset, hstretch]

theorem exec_recalWindow (hreset : s.inReset = false) (hprov : s.gov.calProv = true) (hlevel : s.gov.level = 15) (hrecal : s.gov.recal = false) :
    exec .recalWindow s = .next (s.modGov fun g => { g with recal := true }) := by
  change execRecalWindow s = _
  simp [execRecalWindow, hreset, hprov, hlevel, hrecal]

/-- What a word that reports the level makes of the outputs (R724, R727). -/
theorem sendLevel_eq (s : State) : s.sendLevel = { s with
    out := if s.pgBypass then s.out else s.out ++ [.pg (pgWord 3 s.gov.level.toNat (b2n s.gov.stretch) 0)] } := by
  unfold sendLevel sendPg
  split <;> rfl


-- The start record ---------------------------------------------------------------------------------------------------

end State

/-- A list of bytes spells a number below the power of 256 by its length (R4). -/
theorem ofBytes_lt (bs : List Byte) : ofBytes bs < 256 ^ bs.length := by
  induction bs with
  | nil => simp [ofBytes]
  | cons b bs ih =>
    have hb := b.isLt
    simp only [ofBytes, List.length_cons, Nat.pow_succ]
    omega

/-- And is what that number is spelled with (R4). -/
theorem toBytes_ofBytes (bs : List Byte) : toBytes bs.length (ofBytes bs) = bs := by
  induction bs with
  | nil => rfl
  | cons b bs ih =>
    have hhead : BitVec.ofNat 8 (b.toNat + 256 * ofBytes bs) = b := BitVec.eq_of_toNat_eq (by
      have hb := b.isLt
      rw [BitVec.toNat_ofNat]
      omega)
    have hrest : (b.toNat + 256 * ofBytes bs) / 256 = ofBytes bs := by have hb := b.isLt; omega
    rw [List.length_cons, toBytes, ofBytes, hhead, hrest, ih]

/-- A word as wide as a list of bytes reads back as that list. -/
theorem toBytes_ofNat {bs : List Byte} {w : Nat} (h : w = 8 * bs.length) : toBytes bs.length (BitVec.ofNat w (ofBytes bs)).toNat = bs := by
  subst h
  have hlt : ofBytes bs < 2 ^ (8 * bs.length) := by
    rw [Nat.pow_mul]
    exact ofBytes_lt bs
  rw [BitVec.toNat_ofNat, Nat.mod_eq_of_lt hlt]
  exact toBytes_ofBytes bs

/-- So does a record of 64 bytes. -/
theorem toBytes_record {bs : List Byte} (h : bs.length = 64) : toBytes 64 (BitVec.ofNat 512 (ofBytes bs)).toNat = bs :=
  h ▸ toBytes_ofNat (w := 512) (by omega)

namespace State
variable {s : State}

/-- The byte of the start record that a measurement clears reads as zero (R690, R735), and the record alone changes. -/
theorem patchRecord_clears (s : State) : ∃ r : BitVec 512,
    (s.patchRecord fun b => b.set 41 0) = { s with start := { s.start with rec' := r } } ∧ field (toBytes 64 r.toNat) 41 1 = 0 := by
  generalize hb : ((toBytes 64 s.start.rec'.toNat).set 41 0).take 56 = b
  have hlen : b.length = 56 := by simp [← hb]
  have hbyte : (b ++ toBytes 8 (Hash.crc64 b))[41]? = some 0 := by
    rw [List.getElem?_append_left (by omega)]
    simp [← hb]
  refine ⟨BitVec.ofNat 512 (ofBytes (b ++ toBytes 8 (Hash.crc64 b))), by rw [← hb]; rfl, ?_⟩
  rw [toBytes_record (by simp [hlen]), field, List.take_one, List.head?_drop, hbyte]
  rfl

/-- A trigger that eight bits hold (R731). -/
theorem trigOf_eq {n : Nat} (h : n < 256) : s.trigOf n = BitVec.ofNat 8 n := if_pos h

/-- The measurement over the workload ends: the 100 % entry is measured, no longer provisional, nor is the record's (R735, R736). -/
theorem exec_recalComplete {drop : Nat} (hreset : s.inReset = false) (hrecal : s.gov.recal = true) (hfits : s.guardTaps + drop < 256) :
    exec (.recalComplete drop) s = .next (State.patchRecord { s with
      gov := { s.gov with
        recal := false, calProv := false,
        cals := s.gov.cals.set 2 ⟨BitVec.ofNat 8 drop,
          BitVec.ofNat 8 (max (s.guardTaps + drop) (((s.gov.cals[1]?).map (fun c => c.trig.toNat)).getD 0)), true, false⟩ },
      start := { s.start with calProv := false } } (fun b => b.set 41 0)).bump := by
  have hlow : ((s.gov.cals[1]?).map (fun c => c.trig.toNat)).getD 0 < 256 := by
    cases s.gov.cals[1]? with
    | none => exact Nat.zero_lt_succ _
    | some c => exact c.trig.isLt
  rw [← trigOf_eq (s := s) (max_lt hfits hlow)]
  exact if_pos (by simp [hreset, hrecal])

-- Clock gating -------------------------------------------------------------------------------------------------------

/-- A cluster that holds no work is gated (R707). -/
theorem exec_clusterClockGated {d : Nat} (hd : d < 17) (hA : (s.cluster d).slotA = .empty) (hB : (s.cluster d).slotB = .empty)
    (hfills : (s.cluster d).fills = []) (hassay : s.assay.running ≠ some d) (hwork : s.takesWork d = false ∨ s.groups = []) :
    exec (.clusterClockGated d) s = .next (s.modCluster d fun c => { c with gated := true }) := by
  have hidle : (s.takesWork d && s.groups.any fun g => g.issued && !g.dead && g.members.any fun m => m.result.isNone) = false := by
    obtain h | h := hwork
    · rw [h, Bool.false_and]
    · rw [h, List.any_nil, Bool.and_false]
  change execClusterClockGated d s = _
  simp [execClusterClockGated, hd, hA, hB, hfills, hassay, hidle]

end State

-- The statement ------------------------------------------------------------------------------------------------------

/-- Settles O60: each word, droop or measurement in the cases that the command's lemmas name; `descend_eq` says what becomes of the level. -/
theorem powerWordsDroopAndClocks : Obligations.PowerWordsDroopAndClocks := by
  intro s g lvl tok word
  refine ⟨fun n => rfl, fun hreset hon => ⟨?_, ?_, fun w hw => State.exec_pgReservedWord hreset hon hw,
      State.exec_pgWordTruncated hreset hon, ?_⟩,
    fun hreset => ⟨?_, fun hstretch => ?_, State.exec_recalWindow hreset, fun drop hrecal hfits => ?_⟩,
    fun d hd hA hB hfills hassay hwork => State.exec_clusterClockGated hd hA hB hfills hassay hwork⟩
  · intro n token lim
    rw [State.exec_pgGrant hreset hon]
    refine congrArg Host.Outcome.next (State.descend_eq ?_)
    refine (State.limit_on (s := s.modGov _) hon rfl).trans ?_
    simp [State.modGov, lim, g]
  · intro n lim
    rw [State.exec_throttle hreset hon]
    refine congrArg Host.Outcome.next (State.descend_eq ?_)
    have hbudget : lim % 16 = lim := Nat.mod_eq_of_lt (Nat.lt_of_le_of_lt (Nat.min_le_left ..) g.budget.isLt)
    refine (State.limit_on (s := s.modGov _) hon rfl).trans ?_
    simp only [State.modGov, BitVec.toNat_ofNat]
    exact (congrArg (min · (n % 16)) hbudget).trans (Nat.min_eq_left (Nat.min_le_right ..))
  · intro hlost low
    refine ⟨State.exec_pgLost_covered hreset hon hlost, ?_⟩
    intro hlow hforecast tgt
    rw [State.exec_pgLost_descends hreset hon hlost hforecast hlow, State.forecastTo_on (s := s.modGov _) hon]
    rfl
  · intro trigger
    have htrigger : s.trigger = trigger.toNat := s.trigger_eq
    refine ⟨fun hstretch hne => ?_, fun hzero => State.exec_droopStretch_untriggered (htrigger.trans (congrArg BitVec.toNat hzero))⟩
    rw [State.exec_droopStretch hreset hstretch fun h => hne (BitVec.eq_of_toNat_eq (htrigger.symm.trans h)), State.sendLevel_eq]
    rfl
  · rw [State.exec_stretchEnd hreset hstretch, State.sendLevel_eq]
    rfl
  · refine ⟨_, State.exec_recalComplete hreset hrecal hfits, ?_⟩
    obtain ⟨r, hr, hfield⟩ := State.patchRecord_clears { s with
      gov := { g with
        recal := false, calProv := false,
        cals := g.cals.set 2 ⟨BitVec.ofNat 8 drop,
          BitVec.ofNat 8 (max (s.guardTaps + drop) (((g.cals[1]?).map (fun c => c.trig.toNat)).getD 0)), true, false⟩ },
      start := { s.start with calProv := false } }
    rw [hr]
    exact ⟨rfl, hfield⟩


end Sys2Proof.Machine
end
section
/-!
An incident that becomes the current recovery (R651, R663, R668): its place in the log, and what its severity then brings about, the fence
of an S4 (R654) among it.
-/
namespace Sys2Proof.Machine
open Sys2Proof

namespace State
variable {s u : State} {p n : Nat} {e : IncEntry} {f : Finding} {img : Image}

-- The log ------------------------------------------------------------------------------------------------------------

/-- A block whose log has taken an incident of S2 or above at a position, and has shown it in bit `n` of DX_IRQ_INCIDENT (R663, R665). -/
def taken (s : State) (p : Nat) (e : IncEntry) (n : Nat) : State :=
  (s.modInc fun i => { i with log := i.log.set p (some e), nextId := i.nextId + 1 }).bump.irqInc n

/-- And has made it the current recovery (R651). -/
def current (s : State) (p : Nat) (e : IncEntry) (n : Nat) : State := (s.taken p e n).modInc fun i => { i with cur := some p }

/-- Beside the log and its interrupt bits nothing has changed. -/
theorem current_frame (s : State) (p : Nat) (e : IncEntry) (n : Nat) :
    s.current p e n = { s with inc := (s.current p e n).inc, setup := (s.current p e n).setup, freeCtr := s.freeCtr + 1 } := rfl

/-- What becomes of the entry becomes of what has been taken. -/
theorem current_modEntry (s : State) (p : Nat) (e : IncEntry) (n : Nat) (k : IncEntry → IncEntry) :
    (s.current p e n).modEntry p k = s.current p (k e) n := by
  have hlog : (s.inc.log.set p (some e)).modify p (Option.map k) = s.inc.log.set p (some (k e)) := by
    refine List.ext_getElem? fun i => ?_
    by_cases hi : p = i
    · simp [List.getElem?_set, hi, apply_ite]
    · simp [hi]
  exact congrArg (fun l => { s.current p e n with inc := { (s.current p e n).inc with log := l } }) hlog

theorem getElem?_current (h : p < s.inc.log.length) : (s.current p e n).inc.log[p]? = some (some e) := by
  simp [current, taken, modInc, bump, irqInc, h]

theorem entry?_current (h : p < s.inc.log.length) : (s.current p e n).entry? p = some e := by
  rw [entry?, getElem?_current h]
  rfl

/-- In an unfenced block with no recovery under way an incident that the log takes becomes the current one (R651). -/
theorem incidentHigh_taken (hfenced : s.inc.fenced = false) (hcur : s.inc.cur = none) (hp : s.freePos = some p) (sev act : Nat) :
    s.incidentHigh f sev act = (s.taken p (s.newEntry f sev act) (sev - 2)).activate p f.mem := by
  simp only [incidentHigh, hp, hfenced, hcur]
  rfl

/-- The entry that becomes the current recovery is active. -/
theorem taken_begun (s : State) (p : Nat) (e : IncEntry) (n : Nat) :
    ((s.taken p e n).modEntry p fun e => { e with state := 1 }).modInc (fun i => { i with cur := some p }) =
      s.current p { e with state := 1 } n :=
  current_modEntry s p e n fun e => { e with state := 1 }

/-- An S2 whose recovery repeats nothing stays current, with the ACTION that it comes to (R651). -/
theorem activate_taken_S2 {a : Nat} (hlt : p < s.inc.log.length) (hsev : e.sevFinal = 2)
    (hact : ∀ u : State, u.actS2 { e with state := 1 } = some (u, a)) :
    (s.taken p e n).activate p img = s.current p { e with state := 1, action := a } n := by
  unfold activate
  rw [taken_begun]
  simp only [entry?_current hlt, hact]
  exact (if_pos hsev).trans (current_modEntry ..)

/-- An S4 fences the block (R651, R654). -/
theorem activate_taken_S4 (hlt : p < s.inc.log.length) (hsev : e.sevFinal = 4) :
    (s.taken p e n).activate p img = (s.current p { e with state := 1, action := 6 } n).fence := by
  unfold activate
  rw [taken_begun]
  simp only [entry?_current hlt, hsev]
  exact congrArg fence (current_modEntry ..)

/-- A recovery that does more than set statuses goes on until RECOVERY_END (R651). -/
theorem settleS2_of_acting (hcur : s.inc.cur = some p) (he : s.entry? p = some e) (hact : e.sevFinal ≠ 2 ∨ e.action ≠ 7) (n : Nat) :
    settleS2 img n s = s := by
  have honly : s.statusOnly = false := by
    simp only [statusOnly, hcur, he]
    obtain h | h := hact <;> simp [h]
  cases n with
  | zero => rfl
  | succ n => simp [settleS2, honly]

-- The fence ----------------------------------------------------------------------------------------------------------

/-- A block that fences itself and has no peer to tell (R654). -/
def closedOff (s : State) : State := State.refuseWaiting { s with
  start := { s.start with ready := s.start.ready &&& 3 }, wb := { s.wb with stopped := true },
  inc := { s.inc with fenced := true, scanDue := false } }

/-- With no exchange open no peer is told. -/
theorem fence_of_closed (hfenced : s.inc.fenced = false) (hclosed : ∀ e ∈ s.cw.exchs, e.isOpen = false) : s.fence = s.closedOff := by
  unfold fence
  rw [if_neg (by simp [hfenced])]
  extract_lets told stopped started s2
  have htold : told = s := List.foldlRecOn (motive := (· = s)) _ _ rfl fun t ht e he => by
    rw [if_neg (by simp [hclosed e he]), ht]
  simp only [s2, stopped, started, htold]
  rfl

/-- A fence leaves the log and its counts as they are (R654). -/
theorem fence_inc (hfenced : s.inc.fenced = false) : s.fence.inc = { s.inc with fenced := true, scanDue := false } := by
  unfold fence
  rw [if_neg (by simp [hfenced])]
  extract_lets told stopped started s2
  have htold : told.inc = s.inc := List.foldlRecOn (motive := fun t : State => t.inc = s.inc) _ _ rfl fun t ht e _ => by
    split
    · split
      · exact (congrArg inc (queueAll_pump_moved ..).1 :).trans ht
      · exact ht
    · exact ht
  exact congrArg (fun i => { i with fenced := true, scanDue := false }) htold

end State

-- The request --------------------------------------------------------------------------------------------------------

namespace State
variable {s : State} {p : Nat}

/-- The request of software for a fence, an S4, becomes the current recovery, and the block is closed off (R651, R654). -/
theorem incident_fenceReq (hcalm : s.calm) (hp : s.freePos = some p) (hclosed : ∀ e ∈ s.cw.exchs, e.isOpen = false) :
    s.incident (finding Src.fenceReq 0 0 0) 6 = (s.current p { s.newEntry (finding Src.fenceReq 0 0 0) 4 6 with state := 1 } 2).closedOff := by
  obtain ⟨-, hfenced, hcur, -⟩ := hcalm
  have hlt := lt_of_freePos hp
  set e : IncEntry := { s.newEntry (finding Src.fenceReq 0 0 0) 4 6 with state := 1 }
  have hhigh : s.incidentHigh (finding Src.fenceReq 0 0 0) 4 6 = (s.current p e 2).closedOff :=
    calc s.incidentHigh (finding Src.fenceReq 0 0 0) 4 6
      _ = (s.taken p (s.newEntry (finding Src.fenceReq 0 0 0) 4 6) 2).activate p [] := incidentHigh_taken hfenced hcur hp 4 6
      _ = (s.current p e 2).fence := activate_taken_S4 hlt rfl
      _ = (s.current p e 2).closedOff := fence_of_closed hfenced hclosed
  have hentry : (s.current p e 2).closedOff.entry? p = some e := entry?_current (n := 2) hlt
  change settleS2 [] 33 (s.incidentHigh (finding Src.fenceReq 0 0 0) 4 6) = _
  rw [hhigh]
  exact settleS2_of_acting rfl hentry (.inl (show 4 ≠ 2 by decide)) 33

/-- The write that requests it. -/
theorem writeReg_fenceReq {d : Nat} (h : bit d 0 = true) :
    s.writeReg 0x600 d = .ok ((s.modRegs fun r => { r with incCtl := BitVec.ofNat 32 (d &&& 2) }).incident (finding Src.fenceReq 0 0 0) 6) := by
  change Except.ok (s.writeIncCtl d) = _
  rw [writeIncCtl, if_pos h]

theorem exec_fenceReq {d : Nat} (hreset : s.inReset = false) (h : bit d 0 = true) : exec (.fenceReq d) s =
    .next (((s.modRegs fun r => { r with incCtl := BitVec.ofNat 32 (d &&& 2) }).incident (finding Src.fenceReq 0 0 0) 6).respond .apb 0 false) :=
  exec_setupWrite_word hreset rfl (by decide) (writeReg_fenceReq h)

end State

/-- Settles O20: the request is an S4 that the log takes, and so the block is fenced. -/
theorem fenceRequestFencesTheBlock : Obligations.FenceRequestFencesTheBlock := by
  intro s data p hcalm hp hclosed hbit
  have hexec := State.exec_fenceReq hcalm.1 hbit
  rw [State.incident_fenceReq (s := s.modRegs _) hcalm hp hclosed] at hexec
  have hentry := State.getElem?_current (s := s.modRegs fun r => { r with incCtl := BitVec.ofNat 32 (data &&& 2) }) (n := 2)
    (e := { s.newEntry (finding Src.fenceReq 0 0 0) 4 6 with state := 1 }) (State.lt_of_freePos hp)
  exact ⟨_, hexec, rfl, rfl, rfl, rfl, ⟨_, hentry, rfl, rfl, rfl, rfl, rfl⟩, rfl, rfl, rfl, rfl⟩

end Sys2Proof.Machine
end
section
/-!
How incidents are counted and logged (R642, R651, R663 to R668): an S1, an S2 in a calm block, beside the recovery of an S3 and in a full log,
and the end of an S2's recovery.
-/
namespace Sys2Proof.Machine
open Sys2Proof

namespace State
variable {s : State} {f : Finding} {p c act : Nat} {e : IncEntry} {img : Image}

-- S1 -----------------------------------------------------------------------------------------------------------------

/-- An S1 is counted, has at most its record written, and takes no place in the log and no ID (R664). -/
theorem incidentS1_counted (s : State) (f : Finding) :
    let t := s.incidentS1 f
    t = { s with inc := t.inc, wb := t.wb, cw := t.cw, out := t.out, freeCtr := t.freeCtr, staging := t.staging, ue := t.ue } ∧
      t.inc.log = s.inc.log ∧ t.inc.nextId = s.inc.nextId ∧ t.inc.cur = s.inc.cur := by
  unfold incidentS1
  extract_lets old n now due go e s1 t
  by_cases hgo : go = true
  · rw [show t = (s1.wbWrite Ty.incident [incBytes e] .none).bump from if_pos hgo]
    have hframe := (s1.wbWrite_wrote Ty.incident [incBytes e] .none).2
    generalize s1.wbWrite Ty.incident [incBytes e] .none = u at hframe ⊢
    rw [hframe]
    exact ⟨rfl, rfl, rfl, rfl⟩
  · rw [show t = s1 from if_neg hgo]
    exact ⟨rfl, rfl, rfl, rfl⟩

/-- The sources of an S1 (R642). -/
def minor : List Nat := [0x01, 0x03, 0x06, 0x07, 0x0A, 0x11, 0x14, 0x19]

/-- Of an error of another kind than three bits of staging the severity goes by the source alone. -/
theorem severity_of_source (h : f.source ≠ Src.stageUe) (resident : Nat) : severity resident f = severity 0 (finding f.source 0 0 0) := by
  rw [severity, if_neg h]
  exact (if_neg h).symm

theorem severity_minor (h : f.source ∈ minor) (resident : Nat) : severity resident f = 1 := by
  have hall : ∀ n ∈ minor, n ≠ Src.stageUe ∧ severity 0 (finding n 0 0 0) = 1 := by decide
  exact (severity_of_source (hall _ h).1 resident).trans (hall _ h).2

theorem incident_minor (h : f.source ∈ minor) (act : Nat) : s.incident f act = s.incidentS1 f := by
  simp [incident, severity_minor h]

/-- An error of another source than these two does nothing before its incident. -/
theorem noteError_of_other (hue : f.source ≠ Src.stageUe) (hpe : f.source ≠ Src.codebookPe) : s.noteError f = s := by
  simp [noteError, hue, hpe]

/-- A codebook entry in error leaves its cache (R642). -/
theorem noteError_codebookPe (h : f.source = Src.codebookPe) : ∃ cs, s.noteError f = { s with clusters := cs } :=
  ⟨_, by rw [noteError, if_neg (by simp [h, Src.codebookPe, Src.stageUe]), if_pos h]; rfl⟩

/-- Before an S1 at most a cluster's cache loses an entry. -/
theorem noteError_minor (h : f.source ∈ minor) : ∃ cs, s.noteError f = { s with clusters := cs } ∧ (f.source ≠ 7 → cs = s.clusters) := by
  have hue : f.source ≠ Src.stageUe := fun hsource => absurd (hsource ▸ h) (by decide)
  by_cases hpe : f.source = Src.codebookPe
  · obtain ⟨cs, hcs⟩ := noteError_codebookPe (s := s) hpe
    exact ⟨cs, hcs, fun hne => absurd hpe hne⟩
  · exact ⟨_, noteError_of_other hue hpe, fun _ => rfl⟩

-- S2 -----------------------------------------------------------------------------------------------------------------

/-- The sources of an S2 that only sets statuses (R642, R651). -/
def settling : List Nat := [0x0C, 0x0D, 0x0E, 0x12, 0x13, 0x15, 0x16, 0x17, 0x18, 0x1A]

theorem severity_settling (h : f.source ∈ settling) (resident : Nat) : severity resident f = 2 := by
  have hall : ∀ n ∈ settling, n ≠ Src.stageUe ∧ severity 0 (finding n 0 0 0) = 2 := by decide
  exact (severity_of_source (hall _ h).1 resident).trans (hall _ h).2

theorem settling_not_repeating (h : f.source ∈ settling) : f.source ∉ repeating := by
  have hall : ∀ n ∈ settling, n ∉ repeating := by decide
  exact hall _ h

theorem noteError_settling (h : f.source ∈ settling) : s.noteError f = s := by
  have hall : ∀ n ∈ settling, n ≠ Src.stageUe ∧ n ≠ Src.codebookPe := by decide
  exact noteError_of_other (hall _ h).1 (hall _ h).2

/-- What is flushed out of the log leaves the rest of the state as it is. -/
theorem settled_flushed {u v : State} (h : Flushed u v) : v.settled = { u with
    wb := v.wb, cw := v.cw, out := v.out, staging := v.staging, ue := v.ue, inc := { u.inc with log := v.inc.log, cur := none },
    setup := { u.setup with irqIncident := u.setup.irqIncident ||| 0x10 } } := by
  have hframe := h.frame
  generalize hinc : v.inc.log = log at hframe ⊢
  rw [hframe]
  rfl

/-- In a calm block it takes an ID, shows its S2 and its DONE, and leaves no recovery (R651, R663, R665). -/
theorem incident_of_calm_counted (hcalm : s.calm) (hp : s.freePos = some p) (hsev : severity s.resident f = 2) (hsource : f.source ∉ repeating)
    (act : Nat) :
    let t := s.incident f act
    t = { s with inc := t.inc, setup := { s.setup with irqIncident := s.setup.irqIncident ||| 0x11 }, wb := t.wb, cw := t.cw, out := t.out,
                 freeCtr := t.freeCtr, staging := t.staging, ue := t.ue } ∧ t.inc.nextId = s.inc.nextId + 1 := by
  intro t
  set e : IncEntry := { s.newEntry f 2 act with state := 2, action := 7 }
  have hflushed := (Flushed.writeEntry (s.recovering p e) p).trans (.flushInc _)
  have ht : t = _ := incident_of_calm_eq hcalm hp hsev hsource act
  generalize ((s.recovering p e).writeEntry p).flushInc = v at hflushed ht
  have hirq : s.setup.irqIncident ||| 1#5 ||| 0x10 = s.setup.irqIncident ||| 0x11 := BitVec.or_assoc ..
  rw [ht, settled_flushed hflushed, ← hirq]
  exact ⟨rfl, rfl⟩

/-- A block whose full log has lost an incident, and has shown OVERFLOW (R663, R665). -/
def lostOne (s : State) : State :=
  (s.modInc fun i => { i with lost := if i.lost = 0xFFFF then i.lost else i.lost + 1, overflow := true }).irqInc 3

/-- One that finds the log full is lost, and the block fences itself (R663). -/
theorem incident_of_full (hfenced : s.inc.fenced = false) (hcur : s.inc.cur = none) (hp : s.freePos = none) (hsev : severity s.resident f = 2) :
    let t := s.incident f act
    t.inc.fenced = true ∧ t.inc.overflow = true ∧ t.inc.lost = (if s.inc.lost = 0xFFFF then s.inc.lost else s.inc.lost + 1) ∧
      t.inc.log = s.inc.log := by
  intro t
  let e : IncEntry := { s.newEntry (finding Src.logOverflow 0 0 0) 4 6 with state := 1, id := 0 }
  let u := ((s.lostOne.modInc fun i => { i with cur := none, fenceEntry := some e }).irqInc 2).bump
  have hhigh : s.incidentHigh f 2 act = u.fence := by
    simp only [incidentHigh, hp]
    change (if s.inc.fenced then s.lostOne else _) = _
    rw [if_neg (by simp [hfenced])]
    split
    · next q hq => exact absurd (hcur.symm.trans hq) (by simp)
    · rfl
  have ht : t = u.fence := by
    simp only [t, incident, hsev, hhigh]
    exact settleS2_of_idle (by rw [fence_inc (s := u) hfenced]; rfl) 33
  rw [ht, fence_inc (s := u) hfenced]
  exact ⟨rfl, rfl, rfl, rfl⟩

/-- One beside the recovery of an S3 of another resource takes its place in the log, and waits (R663, R668). -/
theorem incident_beside_S3 (hfenced : s.inc.fenced = false) (hcur : s.inc.cur = some c) (he : s.entry? c = some e) (hthree : e.sevFinal = 3)
    (hp : s.freePos = some p) (hother : resource f.source f.unit ≠ resource e.source e.unit) (hsev : severity s.resident f = 2) :
    s.incident f act = s.loggedS2 p (s.newEntry f 2 act) := by
  have hhigh : s.incidentHigh f 2 act = s.loggedS2 p (s.newEntry f 2 act) := by
    simp [incidentHigh, hp, hfenced, hcur, he, hother, hthree, loggedS2]
  have hne : p ≠ c := fun hpc => by
    obtain ⟨hlt, hnone, -⟩ := List.findIdx?_eq_some_iff_getElem.1 hp
    have hlog := Option.join_eq_some_iff.1 he
    simp [← hpc, List.getElem?_eq_getElem hlt, Option.isNone_iff_eq_none.1 hnone] at hlog
  have hentry : (s.loggedS2 p (s.newEntry f 2 act)).entry? c = some e := by
    rw [← he]
    simp [entry?, loggedS2, modInc, bump, irqInc, hne]
  rw [incident, hsev, ← settleS2_of_acting (img := f.mem) (s := s.loggedS2 p (s.newEntry f 2 act)) hcur hentry (.inl (by simp [hthree])) 33,
    ← hhigh]
  rfl

-- The end of a recovery ----------------------------------------------------------------------------------------------

/-- With nothing waiting, the end of a recovery leaves its entry DONE, and no other begins (R651, R665, R668). -/
theorem endRecovery_of_idle (hcur : s.inc.cur = some p) (hidle : ∀ x ∈ s.inc.log, x.map (·.state) ≠ some 0) :
    ∃ v, Flushed (s.modEntry p fun e => { e with state := 2 }) v ∧ s.endRecovery img = v.settled := by
  have hclose : s.closeEntry p 2 0xFF = (s.modEntry p fun e => { e with state := 2 }).writeEntry p := rfl
  have hflushed := (Flushed.writeEntry (s.modEntry p fun e => { e with state := 2 }) p).trans (.flushInc _)
  generalize hv : ((s.modEntry p fun e => { e with state := 2 }).writeEntry p).flushInc = v at hflushed
  have hwaiting := hflushed.idle fun x hx => by
    obtain ⟨i, hi⟩ := List.mem_iff_getElem?.1 hx
    simp only [modEntry, modInc, List.getElem?_modify, Option.map_eq_map, Option.map_eq_some_iff] at hi
    obtain ⟨y, hy, rfl⟩ := hi
    split
    · cases y <;> simp
    · exact hidle y (List.mem_of_getElem? hy)
  have hnone : v.settled.nextQueued = none := nextQueued_of_idle hwaiting
  refine ⟨v, hflushed, ?_⟩
  simp only [endRecovery, hcur, hclose, hv]
  rw [settled] at hnone
  simp only [hnone, settled]

-- The commands -------------------------------------------------------------------------------------------------------

theorem exec_incidentDetect (hreset : s.inReset = false) : exec (.incidentDetect f) s = .next ((s.noteError f).incident f 0) :=
  if_neg (by simp [hreset])

/-- The scrub corrects one or two bits of a word without an error that it could not correct (R642). -/
theorem exec_scrub {word n : Nat} (hreset : s.inReset = false) (hn : n = 1 ∨ n = 2) (hue : s.ue.contains word = false)
    (hsize : 32 * word < Memory.size) :
    exec (.scrub word n) s = .next (s.incident (finding Src.stageCe (word / 2048) 0 (32 * (word % 2048))) 0) :=
  if_neg (by simp only [hreset, hue, Bool.false_or, Bool.or_eq_true, decide_eq_true_eq, Bool.or_false]; omega)

/-- An S2 that is current is over as soon as its end is noticed (R651). -/
theorem exec_recoveryEnd_S2 (hreset : s.inReset = false) (hcur : s.inc.cur = some p) (he : s.entry? p = some e) (htwo : e.sevFinal = 2) :
    exec (.recoveryEnd img) s = .next ((s.endRecovery img).settleS2 img 33) := by
  change execRecoveryEnd img s = _
  simp [execRecoveryEnd, hreset, hcur, he, htwo, recoveryOver]

end State

-- The statement ------------------------------------------------------------------------------------------------------

/-- Settles O55: an S1 by what it writes, an S2 by the state of the log and of the recovery that it finds, its end by what is flushed. -/
theorem incidentsAreRecorded : Obligations.IncidentsAreRecorded := by
  intro s hreset counted
  have hcounted : ∀ f cs, counted (({ s with clusters := cs } : State).incidentS1 f) f.source ∧
      (({ s with clusters := cs } : State).incidentS1 f).clusters = cs := fun f cs => by
    obtain ⟨hframe, hlog, hid, hcur⟩ := ({ s with clusters := cs } : State).incidentS1_counted f
    have hcount := (({ s with clusters := cs } : State).incidentS1_frame f).1
    have hclusters : (({ s with clusters := cs } : State).incidentS1 f).clusters = cs := (congrArg State.clusters hframe :)
    exact ⟨⟨by rw [hclusters]; exact hframe, hcount, hlog, hid, hcur⟩, hclusters⟩
  refine ⟨fun f hf => ?_, fun word n hn hue hsize => ?_, fun f p hf => ⟨fun hcalm hp => ?_, fun c e hfenced hcur he hthree hp hother => ?_,
    fun hfenced hcur hp => ?_⟩, fun p e mem hcur he htwo hidle => ?_⟩
  · obtain ⟨cs, hcs, hsame⟩ := State.noteError_minor (s := s) hf
    refine ⟨_, State.exec_incidentDetect hreset, ?_⟩
    rw [hcs, State.incident_minor hf]
    exact ⟨(hcounted f cs).1, fun hne => (hcounted f cs).2.trans (hsame hne)⟩
  · refine ⟨_, State.exec_scrub hreset hn hue hsize, ?_⟩
    rw [State.incident_minor (show 1 ∈ State.minor by decide)]
    exact hcounted _ s.clusters
  · obtain ⟨hframe, hid⟩ := State.incident_of_calm_counted hcalm hp (State.severity_settling hf _) (State.settling_not_repeating hf) 0
    refine ⟨_, State.exec_incidentDetect hreset, ?_⟩
    rw [State.noteError_settling hf]
    exact ⟨hframe, (State.incident_of_calm hcalm hp (State.severity_settling hf _) (State.settling_not_repeating hf) 0).2, hid,
      State.cur_incident_of_calm hcalm hp (State.severity_settling hf _) (State.settling_not_repeating hf) 0⟩
  · refine ⟨{ s.newEntry f 2 0 with state := 0 }, ?_, rfl, rfl, rfl, rfl, rfl, rfl, rfl, rfl⟩
    rw [State.exec_incidentDetect hreset, State.noteError_settling hf,
      State.incident_beside_S3 hfenced hcur he hthree hp hother (State.severity_settling hf _)]
    rfl
  · refine ⟨_, State.exec_incidentDetect hreset, ?_⟩
    rw [State.noteError_settling hf]
    exact State.incident_of_full hfenced hcur hp (State.severity_settling hf _)
  · obtain ⟨v, hflushed, hend⟩ := State.endRecovery_of_idle (img := mem) hcur hidle
    have hlog := Option.join_eq_some_iff.1 he
    obtain ⟨x, hx, hcore⟩ := hflushed.getElem?_log (p := p) (e := { e with state := 2 }) (by simp [State.modEntry, State.modInc, hlog])
    simp only [IncEntry.core, IncEntry.mk.injEq] at hcore
    have hexec := State.exec_recoveryEnd_S2 (img := mem) hreset hcur he htwo
    rw [hend, State.settleS2_of_idle rfl] at hexec
    refine ⟨_, x, hexec, ?_, rfl, by rw [State.entry?]; exact congrArg Option.join hx, ?_⟩
    · rw [State.settled_flushed hflushed]
      rfl
    · simp [hcore, htwo]

end Sys2Proof.Machine
end
section
/-!
The assay of clusters (R656 to R661): how one begins, what it finds, and the incident of a lane or a cluster that has been replaced, which repeats
no group where nothing is suspect.
-/
namespace Sys2Proof.Machine
open Sys2Proof

-- The last entry that names a lane -----------------------------------------------------------------------------------

/-- Of the entries with a property the last is the one just set, where none that has it stands behind. -/
theorem getLast?_filter_zipIdx_set {α : Type} {P : α → Bool} {l : List α} {k : Nat} {v : α} (hk : k < l.length) (hv : P v = true)
    (hlater : ∀ j, k < j → j < l.length → l[j]?.map P = some false) :
    ((l.set k v).zipIdx.filter fun x => P x.1).getLast?.map (·.2) = some k := by
  have hbehind : ((l.drop (k + 1)).zipIdx (k + 1)).filter (fun x => P x.1) = [] := by
    refine List.filter_eq_nil_iff.2 fun x hx => ?_
    obtain ⟨i, hi⟩ := List.mem_iff_getElem?.1 (List.fst_mem_of_mem_zipIdx hx)
    rw [List.getElem?_drop] at hi
    have hlt := (List.getElem?_eq_some_iff.1 hi).1
    have hfalse := hlater (k + 1 + i) (by omega) hlt
    rw [hi] at hfalse
    simpa using hfalse
  have hlen : (l.take k).length = k := by simp [hk.le]
  rw [List.set_eq_take_append_cons_drop, if_pos hk, List.zipIdx_append, List.zipIdx_cons, hlen, Nat.zero_add, List.filter_append,
    List.filter_cons_of_pos (by exact hv), hbehind]
  simp

namespace State
variable {s : State} {c d p k l lane act : Nat} {f : Finding} {r : AssayRes} {drawOk : Bool}

-- Clusters -----------------------------------------------------------------------------------------------------------

/-- What a change of clusters keeps of each, it keeps of the one that is asked for. -/
theorem cluster_modCluster_keeps {α : Type} (π : Cluster → α) {g : Cluster → Cluster} (h : ∀ k, π (g k) = π k) (c d : Nat) :
    π ((s.modCluster c g).cluster d) = π (s.cluster d) := by
  simp only [cluster, modCluster, List.getD_eq_getElem?_getD, List.getElem?_modify]
  cases s.clusters[d]? with
  | none => rfl
  | some x => by_cases hcd : c = d <;> simp [hcd, h]

/-- A cluster whose outcome is that it has not passed. -/
def unpassed (s : State) (c : Nat) : State := s.modCluster c fun k => { k with passed := false }

theorem spare_unpassed (s : State) (c d : Nat) : ((s.unpassed c).cluster d).spare = (s.cluster d).spare :=
  cluster_modCluster_keeps (g := fun k => { k with passed := false }) Cluster.spare (fun _ => rfl) c d

theorem retired_unpassed (s : State) (c d : Nat) : ((s.unpassed c).cluster d).retired = (s.cluster d).retired :=
  cluster_modCluster_keeps (g := fun k => { k with passed := false }) Cluster.retired (fun _ => rfl) c d

theorem suspectFrom_unpassed (s : State) (c d : Nat) : ((s.unpassed c).cluster d).suspectFrom = (s.cluster d).suspectFrom :=
  cluster_modCluster_keeps (g := fun k => { k with passed := false }) Cluster.suspectFrom (fun _ => rfl) c d

theorem logicalLane_unpassed (s : State) (c d lane : Nat) : (s.unpassed c).logicalLane d lane = s.logicalLane d lane := by
  simp only [logicalLane, spare_unpassed]

theorem freeSpare_unpassed (s : State) (c d : Nat) : (s.unpassed c).freeSpare d = s.freeSpare d := by
  simp only [freeSpare, spare_unpassed]

theorem inService_unpassed (s : State) (c d : Nat) : (s.unpassed c).inService d = s.inService d := by
  simp only [inService, retired_unpassed]
  rfl

/-- A valid entry of the spare map that names a lane. -/
def spareNames (l : Nat) (e : BitVec 16) : Bool := e.getLsbD 8 && bits e.toNat 7 0 == l

theorem bits_spareEntry (hl : l < 256) : bits (BitVec.ofNat 16 (l + 256)).toNat 7 0 = l := by
  rw [BitVec.toNat_ofNat, bits]
  omega

theorem spareNames_spareEntry (hl : l < 256) : spareNames l (BitVec.ofNat 16 (l + 256)) = true := by
  have hvalid : (l + 256).testBit 8 = true := by
    rw [Nat.testBit_eq_decide_div_mod_eq, decide_eq_true_eq]
    omega
  rw [spareNames, bits_spareEntry hl, BitVec.getLsbD_ofNat]
  simp [hvalid]

/-- A spare that has been given a lane serves it, where no later one does (R656). -/
theorem logicalLane_spare {xs : List (BitVec 16)} (hs : (s.cluster c).spare = xs.set k (BitVec.ofNat 16 (l + 256))) (hl : l < 256)
    (hk : k < xs.length) (hlater : ∀ j, k < j → j < xs.length → xs[j]?.map (spareNames l) = some false) :
    s.logicalLane c (256 + k) = some l := by
  have hlast := getLast?_filter_zipIdx_set hk (spareNames_spareEntry hl) hlater
  have hvalid := spareNames_spareEntry hl
  simp only [spareNames, bits_spareEntry hl] at hlast hvalid
  simp only [logicalLane, hs, if_neg (show ¬256 + k < 256 by omega), Nat.add_sub_cancel_left, List.getElem?_set_self hk, bits_spareEntry hl, hlast]
  simpa using hvalid

-- Their incidents ----------------------------------------------------------------------------------------------------

/-- Where nothing is suspect no group repeats (R660). -/
theorem suspects_zero (s : State) : s.suspects 0 = [] := by
  simp [suspects]

/-- In a calm block a lane or a cluster that has been replaced becomes the current recovery, and its incident goes on (R651, R656, R657). -/
theorem incident_of_replaced (hcalm : s.calm) (hp : s.freePos = some p) (hsource : f.source = Src.laneAssay ∨ f.source = Src.clusterFail)
    (haddr : f.addr = 0) (hact : act ≠ 7) : s.incident f act = s.current p { s.newEntry f 2 act with state := 1 } 0 := by
  obtain ⟨-, hfenced, hcur, -⟩ := hcalm
  have hlt := lt_of_freePos hp
  set e := s.newEntry f 2 act
  have hsev : severity s.resident f = 2 := by
    have hue : f.source ≠ Src.stageUe := by obtain h | h := hsource <;> rw [h] <;> decide
    rw [severity_of_source hue]
    obtain h | h := hsource <;> rw [h] <;> rfl
  have hrepeat : ∀ u : State, u.actS2 { e with state := 1 } = some (u, act) := fun u => by
    obtain h | h := hsource <;> simp [actS2, e, newEntry, h, haddr, suspects_zero]
  have hhigh : s.incidentHigh f 2 act = s.current p { e with state := 1 } 0 :=
    (incidentHigh_taken hfenced hcur hp 2 act).trans (activate_taken_S2 hlt rfl hrepeat)
  rw [incident, hsev]
  change settleS2 f.mem 33 (s.incidentHigh f 2 act) = _
  rw [hhigh]
  exact settleS2_of_acting rfl (entry?_current hlt) (.inr hact) 33

/-- Whether a cluster takes work does not go by the log. -/
theorem takesWork_current (s : State) (p : Nat) (e : IncEntry) (n d : Nat) : (s.current p e n).takesWork d = s.takesWork d := by
  simp only [takesWork]
  rfl

-- What an assay finds ------------------------------------------------------------------------------------------------

/-- A lane in error of a cluster that has not passed gets the lowest free spare (R656). -/
theorem failLane_unpassed (hl : s.logicalLane c lane = some l) (hk : s.freeSpare c = some k) : (s.unpassed c).failLane c lane =
    (s.modCluster c fun x => { x with passed := false, spare := x.spare.set k (BitVec.ofNat 16 (l + 256)) }).incident
      ((s.unpassed c).clusterFinding Src.laneAssay (c * 512 + lane) c) 2 := by
  have hmod : ((s.unpassed c).modCluster c fun x => { x with spare := x.spare.set k (BitVec.ofNat 16 (l + 256)) }) =
      s.modCluster c fun x => { x with passed := false, spare := x.spare.set k (BitVec.ofNat 16 (l + 256)) } :=
    congrArg (fun cs => { s with clusters := cs }) (List.modify_modify_eq ..)
  simp only [failLane, logicalLane_unpassed, hl, freeSpare_unpassed, hk, hmod]

/-- A cluster that fails is replaced by cluster 16, while that stands in for none (R657). -/
theorem failCluster_eq (hc : c < 16) (hin : s.inService c = true) (hretired : (s.cluster 16).retired = false) (hstandin : s.standin = 0x1F) :
    s.failCluster c = ({ s with standin := BitVec.ofNat 5 c } : State).incident (s.clusterFinding Src.clusterFail c c) 3 := by
  have hne : c ≠ 16 := by omega
  simp [failCluster, hin, hretired, standsIn, hstandin, hne]

/-- The block with no assay running. -/
def unassayed (s : State) : State := { s with assay := { s.assay with running := none } }

/-- The block with a lane of a cluster moved to a spare, its assay over (R656). -/
def spared (s : State) (c k l : Nat) : State :=
  s.unassayed.modCluster c fun x => { x with passed := false, spare := x.spare.set k (BitVec.ofNat 16 (l + 256)) }

/-- The block with cluster 16 in the place of another, the assay over (R657). -/
def replaced (s : State) (c : Nat) : State := { s.unassayed.unpassed c with standin := BitVec.ofNat 5 c }

/-- A cluster that another stands in for takes no work. -/
theorem takesWork_replaced (hc : c < 16) : (s.replaced c).takesWork c = false := by
  have hto : (s.replaced c).standin.toNat = c := by
    change (BitVec.ofNat 5 c).toNat = c
    rw [BitVec.toNat_ofNat]
    omega
  have hin : (s.replaced c).inService c = false := by
    simp [inService, hto, show c ≠ 16 by omega]
  exact hin

/-- Cluster 16 takes work while it stands in for another. -/
theorem takesWork_standin (hc : c < 16) (hretired : (s.cluster 16).retired = false) : (s.replaced c).takesWork 16 = true := by
  have hstands : (s.replaced c).standsIn = true := bne_iff_ne.2 fun h => by
    have hto : (BitVec.ofNat 5 c).toNat = 31 := congrArg BitVec.toNat h
    rw [BitVec.toNat_ofNat] at hto
    omega
  have hin : (s.replaced c).inService 16 = true := by
    have hstill : ((s.replaced c).cluster 16).retired = false := (retired_unpassed s.unassayed ..).trans hretired
    simp [inService, hstill, hstands]
  exact hin

-- The commands -------------------------------------------------------------------------------------------------------

/-- An assay ends with what it has found, where the Draw has passed (R658). -/
theorem exec_assayComplete (hrun : s.assay.running = some r.cluster) (hdraw : r.cluster = 0 → drawOk = true) :
    exec (.assayComplete r drawOk) s = .next (s.unassayed.assayed r) := by
  have hgood : (r.cluster = 0 && !drawOk) = false := by
    by_cases h : r.cluster = 0
    · simp [hdraw h]
    · simp [h]
  change execAssayComplete r drawOk s = _
  simp [execAssayComplete, hrun, hgood, unassayed]

/-- A Draw that has failed is an S4 (R659). -/
theorem exec_assayComplete_drawFail (hrun : s.assay.running = some r.cluster) (hc : r.cluster = 0) (hdraw : drawOk = false) :
    exec (.assayComplete r drawOk) s = .next ((s.unassayed.assayed r).incident (finding Src.drawFail 0 0 0) 6) := by
  change execAssayComplete r drawOk s = _
  simp [execAssayComplete, hrun, hc, hdraw, unassayed]

theorem assayed_passed (hlanes : r.lanes = []) (hshared : r.shared = false) :
    s.assayed r = s.modCluster r.cluster fun k => { k with passed := true, suspectFrom := 0, workedPub := 0 } := by
  simp [assayed, hlanes, hshared]

theorem assayed_lane (hlanes : r.lanes = [lane]) (hshared : r.shared = false) : s.assayed r = (s.unpassed r.cluster).failLane r.cluster lane := by
  simp [assayed, hlanes, hshared, unpassed]

theorem assayed_shared (hshared : r.shared = true) : s.assayed r = (s.unpassed r.cluster).failCluster r.cluster := by
  simp [assayed, hshared, unpassed]

section Repairs
variable (hrun : s.assay.running = some r.cluster) (hdraw : r.cluster = 0 → drawOk = true) (hsuspect : (s.cluster r.cluster).suspectFrom = 0)
  (hcalm : s.calm) (hp : s.freePos = some p)
include hrun hdraw hsuspect hcalm hp

/-- A lane in error has its spare, and is the current recovery. -/
theorem exec_assayComplete_lane (hlanes : r.lanes = [lane]) (hshared : r.shared = false) (hl : s.logicalLane r.cluster lane = some l)
    (hk : s.freeSpare r.cluster = some k) :
    exec (.assayComplete r drawOk) s = .next ((s.spared r.cluster k l).current p
      { s.newEntry ((s.unassayed.unpassed r.cluster).clusterFinding Src.laneAssay (r.cluster * 512 + lane) r.cluster) 2 2 with state := 1 } 0) := by
  have hincident := incident_of_replaced (s := s.spared r.cluster k l) (act := 2)
    (f := (s.unassayed.unpassed r.cluster).clusterFinding Src.laneAssay (r.cluster * 512 + lane) r.cluster)
    hcalm hp (.inl rfl) ((suspectFrom_unpassed s.unassayed ..).trans hsuspect) (by decide)
  rw [exec_assayComplete hrun hdraw, assayed_lane hlanes hshared, failLane_unpassed (s := s.unassayed) hl hk]
  exact congrArg _ hincident

/-- A cluster whose shared part has failed is replaced, and is the current recovery. -/
theorem exec_assayComplete_shared (hshared : r.shared = true) (hc : r.cluster < 16) (hin : s.inService r.cluster = true)
    (hretired : (s.cluster 16).retired = false) (hstandin : s.standin = 0x1F) :
    exec (.assayComplete r drawOk) s = .next ((s.replaced r.cluster).current p
      { s.newEntry ((s.unassayed.unpassed r.cluster).clusterFinding Src.clusterFail r.cluster r.cluster) 2 3 with state := 1 } 0) := by
  have hincident := incident_of_replaced (s := s.replaced r.cluster) (act := 3)
    (f := (s.unassayed.unpassed r.cluster).clusterFinding Src.clusterFail r.cluster r.cluster)
    hcalm hp (.inr rfl) ((suspectFrom_unpassed s.unassayed ..).trans hsuspect) (by decide)
  rw [exec_assayComplete hrun hdraw, assayed_shared hshared, failCluster_eq (s := s.unassayed.unpassed r.cluster) hc
    ((inService_unpassed ..).trans hin) ((retired_unpassed ..).trans hretired) hstandin]
  exact congrArg _ hincident

end Repairs
end State

-- The statement ------------------------------------------------------------------------------------------------------

/-- Settles O56: the outcome of an assay by what it found; what has been replaced becomes the current recovery, which repeats no group. -/
theorem assayRepairsAndReplaces : Obligations.AssayRepairsAndReplaces := by
  refine ⟨fun s c hidle hstart hshut => ⟨fun hforced => ?_, fun hforced hround hnext => ?_⟩, fun s r drawOk hrun => ?_⟩
  · change execAssayStart s = _
    simp [execAssayStart, hidle, hstart, hshut, hforced, State.modCluster]
  · change execAssayStart s = _
    simp [execAssayStart, hidle, hstart, hshut, hforced, hround, hnext, State.modCluster]
  intro c rest
  refine ⟨fun hlanes hshared hdraw => ?_, fun p lane l k hlanes hshared hdraw hl hk hsuspect hcalm hp => ?_,
    fun p hshared hdraw hc hin hretired hstandin hsuspect hcalm hp => ?_, fun hlanes hshared hc hdraw hcalm hp => ?_⟩
  · rw [State.exec_assayComplete hrun hdraw, State.assayed_passed hlanes hshared]
    rfl
  · have hlt := State.lt_of_freePos hp
    refine ⟨_, _, State.exec_assayComplete_lane hrun hdraw hsuspect hcalm hp hlanes hshared hl hk, State.current_frame (s.spared c k l) .., rfl,
      State.entry?_current (s := s.spared c k l) hlt, rfl, rfl, rfl, rfl, fun hl256 hklt hclt hlater => ?_⟩
    refine State.logicalLane_spare (xs := (s.cluster c).spare) ?_ hl256 hklt hlater
    change ((s.modCluster c _).cluster c).spare = _
    rw [State.cluster_modCluster hclt, if_pos rfl]
  · have hlt := State.lt_of_freePos hp
    exact ⟨_, _, State.exec_assayComplete_shared hrun hdraw hsuspect hcalm hp hshared hc hin hretired hstandin,
      State.current_frame (s.replaced c) ..,
      (State.takesWork_current ..).trans (State.takesWork_replaced hc), (State.takesWork_current ..).trans (State.takesWork_standin hc hretired),
      rfl, State.entry?_current (s := s.replaced c) hlt, rfl, rfl, rfl, rfl⟩
  · refine ⟨_, State.exec_assayComplete_drawFail hrun hc hdraw, ?_⟩
    rw [State.assayed_passed hlanes hshared]
    exact State.fenced_incident rfl hcalm.2.1 hcalm.2.2.1

end Sys2Proof.Machine
end
section
/-!
The start (R675, R681 to R696): how steps begin, pass, fail and become ready, and the writes of DX_START_CTL and DX_ASSAY_CTL.
-/
namespace Sys2Proof.Machine
open Sys2Proof

/-- The start once an attempt at a step has begun (R681). -/
def StartSt.trying (n attempt : Nat) (alt : Bool) (t : StartSt) : StartSt :=
  { t with running := t.running.filter (fun p => p.1 != n) ++ [(n, attempt)], altUse := if alt then t.altUse ||| (1#16 <<< n) else t.altUse }

namespace State
variable {s : State} {n attempt d : Nat} {alt : Bool}

-- Steps that begin ---------------------------------------------------------------------------------------------------

/-- S1, S2 and S5 to S8 change nothing when they begin but the start. -/
theorem tryStep_plain (h3 : n ≠ 3) (h4 : n ≠ 4) (h9 : n ≠ 9) (attempt : Nat) (alt : Bool) :
    s.tryStep n attempt alt = s.modStart (StartSt.trying n attempt alt) := by
  unfold tryStep
  rw [if_neg h3, if_neg h4, if_neg h9]
  rfl

/-- S7 to S9 change nothing else but the pattern that S9 has seen (R759). -/
theorem tryStep_of_seven_le (h : 7 ≤ n) (attempt : Nat) (alt : Bool) :
    ∃ seen bad, s.tryStep n attempt alt = { s.modStart (StartSt.trying n attempt alt) with asSeen := seen, asBad := bad } := by
  unfold tryStep
  rw [if_neg (by omega), if_neg (by omega)]
  split <;> exact ⟨_, _, rfl⟩

/-- Every step but S9 is tried when its turn comes (R682, R685). -/
theorem beginStep_of_ne_nine (h9 : n ≠ 9) : s.beginStep n = s.tryStep n 1 (s.altFirst n s.start.prev) := by
  unfold beginStep
  extract_lets failed9
  have hgo : failed9 = false := by
    simp only [failed9]
    split <;> simp [h9]
  rw [hgo]
  rfl

/-- Without a previous record no alternative comes first (R684). -/
theorem altFirst_none (s : State) (n : Nat) : s.altFirst n none = false := Bool.and_false _

/-- Nor is a step skipped (R685). -/
theorem beginStep_of_no_record (hprev : s.start.prev = none) (n : Nat) : s.beginStep n = s.tryStep n 1 false := by
  simp [beginStep, hprev, altFirst_none]

/-- The wait for GO ends with S1 (R675). -/
theorem leaveWait_eq (s : State) : s.leaveWait = s.modStart fun t =>
    StartSt.trying 1 1 ((s.modStart fun t => { t with waitingGo := false }).altFirst 1 s.start.prev) { t with waitingGo := false } := by
  rw [leaveWait, beginStep_of_ne_nine (by decide), tryStep_plain (by decide) (by decide) (by decide)]
  rfl

-- GO and RERUN -------------------------------------------------------------------------------------------------------

/-- The bits of DX_START_CTL that stay in the register keep what is written (R694 to R696). -/
theorem getLsbD_startCtl_one (d : Nat) : (BitVec.ofNat 32 (d &&& 0xFFFF00FE)).getLsbD 1 = bit d 1 := by
  rw [BitVec.getLsbD_ofNat, Nat.testBit_and, show Nat.testBit 0xFFFF00FE 1 = true by decide]
  simp [bit]

/-- The block with DX_START_CTL as it is written. -/
def startWritten (s : State) (d : Nat) : State := s.modRegs fun r => { r with startCtl := BitVec.ofNat 32 (d &&& 0xFFFF00FE) }

theorem exec_go (hreset : s.inReset = false) (hrerun : bit d 8 = false) (hgo : bit d 0 = true) :
    exec (.go d) s = .next ((s.startWritten d).goAct.respond .apb 0 false) := by
  refine exec_setupWrite_word hreset rfl (by decide) ?_
  change s.writeStartCtl d = _
  simp [writeStartCtl, hrerun, hgo, startWritten]

theorem exec_rerun (hreset : s.inReset = false) (hrerun : bit d 8 = true) (hlow : 7 ≤ bits d 7 4) (hhigh : bits d 7 4 ≤ 9)
    (hparked : s.start.parked = false) (hactive : s.start.active = false) (hrun : s.stepRunning (bits d 7 4) = false)
    (hbusy : s.rerunBusy (bits d 7 4) = false) :
    exec (.rerun d) s = .next (((s.startWritten d).rerunAct (bits d 7 4)).respond .apb 0 false) := by
  refine exec_setupWrite_word hreset rfl (by decide) ?_
  change s.writeStartCtl d = _
  simp [writeStartCtl, hrerun, hlow, hhigh, hparked, hactive, hrun, hbusy, startWritten, Nat.not_lt.2]

theorem exec_assayForce (hreset : s.inReset = false) (hforce : bit d 21 = true) (hc : bits d 20 16 < 17) :
    exec (.assayForce d) s = .next (State.respond { s with
      regs := { s.regs with assayCtl := BitVec.ofNat 32 (d &&& 0x1FFFFF) },
      assay := { s.assay with forced := some (bits d 20 16) } } .apb 0 false) := by
  refine exec_setupWrite_word hreset rfl (by decide) ?_
  change Except.ok (s.writeAssayCtl d) = _
  simp [writeAssayCtl, hforce, hc, modRegs]

/-- The block whose RERUN of a step has cleared what the step had shown (R694). -/
def rerunBegun (s : State) (n : Nat) : State := s.modStart fun t => { t with
  ready := t.ready &&& ~~~(1#16 <<< stepFunction n), failLast := t.failLast &&& ~~~(1#16 <<< n), altUse := t.altUse &&& ~~~(1#16 <<< n),
  rerun := t.rerun.filter (· != n) ++ [n] }

theorem rerunAct_eq (s : State) (n : Nat) :
    s.rerunAct n = (s.rerunBegun n).tryStep n 1 (s.altFirst n (some (toBytes 64 s.start.rec'.toNat))) := rfl

/-- The start once GO has dealt with the hint: a cold start with HINT_EN takes it where it is a start record, and shows it where not (R688). -/
def hintTaken (s : State) : StartSt :=
  if s.start.warm || !s.startCtl 1 then s.start
  else if recordOk (toBytes 64 s.regs.startHint.toNat) then { s.start with prev := some (toBytes 64 s.regs.startHint.toNat), hintUsed := true }
  else { s.start with hintBad := true }

theorem hintTaken_frame (s : State) : s.hintTaken =
    { s.start with prev := s.hintTaken.prev, hintUsed := s.hintTaken.hintUsed, hintBad := s.hintTaken.hintBad } := by
  unfold hintTaken
  split
  · rfl
  · split <;> rfl

theorem hintTaken_unhinted (h : s.start.warm = true ∨ s.startCtl 1 = false) : s.hintTaken = s.start :=
  if_pos (by obtain h | h := h <;> simp [h])

theorem hintTaken_of_record (hcold : s.start.warm = false) (hen : s.startCtl 1 = true) (hok : recordOk (toBytes 64 s.regs.startHint.toNat) = true) :
    s.hintTaken = { s.start with prev := some (toBytes 64 s.regs.startHint.toNat), hintUsed := true } :=
  (if_neg (by simp [hcold, hen])).trans (if_pos hok)

theorem hintTaken_of_other (hcold : s.start.warm = false) (hen : s.startCtl 1 = true) (hbad : recordOk (toBytes 64 s.regs.startHint.toNat) = false) :
    s.hintTaken = { s.start with hintBad := true } :=
  (if_neg (by simp [hcold, hen])).trans (if_neg (by simp [hbad]))

theorem goAct_eq (hwait : s.start.waitingGo = true) : s.goAct = ({ s with start := s.hintTaken } : State).leaveWait := by
  unfold goAct hintTaken
  rw [if_neg (by simp [hwait])]
  split
  · rfl
  · exact congrArg leaveWait (apply_ite (fun t => ({ s with start := t } : State)) ..).symm

end State

/-- Settles O21: the three controls are writes of registers one word wide; GO by what becomes of the hint, RERUN by its step. -/
theorem startAndAssayControls : Obligations.StartAndAssayControls := by
  intro s data hreset
  refine ⟨State.exec_assayForce hreset, fun hrerun hgo hwait => ?_, fun hrerun hlow hhigh hparked hactive hrun hbusy => ?_⟩
  · have hexec := State.exec_go hreset hrerun hgo
    rw [State.goAct_eq (s := s.startWritten data) hwait, State.leaveWait_eq] at hexec
    have hframe := (s.startWritten data).hintTaken_frame
    have hen : (s.startWritten data).startCtl 1 = bit data 1 := State.getLsbD_startCtl_one data
    refine ⟨_, hexec, rfl, rfl, ?_, (congrArg StartSt.codes hframe :), (congrArg StartSt.ready hframe :), fun hnone => ?_,
      fun hcold hbit hok => ?_, fun hcold hbit hbad => ?_⟩
    · exact (congrArg (fun t : StartSt => t.running.filter (fun p => p.1 != 1) ++ [(1, 1)]) hframe :)
    · have hhint := (s.startWritten data).hintTaken_unhinted (hnone.imp_right hen.trans)
      exact ⟨(congrArg StartSt.prev hhint :), (congrArg StartSt.hintUsed hhint :), (congrArg StartSt.hintBad hhint :)⟩
    · have hhint := State.hintTaken_of_record (s := s.startWritten data) hcold (hen.trans hbit) hok
      exact ⟨(congrArg StartSt.prev hhint :), (congrArg StartSt.hintUsed hhint :)⟩
    · have hhint := State.hintTaken_of_other (s := s.startWritten data) hcold (hen.trans hbit) hbad
      exact ⟨(congrArg StartSt.prev hhint :), (congrArg StartSt.hintBad hhint :)⟩
  · have hexec := State.exec_rerun hreset hrerun hlow hhigh hparked hactive hrun hbusy
    obtain ⟨seen, bad, htried⟩ := State.tryStep_of_seven_le (s := (s.startWritten data).rerunBegun (bits data 7 4)) hlow 1
      ((s.startWritten data).altFirst (bits data 7 4) (some (toBytes 64 (s.startWritten data).start.rec'.toNat)))
    rw [State.rerunAct_eq, htried] at hexec
    exact ⟨_, hexec, rfl, rfl, rfl, List.contains_iff_mem.2 (List.mem_append_right _ (List.mem_singleton_self _)), rfl⟩

end Sys2Proof.Machine
end
section
/-!
The outcome of start steps (R682 to R692, R759): how a step passes and what becomes ready, what follows it, and how an attempt fails.
-/
namespace Sys2Proof.Machine
open Sys2Proof

-- Readiness ----------------------------------------------------------------------------------------------------------

/-- From `s` to `t` functions have become ready, each with its request for the interrupt (R692). -/
structure Readied (s t : State) : Prop where
  frame : t = { s with start := { s.start with ready := t.start.ready }, setup := { s.setup with irqReady := t.setup.irqReady } }
  ready : ∀ n, s.isReady n = true → t.isReady n = true
  irq : ∀ n, s.setup.irqReady.getLsbD n = true → t.setup.irqReady.getLsbD n = true
  newly : ∀ n, t.isReady n = true → s.isReady n = true ∨ t.setup.irqReady.getLsbD n = true

namespace Readied
variable {s t u : State}

theorem refl (s : State) : Readied s s := ⟨rfl, fun _ h => h, fun _ h => h, fun _ => .inl⟩

theorem trans (h : Readied s t) (k : Readied t u) : Readied s u where
  frame := by rw [k.frame, h.frame]
  ready n hn := k.ready n (h.ready n hn)
  irq n hn := k.irq n (h.irq n hn)
  newly n hn := (k.newly n hn).elim (fun ht => (h.newly n ht).imp_right (k.irq n)) .inr

theorem makeReady (s : State) (n : Nat) : Readied s (s.makeReady n) := by
  unfold State.makeReady
  split
  · exact ⟨rfl, fun k hk => by simp_all [State.isReady], fun k hk => by simp_all, fun k hk => by
      simp only [State.isReady, BitVec.getLsbD_or, Bool.or_eq_true] at hk ⊢
      exact hk.imp_right .inr⟩
  · exact refl s

theorem makeAllReady (s : State) : Readied s s.makeAllReady :=
  List.foldlRecOn (motive := Readied s) _ _ (refl s) fun t h n _ => h.trans (makeReady t n)

theorem codes (h : Readied s t) : t.start.codes = s.start.codes := (congrArg (·.start.codes) h.frame :)

theorem stepPassed (h : Readied s t) (n : Nat) : t.stepPassed n = s.stepPassed n := by
  simp only [State.stepPassed, State.stepCode, h.codes]

end Readied

namespace State
variable {s : State} {n : Nat}

/-- A function whose steps have all passed becomes ready (R692). -/
theorem isReady_makeReady (hn : n < 16) (hsteps : (stepsOf n).all s.stepPassed = true) (hfenced : s.inc.fenced = false)
    (hparked : s.start.parked = false) : (s.makeReady n).isReady n = true := by
  by_cases h : s.isReady n = true
  · exact (Readied.makeReady s n).ready n h
  · rw [makeReady, if_pos (by simp [h, hsteps, hfenced, hparked])]
    simp [isReady, hn]

/-- The upstream port is ready once S0, S1 and S7 have passed, and asks for the interrupt where it was not before (R692). -/
theorem makeAllReady_six (hsteps : (stepsOf 6).all s.stepPassed = true) (hfenced : s.inc.fenced = false) (hparked : s.start.parked = false)
    (hready : s.isReady 6 = false) : s.makeAllReady.isReady 6 = true ∧ s.makeAllReady.setup.irqReady.getLsbD 6 = true := by
  have hsix : s.makeAllReady.isReady 6 = true := by
    let u := [2, 3, 4, 5].foldl makeReady s
    have hu : Readied s u := List.foldlRecOn (motive := Readied s) _ _ (.refl s) fun t h n _ => h.trans (.makeReady t n)
    have hpassed : (stepsOf 6).all u.stepPassed = true := by rwa [funext hu.stepPassed]
    have hu6 := isReady_makeReady (by decide) hpassed ((congrArg (·.inc.fenced) hu.frame :).trans hfenced)
      ((congrArg (·.start.parked) hu.frame :).trans hparked)
    have hrest : Readied (u.makeReady 6) ([7, 8, 9].foldl State.makeReady (u.makeReady 6)) :=
      List.foldlRecOn (motive := Readied (u.makeReady 6)) _ _ (.refl _) fun t h n _ => h.trans (.makeReady t n)
    rw [State.makeAllReady, show [2, 3, 4, 5, 6, 7, 8, 9] = [2, 3, 4, 5] ++ 6 :: [7, 8, 9] from rfl, List.foldl_append, List.foldl_cons]
    exact hrest.ready 6 hu6
  refine ⟨hsix, ((Readied.makeAllReady s).newly 6 hsix).resolve_left ?_⟩
  simp [hready]

/-- Every function but setup and debug waits for S2, or for a step of its own (R692). -/
theorem makeAllReady_of_open {cs : List (Option StepCode)} (hcodes : s.start.codes = cs) (hopen : ∀ k ∈ [2, 6, 7, 8, 9], (cs[k]?).join = none) :
    s.makeAllReady = s := by
  have hall : ∀ n ∈ [2, 3, 4, 5, 6, 7, 8, 9], ∃ k ∈ [2, 6, 7, 8, 9], k ∈ stepsOf n := by decide
  refine List.foldlRecOn (motive := (· = s)) _ _ rfl fun t ht n hn => ?_
  obtain ⟨k, hk, hmem⟩ := hall n hn
  have hunpassed : s.stepPassed k = false := by
    rw [stepPassed, stepCode, hcodes, hopen k hk]
    rfl
  have hnot : (stepsOf n).all s.stepPassed = false := List.all_eq_false.2 ⟨k, hmem, by simp [hunpassed]⟩
  rw [ht, makeReady, if_neg (by simp [hnot])]

-- Steps that pass ----------------------------------------------------------------------------------------------------

/-- The block with a step resolved, nothing that follows from it done yet (R689). -/
def resolved (s : State) (n : Nat) (code : StepCode) : State := s.modStart fun t => { t with
  running := t.running.filter (fun p => p.1 != n), codes := t.codes.set n (some code), rerun := t.rerun.filter (· != n) }

section Pass
variable {info : StepInfo} {p : Nat × Nat} {u : State}

/-- A step that passes is resolved (R689). -/
theorem exec_startStepDone_pass (hreset : s.inReset = false) (hparked : s.start.parked = false)
    (hp : s.start.running.find? (fun p => p.1 == n) = some p) (hn : n ≠ 6) (halt : (s.start.altUse.getLsbD n && stepHasAlt n) = false)
    (hrun : s.runStep n false info = (u, true)) : exec (.startStepDone n true info) s = .next (u.resolveStep n .pass) := by
  change execStartStepDone n true info s = _
  simp [execStartStepDone, hp, hparked, hreset, halt, hrun, hn]

/-- In a start, S0 to S5 and S9 make ready what they can, and the next steps follow (R682, R692). -/
theorem resolveStep_inner (hrerun : s.start.rerun = []) (h6 : n ≠ 6) (h7 : n ≠ 7) (h8 : n ≠ 8) (code : StepCode) :
    s.resolveStep n code = (s.resolved n code).makeAllReady.afterStep n := by
  simp [resolveStep, hrerun, h6, h7, h8, resolved]

/-- S7 lets the flits go that have waited for their port. -/
theorem resolveStep_seven (hrerun : s.start.rerun = []) (code : StepCode) :
    s.resolveStep 7 code = (s.resolved 7 code).makeAllReady.pump.afterStep 7 := by
  simp [resolveStep, hrerun, resolved]

end Pass

/-- After S0 of a cold start the block waits for GO (R675). -/
theorem afterStep_zero_cold (hcold : s.start.warm = false) (hopen : s.start.codes.all Option.isSome = false) :
    s.afterStep 0 = s.modStart fun t => { t with waitingGo := true } := by
  simp [afterStep, hcold, modStart, hopen]

/-- Without a previous record a step other than S3, S4 and S9 begins with its first method, and changes the start alone. -/
theorem beginStep_modStart {f : StartSt → StartSt} (hprev : (f s.start).prev = none) (h3 : n ≠ 3) (h4 : n ≠ 4) (h9 : n ≠ 9) :
    (s.modStart f).beginStep n = s.modStart fun t => (f t).trying n 1 false :=
  (beginStep_of_no_record (s := s.modStart f) hprev n).trans (tryStep_plain h3 h4 h9 1 false)

/-- And S9 watches for a new pattern (R759). -/
theorem beginStep_nine_modStart {f : StartSt → StartSt} (hprev : (f s.start).prev = none) :
    (s.modStart f).beginStep 9 = { s.modStart fun t => (f t).trying 9 1 false with asSeen := List.replicate 16 [], asBad := false } :=
  beginStep_of_no_record (s := s.modStart f) hprev 9

/-- Without a previous record the steps that do not depend on one another begin with their first method (R682). -/
theorem beginStep_after_one (hprev : s.start.prev = none) : [2, 7, 8, 9].foldl beginStep s =
    { s.modStart fun t => (((t.trying 2 1 false).trying 7 1 false).trying 8 1 false).trying 9 1 false with
      asSeen := List.replicate 16 [], asBad := false } := by
  have htwo : s.beginStep 2 = s.modStart fun t => t.trying 2 1 false :=
    beginStep_modStart (s := s) (f := id) hprev (by decide) (by decide) (by decide)
  simp only [List.foldl_cons, List.foldl_nil]
  rw [htwo, beginStep_modStart (by exact hprev) (by decide) (by decide) (by decide),
    beginStep_modStart (by exact hprev) (by decide) (by decide) (by decide), beginStep_nine_modStart (by exact hprev)]

/-- They follow S1. -/
theorem afterStep_one (hprev : s.start.prev = none) (hopen : s.start.codes.all Option.isSome = false) : s.afterStep 1 =
    { s.modStart fun t => (((t.trying 2 1 false).trying 7 1 false).trying 8 1 false).trying 9 1 false with
      asSeen := List.replicate 16 [], asBad := false } := by
  have hbegun := beginStep_after_one hprev
  unfold afterStep
  extract_lets s1
  have hs1 : s1 = _ := hbegun
  have hcodes : s1.start.codes = s.start.codes := (congrArg (·.start.codes) hs1 :)
  rw [hcodes, hopen, Bool.and_false]
  exact hs1

-- The end of a start -------------------------------------------------------------------------------------------------

/-- The end of a start writes its record, and leaves the interrupts and the groups as they are (R690, R691). -/
theorem endStart_keeps (s : State) : s.endStart.setup = s.setup ∧ s.endStart.groups = s.groups := by
  unfold endStart
  extract_lets b s1 s2
  have hrecord : s2.setup = s.setup ∧ s2.groups = s.groups := by
    simp only [s2]
    split
    · exact ⟨(congrArg setup (wr_wrought s1 ..).frame :), (congrArg groups (wr_wrought s1 ..).frame :)⟩
    · exact ⟨rfl, rfl⟩
  split
  · have hframe := (s2.wbWrite_wrote Ty.start [startPart s.start.warm s.start.ready.toNat s.stepCodes s.fpSettings] .none).2
    exact ⟨(congrArg setup hframe :).trans hrecord.1, (congrArg groups hframe :).trans hrecord.2⟩
  · exact hrecord

/-- Nothing follows S6 to S9 but, with the last of them, the end of the start (R691). -/
theorem afterStep_late (h : 5 < n) : ∃ active rec', (s.afterStep n).start = { s.start with active := active, rec' := rec' } ∧
    (s.afterStep n).setup = s.setup := by
  have hself : s.afterStep n = if s.start.active && !s.start.parked && s.start.codes.all Option.isSome then s.endStart else s := by
    simp only [afterStep, if_neg (show n ≠ 0 by omega), if_neg (show n ≠ 1 by omega), if_neg (show ¬n ≤ 5 by omega)]
  rw [hself]
  split
  · exact ⟨_, _, s.start_endStart, s.endStart_keeps.1⟩
  · exact ⟨_, _, rfl, rfl⟩

-- Steps that fail ----------------------------------------------------------------------------------------------------

section Fail
variable {info : StepInfo} {c : Instr} {attempt : Nat}

/-- A step fails where its detector says so, and where it exceeds its time (R31, R681, R683). -/
theorem exec_fails (hreset : s.inReset = false) (hparked : s.start.parked = false)
    (hc : c = .startStepDone n false info ∨ (c = .startStepTimeout n ∧ (n < 7 ∨ s.stepLimit ≠ 0)))
    (hp : s.start.running.find? (fun p => p.1 == n) = some (n, attempt)) : exec c s = .next (s.failStep n attempt) := by
  obtain rfl | ⟨rfl, hbound⟩ := hc
  · change execStartStepDone n false info s = _
    simp [execStartStepDone, hp, hparked, hreset]
  · change execStartStepTimeout n s = _
    have hbounded : (decide (7 ≤ n) && s.stepLimit == 0) = false := by
      obtain h | h := hbound
      · simp [h]
      · simp [h]
    simp [execStartStepTimeout, hp, hparked, hreset, hbounded]

/-- A first attempt that fails gives way to the second, with the step's alternative (R683). -/
theorem failStep_first (h3 : n ≠ 3) (h4 : n ≠ 4) (h9 : n ≠ 9) : s.failStep n 1 = { s with start := { s.start with
    failLast := s.start.failLast ||| (1#16 <<< n), running := s.start.running.filter (fun p => p.1 != n) ++ [(n, 2)],
    altUse := if stepHasAlt n then s.start.altUse ||| (1#16 <<< n) else s.start.altUse } } := by
  rw [failStep, if_pos rfl, tryStep_plain h3 h4 h9]
  simp only [modStart, StartSt.trying, List.filter_filter, Bool.and_self]

/-- A mandatory step that fails again parks the block (R686). -/
theorem failStep_second (h : n ≤ 6) : let t := s.failStep n 2
    t.start.parked = true ∧ t.start.parkStep = BitVec.ofNat 8 n ∧ t.start.ready = 3 ∧ t.start.running = [] ∧
      t.start.codes = s.start.codes.set n (some .failed) ∧ t.start.active = false ∧ t.groups = s.groups := by
  intro t
  let u := s.modStart fun t => { t with failLast := t.failLast ||| (1#16 <<< n), running := t.running.filter (fun p => p.1 != n) }
  have ht : t = u.park n := by
    change (if 2 = 1 then u.tryStep n 2 (stepHasAlt n) else if stepMandatory n then u.park n else u.resolveStep n .skipped) = u.park n
    rw [if_neg (by decide), if_pos (show stepMandatory n = true from decide_eq_true h)]
  rw [ht]
  unfold park
  rw [start_endStart, (endStart_keeps _).2]
  exact ⟨rfl, rfl, rfl, rfl, if_pos (by omega), rfl, rfl⟩

end Fail
end State

-- The statement ------------------------------------------------------------------------------------------------------

namespace State
variable {s : State} {info : StepInfo}

section Passed
variable (hreset : s.inReset = false) (hparked : s.start.parked = false) (hrerun : s.start.rerun = [])
include hreset hparked hrerun

/-- S0 of a cold start. -/
theorem exec_stepDone_zero (hrun : s.start.running = [(0, 1)]) (hcodes : s.start.codes = List.replicate 10 none) (hcold : s.start.warm = false)
    (hcore : s.gov.coreGood = true) (hsram : s.gov.sramGood = true) : exec (.startStepDone 0 true info) s =
      .next { s with start := { s.start with waitingGo := true, running := [], codes := s.start.codes.set 0 (some .pass) } } := by
  have hset : (s.resolved 0 .pass).start.codes = (List.replicate 10 none).set 0 (some .pass) := congrArg (·.set 0 (some .pass)) hcodes
  have hnone : (s.resolved 0 .pass).makeAllReady = s.resolved 0 .pass := makeAllReady_of_open hset (by decide)
  rw [exec_startStepDone_pass (u := s) hreset hparked (by rw [hrun]; rfl) (by decide) (Bool.and_false _) (by simp [runStep, hcore, hsram]),
    resolveStep_inner hrerun (by decide) (by decide) (by decide), hnone, afterStep_zero_cold (s := s.resolved 0 .pass) hcold (by rw [hset]; decide)]
  simp [resolved, modStart, hrun, hrerun]

/-- S1 of a start without a previous record. -/
theorem exec_stepDone_one (hrun : s.start.running = [(1, 1)]) (hcodes : s.start.codes = some StepCode.pass :: List.replicate 9 none)
    (hprev : s.start.prev = none) (halt : s.start.altUse = 0) : exec (.startStepDone 1 true info) s = .next { s with
      start := { s.start with
        repairAlt := false, running := [(2, 1), (7, 1), (8, 1), (9, 1)], codes := s.start.codes.set 1 (some .pass) },
      asSeen := List.replicate 16 [], asBad := false } := by
  let u := s.modStart fun t => { t with repairAlt := false }
  have hset : (u.resolved 1 .pass).start.codes = (some StepCode.pass :: List.replicate 9 none).set 1 (some .pass) :=
    congrArg (·.set 1 (some .pass)) hcodes
  have hnone : (u.resolved 1 .pass).makeAllReady = u.resolved 1 .pass := makeAllReady_of_open hset (by decide)
  rw [exec_startStepDone_pass (u := u) hreset hparked (by rw [hrun]; rfl) (by decide) (by simp [halt]) rfl,
    resolveStep_inner (s := u) hrerun (by decide) (by decide) (by decide), hnone,
    afterStep_one (s := u.resolved 1 .pass) hprev (by rw [hset]; decide)]
  simp [u, resolved, modStart, StartSt.trying, hrun, hrerun]

/-- S7, with S0 and S1 passed. -/
theorem exec_stepDone_seven {p : Nat × Nat} (hfenced : s.inc.fenced = false) (hp : s.start.running.find? (fun p => p.1 == 7) = some p)
    (hzero : s.stepPassed 0 = true) (hone : s.stepPassed 1 = true) (hlen : s.start.codes.length = 10) (hready : s.isReady 6 = false)
    (halt : s.start.altUse.getLsbD 7 = false) : ∃ t, exec (.startStepDone 7 true info) s = .next t ∧ t.isReady 6 = true ∧
      t.setup.irqReady.getLsbD 6 = true ∧ t.stepCode 7 = some .pass ∧ t.start.halfCu = false ∧ t.stepRunning 7 = false := by
  let u := s.modStart fun t => { t with halfCu := false }
  let v := u.resolved 7 .pass
  have hcodes : v.start.codes = s.start.codes.set 7 (some .pass) := rfl
  have hseven : v.stepCode 7 = some .pass := by
    rw [stepCode, hcodes, List.getElem?_set_self (by omega)]
    rfl
  have hsteps : (stepsOf 6).all v.stepPassed = true := by
    have hkeeps : ∀ k, k ≠ 7 → v.stepPassed k = s.stepPassed k := fun k hk => by
      rw [stepPassed, stepPassed, stepCode, stepCode, hcodes, List.getElem?_set_ne hk.symm]
    have hpassed : v.stepPassed 7 = true := by
      rw [stepPassed, hseven]
      rfl
    simp only [stepsOf, List.all_cons, List.all_nil, hkeeps 0 (by decide), hkeeps 1 (by decide), hzero, hone, hpassed, Bool.and_true]
  obtain ⟨hsix, hirq⟩ := makeAllReady_six (s := v) hsteps hfenced hparked hready
  have hreadied := Readied.makeAllReady v
  have hstart : v.makeAllReady.pump.start = v.makeAllReady.start := (congrArg State.start (Sent.pump _).frame :)
  have hsetup : v.makeAllReady.pump.setup = v.makeAllReady.setup := (congrArg State.setup (Sent.pump _).frame :)
  obtain ⟨active, rec', hafter, hkept⟩ := afterStep_late (s := v.makeAllReady.pump) (n := 7) (by decide)
  rw [hstart] at hafter
  refine ⟨_, exec_startStepDone_pass (u := u) hreset hparked hp (by decide) (by rw [halt, Bool.false_and]) rfl, ?_⟩
  rw [resolveStep_seven (s := u) hrerun]
  have hcode : v.makeAllReady.stepCode 7 = some .pass := by rwa [stepCode, hreadied.codes]
  have hhalf : v.makeAllReady.start.halfCu = false := (congrArg (·.start.halfCu) hreadied.frame :)
  have hrunning : v.makeAllReady.start.running = s.start.running.filter fun p => p.1 != 7 := (congrArg (·.start.running) hreadied.frame :)
  refine ⟨?_, ?_, ?_, ?_, ?_⟩
  · rw [isReady, hafter]
    exact hsix
  · rw [hkept, hsetup]
    exact hirq
  · rw [stepCode, hafter]
    exact hcode
  · rw [hafter]
    exact hhalf
  · rw [stepRunning, hafter]
    simp [hrunning]

end Passed
end State

/-- Settles O58: a step that passes by what follows it, one that fails by its attempt; the pattern by what the beat carries. -/
theorem startStepsFollowTheirOutcome : Obligations.StartStepsFollowTheirOutcome := by
  refine ⟨fun s info hreset hfenced hparked hrerun => ⟨State.exec_stepDone_zero hreset hparked hrerun,
    State.exec_stepDone_one hreset hparked hrerun,
    fun p hp hzero hone hlen hready halt => State.exec_stepDone_seven hreset hparked hrerun hfenced hp hzero hone hlen hready halt⟩,
    fun s n info c hreset hparked hc => ⟨fun hn hp => ?_, fun hn hp hlen => ?_⟩,
    fun s port b hreset hrun => ⟨fun hpattern => ?_, fun hnone hok => ?_⟩⟩
  · have hne : n ≠ 3 ∧ n ≠ 4 ∧ n ≠ 9 := by
      have hall : ∀ n ∈ [1, 2, 7, 8], n ≠ 3 ∧ n ≠ 4 ∧ n ≠ 9 := by decide
      exact hall n hn
    have halt : (if n = 2 then s.start.altUse else s.start.altUse ||| (1#16 <<< n)) =
        if stepHasAlt n then s.start.altUse ||| (1#16 <<< n) else s.start.altUse := by
      have hall : ∀ n ∈ [1, 2, 7, 8], stepHasAlt n = decide (n ≠ 2) := by decide
      rw [hall n hn]
      by_cases h : n = 2 <;> simp [h]
    rw [State.exec_fails hreset hparked hc hp, State.failStep_first hne.1 hne.2.1 hne.2.2, halt]
  · obtain ⟨hpark, hstep, hready, hrunning, hcodes, hactive, hgroups⟩ := State.failStep_second (s := s) hn
    exact ⟨_, State.exec_fails hreset hparked hc hp, hpark, hstep, hready, hrunning,
      by rw [State.stepCode, hcodes, List.getElem?_set_self (by omega)]; rfl, hactive, hgroups⟩
  · change execAsCheckPattern port b s = _
    have hrun9 : s.start.running.any (fun p => p.1 == 9) = true := hrun
    simp only [execAsCheckPattern, hreset, hrun9, hpattern]
    rfl
  · change execAsCheckPattern port b s = _
    have hrun9 : s.start.running.any (fun p => p.1 == 9) = true := hrun
    simp only [execAsCheckPattern, hreset, hrun9, hnone, hok]
    rfl

end Sys2Proof.Machine
end
section
/-!
Messages that have been written (R576, R577, R604, R623, R624): their done leaves an idle link at once, and a journal message moves
DX_WBM_HIGH and DX_WBM_CKPT.
-/
namespace Sys2Proof.Machine
open Sys2Proof

namespace State
variable {s : State} {l : Link} {r : Route} {lane : Nat} {f : TxFlit} {m : RxMsg}

/-- A flit that no exchange owns is the next one of a link on which nothing else waits (R546, R626). -/
theorem nextFlit_of_linkOnly (hqueue : l.queue = [f]) (hsync : l.sync ≠ 0) (hwindow : l.unacked.length < 64) (hown : f.own = 0) :
    s.nextFlit l = some 0 := by
  have heligible : s.eligible l f = true := by simp [eligible, hsync, hwindow, exchFlit, hown]
  by_cases h : f.kind = Kind.waybook <;> simp [nextFlit, hqueue, heligible, h]

/-- A flit that is sent takes the next number of its link; beside the causeway and what leaves nothing changes (R548). -/
theorem sendNew_frame (s : State) (l : Link) (r : Route) (i lane : Nat) (hkind : Kind.control f.kind = false) :
    s.sendNew l r i lane f = { s with
      cw := (s.sendNew l r i lane f).cw, out := s.out ++ [.flit { f with cd := !r.cu, dest := r.dest, lseq := l.txSeq }] } := by
  simp only [sendNew, hkind]
  rfl

theorem rx_sendNew (s : State) (l : Link) (r : Route) (i lane : Nat) (f : TxFlit) : (s.sendNew l r i lane f).cw.rx = s.cw.rx := by
  cases hcu : r.cu <;> simp [sendNew, spendLane, modLink, modCw, emit, hcu]

/-- A flit that no exchange owns leaves an idle link at once, with the link's next number (R546, R548). -/
theorem queueFlit_pump_of_clear (h : s.clearTo l r lane) (hpeer : f.peer = l.peer) (hkind : Kind.control f.kind = false) (hown : f.own = 0) :
    ∃ c, (s.queueFlit f).pump = { s with cw := c, out := s.out ++ [.flit { f with cd := !r.cu, dest := r.dest, lseq := l.txSeq }] } ∧
      c.rx = s.cw.rx := by
  obtain ⟨hlinks, hqueue, hagain, hfailed, hsync, hwindow, hroute, hlane, hready, hfenced, hparked⟩ := h
  have hlink : s.link? l.peer = some l := by simp [link?, hlinks]
  have hqueued : s.queueFlit f = { s with cw := { s.cw with links := [{ l with queue := [f] }] } } := by
    simp [queueFlit, needLink, hpeer, hlink, modLink, modCw, hlinks, hqueue]
  have hsends : s.portSends (!r.cu) = true := by cases hcu : r.cu <;> simp_all [portSends]
  have hnext : (s.queueFlit f).nextFlit { l with queue := [f] } = some 0 := nextFlit_of_linkOnly rfl hsync hwindow hown
  have hsent : (s.queueFlit f).pump = (s.queueFlit f).sendNew { l with queue := [f] } r 0 lane f :=
    pump_of_single (by rw [hqueued]) rfl hagain hfailed (by rw [hqueued]; exact hroute) hnext (by rw [hqueued]; exact hlane)
      (by rw [hqueued]; exact hsends)
  rw [hsent, sendNew_frame _ _ _ _ _ hkind, hqueued]
  exact ⟨_, rfl, rx_sendNew ..⟩

/-- The done of a message leaves at once, and the message is gone (R576, R577). -/
theorem sendDone_of_clear (h : s.clearTo l r lane) (hsrc : m.src = l.peer) (hkind : Kind.control m.kind = false) (status : Nat) :
    ∃ c, (s.dropMsg m).sendDone m status = { s with cw := c, out := s.out ++ [.flit {
      mkFlit m.src m.kind 0 0 doneOff true (toBytes 8 (msgNumber m) ++ toBytes 2 status) with
        cd := !r.cu, dest := r.dest, lseq := l.txSeq }] } ∧ c.rx = s.cw.rx.erase m :=
  queueFlit_pump_of_clear (s := s.dropMsg m)
    (f := mkFlit m.src m.kind 0 0 doneOff true (toBytes 8 (msgNumber m) ++ toBytes 2 status)) h hsrc hkind rfl

theorem exec_mirrorWriteResponse {src seq : Nat} {t : State}
    (hfind : s.cw.rx.find? (fun x => x.awaiting && x.kind != 13 && x.src == src && x.seq == seq) = some m)
    (hdone : (s.dropMsg m).sendDone m 0 = t) : exec (.mirrorWriteResponse src seq) s = .next t := by
  change execMirrorWriteResponse src seq s = _
  simp only [execMirrorWriteResponse, hfind, hdone]

/-- What a journal message of 64 byte records makes of DX_WBM_CKPT: the last checkpoint in it, or what it was (R604). -/
def ckptAfter (s : State) (m : RxMsg) : Nat :=
  ((((cut 64 ((msgStream m).getD [])).zipIdx.filter (fun p => field p.1 8 1 == Ty.checkpoint)).map (fun p => m.seq + p.2)).getLast?).getD s.wb.wbmCkpt

theorem exec_waybookWindowWriteResponse {src : Nat} {t : State}
    (hfind : s.cw.rx.find? (fun x => x.awaiting && x.kind == 13 && x.src == src) = some m) (hdone : (s.dropMsg m).sendDone m 0 = t) :
    exec (.waybookWindowWriteResponse src) s =
      .next { t with wb := { t.wb.mirrored m.seq m.count with wbmCkpt := t.ckptAfter m } } := by
  change execWaybookWindowWriteResponse src s = _
  simp only [execWaybookWindowWriteResponse, hfind, hdone, ckptAfter, modWb]
  generalize List.getLast? (List.map _ _) = last
  cases last <;> rfl

end State

namespace Wb
variable {w : Wb} {first count : Nat}

/-- Records with nothing missing below them move DX_WBM_HIGH past the last of them (R604). -/
theorem mirrored_of_next (hruns : w.wbmRuns = []) (hfirst : max w.wbmHigh (w.wbmFirst.getD first) = first) (hcount : 0 < count) :
    (w.mirrored first count).wbmHigh = first + count ∧ (w.mirrored first count).wbmRuns = [] := by
  have hhigh : contiguous [(first, first + count)] 1 first = first + count := by simp [contiguous, hcount]
  simp [mirrored, hruns, hfirst, hhigh, hcount]

/-- Records with a gap below them wait for it to close. -/
theorem mirrored_of_gap (hruns : w.wbmRuns = []) (hfirst : max w.wbmHigh (w.wbmFirst.getD first) < first) :
    (w.mirrored first count).wbmHigh = w.wbmHigh ∧ (w.mirrored first count).wbmRuns = [(first, first + count)] := by
  generalize hbase : max w.wbmHigh (w.wbmFirst.getD first) = base at hfirst
  have hhigh : contiguous [(first, first + count)] 1 base = base := by simp [contiguous, Nat.not_le.2 hfirst]
  simp [mirrored, hruns, hbase, hhigh]
  omega

end Wb

-- The statement ------------------------------------------------------------------------------------------------------

/-- Settles O49: the done by the link that is clear for it, the mirror window by the runs of records that are there. -/
theorem writtenMessagesAreAnswered : Obligations.WrittenMessagesAreAnswered := by
  intro s l r lane m hclear hsrc answer
  refine ⟨fun hfind hkind => ?_, fun hfind => ?_⟩
  · have hcontrol : Kind.control m.kind = false := by obtain h | h := hkind <;> rw [h] <;> rfl
    obtain ⟨c, hdone, hrx⟩ := State.sendDone_of_clear hclear hsrc hcontrol 0
    exact ⟨_, State.exec_mirrorWriteResponse hfind hdone, rfl, hrx⟩
  · have hkind : m.kind = 13 := by
      have hholds := List.find?_some hfind
      simp only [Bool.and_eq_true, beq_iff_eq] at hholds
      exact hholds.1.2
    obtain ⟨c, hdone, hrx⟩ := State.sendDone_of_clear hclear hsrc (by rw [hkind]; rfl) 0
    refine ⟨_, State.exec_waybookWindowWriteResponse hfind hdone, rfl, hrx, rfl, fun hruns hfirst hcount => ?_, fun hruns hgap => ?_⟩
    · exact Wb.mirrored_of_next hruns hfirst hcount
    · exact Wb.mirrored_of_gap hruns hgap

end Sys2Proof.Machine
end
section
/-!
Messages of records as they come in (R576 to R578, R623 to R625): what a flit of one adds to it, and what a complete one does.
-/
namespace Sys2Proof.Machine
open Sys2Proof

namespace State
variable {s u : State} {f : Flit} {l : Link} {kind p act : Nat} {m m' : RxMsg} {held : List RxMsg} {bs : List Byte} {x : Finding}

-- The messages under way ---------------------------------------------------------------------------------------------

theorem rx_queueAll (s : State) (fs : List TxFlit) : (s.queueAll fs).cw.rx = s.cw.rx :=
  List.foldlRecOn (motive := fun t : State => t.cw.rx = s.cw.rx) fs _ rfl fun t ht f _ => ht ▸ by
    unfold queueFlit needLink
    split
    · rfl
    · split <;> rfl

/-- Neither the journal nor the log changes what is being received. -/
theorem rx_wbWrite (s : State) (ty : Nat) (parts : List (List Byte)) (a : Act) : (s.wbWrite ty parts a).cw.rx = s.cw.rx := by
  obtain h | ⟨u, fs, hu, h⟩ := s.cw_wbWrite ty parts a
  · rw [h]
  · rw [h, (Sent.pump _).rx, rx_queueAll, hu]

theorem rx_writeEntry (s : State) (p : Nat) : (s.writeEntry p).cw.rx = s.cw.rx := by
  unfold writeEntry
  split
  · split
    · exact rx_wbWrite ..
    · rfl
  · rfl

theorem rx_flushInc (s : State) : s.flushInc.cw.rx = s.cw.rx := by
  unfold flushInc
  exact List.foldlRecOn (motive := fun t : State => t.cw.rx = s.cw.rx) _ _ rfl fun t ht p _ => (rx_writeEntry t p).trans ht

theorem rx_incident_of_calm (hcalm : s.calm) (hp : s.freePos = some p) (hsev : severity s.resident x = 2) (hsource : x.source ∉ repeating)
    (act : Nat) : (s.incident x act).cw.rx = s.cw.rx := by
  rw [incident_of_calm_eq hcalm hp hsev hsource act]
  generalize { s.newEntry x 2 act with state := 2, action := 7 } = e
  have hentry := rx_writeEntry (s.recovering p e) p
  have hflushed := rx_flushInc ((s.recovering p e).writeEntry p)
  generalize ((s.recovering p e).writeEntry p).flushInc = v at hflushed ⊢
  exact hflushed.trans hentry

-- A flit of a message ------------------------------------------------------------------------------------------------

/-- The kinds of messages of records (R544). -/
def recordKinds : List Nat := [11, 12, 13]

/-- Is a message from the sender of a flit, of a kind, and not complete (R576)? -/
def under (f : Flit) (kind : Nat) (m : RxMsg) : Bool := m.src == f.src && m.kind == kind && !m.awaiting

/-- What an opening flit opens (R576, R623). -/
def openedBy (f : Flit) (kind : Nat) : RxMsg :=
  if kind = 13 then ⟨f.src, kind, field f.payload 0 8, 0, field f.payload 8 4, field f.payload 16 1, [], false⟩
  else ⟨f.src, kind, field f.payload 0 8, field f.payload 8 4, field f.payload 12 4, 0, [], false⟩

/-- A flit makes a message of what was being received, and of the messages what they become. -/
def Adds (rx : List RxMsg) (f : Flit) (kind : Nat) (m' : RxMsg) (held : List RxMsg) : Prop :=
  (f.offset = 0xFFFFFFFF ∧ m' = openedBy f kind ∧ held = rx.filter (fun x => !under f kind x) ++ [m']) ∨
    (f.offset < 0xFFFFFFFE ∧ ∃ m, rx.find? (under f kind) = some m ∧ m.bytes.any (fun b => b.1 == f.offset) = false ∧
      m' = { m with bytes := m.bytes ++ [(f.offset, f.payload)] } ∧ held = rx.map (fun x => if x = m then m' else x))

/-- The message is its sender's, and of the flit's kind. -/
theorem Adds.of {rx : List RxMsg} (h : Adds rx f kind m' held) : m'.src = f.src ∧ m'.kind = kind := by
  obtain ⟨-, rfl, -⟩ | ⟨-, m, hm, -, rfl, -⟩ := h
  · unfold openedBy
    split <;> exact ⟨rfl, rfl⟩
  · have hunder := List.find?_some hm
    simp only [under, Bool.and_eq_true, beq_iff_eq] at hunder
    exact hunder.1

/-- It is tried once it holds what the flit has brought (R576). -/
theorem recvMsg_of_adds (h : Adds s.cw.rx f kind m' held) : s.recvMsg kind f = (s.modCw fun c => { c with rx := held }).tryMsg m' := by
  obtain ⟨hoff, rfl, rfl⟩ | ⟨hoff, m, hm, hnew, rfl, rfl⟩ := h
  · exact if_pos hoff
  · have hm' : s.cw.rx.find? (fun x => x.src == f.src && x.kind == kind && !x.awaiting) = some m := hm
    simp only [recvMsg, if_neg (show f.offset ≠ 0xFFFFFFFF by omega), hm', hnew, Bool.false_eq_true, if_false]
    rfl

/-- A flit of a message of records goes to its message; one of kind PARITY where its CHAIN_ID is 0 (R583, R584). -/
theorem deliver_of_adds (h : Adds s.cw.rx f kind m' held) (hkind : kind ∈ recordKinds) (hchain : kind = 12 → f.chainId = 0) :
    s.deliver kind f = s.recvMsg kind f := by
  have hoff : f.offset ≠ 0xFFFFFFFE := by
    obtain ⟨hoff, -⟩ | ⟨hoff, -⟩ := h <;> omega
  have hlinkOnly : s.cw.rx.any (under f kind) = true ∨ ¬f.offset < 0xFFFFFFFE := by
    obtain ⟨hoff, -⟩ | ⟨-, m, hm, -⟩ := h
    · exact .inr (by omega)
    · exact .inl (List.any_eq_true.2 ⟨m, List.mem_of_find?_eq_some hm, List.find?_some hm⟩)
  have hinExch : (!s.cw.rx.any (under f kind) && decide (f.offset < 0xFFFFFFFE)) = false := by
    obtain h | h := hlinkOnly <;> simp [h]
  simp only [recordKinds, List.mem_cons, List.not_mem_nil, or_false] at hkind
  unfold deliver
  extract_lets busy inExch
  have hin : inExch = false := Bool.and_eq_false_iff.2 (.inl hinExch)
  obtain rfl | rfl | rfl := hkind
  · simp [hoff]
  · simp [hoff, hin, hchain rfl]
  · simp [hoff]

-- A message that is complete -----------------------------------------------------------------------------------------

/-- What is offered is counted in the journal's record of the mirror window alone (R624). -/
theorem offered_frame (s : State) (m : RxMsg) : s.offered m = { s with wb := (s.offered m).wb } := by
  unfold offered
  split <;> rfl

theorem wb_offered_of (hregs : u.regs = s.regs) (hwb : u.wb = s.wb) : (u.offered m).wb = (s.offered m).wb := by
  simp only [offered, hregs]
  split
  · exact congrArg (fun w : Wb => { w with wbmFirst := some (match w.wbmFirst with | some n => min n m.seq | none => m.seq) }) hwb
  · exact hwb

/-- A block that has begun to write a message waits for its responses (R577). -/
def writing (s : State) (m : RxMsg) : State :=
  { s with wb := (s.offered m).wb, cw := { s.cw with rx := s.cw.rx.erase m ++ [{ m with awaiting := true }] } }

/-- Beside that, and what has come in, nothing has changed. -/
theorem writing_frame (hu : s.Moved u) (m : RxMsg) :
    u.writing m = { s with wb := (s.offered m).wb, cw := (u.writing m).cw, out := u.out } := by
  obtain ⟨hframe, -⟩ := hu
  have hwb : (u.offered m).wb = (s.offered m).wb := wb_offered_of (congrArg State.regs hframe :) (congrArg State.wb hframe :)
  rw [← hwb]
  exact congrArg (fun v => { v with wb := (u.offered m).wb, cw := (u.writing m).cw }) hframe

/-- A message that this block takes is written (R577, R624). -/
theorem tryMsg_written (hstream : msgStream m = some bs) (htakes : s.takes m = true) :
    s.tryMsg m = (s.msgWrites m bs).foldl (fun s w => s.wr w.1 w.2) (s.writing m) := by
  have htakes' : (s.offered m).takes m = true := by
    rw [offered_frame]
    exact htakes
  have hwriting : ((s.offered m).modCw fun c => { c with rx := c.rx.erase m ++ [{ m with awaiting := true }] }) = s.writing m := by
    rw [offered_frame]
    rfl
  have hwrites : (s.offered m).msgWrites m bs = s.msgWrites m bs := by
    rw [offered_frame]
    rfl
  simp only [tryMsg, hstream, htakes', if_true, hwriting, hwrites]

/-- One that it does not take is refused (R578, R625). -/
theorem tryMsg_refused (hstream : msgStream m = some bs) (htakes : s.takes m = false) :
    s.tryMsg m = (((s.offered m).dropMsg m).sendDone m 1).incident (finding Src.mirror m.src 0 (msgNumber m)) 7 := by
  have htakes' : (s.offered m).takes m = false := by
    rw [offered_frame]
    exact htakes
  simp only [tryMsg, hstream, htakes', Bool.false_eq_true, if_false]

/-- A message that is refused is dropped, and its done moves the causeway alone. -/
theorem dropMsg_offered (hu : s.Moved u) (m : RxMsg) : let q := (u.offered m).dropMsg m
    q = { s with wb := q.wb, cw := q.cw, out := q.out } ∧ q.cw.links = u.cw.links ∧ q.cw.rx = u.cw.rx.erase m := by
  intro q
  have hq : q = { u with wb := q.wb, cw := q.cw } ∧ q.cw.links = u.cw.links ∧ q.cw.rx = u.cw.rx.erase m := by
    simp only [q, dropMsg, offered]
    split <;> exact ⟨rfl, rfl, rfl⟩
  obtain ⟨hframe, hrest⟩ := hq
  have hout : q.out = u.out := (congrArg State.out hframe :)
  refine ⟨?_, hrest⟩
  rw [hout]
  exact hframe.trans (congrArg (fun v => { v with wb := q.wb, cw := q.cw }) hu.1)

theorem sendDone_moved (s : State) (m : RxMsg) (status : Nat) : s.Moved (s.sendDone m status) := queueAll_pump_moved s [_]

theorem rx_sendDone (s : State) (m : RxMsg) (status : Nat) : (s.sendDone m status).cw.rx = s.cw.rx :=
  (Sent.pump _).rx.trans (rx_queueAll s [_])

theorem control_recordKinds (h : kind ∈ recordKinds) : Kind.control kind = false := by
  have hall : ∀ n ∈ recordKinds, Kind.control n = false := by decide
  exact hall kind h

section Complete
variable (h : s.inTurn f l) (hkind : kind ∈ recordKinds) (hchain : kind = 12 → f.chainId = 0) (hadds : Adds s.cw.rx f kind m' held)
  {mem : Image} {t : State} (ht : s.land kind f mem = t)
include hkind hchain hadds

/-- The block after a flit of a message has been added to it, the message not tried yet. -/
theorem deliver_turned : (s.turned kind f).deliver kind f = ((s.turned kind f).modCw fun c => { c with rx := held }).tryMsg m' :=
  (deliver_of_adds (s := s.turned kind f) hadds hkind hchain).trans (recvMsg_of_adds (s := s.turned kind f) hadds)

include h ht

/-- A message of which more is to come is kept (R576). -/
theorem land_incomplete (hstream : msgStream m' = none) :
    t = { s with cw := t.cw, out := t.out } ∧ s.TookFlit t f ∧ t.cw.rx = held := by
  have htry : ((s.turned kind f).modCw fun c => { c with rx := held }).tryMsg m' = (s.turned kind f).modCw fun c => { c with rx := held } := by
    simp only [tryMsg, hstream]
  have hv := (deliver_turned hkind hchain hadds).trans htry
  obtain ⟨hsent, htook⟩ := land_delivered h (control_recordKinds hkind) hv ((LinksKept.refl _).step) ⟨[], by simp [modCw]⟩ mem
  rw [ht] at hsent htook
  exact ⟨(((s.turned_moved kind f).trans (modCw_moved ..)).trans hsent.moved).1, htook, hsent.rx⟩

/-- One that is complete and taken is written (R577, R624). -/
theorem land_written (hstream : msgStream m' = some bs) (htakes : s.takes m' = true) :
    t = { s with wb := (s.offered m').wb, cw := t.cw, out := t.out, staging := t.staging, ue := t.ue } ∧ s.TookFlit t f ∧
      t.cw.rx = held.erase m' ++ [{ m' with awaiting := true }] ∧ s.StageKept t ((s.msgWrites m' bs).map fun w => (w.1, w.2.length)) ∧
      ∀ w ∈ s.msgWrites m' bs, s.Left t w.1 w.2 := by
  let u := (s.turned kind f).modCw fun c => { c with rx := held }
  have hv : (s.turned kind f).deliver kind f = (s.msgWrites m' bs).foldl (fun s w => s.wr w.1 w.2) (u.writing m') :=
    (deliver_turned hkind hchain hadds).trans (tryMsg_written (s := u) hstream htakes)
  obtain ⟨hwrought, hleft⟩ := foldl_wr_wrought (s.msgWrites m' bs) (u.writing m')
  have hkept : LinksKept (s.turned kind f) ((s.msgWrites m' bs).foldl (fun s w => s.wr w.1 w.2) (u.writing m')) :=
    LinksKept.foldl ((LinksKept.refl _).step) _ _ fun _ _ k => k.wr
  obtain ⟨hsent, htook⟩ := land_delivered h (control_recordKinds hkind) hv hkept hwrought.out mem
  rw [ht] at hsent htook
  generalize (s.msgWrites m' bs).foldl (fun s w => s.wr w.1 w.2) (u.writing m') = v at hwrought hleft hsent
  have hwriting : u.writing m' = _ := writing_frame ((s.turned_moved kind f).trans (modCw_moved ..)) m'
  have hrx : v.cw.rx = held.erase m' ++ [{ m' with awaiting := true }] := (congrArg (·.cw.rx) hwrought.frame :)
  have hregs : (u.writing m').regs = s.regs := by rw [hwriting]
  have hstart : s.StageKept (u.writing m') [] := .same (congrArg State.staging hwriting :) (congrArg State.ue hwriting :)
  have hend : v.StageKept t [] := .same (congrArg State.staging hsent.frame :) (congrArg State.ue hsent.frame :)
  refine ⟨?_, htook, hsent.rx.trans hrx, ?_, fun w hw => ?_⟩
  · rw [hsent.frame, hwrought.frame, hwriting]
  · exact ((hstart.trans hregs hwrought.stage).trans (congrArg State.regs hwrought.frame :) hend).mono (by simp)
  · exact ((hleft w hw).mono hsent.moved.2).of_regs hregs

/-- One that is complete and not taken is refused, with an incident (R578, R625). -/
theorem land_refused (hstream : msgStream m' = some bs) (htakes : s.takes m' = false) (hcalm : s.calm) (hp : s.freePos = some p) :
    t.cw.rx = held.erase m' ∧ t.logged p 0x18 f.src 0 (msgNumber m') := by
  let u := (s.turned kind f).modCw fun c => { c with rx := held }
  obtain ⟨hsrc, -⟩ := hadds.of
  have hv := (deliver_turned hkind hchain hadds).trans (tryMsg_refused (s := u) hstream htakes)
  obtain ⟨hq, hlinks, hqrx⟩ := dropMsg_offered ((s.turned_moved kind f).trans (modCw_moved _ fun c => { c with rx := held })) m'
  change (u.offered m').dropMsg m' = _ at hq
  generalize hqe : (u.offered m').dropMsg m' = q at hv hq hlinks hqrx
  have hkept : LinksKept (s.turned kind f) (q.sendDone m' 1) :=
    ((LinksKept.refl _).step hlinks).queueAll (fs := [_]) |>.pump
  have hmoved := q.sendDone_moved m' 1
  have hrx := (q.rx_sendDone m' 1).trans hqrx
  generalize q.sendDone m' 1 = y at hv hkept hmoved hrx
  have hy : y = { s with wb := y.wb, cw := y.cw, out := y.out } := by
    have hwb : y.wb = q.wb := (congrArg State.wb hmoved.1 :)
    rw [hwb]
    exact hmoved.1.trans (congrArg (fun v => { v with cw := y.cw, out := y.out }) hq)
  have hycalm : y.calm := by
    rw [hy]
    exact hcalm
  have hyp : y.freePos = some p := by
    rw [hy]
    exact hp
  have hsource : (finding Src.mirror m'.src 0 (msgNumber m')).source ∉ repeating := show 0x18 ∉ repeating by decide
  obtain ⟨hkept', -⟩ := kept_incident_of_calm hycalm hyp (f := finding Src.mirror m'.src 0 (msgNumber m')) rfl hsource 7
  obtain ⟨-, hlogged⟩ := incident_of_calm hycalm hyp (f := finding Src.mirror m'.src 0 (msgNumber m')) rfl hsource 7
  have hland : t = (y.incident (finding Src.mirror m'.src 0 (msgNumber m')) 7).sendAck f.src false :=
    ht.symm.trans <| land_inTurn h (control_recordKinds hkind) hv (hkept.trans hkept') mem
  have hlast := Sent.sendAck (y.incident (finding Src.mirror m'.src 0 (msgNumber m')) 7) f.src false
  rw [← hland] at hlast
  rw [← hsrc]
  exact ⟨hlast.rx.trans ((rx_incident_of_calm hycalm hyp rfl hsource 7).trans hrx), logged_of_sent hlast hlogged⟩

end Complete
end State

-- The statement ------------------------------------------------------------------------------------------------------

/-- Settles O48: the message that a flit adds to is tried, and is kept, written or refused. -/
theorem protectionMessagesAreWritten : Obligations.ProtectionMessagesAreWritten := by
  intro s f mem l c kind hc hturn hchain under opening m' held hadds
  have hcommand : exec c s = .next (s.land kind f mem) ∧ kind ∈ State.recordKinds := by
    simp only [List.mem_cons, Prod.mk.injEq, List.not_mem_nil, or_false] at hc
    obtain ⟨rfl, rfl⟩ | ⟨rfl, rfl⟩ | ⟨rfl, rfl⟩ := hc <;> exact ⟨rfl, by decide⟩
  obtain ⟨hexec, hkind⟩ := hcommand
  have hadds' : State.Adds s.cw.rx f kind m' held := hadds
  refine ⟨fun hstream => ⟨_, hexec, State.land_incomplete hturn hkind hchain hadds' rfl hstream⟩,
    fun bs hstream htakes => ⟨_, hexec, State.land_written hturn hkind hchain hadds' rfl hstream htakes⟩,
    fun bs p hstream htakes hcalm hp => ⟨_, hexec, State.land_refused hturn hkind hchain hadds' rfl hstream htakes hcalm hp⟩⟩

end Sys2Proof.Machine
end
section
/-!
Dones as they come in (R579, R606, R623, R626): PARTNER's for a written set lets its group complete, its for journal records acknowledges
them.
-/
namespace Sys2Proof.Machine
open Sys2Proof

/-- What moves the causeway alone writes no entry. -/
theorem State.Wrote.of_moved {s t : State} (h : s.Moved t) : s.Wrote t [] where
  journal := by
    obtain ⟨hframe, l, hl⟩ := h
    have hwb : t.wb = s.wb := (congrArg State.wb hframe :)
    exact ⟨by simp [hwb, State.newRecs, entryRecs], fun _ => by rw [hwb], l, hl, fun _ hr => nomatch hr⟩
  stage := .same (congrArg State.staging h.1 :) (congrArg State.ue h.1 :)

/-- A member whose set PARTNER has written (R579). -/
def Member.mirrored (m : Member) : Member := { m with mirrorDone := true }

namespace State
variable {s u : State} {f : Flit} {l : Link} {g : Group} {m : Member} {mem : Image}

/-- A fenced block has no lane that is up (R654). -/
theorem fenced_of_laneUp {cd : Bool} {lane : Nat} (h : s.laneUp cd lane = true) : s.inc.fenced = false := by
  simp only [laneUp, portUp, Bool.and_eq_true, Bool.not_eq_true'] at h
  exact h.1.1.1.1.2

-- A done for a written set -------------------------------------------------------------------------------------------

theorem exec_mirrorDone (s : State) (f : Flit) (mem : Image) :
    exec (.mirrorDone f mem) s = .next (s.land 11 { f with offset := 0xFFFFFFFE } mem) := rfl

theorem deliver_mirrorDone (s : State) (f : Flit) (hoff : f.offset = 0xFFFFFFFE) : s.deliver 11 f = s.recvSetDone f := by
  simp [deliver, hoff]

/-- It marks the member whose set it answers, and the group is tried (R579). -/
theorem recvSetDone_of_only (h : s.only g m) (hsrc : f.src = s.partner) (hstatus : field f.payload 8 2 = 0) (hseq : m.seq = field f.payload 0 8)
    (hwrote : g.wrote = true) : s.recvSetDone f = (s.modMember m.seq Member.mirrored).tryFinish m.seq := by
  have hgroup := group?_of_only h
  rw [hseq] at hgroup ⊢
  simp only [recvSetDone, hsrc, hstatus, hgroup, hwrote]
  rfl

/-- A group whose own writes have not completed does not complete (R361, R579). -/
theorem tryFinish_of_unwritten (h : s.only g m) (hdead : g.dead = false) (hout : g.outDone = false) : s.tryFinish m.seq = s := by
  have hopen : s.finishable g = false := by simp [finishable, hdead, hout]
  simp only [tryFinish, group?_of_only h]
  by_cases hentered : entered g = true <;> simp [h.1, finishGo, hentered, hopen]

/-- One whose own writes have completed is as a control operation that is done (R361). -/
theorem tryFinish_of_written (h : s.only g m) (hout : g.outDone = true) : s.tryFinish m.seq = s.controlDone m.seq := by
  have hfinished : g.finished = g := by
    rw [Group.finished, ← hout]
  have hsame : s.modGroup m.seq Group.finished = s := by
    have hgroups := (only_modGroup_finished h).1
    rw [hfinished, ← h.1] at hgroups
    exact congrArg (fun gs => { s with groups := gs }) hgroups
  exact (congrArg (·.tryFinish m.seq) hsame).symm

/-- A milepost goes by nothing of the causeway and of the groups beside its own (R359). -/
theorem milepostBytes_of_frame {gs : List Group} {c : Cw} {o : List Out}
    (hframe : u = { s with groups := gs, cw := c, out := o }) (g : Group) (m : Member) :
    u.milepostBytes g m = s.milepostBytes g m := by
  rw [hframe]
  rfl

/-- The member of a descriptor that is alone in its block has its set written (R579). -/
theorem modMember_of_moved (h : s.only g m) (hu : s.Moved u) :
    u.modMember m.seq Member.mirrored = { s with groups := [{ g with members := [m.mirrored] }], cw := u.cw, out := u.out } ∧
      (u.modMember m.seq Member.mirrored).only { g with members := [m.mirrored] } m.mirrored := by
  obtain ⟨hframe, -⟩ := hu
  have hgroups : u.groups = s.groups := (congrArg State.groups hframe :)
  have honly := only_modMember (s := u) ⟨hgroups.trans h.1, h.2⟩ Member.mirrored
  refine ⟨?_, honly⟩
  have hmod : u.modMember m.seq Member.mirrored = { u with groups := [{ g with members := [m.mirrored] }] } :=
    congrArg (fun gs => { u with groups := gs }) honly.1
  rw [hmod]
  exact congrArg (fun v => { v with groups := [{ g with members := [m.mirrored] }] }) hframe

section SetDone
variable (h : s.inTurn f l) (hsrc : f.src = s.partner) (hstatus : field f.payload 8 2 = 0) (honly : s.only g m)
  (hseq : m.seq = field f.payload 0 8) (hdead : g.dead = false) (hwrote : g.wrote = true)
include hsrc hstatus honly hseq hwrote

/-- Its flit, in its turn, is delivered, and the group is tried with its member marked. -/
theorem deliver_turned_mirrorDone : (s.turned 11 { f with offset := 0xFFFFFFFE }).deliver 11 { f with offset := 0xFFFFFFFE } =
    ((s.turned 11 { f with offset := 0xFFFFFFFE }).modMember m.seq Member.mirrored).tryFinish m.seq := by
  have hmoved := s.turned_moved 11 { f with offset := 0xFFFFFFFE }
  generalize s.turned 11 { f with offset := 0xFFFFFFFE } = u at hmoved
  have hpartner : u.partner = s.partner := (congrArg State.partner hmoved.1 :)
  exact (deliver_mirrorDone u _ rfl).trans
    (recvSetDone_of_only ⟨(congrArg State.groups hmoved.1 :).trans honly.1, honly.2⟩ (hsrc.trans hpartner.symm) hstatus hseq hwrote)

include h

/-- So far the links are in their turn. -/
theorem land_mirrorDone (mem : Image) {v : State}
    (hv : ((s.turned 11 { f with offset := 0xFFFFFFFE }).modMember m.seq Member.mirrored).tryFinish m.seq = v)
    (hout : ∃ o, v.out = (s.turned 11 { f with offset := 0xFFFFFFFE }).out ++ o) :
    ∃ t, exec (.mirrorDone f mem) s = .next t ∧ Sent v t ∧ s.TookFlit t f := by
  have hdelivered := (deliver_turned_mirrorDone hsrc hstatus honly hseq hwrote).trans hv
  have hkept : LinksKept (s.turned 11 { f with offset := 0xFFFFFFFE }) v := hv ▸ ((LinksKept.refl _).modMember).tryFinish
  obtain ⟨hsent, htook⟩ := land_delivered (f := { f with offset := 0xFFFFFFFE }) h rfl hdelivered hkept hout mem
  exact ⟨_, exec_mirrorDone s f mem, hsent, htook.credit, htook.turn⟩

include hdead

/-- Before the writes of the group have completed only the member is marked. -/
theorem mirrorDone_waits (hout : g.outDone = false) (mem : Image) : ∃ t, exec (.mirrorDone f mem) s = .next t ∧
    t = { s with groups := [{ g with members := [m.mirrored] }], cw := t.cw, out := t.out } ∧ s.TookFlit t f := by
  have hmoved := s.turned_moved 11 { f with offset := 0xFFFFFFFE }
  obtain ⟨hframe, hmarked⟩ := modMember_of_moved honly hmoved
  obtain ⟨t, hexec, hsent, htook⟩ := land_mirrorDone h hsrc hstatus honly hseq hwrote mem
    (tryFinish_of_unwritten (g := { g with members := [m.mirrored] }) (m := m.mirrored) hmarked hdead hout)
    ⟨[], (List.append_nil _).symm⟩
  refine ⟨t, hexec, ?_, htook⟩
  rw [hsent.frame, hframe]

/-- After that its PUBLISHED entry is written (R579, R621). -/
theorem mirrorDone_publishes (hout : g.outDone = true) (hfresh : g.fresh m.mirrored) (mem : Image) :
    let b := s.milepostBytes { g with members := [m.mirrored] } m.mirrored
    ∃ t, exec (.mirrorDone f mem) s = .next t ∧ s.TookFlit t f ∧
      t = { s with groups := [{ g with members := [{ m.mirrored with milepost := some b, resv := m.resv - 2 }] }],
                   wb := t.wb, cw := t.cw, out := t.out, staging := t.staging, ue := t.ue, freeCtr := s.freeCtr + 1 } ∧
      s.Wrote t [⟨Ty.published, publishedParts b m.idx.toNat, .published m.seq⟩] := by
  intro b
  have hmoved := s.turned_moved 11 { f with offset := 0xFFFFFFFE }
  obtain ⟨hframe, hmarked⟩ := modMember_of_moved honly hmoved
  generalize hw : (s.turned 11 { f with offset := 0xFFFFFFFE }).modMember m.seq Member.mirrored = w at hframe hmarked
  have hwmoved : s.Wrote w [] := by
    have hmarks : (s.turned 11 { f with offset := 0xFFFFFFFE }).Wrote w [] := hw ▸ .of_same rfl rfl rfl rfl
    exact (Wrote.of_moved hmoved).of_writes hmarks (congrArg State.regs hmoved.1 :) (congrArg State.seals hmoved.1 :)
  have hwregs : w.regs = s.regs := (congrArg State.regs hframe :)
  have hwseals : w.seals = s.seals := (congrArg State.seals hframe :)
  have hb : w.milepostBytes { g with members := [m.mirrored] } m.mirrored = b := milepostBytes_of_frame hframe _ _
  have hfinished : ({ g with members := [m.mirrored] } : Group).finished = { g with members := [m.mirrored] } := by
    rw [Group.finished, ← hout]
  obtain ⟨hpublished, hentry⟩ := controlDone_publishes hmarked hfresh hdead ((congrArg (·.inc.fenced) hframe :).trans (fenced_of_laneUp h.1))
  have hends := tryFinish_of_written (m := m.mirrored) hmarked hout
  rw [hb] at hpublished hentry
  rw [hfinished] at hpublished
  obtain ⟨o, ho, -⟩ := hentry.journal.out
  have hwout : w.out = (s.turned 11 { f with offset := 0xFFFFFFFE }).out := by rw [← hw]; rfl
  obtain ⟨t, hexec, hsent, htook⟩ := land_mirrorDone h hsrc hstatus honly hseq hwrote mem ((congrArg (·.tryFinish m.seq) hw).trans hends)
    ⟨o, by rw [← hwout]; exact ho⟩
  refine ⟨t, hexec, htook, ?_, ?_⟩
  · rw [hsent.frame, hpublished, hframe]
    rfl
  · have hboth := hwmoved.of_writes hentry hwregs hwseals
    have hvregs := (congrArg State.regs hpublished :).trans hwregs
    have hvseals := (congrArg State.seals hpublished :).trans hwseals
    exact hboth.trans hvregs hvseals (.of_moved hsent.moved)

end SetDone

-- A done for journal records -----------------------------------------------------------------------------------------

theorem exec_waybookDone (s : State) (f : Flit) (mem : Image) :
    exec (.waybookDone f mem) s = .next (s.land 13 { f with offset := 0xFFFFFFFE } mem) := rfl

theorem deliver_waybookDone (s : State) (f : Flit) (hoff : f.offset = 0xFFFFFFFE) : s.deliver 13 f = s.recvWaybookDone f := by
  simp [deliver, hoff]

/-- Without a record that has its response nothing is reported (R606). -/
theorem report_of_no_response (h : ∀ r ∈ s.wb.recs, r.ok = false) : s.report = s := by
  cases hrecs : s.wb.recs with
  | nil => simp [report, hrecs, reportGo]
  | cons r rest => exact report_of_unanswered hrecs (h r (hrecs ▸ List.mem_cons_self ..))

/-- The journal once a message of records has its done: these are acknowledged (R606, R626). -/
def acknowledged (w : Wb) (x : Nat × Nat) : Wb :=
  let has := fun (n : Nat) => decide (x.1 ≤ n ∧ n ≤ x.2)
  let left := w.mirror.filter (fun r => !has r.1)
  { w with
    sent := w.sent.erase x, mirror := left, mirrorLost := w.mirrorLost && !left.isEmpty,
    recs := w.recs.map (fun r => if has r.rnum then { r with acked := true } else r) }

/-- The earliest message that a done with status 0 can be for is acknowledged (R606, R623). -/
theorem recvWaybookDone_of_sent {x : Nat × Nat} (hsrc : f.src = s.partner) (hstatus : field f.payload 8 2 = 0)
    (hx : s.wb.sent.find? (fun x => x.2 == field f.payload 0 8) = some x) (hopen : ∀ r ∈ s.wb.recs, r.ok = false) :
    s.recvWaybookDone f = { s with wb := acknowledged s.wb x } := by
  have hstill : ∀ r ∈ (acknowledged s.wb x).recs, r.ok = false := fun r hr => by
    obtain ⟨y, hy, rfl⟩ := List.mem_map.1 hr
    split
    · exact hopen y hy
    · exact hopen y hy
  have hreport : ({ s with wb := acknowledged s.wb x } : State).report = { s with wb := acknowledged s.wb x } := report_of_no_response hstill
  rw [← hreport]
  simp [recvWaybookDone, hx, hsrc, hstatus, acknowledged, modWb]

/-- Its flit, in its turn, changes the journal's records alone. -/
theorem waybookDone_acknowledges {x : Nat × Nat} (h : s.inTurn f l) (hsrc : f.src = s.partner) (hstatus : field f.payload 8 2 = 0)
    (hx : s.wb.sent.find? (fun x => x.2 == field f.payload 0 8) = some x) (hopen : ∀ r ∈ s.wb.recs, r.ok = false) (mem : Image) :
    ∃ t, exec (.waybookDone f mem) s = .next t ∧ s.TookFlit t f ∧ t = { s with cw := t.cw, out := t.out, wb := acknowledged s.wb x } := by
  have hmoved := s.turned_moved 13 { f with offset := 0xFFFFFFFE }
  have hv : (s.turned 13 { f with offset := 0xFFFFFFFE }).deliver 13 { f with offset := 0xFFFFFFFE } =
      { s.turned 13 { f with offset := 0xFFFFFFFE } with wb := acknowledged s.wb x } :=
    (deliver_waybookDone _ _ rfl).trans (recvWaybookDone_of_sent hsrc hstatus hx hopen)
  obtain ⟨hsent, htook⟩ := land_delivered (f := { f with offset := 0xFFFFFFFE }) h rfl hv ((LinksKept.refl _).step)
    ⟨[], (List.append_nil _).symm⟩ mem
  refine ⟨_, exec_waybookDone s f mem, ⟨htook.credit, htook.turn⟩, ?_⟩
  generalize s.land 13 { f with offset := 0xFFFFFFFE } mem = t at hsent
  exact hsent.frame.trans (congrArg (fun v => { v with cw := t.cw, out := t.out, wb := acknowledged s.wb x }) hmoved.1)

end State

-- The statement ------------------------------------------------------------------------------------------------------

/-- Settles O50: a done for a set by whether the group's own writes have completed, one for journal records by the message it answers. -/
theorem donesReleaseWhatTheyAnswer : Obligations.DonesReleaseWhatTheyAnswer := by
  intro s f mem l hturn hsrc hstatus
  refine ⟨fun g m honly hseq hdead hpub hwrote => ⟨fun hout => ?_, fun hout hfresh => ?_⟩, fun x hx hopen => ?_⟩
  · exact State.mirrorDone_waits hturn hsrc hstatus honly hseq hdead hwrote hout mem
  · exact State.mirrorDone_publishes hturn hsrc hstatus honly hseq hdead hwrote hout hfresh mem
  · exact State.waybookDone_acknowledges hturn hsrc hstatus hx hopen mem

end Sys2Proof.Machine
end
